-- ==== Sys2Proof/Word.lean ====
section
/-! DEFINITION. The word types of the block: bytes, 32-bit registers, 4-bit host ids. -/

namespace Sys2Proof

/-- One byte of a device image or of BUF. -/
abbrev Byte := BitVec 8

/-- One 32-bit register of the window (10_state.md R21). -/
abbrev Word := BitVec 32

/-- A host id HID, the 4-bit field [11:8] of a command word (30_encoding.md R100). -/
abbrev HostId := BitVec 4

/-- The erased value of a byte: every bit 1 (20_memory.md R62). -/
abbrev erasedByte : Byte := 0xFF

end Sys2Proof
end

