-- ==== Sys2Proof/Config.lean ====
section
/-! DEFINITION. What an instance of the block fixes (00_scope.md R7) and the free values the spec leaves open. -/

namespace Sys2Proof

/-- The legal widths of a state-mark word, W ∈ {1, 2, 4, 8} bytes (00_scope.md R7). -/
inductive MarkWidth where
  | w1 | w2 | w4 | w8
  deriving DecidableEq, Repr

/-- The width in bytes. -/
def MarkWidth.bytes : MarkWidth → Nat
  | .w1 => 1
  | .w2 => 2
  | .w4 => 4
  | .w8 => 8

/-- log2 of the width, the field [21:20] of MAGIC (30_encoding.md R116). -/
def MarkWidth.log2 : MarkWidth → Nat
  | .w1 => 0
  | .w2 => 1
  | .w4 => 2
  | .w8 => 3

/-- ERASE_GRANULE: how an interrupted or failed erase tears (20_memory.md R85). -/
inductive EraseGranule where
  | bit | sector
  deriving DecidableEq, Repr

/-- DEV_OVERWRITE: what a device does with a write that asks to set a bit which is 0 (20_memory.md R84). -/
inductive OverwriteRule where
  | fault | and | fail
  deriving DecidableEq, Repr

/-- The build-time parameters marked OPEN in 00_scope.md R7 and 92_eei_decisions.md section 7.
They stand in the state and no step changes them, so a statement about every state is one about every instance. -/
structure Params where
  /-- P, the FEE slot payload bytes. -/
  payload : Nat
  /-- W_F, the FEE mark word width. -/
  widthF : MarkWidth
  /-- W_M, the Mirror log entry width. -/
  widthM : MarkWidth
  /-- N_HOSTS. -/
  nHosts : Nat
  /-- LOCK_MAX. -/
  lockMax : Nat
  /-- BUF_BYTES. -/
  bufBytes : Nat
  /-- BLOCK_BASE, the platform's base address of the register window (10_state.md R20). -/
  blockBase : Nat
  /-- MARK_ATOMIC (20_memory.md R70). -/
  markAtomic : Bool
  /-- ERASE_GRANULE (20_memory.md R85). -/
  granule : EraseGranule
  /-- DEV_OVERWRITE (20_memory.md R84). -/
  overwrite : OverwriteRule
  deriving DecidableEq, Repr

/-- What DevGetInfo reports, constant for the life of a device (20_memory.md R61, R71). -/
structure DevInfo where
  /-- SS, the sector size. -/
  sectorSize : Nat
  /-- SN, the number of sectors. -/
  sectorNum : Nat
  /-- WA, the write alignment. -/
  writeAlign : Nat
  /-- ID, the identification bytes. -/
  ident : List Byte
  deriving DecidableEq, Repr

namespace Config

/-- The instance State.reset takes: the test platform of 95_test_vectors.md section 0.1, with the model defaults that
00_scope.md R7 names for MARK_ATOMIC, ERASE_GRANULE and DEV_OVERWRITE. DESIGN CHOICE, unsafe (assumption 1). -/
def defaultParams : Params where
  payload := 8
  widthF := .w4
  widthM := .w4
  nHosts := 4
  lockMax := 2
  bufBytes := 256
  blockBase := 0
  markAtomic := true
  granule := .bit
  overwrite := .fault

/-- DEV_M of 95_test_vectors.md section 0.1. DESIGN CHOICE, unsafe (assumption 1). -/
def defaultMirrorDevice : DevInfo where
  sectorSize := 64
  sectorNum := 5
  writeAlign := 4
  ident := [0x4D, 0x31]

/-- DEV_F of 95_test_vectors.md section 0.1. DESIGN CHOICE, unsafe (assumption 1). -/
def defaultFeeDevice : DevInfo where
  sectorSize := 128
  sectorNum := 2
  writeAlign := 4
  ident := [0x46, 0x31]

/-- Free value: whether a device operation answers ok, or DevAcquire grants, when the schedule names no answer
(93_implementation_defined.md I5, I6). Applied to the number of the draw. DESIGN CHOICE, safe (assumptions 5 and 10). -/
opaque freeDevOk : Nat → Bool

/-- Free value: the bits of a torn byte that take what an operation asked for (20_memory.md R67, R69).
Applied to the number of the draw, the operation's place in PENDING and the byte's address. -/
opaque freeTear : Nat → Nat → Nat → Byte

/-- Free value: BUF's content after a reset (93_implementation_defined.md I9). Applied to the reset's number and
the byte's offset. DESIGN CHOICE (assumption 3). -/
opaque freeBuf : Nat → Nat → Byte

/-- Free value: what a host read of BUF returns while a command runs (60_exceptions.md R321). DESIGN CHOICE, safe
(assumption 13). -/
opaque freeBusyRead : Nat → Word

/-- Free value: what a failed READ leaves in BUF (60_exceptions.md R304). Applied to the number of the draw and the
byte's offset. DEDUCED, safe (assumption 14). -/
opaque freeFailedRead : Nat → Nat → Byte

end Config

end Sys2Proof
end

