-- ==== Sys2Proof/Syntax.lean ====
section
/-! DEFINITION. The 24 commands of the block (30_encoding.md R100 to R104), one constructor for each row of the opcode table. -/

namespace Sys2Proof

/-- The two engines, the UNIT bit of a command word (30_encoding.md R102). -/
inductive UnitId where
  | mirror | fee
  deriving DecidableEq, Repr

/-- A command. Its only operand is the host id (30_encoding.md R105); addresses and lengths come from the latches. -/
inductive Instr where
  /-- MIRROR.INIT, 41_mirror.md R171. -/
  | mirrorInit (hid : HostId)
  /-- MIRROR.OBJECT_INIT, 41_mirror.md R172. -/
  | mirrorObjectInit (hid : HostId)
  /-- MIRROR.START, 41_mirror.md R173. -/
  | mirrorStart (hid : HostId)
  /-- MIRROR.STOP, 41_mirror.md R174. -/
  | mirrorStop (hid : HostId)
  /-- MIRROR.READ, 41_mirror.md R175. -/
  | mirrorRead (hid : HostId)
  /-- MIRROR.WRITE, 41_mirror.md R176. -/
  | mirrorWrite (hid : HostId)
  /-- MIRROR.ERASE, 41_mirror.md R177. -/
  | mirrorErase (hid : HostId)
  /-- MIRROR.MASS_ERASE, 41_mirror.md R178. -/
  | mirrorMassErase (hid : HostId)
  /-- MIRROR.SYNC, 41_mirror.md R179. -/
  | mirrorSync (hid : HostId)
  /-- MIRROR.GET_INFO, 41_mirror.md R180. -/
  | mirrorGetInfo (hid : HostId)
  /-- MIRROR.ACQUIRE_BUS, 41_mirror.md R181. -/
  | mirrorAcquireBus (hid : HostId)
  /-- MIRROR.RELEASE_BUS, 41_mirror.md R182. -/
  | mirrorReleaseBus (hid : HostId)
  /-- FEE.INIT, 42_fee.md R217. -/
  | feeInit (hid : HostId)
  /-- FEE.OBJECT_INIT, 42_fee.md R218. -/
  | feeObjectInit (hid : HostId)
  /-- FEE.START, 42_fee.md R219. -/
  | feeStart (hid : HostId)
  /-- FEE.STOP, 42_fee.md R220. -/
  | feeStop (hid : HostId)
  /-- FEE.READ, 42_fee.md R221. -/
  | feeRead (hid : HostId)
  /-- FEE.WRITE, 42_fee.md R222. -/
  | feeWrite (hid : HostId)
  /-- FEE.ERASE, 42_fee.md R223. -/
  | feeErase (hid : HostId)
  /-- FEE.MASS_ERASE, 42_fee.md R224. -/
  | feeMassErase (hid : HostId)
  /-- FEE.SYNC, 42_fee.md R225. -/
  | feeSync (hid : HostId)
  /-- FEE.GET_INFO, 42_fee.md R226. -/
  | feeGetInfo (hid : HostId)
  /-- FEE.ACQUIRE_BUS, 42_fee.md R227. -/
  | feeAcquireBus (hid : HostId)
  /-- FEE.RELEASE_BUS, 42_fee.md R228. -/
  | feeReleaseBus (hid : HostId)
  deriving DecidableEq, Repr

/-- The host id a command carries (30_encoding.md R103). -/
def Instr.hid : Instr → HostId
  | .mirrorInit h => h
  | .mirrorObjectInit h => h
  | .mirrorStart h => h
  | .mirrorStop h => h
  | .mirrorRead h => h
  | .mirrorWrite h => h
  | .mirrorErase h => h
  | .mirrorMassErase h => h
  | .mirrorSync h => h
  | .mirrorGetInfo h => h
  | .mirrorAcquireBus h => h
  | .mirrorReleaseBus h => h
  | .feeInit h => h
  | .feeObjectInit h => h
  | .feeStart h => h
  | .feeStop h => h
  | .feeRead h => h
  | .feeWrite h => h
  | .feeErase h => h
  | .feeMassErase h => h
  | .feeSync h => h
  | .feeGetInfo h => h
  | .feeAcquireBus h => h
  | .feeReleaseBus h => h

/-- The engine that runs a command (30_encoding.md R102). -/
def Instr.unit : Instr → UnitId
  | .mirrorInit _ => .mirror
  | .mirrorObjectInit _ => .mirror
  | .mirrorStart _ => .mirror
  | .mirrorStop _ => .mirror
  | .mirrorRead _ => .mirror
  | .mirrorWrite _ => .mirror
  | .mirrorErase _ => .mirror
  | .mirrorMassErase _ => .mirror
  | .mirrorSync _ => .mirror
  | .mirrorGetInfo _ => .mirror
  | .mirrorAcquireBus _ => .mirror
  | .mirrorReleaseBus _ => .mirror
  | .feeInit _ => .fee
  | .feeObjectInit _ => .fee
  | .feeStart _ => .fee
  | .feeStop _ => .fee
  | .feeRead _ => .fee
  | .feeWrite _ => .fee
  | .feeErase _ => .fee
  | .feeMassErase _ => .fee
  | .feeSync _ => .fee
  | .feeGetInfo _ => .fee
  | .feeAcquireBus _ => .fee
  | .feeReleaseBus _ => .fee

end Sys2Proof
end

