-- ==== Sys2Proof/Machine/State.lean ====
section
/-! DEFINITION. Everything the spec gives the machine, as plain data, and the machine right after reset. -/

namespace Sys2Proof.Machine

/-- A sparse byte memory: addresses strictly rising (see `Memory.wf`). -/
abbrev Memory := List Host.Cell

/-- The driver state DRV of a unit (10_state.md R31). -/
inductive DrvState where
  | uninit | stop | ready
  deriving DecidableEq, Repr

/-- mirror_state, the register M_STATE (10_state.md R32). -/
inductive MirrorState where
  | invalid | dirtyA | dirtyB | synced
  deriving DecidableEq, Repr

/-- The engine's belief about an arena's header, one field of F_ARENA_STATE (10_state.md R40). -/
inductive ArenaState where
  | invalid | unused | active | frozen
  deriving DecidableEq, Repr

/-- One of the two arenas of the FEE engine (42_fee.md R200). -/
inductive Arena where
  | a0 | a1
  deriving DecidableEq, Repr

/-- The result codes of STATUS.ERR; codes 8 to 15 are never produced (60_exceptions.md R300). -/
inductive ErrCode where
  | ok | illegal | locked | state | range | align | config | dev
  deriving DecidableEq, Repr

/-- STATUS (10_state.md R27); its reserved bits read 0 and are not held. -/
structure Status where
  busy : Bool
  done : Bool
  overrun : Bool
  err : ErrCode
  deriving DecidableEq, Repr

/-- A bus lock, M_LOCK or F_LOCK (10_state.md R35). -/
structure Lock where
  count : BitVec 8
  owner : HostId
  deriving DecidableEq, Repr

/-- A unit's device-info cache, cache_M or cache_F (10_state.md R43). -/
structure DevCache where
  sectorSize : Nat
  sectorNum : Nat
  writeAlign : Nat
  deriving DecidableEq, Repr

/-- A write or erase issued since the last successful DevSync, an entry of PENDING (20_memory.md R64, R65). -/
inductive PendOp where
  | write (addr : Nat) (data : List Byte)
  | erase (addr : Nat) (len : Nat)
  deriving DecidableEq, Repr

/-- An NVM device (20_memory.md R61 to R72): what it reports, its two images, its pending operations, and whether the
block holds its exclusive ownership. -/
structure Device where
  info : DevInfo
  /-- CUR, what reads return. -/
  cur : Memory
  /-- DUR, what survives a power loss. -/
  dur : Memory
  /-- PENDING, in issue order. -/
  pending : List PendOp
  owned : Bool
  deriving DecidableEq, Repr

/-- A device's draw for torn bits (20_memory.md R67, R69, R85): for each pending operation and byte address, the bits
that take what the operation asked for. Every draw is `listed` for some cells. -/
inductive Torn where
  /-- The listed (operation's place, address, bits); every other byte takes `rest`. -/
  | listed (cells : List (Nat × Nat × Byte)) (rest : Byte)
  /-- The free values `Config.freeTear` of one draw. -/
  | free (draw : Nat)
  deriving DecidableEq, Repr

/-- A device's answer to one operation (20_memory.md R63 to R66). For DevAcquire, `fail` says that ownership is still
withheld (20_memory.md R72). -/
inductive Draw where
  | ok
  | fail (t : Torn)
  deriving DecidableEq, Repr

/-- A power loss (60_exceptions.md R312): whether it strikes during the device operation about to be issued, and each
device's draw for its torn bits. -/
structure PowerCut where
  inFlight : Bool
  mirror : Torn
  fee : Torn
  deriving DecidableEq, Repr

/-- The width of a host access; `dword` is wider than any access the window takes (10_state.md R21). -/
inductive AccSize where
  | byte | half | word | dword
  deriving DecidableEq, Repr

/-- A host access to a platform bus address (10_state.md R20, R21). -/
inductive Access where
  | read (size : AccSize) (addr : Nat)
  | write (size : AccSize) (addr : Nat) (data : Word)
  deriving DecidableEq, Repr

/-- What the world outside the block does: a host makes an access, or power is lost (00_scope.md R9). -/
inductive Event where
  /-- The host `h` makes an access; hosts are numbered 0 to N_HOSTS - 1. -/
  | access (h : HostId) (a : Access)
  | powerLoss (c : PowerCut)
  deriving DecidableEq, Repr

/-- One item of the schedule of the outside world. DESIGN CHOICE, safe (assumption 4). -/
inductive Input where
  /-- An event that happens when no command runs. -/
  | idle (e : Event)
  /-- An event that happens at the next point of the running command: before its next device operation, before its next
  register change, or before its completion. -/
  | busy (e : Event)
  /-- The running command's next register change; what follows it happens at later points. -/
  | regStep
  /-- A device's answer to the next device operation. -/
  | dev (d : Draw)
  deriving DecidableEq, Repr

/-- What a device answers when the schedule names no answer. DESIGN CHOICE, safe (assumption 5). -/
inductive Tail where
  | allOk
  | free
  deriving DecidableEq, Repr

/-- The operand latches CUR_CMD, CUR_ADDR, CUR_LEN and CUR_CFG (10_state.md R42). -/
structure Latches where
  cmd : Word
  addr : Word
  len : Word
  cfg : Word
  deriving DecidableEq, Repr

/-- The four INFO registers (10_state.md R29). -/
structure InfoRegs where
  sectorSize : Word
  sectorNum : Word
  writeAlign : Word
  idLen : Word
  deriving DecidableEq, Repr

/-- The Mirror unit's bank and its cache (10_state.md R31 to R36, R43). -/
structure MirrorUnit where
  drv : DrvState
  /-- M_STATE. -/
  state : MirrorState
  /-- M_STATE_ADDR. -/
  stateAddr : Word
  /-- M_HDR_BYTES. -/
  hdrBytes : Word
  /-- M_SECTORS. -/
  sectors : Word
  /-- M_SIZE. -/
  size : Word
  /-- M_A_ORG. -/
  aOrg : Word
  /-- M_B_ORG. -/
  bOrg : Word
  lock : Lock
  recover : Bool
  cache : DevCache
  deriving DecidableEq, Repr

/-- The FEE unit's bank and its cache (10_state.md R31, R35 to R41, R43). -/
structure FeeUnit where
  drv : DrvState
  /-- F_ARENA_ACTIVE. -/
  active : Arena
  /-- F_SLOTS_USED. -/
  slotsUsed : Word
  /-- F_NUM_SLOTS. -/
  numSlots : Word
  /-- F_SLOT_SIZE. -/
  slotSize : Word
  /-- F_ARENA_BYTES. -/
  arenaBytes : Word
  /-- F_LOGICAL_SIZE. -/
  logicalSize : Word
  /-- F_ARENA_STATE, the field of arena 0. -/
  state0 : ArenaState
  /-- F_ARENA_STATE, the field of arena 1. -/
  state1 : ArenaState
  lock : Lock
  recover : Bool
  /-- F_GC_COUNT. -/
  gcCount : Word
  cache : DevCache
  deriving DecidableEq, Repr

/-- The whole machine: the register window (10_state.md R20 to R41), the engine's internal state (R42, R43), the two
devices (R44, R47), and the model's own fields `inputs`, `tail`, `draws`, `bufEpoch`, `replies` and `forgers`. -/
structure State where
  params : Params
  cmd : Word
  addr : Word
  len : Word
  cfg : Word
  status : Status
  /-- CTRL.IE. -/
  ie : Bool
  info : InfoRegs
  latch : Latches
  /-- The bytes of BUF written since the last reset, by offset; every other byte is a free value. -/
  buf : Memory
  /-- The model's own: how many resets there have been. -/
  bufEpoch : Nat
  m : MirrorUnit
  f : FeeUnit
  devM : Device
  devF : Device
  /-- The one position inside a command that outlives a step: an ACQUIRE_BUS that waits in DevAcquire, with its unit
  and host (10_state.md R49, 20_memory.md R72). -/
  waiting : Option (UnitId × HostId)
  /-- The model's own: what the outside world does next. -/
  inputs : List Input
  /-- The model's own: what devices answer after that. -/
  tail : Tail
  /-- The model's own: how many free values have been drawn. -/
  draws : Nat
  /-- The model's own: the data returned to host reads, newest first. -/
  replies : List Word
  /-- The model's own: the hosts that issued a command under another host's HID, newest first
  (93_implementation_defined.md I12). -/
  forgers : List HostId
  deriving DecidableEq, Repr

/-- Why the machine stops. None of these ends a run that keeps the spec's contract. -/
inductive Fault where
  /-- The host `h` made a misaligned or wrong-width access (10_state.md R21, 60_exceptions.md R321). Raised by the host
  port. Safe: the spec records a fault of the host. -/
  | hostBusError (h : HostId)
  /-- The host `h` wrote BUF while a command ran (60_exceptions.md R321, 70_reset_and_hazards.md R347). Raised by the
  host port. Safe: the spec records a fault of the host. -/
  | hostBufWrite (h : HostId)
  /-- A device write asked to set a bit that is 0, with DEV_OVERWRITE = fault (20_memory.md R84). Raised by DevWrite.
  Safe: the spec records a fault. -/
  | overwrite
  /-- A device operation outside the device's space or alignment (20_memory.md R63 to R65), which 20_memory.md R74 says
  the block never issues. Raised by the device primitives. DESIGN CHOICE, safe (assumption 15). -/
  | deviceContract
  /-- A transfer past BUF_BYTES, which the range checks exclude. Raised by the BUF operations. DESIGN CHOICE, safe
  (assumption 15). -/
  | bufferBounds
  deriving DecidableEq, Repr

/-- Why the model gives no answer. -/
inductive Refusal where
  /-- A command with no meaning yet. Raised by no arm of `exec`: every command has its meaning. Safe. -/
  | notModelled (mnemonic : String)
  deriving DecidableEq, Repr

/-- STATUS after reset (10_state.md R22). -/
def Status.reset : Status := ⟨false, false, false, .ok⟩

/-- A free lock (10_state.md R35). -/
def Lock.reset : Lock := ⟨0, 0⟩

/-- An empty device-info cache (10_state.md R51). -/
def DevCache.reset : DevCache := ⟨0, 0, 0⟩

/-- The latches after reset (10_state.md R51). -/
def Latches.reset : Latches := ⟨0, 0, 0, 0⟩

/-- The INFO registers after reset (10_state.md R22). -/
def InfoRegs.reset : InfoRegs := ⟨0, 0, 0, 0⟩

/-- The Mirror bank after reset (70_reset_and_hazards.md R341). -/
def MirrorUnit.reset : MirrorUnit where
  drv := .uninit
  state := .invalid
  stateAddr := 0
  hdrBytes := 0
  sectors := 0
  size := 0
  aOrg := 0
  bOrg := 0
  lock := .reset
  recover := false
  cache := .reset

/-- The FEE bank after reset (70_reset_and_hazards.md R341). -/
def FeeUnit.reset : FeeUnit where
  drv := .uninit
  active := .a0
  slotsUsed := 0
  numSlots := 0
  slotSize := 0
  arenaBytes := 0
  logicalSize := 0
  state0 := .invalid
  state1 := .invalid
  lock := .reset
  recover := false
  gcCount := 0
  cache := .reset

/-- A device that holds only erased bytes, with nothing pending and nobody inside the block owning it. -/
def Device.blank (info : DevInfo) : Device := ⟨info, [], [], [], false⟩

/-- The machine right after power-on reset: every register at the value of 10_state.md R22 and
70_reset_and_hazards.md R341. The spec leaves open the parameters (assumption 1), the device content (assumption 2),
BUF (assumption 3) and what the outside world does (assumptions 4 and 5). DESIGN CHOICE, unsafe. -/
def State.reset : State where
  params := Config.defaultParams
  cmd := 0
  addr := 0
  len := 0
  cfg := 0
  status := .reset
  ie := false
  info := .reset
  latch := .reset
  buf := []
  bufEpoch := 0
  m := .reset
  f := .reset
  devM := .blank Config.defaultMirrorDevice
  devF := .blank Config.defaultFeeDevice
  waiting := none
  inputs := []
  tail := .free
  draws := 0
  replies := []
  forgers := []

/-- The device on a unit's port (00_scope.md R13). -/
def State.dev (s : State) : UnitId → Device
  | .mirror => s.devM
  | .fee => s.devF

/-- Replace the device on a unit's port. -/
def State.setDev (s : State) (u : UnitId) (d : Device) : State :=
  match u with
  | .mirror => { s with devM := d }
  | .fee => { s with devF := d }

/-- LOCK_U (44_dispatch_and_lock.md R277). -/
def State.lock (s : State) : UnitId → Lock
  | .mirror => s.m.lock
  | .fee => s.f.lock

/-- Replace LOCK_U. -/
def State.setLock (s : State) (u : UnitId) (l : Lock) : State :=
  match u with
  | .mirror => { s with m := { s.m with lock := l } }
  | .fee => { s with f := { s.f with lock := l } }

/-- DRV of a unit (10_state.md R31). -/
def State.drv (s : State) : UnitId → DrvState
  | .mirror => s.m.drv
  | .fee => s.f.drv

/-- Replace DRV of a unit. -/
def State.setDrv (s : State) (u : UnitId) (d : DrvState) : State :=
  match u with
  | .mirror => { s with m := { s.m with drv := d } }
  | .fee => { s with f := { s.f with drv := d } }

/-- RECOVER of a unit (10_state.md R36). -/
def State.recover (s : State) : UnitId → Bool
  | .mirror => s.m.recover
  | .fee => s.f.recover

/-- Replace RECOVER of a unit. -/
def State.setRecover (s : State) (u : UnitId) (b : Bool) : State :=
  match u with
  | .mirror => { s with m := { s.m with recover := b } }
  | .fee => { s with f := { s.f with recover := b } }

/-- The mark width of a unit's device, W_M or W_F (20_memory.md R70). -/
def State.markWidth (s : State) : UnitId → MarkWidth
  | .mirror => s.params.widthM
  | .fee => s.params.widthF

/-- F_ARENA_STATE of one arena (10_state.md R40). -/
def FeeUnit.arenaState (f : FeeUnit) : Arena → ArenaState
  | .a0 => f.state0
  | .a1 => f.state1

/-- Replace F_ARENA_STATE of one arena. -/
def FeeUnit.setArenaState (f : FeeUnit) (a : Arena) (x : ArenaState) : FeeUnit :=
  match a with
  | .a0 => { f with state0 := x }
  | .a1 => { f with state1 := x }

end Sys2Proof.Machine
end

