-- ==== Sys2Proof/Machine/Memory.lean ====
section
/-! DEFINITION. Sparse byte memories in one canonical form, and the little-endian byte strings they carry. -/

namespace Sys2Proof.Machine

/-- The addresses rise strictly. -/
def Memory.rising : Memory → Bool
  | [] => true
  | [_] => true
  | (a, _) :: (b, y) :: m => decide (a < b) && Memory.rising ((b, y) :: m)

/-- The canonical form: addresses rise strictly and no cell holds the value `blank` that an unlisted address reads as.
A device image has `blank = some 0xFF` (20_memory.md R62). BUF has `blank = none`: an unlisted byte of BUF has no value
of its own but a free one (10_state.md R30). -/
def Memory.wf (blank : Option Byte) (m : Memory) : Bool :=
  Memory.rising m && m.all (fun c => decide (some c.2 ≠ blank))

/-- The listed value at an address. -/
def Memory.get? : Memory → Nat → Option Byte
  | [], _ => none
  | (k, v) :: m, a => if k = a then some v else Memory.get? m a

/-- List a value at an address, in place. -/
def Memory.insert (a : Nat) (b : Byte) : Memory → Memory
  | [] => [(a, b)]
  | (k, v) :: m =>
    if a < k then (a, b) :: (k, v) :: m
    else if a = k then (a, b) :: m
    else (k, v) :: Memory.insert a b m

/-- Write one byte, keeping the canonical form. -/
def Memory.put (blank : Option Byte) (m : Memory) (a : Nat) (b : Byte) : Memory :=
  if some b = blank then m.filter (fun c => c.1 != a) else Memory.insert a b m

/-- Write a byte string from an address upwards. -/
def Memory.putBytes (blank : Option Byte) (m : Memory) (a : Nat) : List Byte → Memory
  | [] => m
  | b :: bs => Memory.putBytes blank (Memory.put blank m a b) (a + 1) bs

/-- The device byte at an address; an unlisted one is erased (20_memory.md R62). -/
def Memory.byteAt (m : Memory) (a : Nat) : Byte := (m.get? a).getD erasedByte

/-- The device bytes [a, a+n). -/
def Memory.bytesAt (m : Memory) (a n : Nat) : List Byte :=
  (List.range n).map (fun i => m.byteAt (a + i))

/-- The cells of `inside` in [a, a+n) and those of `outside` elsewhere. -/
def Memory.splice (inside outside : Memory) (a n : Nat) : Memory :=
  outside.filter (fun c => decide (c.1 < a))
    ++ inside.filter (fun c => decide (a ≤ c.1 ∧ c.1 < a + n))
    ++ outside.filter (fun c => decide (a + n ≤ c.1))

/-- `fill(b, n)` (00_scope.md R11). -/
def fill (b : Byte) (n : Nat) : List Byte := List.replicate n b

/-- `le_bytes_n(v)` (00_scope.md R11, 20_memory.md R73). -/
def leBytes : Nat → Nat → List Byte
  | 0, _ => []
  | n + 1, v => BitVec.ofNat 8 v :: leBytes n (v / 256)

/-- `le_val(s)` (00_scope.md R11, 20_memory.md R73). -/
def leVal : List Byte → Nat
  | [] => 0
  | b :: bs => b.toNat + 256 * leVal bs

/-- `roundup(x, m)` (00_scope.md R10). -/
def roundup (x m : Nat) : Nat := (x + m - 1) / m * m

end Sys2Proof.Machine
end

