-- ==== Sys2Proof/Machine/Device.lean ====
section
/-! DEFINITION. The NVM devices: what their operations do to CUR, DUR and PENDING (20_memory.md R60 to R72, R84, R85). -/

namespace Sys2Proof.Machine

/-- How the bits of an interrupted or failed operation may fall: MARK_ATOMIC, ERASE_GRANULE, the unit's mark width and
the device's sector size (20_memory.md R70, R85). -/
structure TearRule where
  atomic : Bool
  granule : EraseGranule
  width : Nat
  sectorSize : Nat
  deriving DecidableEq, Repr

/-- The first address an operation covers. -/
def PendOp.addr : PendOp → Nat
  | .write a _ => a
  | .erase a _ => a

/-- How many bytes an operation covers. -/
def PendOp.len : PendOp → Nat
  | .write _ d => d.length
  | .erase _ n => n

/-- Whether two operations cover a byte in common (20_memory.md R70). -/
def PendOp.overlaps (x y : PendOp) : Bool :=
  decide (x.addr < y.addr + y.len ∧ y.addr < x.addr + x.len)

/-- The device's space is SS × SN bytes (20_memory.md R61). -/
def Device.bytes (d : Device) : Nat := d.info.sectorSize * d.info.sectorNum

/-- The bits of a drawn byte: operation's place in PENDING, then address. -/
def Torn.mask (t : Torn) (k a : Nat) : Byte :=
  match t with
  | .listed cells rest =>
    match cells.find? (fun c => c.1 == k && c.2.1 == a) with
    | some c => c.2.2
    | none => rest
  | .free n => Config.freeTear n k a

/-- All or nothing, by a drawn byte's bit 0. -/
def wholeMask (b : Byte) : Byte := if b.getLsbD 0 then 0xFF else 0

/-- Write `data` from an address upwards where the mask's bits are 1: such a bit keeps a 1 only if it had one
(20_memory.md R62, R64: the stored value is CUR & s). -/
def landWrite (mask : Nat → Byte) (m : Memory) (a : Nat) : List Byte → Memory
  | [] => m
  | b :: bs =>
    landWrite mask (m.put (some erasedByte) a (m.byteAt a &&& (b ||| ~~~ mask a))) (a + 1) bs

/-- Erase [a, a+n) where the mask's bits are 1: such a bit becomes 1 (20_memory.md R65). Unlisted bytes are erased already. -/
def landErase (mask : Nat → Byte) (m : Memory) (a n : Nat) : Memory :=
  m.filterMap (fun c =>
    if a ≤ c.1 ∧ c.1 < a + n then
      (if c.2 ||| mask c.1 = erasedByte then none else some (c.1, c.2 ||| mask c.1))
    else some c)

/-- Apply an operation where the mask's bits are 1. -/
def PendOp.land (op : PendOp) (mask : Nat → Byte) (m : Memory) : Memory :=
  match op with
  | .write a d => landWrite mask m a d
  | .erase a n => landErase mask m a n

/-- An operation that completes takes all its bits (20_memory.md R64, R65). -/
def PendOp.apply (op : PendOp) (m : Memory) : Memory := op.land (fun _ => 0xFF) m

/-- The bits that the k-th operation of PENDING takes under a draw, each bit on its own but for two exceptions. A write of
W bytes at a W-aligned address, with no other pending operation over its bytes, lands whole or not at all where
MARK_ATOMIC holds (20_memory.md R70). Under ERASE_GRANULE = sector each sector of an erase does (20_memory.md R85). An
arena header's 32 bytes, a span of erased log entries, and a mark at an address that is no multiple of W are neither
exception. DEDUCED (assumptions 25, 26 and 28). -/
def tearMask (r : TearRule) (t : Torn) (pending : List PendOp) (k : Nat) (op : PendOp) : Nat → Byte :=
  match op with
  | .write a d =>
    if r.atomic && d.length == r.width && a % r.width == 0 && (pending.eraseIdx k).all (fun o => !o.overlaps op) then
      fun _ => wholeMask (t.mask k a)
    else t.mask k
  | .erase _ _ =>
    match r.granule with
    | .bit => t.mask k
    | .sector => fun x => wholeMask (t.mask k (x / r.sectorSize * r.sectorSize))

/-- Replay the operations `ops`, whose first has place k, each taking the bits of the draw. -/
def settleFrom (r : TearRule) (t : Torn) (pending : List PendOp) : Nat → List PendOp → Memory → Memory
  | _, [], m => m
  | k, op :: ops, m => settleFrom r t pending (k + 1) ops (op.land (tearMask r t pending k op) m)

/-- An image in which every bit holds a value it has held since the last successful DevSync: DUR with each pending
operation landing where the draw says (20_memory.md R67, R69). DEDUCED (assumption 7). -/
def settle (r : TearRule) (t : Torn) (dur : Memory) (pending : List PendOp) : Memory :=
  settleFrom r t pending 0 pending dur

/-- Whether a write asks to set a bit that is 0 (20_memory.md R64). -/
def Device.overwrites (d : Device) (a : Nat) (data : List Byte) : Bool :=
  (d.cur.bytesAt a data.length).zip data |>.any (fun p => p.2 &&& ~~~ p.1 != 0)

/-- DevRead's contract: the range lies in the device (20_memory.md R63). -/
def Device.readable (d : Device) (a n : Nat) : Bool := decide (a + n ≤ d.bytes)

/-- DevWrite's contract (20_memory.md R64). -/
def Device.writable (d : Device) (a n : Nat) : Bool :=
  decide (a % d.info.writeAlign = 0 ∧ n % d.info.writeAlign = 0 ∧ a + n ≤ d.bytes)

/-- DevErase's contract (20_memory.md R65). -/
def Device.erasable (d : Device) (a n : Nat) : Bool :=
  decide (a % d.info.sectorSize = 0 ∧ n % d.info.sectorSize = 0 ∧ a + n ≤ d.bytes)

/-- A write or erase that answers ok (20_memory.md R64, R65). -/
def Device.perform (d : Device) (op : PendOp) : Device :=
  { d with cur := op.apply d.cur, pending := d.pending ++ [op] }

/-- A write or erase that answers fail: it stays pending, and its range takes drawn values (20_memory.md R69). -/
def Device.performFailed (r : TearRule) (t : Torn) (d : Device) (op : PendOp) : Device :=
  let pending := d.pending ++ [op]
  { d with cur := (settle r t d.dur pending).splice d.cur op.addr op.len, pending := pending }

/-- A DevSync that answers ok (20_memory.md R66). -/
def Device.synced (d : Device) : Device := { d with dur := d.cur, pending := [] }

/-- A device after a power loss and power return; its ownership is reset with the block
(20_memory.md R67, 70_reset_and_hazards.md R341). -/
def Device.afterPowerLoss (r : TearRule) (t : Torn) (d : Device) : Device :=
  { d with
    cur := settle r t d.dur d.pending
    dur := settle r t d.dur d.pending
    pending := []
    owned := false }

/-- The tear rule of a unit's device. -/
def State.tearRule (s : State) (u : UnitId) : TearRule where
  atomic := s.params.markAtomic
  granule := s.params.granule
  width := (s.markWidth u).bytes
  sectorSize := (s.dev u).info.sectorSize

/-- Power loss and power return with nothing in flight: each device resolves its pending operations, the running command
ends without completion, every register takes its reset value, and BUF takes new unspecified content
(60_exceptions.md R312, 70_reset_and_hazards.md R340, R341). -/
def State.powerLoss (s : State) (c : PowerCut) : State :=
  { State.reset with
    params := s.params
    devM := s.devM.afterPowerLoss (s.tearRule .mirror) c.mirror
    devF := s.devF.afterPowerLoss (s.tearRule .fee) c.fee
    bufEpoch := s.bufEpoch + 1
    inputs := s.inputs
    tail := s.tail
    draws := s.draws
    replies := s.replies
    forgers := s.forgers }

end Sys2Proof.Machine
end

