-- ==== Sys2Proof/Machine/Flags.lean ====
section
/-! DEFINITION. STATUS, CTRL, IRQ and the register encodings of the other fields (10_state.md R22 to R41). -/

namespace Sys2Proof.Machine

/-- The code of a result in STATUS.ERR (60_exceptions.md R300). -/
def ErrCode.code : ErrCode → Nat
  | .ok => 0
  | .illegal => 1
  | .locked => 2
  | .state => 3
  | .range => 4
  | .align => 5
  | .config => 6
  | .dev => 7

/-- DRV's encoding (10_state.md R31). -/
def DrvState.code : DrvState → Nat
  | .uninit => 0
  | .stop => 1
  | .ready => 2

/-- M_STATE's encoding (10_state.md R32). -/
def MirrorState.code : MirrorState → Nat
  | .invalid => 0
  | .dirtyA => 1
  | .dirtyB => 2
  | .synced => 3

/-- The encoding of a field of F_ARENA_STATE (10_state.md R40). -/
def ArenaState.code : ArenaState → Nat
  | .invalid => 0
  | .unused => 1
  | .active => 2
  | .frozen => 3

/-- F_ARENA_ACTIVE's encoding (10_state.md R37). -/
def Arena.index : Arena → Nat
  | .a0 => 0
  | .a1 => 1

/-- STATUS as a host reads it; reserved bits read 0 (10_state.md R21, R22, R27). -/
def Status.word (s : Status) : Word :=
  BitVec.ofNat 32 (s.busy.toNat + 2 * s.done.toNat + 4 * s.overrun.toNat + 256 * s.err.code)

/-- A host write to STATUS: DONE and OVERRUN are write-1-to-clear, everything else ignores it (10_state.md R27). -/
def Status.hostWrite (s : Status) (v : Word) : Status :=
  { s with done := s.done && !v.getLsbD 1, overrun := s.overrun && !v.getLsbD 2 }

/-- STATUS at a command's acceptance; OVERRUN is not changed (44_dispatch_and_lock.md R271). -/
def Status.accepted (s : Status) : Status := { s with busy := true, done := false, err := .ok }

/-- STATUS at a command's completion (44_dispatch_and_lock.md R276). -/
def Status.completed (s : Status) (e : ErrCode) : Status := { s with busy := false, done := true, err := e }

/-- STATUS at a rejected CMD write (44_dispatch_and_lock.md R270, 60_exceptions.md R320). -/
def Status.overrunSet (s : Status) : Status := { s with overrun := true }

/-- The interrupt output: level, with no state of its own (60_exceptions.md R311). -/
def State.irq (s : State) : Bool := s.ie && s.status.done

/-- M_LOCK or F_LOCK as a host reads it (10_state.md R22, R35). -/
def Lock.word (l : Lock) : Word := BitVec.ofNat 32 (l.count.toNat + 256 * l.owner.toNat)

/-- F_ARENA_STATE as a host reads it (10_state.md R40). -/
def FeeUnit.arenaStateWord (f : FeeUnit) : Word := BitVec.ofNat 32 (f.state0.code + 4 * f.state1.code)

/-- PARAM_W (10_state.md R22). -/
def paramW (p : Params) : Word :=
  BitVec.ofNat 32 (p.widthM.bytes + 16 * p.widthF.bytes + 256 * (p.nHosts - 1) + 4096 * p.lockMax)

end Sys2Proof.Machine
end

