-- ==== Sys2Proof/Machine/HostPort.lean ====
section
/-! DEFINITION. The register window: what a host access does (10_state.md R20 to R30, 60_exceptions.md R318 to R321). -/

namespace Sys2Proof.Machine

/-- The registers of the map (10_state.md R22). -/
inductive Reg where
  | cmd | addr | len | cfg | status | ctrl
  | infoSectorSize | infoSectorNum | infoWriteAlign | infoIdLen
  | paramW | paramP | paramBuf
  | mDrv | mState | mStateAddr | mHdrBytes | mSectors | mSize | mAOrg | mBOrg | mLock | mFlags
  | fDrv | fArenaActive | fSlotsUsed | fNumSlots | fSlotSize | fArenaBytes | fLogicalSize | fArenaState
  | fLock | fFlags | fGcCount
  deriving DecidableEq, Repr

/-- The register at an aligned offset; every other offset below 0x1000 is unmapped (10_state.md R20, R22). -/
def regAt : Nat → Option Reg
  | 0x000 => some .cmd
  | 0x004 => some .addr
  | 0x008 => some .len
  | 0x00C => some .cfg
  | 0x010 => some .status
  | 0x014 => some .ctrl
  | 0x018 => some .infoSectorSize
  | 0x01C => some .infoSectorNum
  | 0x020 => some .infoWriteAlign
  | 0x024 => some .infoIdLen
  | 0x028 => some .paramW
  | 0x02C => some .paramP
  | 0x030 => some .paramBuf
  | 0x040 => some .mDrv
  | 0x044 => some .mState
  | 0x048 => some .mStateAddr
  | 0x04C => some .mHdrBytes
  | 0x050 => some .mSectors
  | 0x054 => some .mSize
  | 0x058 => some .mAOrg
  | 0x05C => some .mBOrg
  | 0x060 => some .mLock
  | 0x064 => some .mFlags
  | 0x080 => some .fDrv
  | 0x084 => some .fArenaActive
  | 0x088 => some .fSlotsUsed
  | 0x08C => some .fNumSlots
  | 0x090 => some .fSlotSize
  | 0x094 => some .fArenaBytes
  | 0x098 => some .fLogicalSize
  | 0x09C => some .fArenaState
  | 0x0A0 => some .fLock
  | 0x0A4 => some .fFlags
  | 0x0A8 => some .fGcCount
  | _ => none

/-- What a host reads from a register; no read has a side effect on the block (10_state.md R22, 20_memory.md R76). -/
def State.readReg (s : State) : Reg → Word
  | .cmd => s.cmd
  | .addr => s.addr
  | .len => s.len
  | .cfg => s.cfg
  | .status => s.status.word
  | .ctrl => BitVec.ofNat 32 s.ie.toNat
  | .infoSectorSize => s.info.sectorSize
  | .infoSectorNum => s.info.sectorNum
  | .infoWriteAlign => s.info.writeAlign
  | .infoIdLen => s.info.idLen
  | .paramW => Sys2Proof.Machine.paramW s.params
  | .paramP => BitVec.ofNat 32 s.params.payload
  | .paramBuf => BitVec.ofNat 32 s.params.bufBytes
  | .mDrv => BitVec.ofNat 32 s.m.drv.code
  | .mState => BitVec.ofNat 32 s.m.state.code
  | .mStateAddr => s.m.stateAddr
  | .mHdrBytes => s.m.hdrBytes
  | .mSectors => s.m.sectors
  | .mSize => s.m.size
  | .mAOrg => s.m.aOrg
  | .mBOrg => s.m.bOrg
  | .mLock => s.m.lock.word
  | .mFlags => BitVec.ofNat 32 s.m.recover.toNat
  | .fDrv => BitVec.ofNat 32 s.f.drv.code
  | .fArenaActive => BitVec.ofNat 32 s.f.active.index
  | .fSlotsUsed => s.f.slotsUsed
  | .fNumSlots => s.f.numSlots
  | .fSlotSize => s.f.slotSize
  | .fArenaBytes => s.f.arenaBytes
  | .fLogicalSize => s.f.logicalSize
  | .fArenaState => s.f.arenaStateWord
  | .fLock => s.f.lock.word
  | .fFlags => BitVec.ofNat 32 s.f.recover.toNat
  | .fGcCount => s.f.gcCount

/-- What a host write to a register does, less the acceptance of a command: a CMD write that reaches this function is
one that a running command rejects, which sets OVERRUN (44_dispatch_and_lock.md R270). Read-only registers and reserved
bits ignore writes (10_state.md R21). -/
def State.writeReg (s : State) (r : Reg) (v : Word) : State :=
  match r with
  | .cmd => { s with status := s.status.overrunSet }
  | .addr => { s with addr := v }
  | .len => { s with len := v }
  | .cfg => { s with cfg := v }
  | .status => { s with status := s.status.hostWrite v }
  | .ctrl => { s with ie := v.getLsbD 0 }
  | _ => s

/-- The width of an access in bytes. -/
def AccSize.bytes : AccSize → Nat
  | .byte => 1
  | .half => 2
  | .word => 4
  | .dword => 8

/-- The platform bus address of an access. -/
def Access.addr : Access → Nat
  | .read _ a => a
  | .write _ a _ => a

/-- The width of an access. -/
def Access.size : Access → AccSize
  | .read z _ => z
  | .write z _ _ => z

/-- The window offset of a platform bus address, if it lies in the window (10_state.md R20). -/
def windowOffset (p : Params) (a : Nat) : Option Nat :=
  if p.blockBase ≤ a ∧ a < p.blockBase + 0x10000 then some (a - p.blockBase) else none

/-- Offset of BUF[0] (10_state.md R20). -/
def bufBase : Nat := 0x1000

/-- Whether an access of `n` bytes at an offset touches a register. -/
def touchesReg (off n : Nat) : Bool := (List.range n).any (fun i => (regAt ((off + i) / 4 * 4)).isSome)

/-- Whether an access of `n` bytes at an offset touches BUF. -/
def touchesBuf (p : Params) (off n : Nat) : Bool := decide (off < bufBase + p.bufBytes ∧ bufBase < off + n)

/-- BUF[i]: the byte written since the last reset, else a free value that stays the same until the next reset
(10_state.md R30, 93_implementation_defined.md I9). -/
def State.bufByte (s : State) (i : Nat) : Byte := (s.buf.get? i).getD (Config.freeBuf s.bufEpoch i)

/-- BUF[i..i+n). -/
def State.bufBytes (s : State) (i n : Nat) : List Byte := (List.range n).map (fun k => s.bufByte (i + k))

/-- BUF[i..) takes a byte string. -/
def State.setBuf (s : State) (i : Nat) (bs : List Byte) : State := { s with buf := s.buf.putBytes none i bs }

/-- The bus returns data to a host read. DESIGN CHOICE, safe (assumption 12). -/
def State.reply (s : State) (w : Word) : State := { s with replies := w :: s.replies }

/-- A host's aligned 32-bit access to a register (10_state.md R21, R22). -/
def regAccess (r : Reg) (a : Access) (s : State) : State :=
  match a with
  | .read _ _ => s.reply (s.readReg r)
  | .write _ _ v => s.writeReg r v

/-- A naturally aligned access of host h to BUF at index i, little-endian (10_state.md R21). While a command runs, a read
returns a free value and a write is the host's fault (60_exceptions.md R321, 70_reset_and_hazards.md R347). -/
def bufAccess (running : Bool) (h : HostId) (i : Nat) (a : Access) (s : State) : Except Fault State :=
  match a, running with
  | .read z _, false => .ok (s.reply (BitVec.ofNat 32 (leVal (s.bufBytes i z.bytes))))
  | .read _ _, true => .ok { s.reply (Config.freeBusyRead s.draws) with draws := s.draws + 1 }
  | .write z _ v, false => .ok (s.setBuf i (leBytes z.bytes v.toNat))
  | .write _ _ _, true => .error (.hostBufWrite h)

/-- A host access to an offset that is neither a register nor BUF (10_state.md R21). -/
def unmappedAccess (a : Access) (s : State) : State :=
  match a with
  | .read _ _ => s.reply 0
  | .write _ _ _ => s

/-- What an access of host h does, less the acceptance of a command (10_state.md R20, R21). `running` says whether a command
runs. An access outside the window is not the block's. DEDUCED, safe (assumption 11). -/
def hostAccess (running : Bool) (h : HostId) (a : Access) (s : State) : Except Fault State :=
  match windowOffset s.params a.addr with
  | none => .ok s
  | some off =>
    if touchesReg off a.size.bytes then
      match a.size, regAt off with
      | .word, some r => .ok (regAccess r a s)
      | _, _ => .error (.hostBusError h)
    else if touchesBuf s.params off a.size.bytes then
      if a.size.bytes ≤ 4 ∧ off % a.size.bytes = 0 then bufAccess running h (off - bufBase) a s
      else .error (.hostBusError h)
    else .ok (unmappedAccess a s)

/-- A host whose own number is not the HID of the command it issues forges it. The block cannot see that, so the command
runs all the same; the fault is the host's, and the model records it (30_encoding.md R103,
93_implementation_defined.md I12). -/
def State.recordHost (s : State) (h hid : HostId) : State :=
  if h = hid then s else { s with forgers := h :: s.forgers }

/-- Whether the platform has a host with this number: hosts are numbered 0 to N_HOSTS - 1 (00_scope.md R9). -/
def hasHost (p : Params) (h : HostId) : Bool := decide (h.toNat < p.nHosts)

/-- An access while a command runs, or one that issues no command. A number that no host has makes no access
(assumption 23). -/
def State.hostEvent (s : State) (running : Bool) (h : HostId) (a : Access) : Except Fault State :=
  if hasHost s.params h then hostAccess running h a s else .ok s

/-- The word of an access that is an aligned 32-bit write to CMD (10_state.md R23). -/
def commandWrite (p : Params) (a : Access) : Option Word :=
  match a with
  | .write .word addr w => if windowOffset p addr = some 0 then some w else none
  | _ => none

end Sys2Proof.Machine
end

