-- ==== Sys2Proof/Machine/Operands.lean ====
section
/-! DEFINITION. Where commands take their operands from (30_encoding.md R105) and the layout offsets that depend on the
parameters (30_encoding.md R112 to R118). -/

namespace Sys2Proof.Machine

/-- `addr = CUR_ADDR` of READ, WRITE and ERASE (30_encoding.md R105). -/
def State.opAddr (s : State) : Nat := s.latch.addr.toNat

/-- `n = CUR_LEN` of READ, WRITE and ERASE (30_encoding.md R105). -/
def State.opLen (s : State) : Nat := s.latch.len.toNat

/-- `header_sector_count = CUR_CFG` of MIRROR.START (30_encoding.md R105). -/
def State.opCfg (s : State) : Nat := s.latch.cfg.toNat

/-- NE, the number of log entries of the Mirror header (30_encoding.md R112). -/
def State.logEntries (s : State) : Nat := s.m.hdrBytes.toNat / s.params.widthM.bytes

/-- Offset of mark0 in an arena header (30_encoding.md R115). -/
def headerMark0 (w : MarkWidth) : Nat := max 4 w.bytes

/-- Offset of mark1 in an arena header (30_encoding.md R115). -/
def headerMark1 (w : MarkWidth) : Nat := headerMark0 w + w.bytes

/-- OA, the offset of the key in a slot record (30_encoding.md R117). -/
def slotKeyOffset (w : MarkWidth) : Nat := roundup (2 * w.bytes) 4

/-- OPL, the offset of the payload in a slot record (30_encoding.md R117). -/
def slotPayloadOffset (w : MarkWidth) : Nat := slotKeyOffset w + 4

/-- F_SLOT_SIZE of a mark width and a payload size (30_encoding.md R117). -/
def slotBytes (w : MarkWidth) (payload : Nat) : Nat := roundup (slotPayloadOffset w + payload) (max w.bytes 4)

/-- MAGIC (30_encoding.md R116). -/
def magic (p : Params) : Nat := 0xFE000000 ||| (p.widthF.log2 <<< 20) ||| p.payload

/-- The device offset of an arena's header, a × F_ARENA_BYTES (30_encoding.md R115). -/
def FeeUnit.arenaBase (f : FeeUnit) (a : Arena) : Nat := a.index * f.arenaBytes.toNat

/-- SlotBase(a, i) (30_encoding.md R118). -/
def FeeUnit.slotBase (f : FeeUnit) (a : Arena) (i : Nat) : Nat := f.arenaBase a + 32 + i * f.slotSize.toNat

/-- The other arena. -/
def Arena.other : Arena → Arena
  | .a0 => .a1
  | .a1 => .a0

end Sys2Proof.Machine
end

