-- ==== Sys2Proof/Machine/Ops.lean ====
section
/-! DEFINITION. The named operations every command is made of: the engine's procedures, the points at which the outside
world acts, the device primitives, raising an error, acceptance, the checks, completion, and the bus lock. -/

namespace Sys2Proof.Machine

/-- How a procedure of the engine ends early. -/
inductive Stop where
  /-- `raise E` (00_scope.md R14). -/
  | raised (e : ErrCode)
  /-- Power was lost; the state is the one after power return (60_exceptions.md R312). -/
  | powerLost
  /-- DevAcquire waits: the command stays BUSY (20_memory.md R72). -/
  | waiting
  /-- A fault of the model. -/
  | fault (f : Fault)
  deriving DecidableEq, Repr

/-- A procedure of the engine: the state changes made before an early end stay (00_scope.md R14). -/
abbrev Proc := EStateM Stop State

/-- The outcome of a step of the machine. -/
abbrev StepOutcome := Host.Outcome State Fault Refusal

/-- `raise E()` (00_scope.md R14). -/
def raise {α : Type} (e : ErrCode) : Proc α := throw (.raised e)

/-- `raise E()` unless the condition holds. -/
def require (e : ErrCode) (c : Bool) : Proc Unit := if c then pure () else raise e

/-- A fault of the model unless the condition holds. -/
def contract (f : Fault) (c : Bool) : Proc Unit := if c then pure () else throw (.fault f)

/-! ### The points at which the outside world acts -/

/-- Power is lost during a device operation: with it issued where `op` says so (60_exceptions.md R312). An operation
issued so joins PENDING and tears with the rest. -/
def State.cutPower (s : State) (op : Option (UnitId × PendOp)) (c : PowerCut) : State :=
  match op, c.inFlight with
  | some (u, o), true => (s.setDev u { s.dev u with pending := (s.dev u).pending ++ [o] }).powerLoss c
  | _, _ => s.powerLoss c

/-- Whether the operation in flight is one that DEV_OVERWRITE = fault makes a fault (20_memory.md R84). -/
def State.overwriteFault (s : State) (op : Option (UnitId × PendOp)) : Bool :=
  match op with
  | some (u, .write a data) => s.params.overwrite == .fault && (s.dev u).overwrites a data
  | _ => false

/-- The events that the schedule places before the engine's next move: host accesses while BUSY = 1, or a power loss
(44_dispatch_and_lock.md R270, R275; 60_exceptions.md R312). `op` is the write or erase about to be issued. -/
def takeEvents (op : Option (UnitId × PendOp)) : List Input → State → EStateM.Result Stop State Unit
  | .busy (.access h a) :: rest, s =>
    match s.hostEvent true h a with
    | .ok s' => takeEvents op rest s'
    | .error f => .error (.fault f) { s with inputs := rest }
  | .busy (.powerLoss c) :: rest, s =>
    if c.inFlight && s.overwriteFault op then .error (.fault .overwrite) { s with inputs := rest }
    else .error .powerLost (State.cutPower { s with inputs := rest } op c)
  | rest, s => .ok () { s with inputs := rest }

/-- A point of the running command at which the outside world acts. -/
def point (op : Option (UnitId × PendOp)) : Proc Unit := fun s => takeEvents op s.inputs s

/-- The schedule's mark of a register change is used up by one. -/
def State.dropRegStep (s : State) : State :=
  match s.inputs with
  | .regStep :: rest => { s with inputs := rest }
  | _ => s

/-- One register of the block changes. A host that reads it before, between two such changes, or after, sees the value of
that instant (60_exceptions.md R318). -/
def change (f : State → State) : Proc Unit := do
  point none
  modify fun s => f s.dropRegStep

/-- Registers of the Mirror bank change, one after the other. -/
def mirrorRegs : List (MirrorUnit → MirrorUnit) → Proc Unit
  | [] => return ()
  | g :: gs => do
    change fun s => { s with m := g s.m }
    mirrorRegs gs

/-- Registers of the FEE bank change, one after the other. -/
def feeRegs : List (FeeUnit → FeeUnit) → Proc Unit
  | [] => return ()
  | g :: gs => do
    change fun s => { s with f := g s.f }
    feeRegs gs

/-- DRV of a unit changes. -/
def changeDrv (u : UnitId) (d : DrvState) : Proc Unit := change fun s => s.setDrv u d

/-- INFO registers change, one after the other. -/
def infoRegs : List (InfoRegs → InfoRegs) → Proc Unit
  | [] => return ()
  | g :: gs => do
    change fun s => { s with info := g s.info }
    infoRegs gs

/-- The device's answer: the schedule's, else what `tail` says, a free draw included (93_implementation_defined.md I5). -/
def answer : Proc Draw := fun s =>
  match s.inputs with
  | .dev d :: rest => .ok d { s with inputs := rest }
  | _ =>
    match s.tail with
    | .allOk => .ok .ok s
    | .free =>
      .ok (if Config.freeDevOk s.draws then .ok else .fail (.free s.draws)) { s with draws := s.draws + 1 }

/-! ### Device primitives (00_scope.md R13, 20_memory.md R63 to R72). Those below with a result raise DeviceError
(60_exceptions.md R304) where the device answers fail: every use in the engines carries the `!`. -/

/-- `DevRead!(addr, n)` (20_memory.md R63). -/
def devRead (u : UnitId) (a n : Nat) : Proc (List Byte) := do
  contract .deviceContract (((← get).dev u).readable a n)
  point none
  match ← answer with
  | .ok => return ((← get).dev u).cur.bytesAt a n
  | .fail _ => raise .dev

/-- The device performs a write or erase, or fails it (20_memory.md R64, R65, R69). -/
def performOp (u : UnitId) (op : PendOp) (d : Draw) : Proc Unit := do
  let s ← get
  match d with
  | .ok => set (s.setDev u ((s.dev u).perform op))
  | .fail t =>
    set (s.setDev u ((s.dev u).performFailed (s.tearRule u) t op))
    raise .dev

/-- A write that asks to set a 0 bit, by DEV_OVERWRITE (20_memory.md R84). Under `fail` it always fails; where the
schedule draws no torn bits for it, they are free values. DEDUCED (assumption 9). -/
def overwriteOp (u : UnitId) (op : PendOp) (d : Draw) : Proc Unit := do
  let s ← get
  match s.params.overwrite, d with
  | .fault, _ => throw (.fault .overwrite)
  | .and, _ => performOp u op .ok
  | .fail, .fail t => performOp u op (.fail t)
  | .fail, .ok =>
    set { s with draws := s.draws + 1 }
    performOp u op (.fail (.free s.draws))

/-- `DevWrite!(addr, len(data), data)` (20_memory.md R64, R84). -/
def devWrite (u : UnitId) (a : Nat) (data : List Byte) : Proc Unit := do
  contract .deviceContract (((← get).dev u).writable a data.length)
  point (some (u, .write a data))
  let d ← answer
  if ((← get).dev u).overwrites a data then overwriteOp u (.write a data) d
  else performOp u (.write a data) d

/-- `DevErase!(addr, n)` (20_memory.md R65). -/
def devErase (u : UnitId) (a n : Nat) : Proc Unit := do
  contract .deviceContract (((← get).dev u).erasable a n)
  point (some (u, .erase a n))
  performOp u (.erase a n) (← answer)

/-- `DevSync!()` (20_memory.md R66). -/
def devSync (u : UnitId) : Proc Unit := do
  point none
  match ← answer with
  | .ok => modify fun s => s.setDev u (s.dev u).synced
  | .fail _ => raise .dev

/-- `DevGetInfo()`, which cannot fail (20_memory.md R71). -/
def devGetInfo (u : UnitId) : Proc DevInfo := do
  return ((← get).dev u).info

/-- WriteMarkWord(dev, addr, value) (40_codec.md R145). The address is the caller's: it is a multiple of W but for FEE marks
of arena 1 on some devices. DEDUCED (assumption 28). -/
def writeMarkWord (u : UnitId) (a value : Nat) : Proc Unit := do
  devWrite u a (leBytes ((← get).markWidth u).bytes value)
  devSync u

/-! ### BUF as a command's source and destination (10_state.md R30) -/

/-- BUF[0..n) as a command reads it, at the moment it reads it (70_reset_and_hazards.md R347). -/
def bufLoad (n : Nat) : Proc (List Byte) := do
  let s ← get
  contract .bufferBounds (decide (n ≤ s.params.bufBytes))
  return s.bufBytes 0 n

/-- BUF[0..len) takes a command's result. While BUSY a host's read of BUF returns a free value, so this is no instant that
a host could tell (60_exceptions.md R321). -/
def bufStore (bs : List Byte) : Proc Unit := do
  contract .bufferBounds (decide (bs.length ≤ (← get).params.bufBytes))
  modify fun s => s.setBuf 0 bs

/-- The INFO registers and BUF take what GET_INFO reports (41_mirror.md R180, 42_fee.md R226). -/
def reportInfo (ss sn wa : Word) (ident : List Byte) : Proc Unit := do
  infoRegs [fun i => { i with sectorSize := ss }, fun i => { i with sectorNum := sn },
    fun i => { i with writeAlign := wa }]
  bufStore ident
  infoRegs [fun i => { i with idLen := BitVec.ofNat 32 ident.length }]

/-- What a READ that fails in the device leaves in BUF[0..n): a free value in every byte (60_exceptions.md R304,
93_implementation_defined.md I10). -/
def State.scrambleBuf (s : State) (n : Nat) : State :=
  { s.setBuf 0 ((List.range n).map (Config.freeFailedRead s.draws)) with draws := s.draws + 1 }

/-- Run the device part of a READ of n bytes (10_state.md R30, 60_exceptions.md R304). -/
def guardRead (n : Nat) (p : Proc Unit) : Proc Unit := fun s =>
  match p s with
  | .error (.raised .dev) s' => .error (.raised .dev) (s'.scrambleBuf n)
  | r => r

/-! ### Acceptance, checks, completion -/

/-- Acceptance latches the command and its operands (44_dispatch_and_lock.md R271). -/
def State.accept (s : State) (w : Word) : State :=
  { s with
    cmd := w
    latch := ⟨w, s.addr, s.len, s.cfg⟩
    status := s.status.accepted }

/-- Completion with a result code; reporting an error is this step with a code other than OK
(44_dispatch_and_lock.md R276, 60_exceptions.md R309). -/
def State.complete (s : State) (e : ErrCode) : State := { s with status := s.status.completed e }

/-- The way out of a reported error: a host clears DONE by writing 1 to STATUS bit 1. There is no return from an
exception (60_exceptions.md R310). -/
def State.clearDone (s : State) : State := { s with status := s.status.hostWrite 2 }

/-- The command ends with a result: after the events the schedule places before its completion, it completes
(44_dispatch_and_lock.md R276). A power loss before completion is not a completion (60_exceptions.md R312). -/
def finish (e : ErrCode) (s : State) : StepOutcome :=
  match point none s with
  | .ok _ s' => .next (s'.complete e)
  | .error (.fault f) _ => .fault f
  | .error _ s' => .next s'

/-- RECOVER after a raise: set where a device operation failed in START, WRITE, ERASE or MASS_ERASE
(10_state.md R36, 60_exceptions.md R304). -/
def State.afterRaise (s : State) (u : UnitId) (mutating : Bool) (e : ErrCode) : State :=
  if mutating && e == .dev then s.setRecover u true else s

/-- How a command's procedure ends the command (44_dispatch_and_lock.md R275, R276). -/
def conclude (u : UnitId) (mutating : Bool) (r : EStateM.Result Stop State Unit) : StepOutcome :=
  match r with
  | .ok _ s => finish .ok s
  | .error (.raised e) s => finish e (s.afterRaise u mutating e)
  | .error .powerLost s => .next s
  | .error .waiting s => .next s
  | .error (.fault f) _ => .fault f

/-- Whether another host holds the unit's lock (44_dispatch_and_lock.md R273). -/
def State.lockedOut (s : State) (u : UnitId) (h : HostId) : Bool :=
  decide (0 < (s.lock u).count) && (s.lock u).owner != h

/-- A command of unit u by host h, after its acceptance and decoding: the lock check, then its procedure, whose first
step is its state check (44_dispatch_and_lock.md R273 to R276). `mutating` holds for START, WRITE, ERASE and
MASS_ERASE. -/
def runCommand (u : UnitId) (h : HostId) (mutating : Bool) (body : Proc Unit) (s : State) : StepOutcome :=
  if s.lockedOut u h then finish .locked s else conclude u mutating (body s)

/-- The requirement DRV ∈ {STOP, READY} (44_dispatch_and_lock.md R274). -/
def State.started (s : State) (u : UnitId) : Bool := s.drv u == .stop || s.drv u == .ready

/-- The requirement DRV = READY (44_dispatch_and_lock.md R274). -/
def State.isReady (s : State) (u : UnitId) : Bool := s.drv u == .ready

/-- The requirement of OBJECT_INIT: DRV ∈ {UNINIT, STOP} and a free lock (44_dispatch_and_lock.md R274, R281). -/
def State.initable (s : State) (u : UnitId) : Bool :=
  (s.drv u == .uninit || s.drv u == .stop) && (s.lock u).count == 0

/-- The requirement of FEE's data commands (44_dispatch_and_lock.md R274). -/
def State.feeServes (s : State) : Bool := s.f.drv == .ready && !s.f.recover

/-- The requirement of Mirror's data commands (44_dispatch_and_lock.md R274). -/
def State.mirrorServes (s : State) : Bool := s.m.drv == .ready && !s.m.recover && s.m.state == .synced

/-- The state check of a command (44_dispatch_and_lock.md R274, 60_exceptions.md R303). -/
def checkState (c : State → Bool) : Proc Unit := do
  require .state (c (← get))

/-! ### The bus lock (44_dispatch_and_lock.md R277 to R280) -/

/-- The device grants ownership, or goes on withholding it; then the command stays BUSY and waits
(20_memory.md R72, 44_dispatch_and_lock.md R278, R280). A fail answer stands for withholding: DEDUCED, safe
(assumption 10). -/
def acquireFresh (u : UnitId) (h : HostId) : Proc Unit := do
  point none
  match ← answer with
  | .ok =>
    change fun s =>
      { (s.setDev u { s.dev u with owned := true }).setLock u ⟨1, h⟩ with waiting := none }
  | .fail _ =>
    modify fun s => { s with waiting := some (u, h) }
    throw .waiting

/-- Acquire(U, h) (44_dispatch_and_lock.md R278). -/
def acquire (u : UnitId) (h : HostId) : Proc Unit := do
  let s ← get
  if (s.lock u).count = 0 then acquireFresh u h
  else if (s.lock u).count.toNat = s.params.lockMax then raise .state
  else change fun s => s.setLock u { s.lock u with count := (s.lock u).count + 1 }

/-- Release(U, h) (44_dispatch_and_lock.md R279). DevRelease gives up the device's ownership (R280). The two fields of LOCK_U
are one register and change together (R277). DEDUCED (assumption 6). -/
def release (u : UnitId) : Proc Unit := do
  let s ← get
  if (s.lock u).count = 0 then raise .state
  else if (s.lock u).count = 1 then
    change fun s => (s.setLock u ⟨0, 0⟩).setDev u { s.dev u with owned := false }
  else change fun s => s.setLock u { s.lock u with count := (s.lock u).count - 1 }

end Sys2Proof.Machine
end

