-- ==== Sys2Proof/Machine/Codec.lean ====
section
/-! DEFINITION. The write-once bit-pattern encoder: the three state-mark tables, Encode and Decode
(40_codec.md R140 to R148, 30_encoding.md R113, R114). -/

namespace Sys2Proof.Machine

/-- The states of the Mirror table, in transition order (30_encoding.md R113). -/
inductive LogMark where
  | unused | dirtyA | dirtyB | synced
  deriving DecidableEq, Repr

/-- The states of the FEE tables, in transition order: an arena header's UNUSED, ACTIVE, FROZEN and a slot's UNUSED,
DIRTY, VALID share their patterns (30_encoding.md R114, 40_codec.md R140). -/
inductive FeeMark where
  | unused | first | second
  deriving DecidableEq, Repr

/-- The state of a slot as its mark decodes (42_fee.md R200, R208). -/
inductive SlotState where
  | unused | dirty | valid | unknown
  deriving DecidableEq, Repr

/-- `ones_(8W)` (00_scope.md R10). -/
def ones (w : MarkWidth) : Nat := 2 ^ (8 * w.bytes) - 1

/-- The index of a state in the Mirror table. -/
def LogMark.index : LogMark → Nat
  | .unused => 0
  | .dirtyA => 1
  | .dirtyB => 2
  | .synced => 3

/-- The index of a state in an FEE table. -/
def FeeMark.index : FeeMark → Nat
  | .unused => 0
  | .first => 1
  | .second => 2

/-- The Mirror table's pattern of a state, an 8W-bit value (30_encoding.md R113). -/
def LogMark.pattern (w : MarkWidth) : LogMark → Nat
  | .unused => ones w
  | .dirtyA => (ones w <<< (4 * w.bytes)) % 2 ^ (8 * w.bytes)
  | .dirtyB => (ones w <<< (6 * w.bytes)) % 2 ^ (8 * w.bytes)
  | .synced => 0

/-- mark0 of an FEE state (30_encoding.md R114). -/
def FeeMark.word0 (w : MarkWidth) : FeeMark → Nat
  | .unused => ones w
  | .first => 0
  | .second => 0

/-- mark1 of an FEE state (30_encoding.md R114). -/
def FeeMark.word1 (w : MarkWidth) : FeeMark → Nat
  | .unused => ones w
  | .first => ones w
  | .second => 0

/-- The FEE table's pattern of a state as the one value {mark1, mark0} (30_encoding.md R114). -/
def FeeMark.pattern (w : MarkWidth) (x : FeeMark) : Nat := x.word1 w * 2 ^ (8 * w.bytes) + x.word0 w

/-- Encode of the Mirror table (40_codec.md R141). -/
def LogMark.encode (w : MarkWidth) (x : LogMark) : List Byte := leBytes w.bytes (x.pattern w)

/-- Decode of the Mirror table's value; `none` is UNKNOWN, and matching is exact (40_codec.md R142). -/
def LogMark.ofValue (w : MarkWidth) (v : Nat) : Option LogMark :=
  if v = LogMark.pattern w .unused then some .unused
  else if v = LogMark.pattern w .dirtyA then some .dirtyA
  else if v = LogMark.pattern w .dirtyB then some .dirtyB
  else if v = LogMark.pattern w .synced then some .synced
  else none

/-- Decode of the Mirror table (40_codec.md R142). -/
def LogMark.decode (w : MarkWidth) (bs : List Byte) : Option LogMark := LogMark.ofValue w (leVal bs)

/-- Encode of an FEE table: mark0's bytes, then mark1's (40_codec.md R141). -/
def FeeMark.encode (w : MarkWidth) (x : FeeMark) : List Byte :=
  leBytes w.bytes (x.word0 w) ++ leBytes w.bytes (x.word1 w)

/-- Decode of an FEE table from its two words; `none` is UNKNOWN (40_codec.md R142). -/
def FeeMark.decode (w : MarkWidth) (v0 v1 : Nat) : Option FeeMark :=
  if v0 = ones w ∧ v1 = ones w then some .unused
  else if v0 = 0 ∧ v1 = ones w then some .first
  else if v0 = 0 ∧ v1 = 0 then some .second
  else none

/-- A decoded arena mark; UNKNOWN makes the arena INVALID (40_codec.md R143, 42_fee.md R202). -/
def arenaOfMark : Option FeeMark → ArenaState
  | some .unused => .unused
  | some .first => .active
  | some .second => .frozen
  | none => .invalid

/-- A decoded slot mark (30_encoding.md R114). -/
def slotOfMark : Option FeeMark → SlotState
  | some .unused => .unused
  | some .first => .dirty
  | some .second => .valid
  | none => .unknown

/-- The mirror_state that a log entry's state stands for; UNUSED is the end of the log, not a state
(10_state.md R32, 90_conflicts.md C12). -/
def LogMark.mirrorState : LogMark → MirrorState
  | .unused => .invalid
  | .dirtyA => .dirtyA
  | .dirtyB => .dirtyB
  | .synced => .synced

end Sys2Proof.Machine
end

