-- ==== Sys2Proof/Machine/Fee.lean ====
section
/-! DEFINITION. The FEE engine: its procedures, garbage collection among them, and its twelve commands
(42_fee.md R200 to R229, 43_fee_gc.md R240 to R251). -/

namespace Sys2Proof.Machine

/-! ### Arena headers -/

/-- F_ARENA_STATE of an arena takes a value (10_state.md R40). -/
def setArenaState (a : Arena) (x : ArenaState) : Proc Unit := feeRegs [fun f => f.setArenaState a x]

/-- What a header means, from its magic and its two mark words (42_fee.md R202, 90_conflicts.md C6). -/
def headerMeaning (p : Params) (m w0 w1 : Nat) : ArenaState :=
  if m = 0xFFFFFFFF ∧ w0 = ones p.widthF ∧ w1 = ones p.widthF then .unused
  else if m ≠ magic p then .invalid
  else arenaOfMark (FeeMark.decode p.widthF w0 w1)

/-- HeaderState(a) (42_fee.md R202). -/
def headerState (a : Arena) : Proc ArenaState := do
  let s ← get
  let base := s.f.arenaBase a
  let w := s.params.widthF
  let m ← devRead .fee base 4
  let w0 ← devRead .fee (base + headerMark0 w) w.bytes
  let w1 ← devRead .fee (base + headerMark1 w) w.bytes
  return headerMeaning s.params (leVal m) (leVal w0) (leVal w1)

/-- HeaderImage: MAGIC, UNUSED marks and padding (42_fee.md R203). -/
def headerImage (p : Params) : List Byte := leBytes 4 (magic p) ++ fill erasedByte 28

/-- HeaderInit(a) (42_fee.md R203). Its 32 bytes are no mark unit, so they tear bit by bit (20_memory.md R67), and a torn
MAGIC decodes INVALID: 43_fee_gc.md R246's fourth row and 42_fee.md R230 say otherwise of a cut here, and the model
follows the procedures. DEDUCED (assumption 26). -/
def headerInit (a : Arena) : Proc Unit := do
  let s ← get
  devWrite .fee (s.f.arenaBase a) (headerImage s.params)
  devSync .fee

/-- WriteArenaMark(a, ACTIVE) (42_fee.md R204). Arena 1's marks are W_F-aligned only where the arena's size is a multiple
of W_F, which 42_fee.md R214 does not ask. DEDUCED (assumption 28). -/
def markArenaActive (a : Arena) : Proc Unit := do
  let s ← get
  writeMarkWord .fee (s.f.arenaBase a + headerMark0 s.params.widthF) 0
  setArenaState a .active

/-- WriteArenaMark(a, FROZEN) (42_fee.md R204). Its alignment is as for ACTIVE (assumption 28). -/
def markArenaFrozen (a : Arena) : Proc Unit := do
  let s ← get
  writeMarkWord .fee (s.f.arenaBase a + headerMark1 s.params.widthF) 0
  setArenaState a .frozen

/-- Erase the sectors of an arena after those of its header, if there are any (42_fee.md R205). -/
def eraseBody (base eh ab : Nat) : Proc Unit :=
  if eh < ab then do
    devErase .fee (base + eh) (ab - eh)
    devSync .fee
  else pure ()

/-- ArenaReinit(a): the header's sectors first, then the rest, then the header image (42_fee.md R205). A header of more
than one sector tears sector by sector (20_memory.md R85), and a MASS_ERASE cut in the first erase can leave an ACTIVE
header over bytes that are not erased. DEDUCED (assumptions 26 and 27). -/
def arenaReinit (a : Arena) : Proc Unit := do
  let s ← get
  let base := s.f.arenaBase a
  let eh := roundup 32 s.f.cache.sectorSize
  devErase .fee base eh
  devSync .fee
  eraseBody base eh s.f.arenaBytes.toNat
  headerInit a
  setArenaState a .unused

/-- F_ARENA_ACTIVE takes a value. -/
def setActive (a : Arena) : Proc Unit := feeRegs [fun f => { f with active := a }]

/-- F_SLOTS_USED takes a value. -/
def setSlotsUsed (n : Nat) : Proc Unit := feeRegs [fun f => { f with slotsUsed := BitVec.ofNat 32 n }]

/-- Format() (42_fee.md R206). -/
def format : Proc Unit := do
  arenaReinit .a0
  arenaReinit .a1
  markArenaActive .a0
  setActive .a0
  setSlotsUsed 0

/-! ### Slots -/

/-- SlotMark(a, i) (42_fee.md R208). -/
def slotMark (a : Arena) (i : Nat) : Proc SlotState := do
  let s ← get
  let b := s.f.slotBase a i
  let w := s.params.widthF
  let w0 ← devRead .fee b w.bytes
  let w1 ← devRead .fee (b + w.bytes) w.bytes
  return slotOfMark (FeeMark.decode w (leVal w0) (leVal w1))

/-- SlotKey(a, i) (42_fee.md R208). -/
def slotKey (a : Arena) (i : Nat) : Proc Nat := do
  let s ← get
  let k ← devRead .fee (s.f.slotBase a i + slotKeyOffset s.params.widthF) 4
  return leVal k

/-- SlotPayload(a, i) (42_fee.md R208). -/
def slotPayload (a : Arena) (i : Nat) : Proc (List Byte) := do
  let s ← get
  devRead .fee (s.f.slotBase a i + slotPayloadOffset s.params.widthF) s.params.payload

/-- SlotRecord(a, i) (42_fee.md R208). -/
def slotRecord (a : Arena) (i : Nat) : Proc (List Byte) := do
  let s ← get
  devRead .fee (s.f.slotBase a i) s.f.slotSize.toNat

/-- RecordImage(key, payload), a DIRTY record (42_fee.md R208, 30_encoding.md R117). -/
def recordImage (p : Params) (slotSize key : Nat) (payload : List Byte) : List Byte :=
  FeeMark.encode p.widthF .first
    ++ fill erasedByte (slotKeyOffset p.widthF - 2 * p.widthF.bytes)
    ++ leBytes 4 key
    ++ payload
    ++ fill erasedByte (slotSize - slotPayloadOffset p.widthF - p.payload)

/-- ArenaLoad's scan of `n` slots from slot i on; `u` is the count so far (42_fee.md R207). -/
def countUsed (a : Arena) (u : Nat) : Nat → Nat → Proc Nat
  | 0, _ => return u
  | n + 1, i => do
    match ← slotMark a i with
    | .unused => countUsed a u n (i + 1)
    | _ => countUsed a (i + 1) n (i + 1)

/-- ArenaLoad(a) (42_fee.md R207). -/
def arenaLoad (a : Arena) : Proc Unit := do
  let u ← countUsed a 0 (← get).f.numSlots.toNat 0
  setSlotsUsed u

/-- Whether slot i is VALID and carries the key (42_fee.md R209). -/
def slotMatches (a : Arena) (key i : Nat) : Proc Bool := do
  match ← slotMark a i with
  | .valid => return (← slotKey a i) == key
  | _ => return false

/-- Lookup's scan of `n` slots from slot i on; `r` is the last match so far (42_fee.md R209). -/
def lookupFrom (a : Arena) (key : Nat) (r : Option Nat) : Nat → Nat → Proc (Option Nat)
  | 0, _ => return r
  | n + 1, i => do
    if ← slotMatches a key i then lookupFrom a key (some i) n (i + 1)
    else lookupFrom a key r n (i + 1)

/-- Lookup(a, key): the highest matching index (42_fee.md R209). -/
def lookup (a : Arena) (key : Nat) : Proc (Option Nat) := do
  lookupFrom a key none (← get).f.slotsUsed.toNat 0

/-- Append(key, payload) (42_fee.md R210). -/
def append (key : Nat) (payload : List Byte) : Proc Unit := do
  let s ← get
  let i := s.f.slotsUsed.toNat
  let b := s.f.slotBase s.f.active i
  writeMarkWord .fee b 0
  devWrite .fee b (recordImage s.params s.f.slotSize.toNat key payload)
  devSync .fee
  writeMarkWord .fee (b + s.params.widthF.bytes) 0
  setSlotsUsed (i + 1)

/-! ### Garbage collection -/

/-- Blank(d) (43_fee_gc.md R250). -/
def blankArena (a : Arena) : Proc Bool := do
  let s ← get
  let img ← devRead .fee (s.f.arenaBase a) s.f.arenaBytes.toNat
  return (img.take 32 == fill erasedByte 32 || img.take 32 == headerImage s.params)
    && img.drop 32 == fill erasedByte (s.f.arenaBytes.toNat - 32)

/-- PrepareDst(d) (43_fee_gc.md R250). -/
def prepareDst (a : Arena) : Proc Unit := do
  if ← blankArena a then
    let h ← devRead .fee ((← get).f.arenaBase a) 32
    if h = fill erasedByte 32 then headerInit a else pure ()
  else arenaReinit a

/-- The copy of the survivors among a list of keys, into destination slots from j on; the answer is the slots filled
(43_fee_gc.md R241, R242). -/
def copyLive (src dst : Arena) (omitted : Option Nat) : Nat → List Nat → Proc Nat
  | j, [] => return j
  | j, k :: ks =>
    if some k = omitted then copyLive src dst omitted j ks
    else do
      match ← lookup src k with
      | none => copyLive src dst omitted j ks
      | some r =>
        let rec0 ← slotRecord src r
        devWrite .fee ((← get).f.slotBase dst j) rec0
        copyLive src dst omitted (j + 1) ks

/-- Every slot-aligned address of the emulated space, in ascending order (43_fee_gc.md R241). -/
def State.chunkKeys (s : State) : List Nat :=
  (List.range (s.f.logicalSize.toNat / s.params.payload)).map (· * s.params.payload)

/-- GC(omit) (43_fee_gc.md R241). -/
def gc (omitted : Option Nat) : Proc Unit := do
  let src := (← get).f.active
  let dst := src.other
  markArenaFrozen src
  prepareDst dst
  let j ← copyLive src dst omitted 0 (← get).chunkKeys
  devSync .fee
  markArenaActive dst
  arenaReinit src
  setActive dst
  setSlotsUsed j
  feeRegs [fun f => { f with gcCount := f.gcCount + 1 }]

/-! ### Ranges of the emulated space -/

/-- The payload with its bytes [lo, lo + len(nb)) replaced (42_fee.md R211). -/
def mergePayload (cur : List Byte) (lo : Nat) (nb : List Byte) : List Byte :=
  cur.take lo ++ nb ++ cur.drop (lo + nb.length)

/-- The current payload of a chunk, all ones if no slot holds it (42_fee.md R211). -/
def chunkPayload (key : Nat) : Proc (List Byte) := do
  let a := (← get).f.active
  match ← lookup a key with
  | some r => slotPayload a r
  | none => return fill erasedByte (← get).params.payload

/-- Make room for one slot: a GC that omits the chunk about to be rewritten, if the active arena is full
(42_fee.md R211, 43_fee_gc.md R240). -/
def makeRoom (key : Nat) : Proc Unit := do
  let s ← get
  if s.f.slotsUsed = s.f.numSlots then gc (some key) else pure ()

/-- WriteSpan(sa, lo, hi, nb) (42_fee.md R211). -/
def writeSpan (sa lo : Nat) (nb : List Byte) : Proc Unit := do
  let cur ← chunkPayload sa
  let new := mergePayload cur lo nb
  if new = cur then pure ()
  else do
    makeRoom sa
    append sa new

/-- WriteRange's loop from address x on, with the bytes still to be written; the fuel is at least the number of chunks
they touch (42_fee.md R212). -/
def writeChunks : Nat → Nat → List Byte → Proc Unit
  | 0, _, _ => return ()
  | n + 1, x, nb =>
    if nb = [] then return ()
    else do
      let p := (← get).params.payload
      let lo := x % p
      writeSpan (x - lo) lo (nb.take (p - lo))
      writeChunks n (x - lo + p) (nb.drop (p - lo))

/-- WriteRange(addr, n, nb), n being the length of nb (42_fee.md R212). -/
def writeRange (addr : Nat) (nb : List Byte) : Proc Unit := writeChunks nb.length addr nb

/-- The output of ReadRange after a slot with key k and payload pl (42_fee.md R213). -/
def overlay (addr k : Nat) (pl out : List Byte) : List Byte :=
  out.mapIdx (fun i b => if k ≤ addr + i then (pl[addr + i - k]?).getD b else b)

/-- Whether a slot's chunk [k, k+P) overlaps the range (42_fee.md R213). -/
def chunkOverlaps (p addr n k : Nat) : Bool := decide (k < addr + n ∧ addr < k + p)

/-- What slot i adds to ReadRange's output (42_fee.md R213). -/
def readSlot (a : Arena) (addr i : Nat) (out : List Byte) : Proc (List Byte) := do
  match ← slotMark a i with
  | .valid => do
    let k ← slotKey a i
    if chunkOverlaps (← get).params.payload addr out.length k then
      return overlay addr k (← slotPayload a i) out
    else return out
  | _ => return out

/-- ReadRange's scan of `n` slots from slot i on (42_fee.md R213). -/
def readSlots (a : Arena) (addr : Nat) : Nat → Nat → List Byte → Proc (List Byte)
  | 0, _, out => return out
  | n + 1, i, out => do
    let out ← readSlot a addr i out
    readSlots a addr n (i + 1) out

/-- ReadRange(addr, n) (42_fee.md R213). -/
def readRange (addr n : Nat) : Proc (List Byte) := do
  let s ← get
  readSlots s.f.active addr s.f.slotsUsed.toNat 0 (fill erasedByte n)

/-! ### Start -/

/-- The checks of FeeGeometry() on a device (42_fee.md R214). They admit a sector size that is no multiple of W_F, against
20_memory.md R74. DEDUCED (assumption 28). -/
def feeFits (p : Params) (i : DevInfo) : Bool :=
  decide (1 ≤ i.sectorSize ∧ 1 ≤ i.sectorNum ∧ 1 ≤ i.writeAlign ∧ i.sectorSize % i.writeAlign = 0
    ∧ i.sectorSize * i.sectorNum ≤ 2 ^ 32
    ∧ p.widthF.bytes % i.writeAlign = 0
    ∧ 2 ≤ i.sectorNum
    ∧ 32 + slotBytes p.widthF p.payload ≤ i.sectorNum / 2 * i.sectorSize
    ∧ i.ident.length ≤ p.bufBytes)

/-- The FEE bank with the geometry of a device (42_fee.md R214). -/
def FeeUnit.withGeometry (f : FeeUnit) (p : Params) (i : DevInfo) : FeeUnit :=
  let ab := i.sectorNum / 2 * i.sectorSize
  let sz := slotBytes p.widthF p.payload
  let ns := (ab - 32) / sz
  { f with
    cache := ⟨i.sectorSize, i.sectorNum, i.writeAlign⟩
    arenaBytes := BitVec.ofNat 32 ab
    slotSize := BitVec.ofNat 32 sz
    numSlots := BitVec.ofNat 32 ns
    logicalSize := BitVec.ofNat 32 (ns * p.payload) }

/-- The changes that give a bank the geometry registers, and the cache, of the bank `t`, in the order of 42_fee.md R214. -/
def FeeUnit.geometryRegs (t : FeeUnit) : List (FeeUnit → FeeUnit) :=
  [fun f => { f with cache := t.cache, arenaBytes := t.arenaBytes }, fun f => { f with slotSize := t.slotSize },
    fun f => { f with numSlots := t.numSlots }, fun f => { f with logicalSize := t.logicalSize }]

/-- FeeGeometry() (42_fee.md R214). -/
def feeGeometry : Proc Unit := do
  let i ← devGetInfo .fee
  let s ← get
  require .config (feeFits s.params i)
  feeRegs (s.f.withGeometry s.params i).geometryRegs

/-- The three cases of StartCases() (42_fee.md R215). -/
inductive StartCase where
  /-- Case 1: one arena ACTIVE, the other UNUSED. -/
  | adopt (a : Arena)
  /-- Case 2: exactly one arena FROZEN. -/
  | resume (f : Arena)
  /-- Case 3: anything else. -/
  | cold
  deriving DecidableEq, Repr

/-- The case of two header states, in priority order (42_fee.md R215). INVALID beside ACTIVE is case 3, a cold format,
also after a cut HeaderInit. DEDUCED (assumption 26). -/
def startCase (s0 s1 : ArenaState) : StartCase :=
  if s0 = .active ∧ s1 = .unused then .adopt .a0
  else if s0 = .unused ∧ s1 = .active then .adopt .a1
  else if s0 = .frozen ∧ s1 ≠ .frozen then .resume .a0
  else if s1 = .frozen ∧ s0 ≠ .frozen then .resume .a1
  else .cold

/-- Case 1: adopt and load the active arena (42_fee.md R215). -/
def adoptArena (a : Arena) : Proc Unit := do
  setActive a
  arenaLoad a

/-- Case 2: reset the other arena, adopt and load the frozen one, and run the interrupted GC again
(42_fee.md R215, 43_fee_gc.md R245). R245's note that it is safe to cut fails where R246's fourth row does. DEDUCED
(assumption 26). -/
def resumeGc (f : Arena) : Proc Unit := do
  arenaReinit f.other
  adoptArena f
  gc none

/-- StartCases() (42_fee.md R215). -/
def startCases : Proc Unit := do
  let s0 ← headerState .a0
  let s1 ← headerState .a1
  setArenaState .a0 s0
  setArenaState .a1 s1
  match startCase s0 s1 with
  | .adopt a => adoptArena a
  | .resume f => resumeGc f
  | .cold => format

/-! ### Bodies of commands -/

/-- The range check against F_LOGICAL_SIZE (60_exceptions.md R305). -/
def State.feeInRange (s : State) : Bool := decide (s.opAddr + s.opLen ≤ s.f.logicalSize.toNat)

/-- The body of START (42_fee.md R219). -/
def feeStartBody : Proc Unit := do
  checkState (·.started .fee)
  changeDrv .fee .stop
  feeGeometry
  devSync .fee
  startCases
  feeRegs [fun f => { f with recover := false }, fun f => { f with drv := .ready }]

/-- The body of READ (42_fee.md R221). -/
def feeReadBody : Proc Unit := do
  checkState State.feeServes
  let s ← get
  require .range (decide (s.opLen ≤ s.params.bufBytes) && s.feeInRange)
  if s.opLen = 0 then pure ()
  else guardRead s.opLen (do
    let out ← readRange s.opAddr s.opLen
    bufStore out)

/-- The body of WRITE (42_fee.md R222). Its bytes of BUF cannot change while it runs, because a host write to BUF would
be a fault (70_reset_and_hazards.md R347). -/
def feeWriteBody : Proc Unit := do
  checkState State.feeServes
  let s ← get
  require .range (decide (s.opLen ≤ s.params.bufBytes) && s.feeInRange)
  if s.opLen = 0 then pure ()
  else do
    let nb ← bufLoad s.opLen
    writeRange s.opAddr nb

/-- The body of ERASE: a write of the fill pattern 0xFF (42_fee.md R223). -/
def feeEraseBody : Proc Unit := do
  checkState State.feeServes
  let s ← get
  require .range s.feeInRange
  if s.opLen = 0 then pure ()
  else writeRange s.opAddr (fill erasedByte s.opLen)

/-- The body of GET_INFO (42_fee.md R226). -/
def feeGetInfoBody : Proc Unit := do
  checkState (·.isReady .fee)
  let i ← devGetInfo .fee
  let s ← get
  reportInfo (BitVec.ofNat 32 s.params.payload) s.f.numSlots 1 i.ident

/-- The FEE bank as OBJECT_INIT leaves it; the lock and F_GC_COUNT are not changed (42_fee.md R218). -/
def FeeUnit.objectInit (f : FeeUnit) : FeeUnit :=
  { FeeUnit.reset with drv := .stop, lock := f.lock, gcCount := f.gcCount }

/-- The changes that give a bank every register of the bank `t` but the lock and F_GC_COUNT, in the order of 42_fee.md
R218. -/
def FeeUnit.initRegs (t : FeeUnit) : List (FeeUnit → FeeUnit) :=
  [fun f => { f with drv := t.drv }, fun f => { f with active := t.active },
    fun f => { f with slotsUsed := t.slotsUsed }, fun f => { f with state0 := t.state0, state1 := t.state1 },
    fun f => { f with numSlots := t.numSlots }, fun f => { f with slotSize := t.slotSize },
    fun f => { f with arenaBytes := t.arenaBytes }, fun f => { f with logicalSize := t.logicalSize, cache := t.cache },
    fun f => { f with recover := t.recover }]

/-! ### Commands -/

/-- FEE.INIT: no state check and no effect (42_fee.md R217). -/
def execFeeInit (hid : HostId) (s : State) : StepOutcome :=
  runCommand .fee hid false (pure ()) s

/-- FEE.OBJECT_INIT (42_fee.md R218). -/
def execFeeObjectInit (hid : HostId) (s : State) : StepOutcome :=
  runCommand .fee hid false
    (do checkState (·.initable .fee)
        feeRegs (← get).f.objectInit.initRegs) s

/-- FEE.START (42_fee.md R219). -/
def execFeeStart (hid : HostId) (s : State) : StepOutcome :=
  runCommand .fee hid true feeStartBody s

/-- FEE.STOP (42_fee.md R220). -/
def execFeeStop (hid : HostId) (s : State) : StepOutcome :=
  runCommand .fee hid false
    (do checkState (·.started .fee)
        changeDrv .fee .stop) s

/-- FEE.READ (42_fee.md R221). -/
def execFeeRead (hid : HostId) (s : State) : StepOutcome :=
  runCommand .fee hid false feeReadBody s

/-- FEE.WRITE (42_fee.md R222). -/
def execFeeWrite (hid : HostId) (s : State) : StepOutcome :=
  runCommand .fee hid true feeWriteBody s

/-- FEE.ERASE (42_fee.md R223). -/
def execFeeErase (hid : HostId) (s : State) : StepOutcome :=
  runCommand .fee hid true feeEraseBody s

/-- FEE.MASS_ERASE: Format() (42_fee.md R224). -/
def execFeeMassErase (hid : HostId) (s : State) : StepOutcome :=
  runCommand .fee hid true
    (do checkState State.feeServes
        format) s

/-- FEE.SYNC (42_fee.md R225). -/
def execFeeSync (hid : HostId) (s : State) : StepOutcome :=
  runCommand .fee hid false
    (do checkState (·.isReady .fee)
        devSync .fee) s

/-- FEE.GET_INFO (42_fee.md R226). -/
def execFeeGetInfo (hid : HostId) (s : State) : StepOutcome :=
  runCommand .fee hid false feeGetInfoBody s

/-- FEE.ACQUIRE_BUS (42_fee.md R227). -/
def execFeeAcquireBus (hid : HostId) (s : State) : StepOutcome :=
  runCommand .fee hid false
    (do checkState (·.started .fee)
        acquire .fee hid) s

/-- FEE.RELEASE_BUS (42_fee.md R228). -/
def execFeeReleaseBus (hid : HostId) (s : State) : StepOutcome :=
  runCommand .fee hid false
    (do checkState (·.started .fee)
        release .fee) s

end Sys2Proof.Machine
end

