-- ==== Sys2Proof/Machine/Mirror.lean ====
section
/-! DEFINITION. The Mirror engine: its procedures and its twelve commands (41_mirror.md R160 to R182). -/

namespace Sys2Proof.Machine

/-- M_STATE, then M_STATE_ADDR, take a log entry's state and offset (41_mirror.md R162, R163, R166). -/
def setMirrorState (x : MirrorState) (off : Nat) : Proc Unit :=
  mirrorRegs [fun m => { m with state := x }, fun m => { m with stateAddr := BitVec.ofNat 32 off }]

/-! ### Procedures -/

/-- MarkAppend's offset in the log before any wrap: M_STATE_ADDR + W_M (41_mirror.md R162). -/
def State.logCursor (s : State) : Nat := s.m.stateAddr.toNat + s.params.widthM.bytes

/-- Whether the log cursor has reached the end of the header span (41_mirror.md R162). -/
def State.logFull (s : State) : Bool := decide (s.logEntries ≤ s.logCursor / s.params.widthM.bytes)

/-- Erase the header span and wait for the erase to be durable (41_mirror.md R162, R163). -/
def eraseHeader : Proc Unit := do
  devErase .mirror 0 (← get).m.hdrBytes.toNat
  devSync .mirror

/-- Write one log entry, then make it the authoritative state (41_mirror.md R162, R163; 40_codec.md R145). -/
def writeLogEntry (off : Nat) (x : LogMark) : Proc Unit := do
  writeMarkWord .mirror off (x.pattern (← get).params.widthM)
  setMirrorState x.mirrorState off

/-- MarkAppend(s) (41_mirror.md R162). Where DIRTY_B's wrap is cut, 41_mirror.md R168 and R183 say other than this
procedure and 20_memory.md R67 give. DEDUCED (assumption 25). -/
def markAppend (x : LogMark) : Proc Unit := do
  let s ← get
  if s.logFull then
    eraseHeader
    writeLogEntry 0 x
  else writeLogEntry s.logCursor x

/-- MarkReset(s) (41_mirror.md R163). -/
def markReset (x : LogMark) : Proc Unit := do
  eraseHeader
  writeLogEntry 0 x

/-- Log entry k as the device holds it (30_encoding.md R112). -/
def readLogEntry (k : Nat) : Proc (List Byte) := do
  let w := (← get).params.widthM.bytes
  devRead .mirror (k * w) w

/-- The tail check of Scan: the next `n` entries, from k on, must be erased (41_mirror.md R164). -/
def scanTail (r : MirrorState × Nat) : Nat → Nat → Proc (MirrorState × Nat)
  | 0, _ => return r
  | n + 1, k => do
    let bs ← readLogEntry k
    if bs = fill erasedByte (← get).params.widthM.bytes then scanTail r n (k + 1)
    else return (.invalid, 0)

/-- Scan from entry k, with `n` entries left and the last state found so far (41_mirror.md R164). -/
def scanFrom (r : MirrorState × Nat) : Nat → Nat → Proc (MirrorState × Nat)
  | 0, _ => return r
  | n + 1, k => do
    let bs ← readLogEntry k
    let w := (← get).params.widthM
    match LogMark.decode w bs with
    | some .unused => scanTail r n (k + 1)
    | some x => scanFrom (x.mirrorState, k * w.bytes) n (k + 1)
    | none => return (.invalid, 0)

/-- Scan() (41_mirror.md R164). -/
def scan : Proc (MirrorState × Nat) := do
  scanFrom (.invalid, 0) (← get).logEntries 0

/-- Copy of `n` sectors, from sector i of each span on (41_mirror.md R165). -/
def copySectors (src dst : Nat) : Nat → Nat → Proc Unit
  | 0, _ => return ()
  | n + 1, i => do
    let ss := (← get).m.cache.sectorSize
    devErase .mirror (dst + i * ss) ss
    let d ← devRead .mirror (src + i * ss) ss
    devWrite .mirror (dst + i * ss) d
    copySectors src dst n (i + 1)

/-- Copy(src_org, dst_org) (41_mirror.md R165). -/
def copyMirror (src dst : Nat) : Proc Unit := do
  copySectors src dst (← get).m.sectors.toNat 0
  devSync .mirror

/-- Copy(M_B_ORG, M_A_ORG) (41_mirror.md R166). -/
def copyBtoA : Proc Unit := do
  let s ← get
  copyMirror s.m.bOrg.toNat s.m.aOrg.toNat

/-- Copy(M_A_ORG, M_B_ORG) (41_mirror.md R166). -/
def copyAtoB : Proc Unit := do
  let s ← get
  copyMirror s.m.aOrg.toNat s.m.bOrg.toNat

/-- Recover() (41_mirror.md R166, 90_conflicts.md C8). A SYNCED log is adopted with no look at the two copies, so 41_mirror.md
R168's mirror_a = mirror_b rests on what wrote that log. DEDUCED (assumption 29). -/
def recoverMirror : Proc Unit := do
  let (st, sa) ← scan
  setMirrorState st sa
  match st with
  | .synced => return ()
  | .dirtyA => do
    copyBtoA
    markAppend .synced
  | .dirtyB => do
    copyAtoB
    markAppend .synced
  | .invalid => do
    copyAtoB
    markReset .synced

/-- The checks of Geometry() on a device and a header sector count (41_mirror.md R170). -/
def mirrorFits (p : Params) (i : DevInfo) (h : Nat) : Bool :=
  decide (1 ≤ i.sectorSize ∧ 1 ≤ i.sectorNum ∧ 1 ≤ i.writeAlign ∧ i.sectorSize % i.writeAlign = 0
    ∧ i.sectorSize * i.sectorNum ≤ 2 ^ 32
    ∧ p.widthM.bytes % i.writeAlign = 0
    ∧ 1 ≤ h ∧ h < i.sectorNum ∧ 1 ≤ (i.sectorNum - h) / 2
    ∧ 1 ≤ h * i.sectorSize / p.widthM.bytes
    ∧ i.ident.length ≤ p.bufBytes)

/-- The Mirror bank with the geometry of a device and a header sector count (41_mirror.md R170). -/
def MirrorUnit.withGeometry (m : MirrorUnit) (i : DevInfo) (h : Nat) : MirrorUnit :=
  let ms := (i.sectorNum - h) / 2
  { m with
    cache := ⟨i.sectorSize, i.sectorNum, i.writeAlign⟩
    hdrBytes := BitVec.ofNat 32 (h * i.sectorSize)
    sectors := BitVec.ofNat 32 ms
    size := BitVec.ofNat 32 (ms * i.sectorSize)
    aOrg := BitVec.ofNat 32 (h * i.sectorSize)
    bOrg := BitVec.ofNat 32 ((h + ms) * i.sectorSize) }

/-- The changes that give a bank the geometry registers, and the cache, of the bank `t`, in the order of 41_mirror.md
R170. -/
def MirrorUnit.geometryRegs (t : MirrorUnit) : List (MirrorUnit → MirrorUnit) :=
  [fun m => { m with cache := t.cache, hdrBytes := t.hdrBytes }, fun m => { m with sectors := t.sectors },
    fun m => { m with size := t.size }, fun m => { m with aOrg := t.aOrg }, fun m => { m with bOrg := t.bOrg }]

/-- Geometry() (41_mirror.md R170). -/
def mirrorGeometry : Proc Unit := do
  let i ← devGetInfo .mirror
  let s ← get
  require .config (mirrorFits s.params i s.opCfg)
  mirrorRegs (s.m.withGeometry i s.opCfg).geometryRegs

/-- The range check of READ and WRITE (41_mirror.md R175, R176; 60_exceptions.md R305). -/
def State.mirrorInRange (s : State) : Bool := decide (s.opAddr + s.opLen ≤ s.m.size.toNat)

/-- n ≤ BUF_BYTES (60_exceptions.md R305). -/
def State.fitsBuf (s : State) : Bool := decide (s.opLen ≤ s.params.bufBytes)

/-- ADDR and LEN are multiples of a unit of alignment (20_memory.md R75, 60_exceptions.md R306). -/
def State.opAligned (s : State) (k : Nat) : Bool := decide (s.opAddr % k = 0 ∧ s.opLen % k = 0)

/-- The three-phase protocol around a mutation, given for the origin of each copy: mark DIRTY_A, mutate mirror_a, mark
DIRTY_B, mutate mirror_b, mark SYNCED (41_mirror.md R176 to R178). -/
def threePhase (mutate : Nat → Proc Unit) : Proc Unit := do
  markAppend .dirtyA
  mutate (← get).m.aOrg.toNat
  devSync .mirror
  markAppend .dirtyB
  mutate (← get).m.bOrg.toNat
  devSync .mirror
  markAppend .synced

/-- The mutation of WRITE in one copy: BUF is read at this moment (41_mirror.md R176). -/
def mirrorWriteAt (addr n org : Nat) : Proc Unit := do
  devWrite .mirror (org + addr) (← bufLoad n)

/-- The body of START (41_mirror.md R173). -/
def mirrorStartBody : Proc Unit := do
  checkState (·.started .mirror)
  changeDrv .mirror .stop
  mirrorGeometry
  devSync .mirror
  recoverMirror
  mirrorRegs [fun m => { m with recover := false }, fun m => { m with drv := .ready }]

/-- The body of READ (41_mirror.md R175). -/
def mirrorReadBody : Proc Unit := do
  checkState State.mirrorServes
  let s ← get
  require .range (s.fitsBuf && s.mirrorInRange)
  if s.opLen = 0 then pure ()
  else guardRead s.opLen (do
    let d ← devRead .mirror (s.m.aOrg.toNat + s.opAddr) s.opLen
    bufStore d)

/-- The body of WRITE (41_mirror.md R176). -/
def mirrorWriteBody : Proc Unit := do
  checkState State.mirrorServes
  let s ← get
  require .range (s.fitsBuf && s.mirrorInRange)
  require .align (s.opAligned s.m.cache.writeAlign)
  if s.opLen = 0 then pure ()
  else threePhase (mirrorWriteAt s.opAddr s.opLen)

/-- The body of ERASE (41_mirror.md R177). -/
def mirrorEraseBody : Proc Unit := do
  checkState State.mirrorServes
  let s ← get
  require .range s.mirrorInRange
  require .align (s.opAligned s.m.cache.sectorSize)
  if s.opLen = 0 then pure ()
  else threePhase (fun org => devErase .mirror (org + s.opAddr) s.opLen)

/-- The body of MASS_ERASE (41_mirror.md R178). -/
def mirrorMassEraseBody : Proc Unit := do
  checkState State.mirrorServes
  let n := (← get).m.size.toNat
  threePhase (fun org => devErase .mirror org n)

/-- The body of GET_INFO (41_mirror.md R180). -/
def mirrorGetInfoBody : Proc Unit := do
  checkState (·.isReady .mirror)
  let i ← devGetInfo .mirror
  reportInfo (BitVec.ofNat 32 i.sectorSize) (← get).m.sectors (BitVec.ofNat 32 i.writeAlign) i.ident

/-- The Mirror bank as OBJECT_INIT leaves it; the lock is not changed (41_mirror.md R172). -/
def MirrorUnit.objectInit (m : MirrorUnit) : MirrorUnit := { MirrorUnit.reset with drv := .stop, lock := m.lock }

/-- The changes that give a bank every register of the bank `t` but the lock, in the order of 41_mirror.md R172. -/
def MirrorUnit.initRegs (t : MirrorUnit) : List (MirrorUnit → MirrorUnit) :=
  [fun m => { m with drv := t.drv }, fun m => { m with state := t.state }, fun m => { m with stateAddr := t.stateAddr }]
    ++ t.geometryRegs ++ [fun m => { m with recover := t.recover }]

/-! ### Commands -/

/-- MIRROR.INIT: no state check and no effect (41_mirror.md R171). -/
def execMirrorInit (hid : HostId) (s : State) : StepOutcome :=
  runCommand .mirror hid false (pure ()) s

/-- MIRROR.OBJECT_INIT (41_mirror.md R172). -/
def execMirrorObjectInit (hid : HostId) (s : State) : StepOutcome :=
  runCommand .mirror hid false
    (do checkState (·.initable .mirror)
        mirrorRegs (← get).m.objectInit.initRegs) s

/-- MIRROR.START (41_mirror.md R173). -/
def execMirrorStart (hid : HostId) (s : State) : StepOutcome :=
  runCommand .mirror hid true mirrorStartBody s

/-- MIRROR.STOP (41_mirror.md R174). -/
def execMirrorStop (hid : HostId) (s : State) : StepOutcome :=
  runCommand .mirror hid false
    (do checkState (·.started .mirror)
        changeDrv .mirror .stop) s

/-- MIRROR.READ (41_mirror.md R175). -/
def execMirrorRead (hid : HostId) (s : State) : StepOutcome :=
  runCommand .mirror hid false mirrorReadBody s

/-- MIRROR.WRITE (41_mirror.md R176). -/
def execMirrorWrite (hid : HostId) (s : State) : StepOutcome :=
  runCommand .mirror hid true mirrorWriteBody s

/-- MIRROR.ERASE (41_mirror.md R177). -/
def execMirrorErase (hid : HostId) (s : State) : StepOutcome :=
  runCommand .mirror hid true mirrorEraseBody s

/-- MIRROR.MASS_ERASE (41_mirror.md R178). -/
def execMirrorMassErase (hid : HostId) (s : State) : StepOutcome :=
  runCommand .mirror hid true mirrorMassEraseBody s

/-- MIRROR.SYNC (41_mirror.md R179). -/
def execMirrorSync (hid : HostId) (s : State) : StepOutcome :=
  runCommand .mirror hid false
    (do checkState (·.isReady .mirror)
        devSync .mirror) s

/-- MIRROR.GET_INFO (41_mirror.md R180). -/
def execMirrorGetInfo (hid : HostId) (s : State) : StepOutcome :=
  runCommand .mirror hid false mirrorGetInfoBody s

/-- MIRROR.ACQUIRE_BUS (41_mirror.md R181). -/
def execMirrorAcquireBus (hid : HostId) (s : State) : StepOutcome :=
  runCommand .mirror hid false
    (do checkState (·.started .mirror)
        acquire .mirror hid) s

/-- MIRROR.RELEASE_BUS (41_mirror.md R182). -/
def execMirrorReleaseBus (hid : HostId) (s : State) : StepOutcome :=
  runCommand .mirror hid false
    (do checkState (·.started .mirror)
        release .mirror) s

end Sys2Proof.Machine
end

