-- ==== Sys2Proof/Machine/Dispatch.lean ====
section
/-! DEFINITION. The meaning of every command: one arm for each constructor of Instr. -/

namespace Sys2Proof.Machine

-- One direct call of the command's own meaning in each arm.
def exec (i : Instr) (s : State) : Host.Outcome State Fault Refusal :=
  match i with
  | .mirrorInit hid => Sys2Proof.Machine.execMirrorInit hid s
  | .mirrorObjectInit hid => Sys2Proof.Machine.execMirrorObjectInit hid s
  | .mirrorStart hid => Sys2Proof.Machine.execMirrorStart hid s
  | .mirrorStop hid => Sys2Proof.Machine.execMirrorStop hid s
  | .mirrorRead hid => Sys2Proof.Machine.execMirrorRead hid s
  | .mirrorWrite hid => Sys2Proof.Machine.execMirrorWrite hid s
  | .mirrorErase hid => Sys2Proof.Machine.execMirrorErase hid s
  | .mirrorMassErase hid => Sys2Proof.Machine.execMirrorMassErase hid s
  | .mirrorSync hid => Sys2Proof.Machine.execMirrorSync hid s
  | .mirrorGetInfo hid => Sys2Proof.Machine.execMirrorGetInfo hid s
  | .mirrorAcquireBus hid => Sys2Proof.Machine.execMirrorAcquireBus hid s
  | .mirrorReleaseBus hid => Sys2Proof.Machine.execMirrorReleaseBus hid s
  | .feeInit hid => Sys2Proof.Machine.execFeeInit hid s
  | .feeObjectInit hid => Sys2Proof.Machine.execFeeObjectInit hid s
  | .feeStart hid => Sys2Proof.Machine.execFeeStart hid s
  | .feeStop hid => Sys2Proof.Machine.execFeeStop hid s
  | .feeRead hid => Sys2Proof.Machine.execFeeRead hid s
  | .feeWrite hid => Sys2Proof.Machine.execFeeWrite hid s
  | .feeErase hid => Sys2Proof.Machine.execFeeErase hid s
  | .feeMassErase hid => Sys2Proof.Machine.execFeeMassErase hid s
  | .feeSync hid => Sys2Proof.Machine.execFeeSync hid s
  | .feeGetInfo hid => Sys2Proof.Machine.execFeeGetInfo hid s
  | .feeAcquireBus hid => Sys2Proof.Machine.execFeeAcquireBus hid s
  | .feeReleaseBus hid => Sys2Proof.Machine.execFeeReleaseBus hid s

end Sys2Proof.Machine
end

