-- ==== Sys2Proof/WellFormed.lean ====
section
/-! DEFINITION. What a legal command and a legal instance are (30_encoding.md R107, 00_scope.md R7). -/

namespace Sys2Proof

/-- The host id names one of the instance's hosts (30_encoding.md R103, R107). -/
def Instr.wf (nHosts : Nat) (i : Instr) : Bool := decide (i.hid.toNat < nHosts)

/-- The constraints of 00_scope.md R7 on the parameters. The mark widths meet theirs by type. -/
def Params.wf (p : Params) : Bool :=
  decide (1 ≤ p.payload ∧ p.payload ≤ 0xFFFFF
    ∧ 1 ≤ p.nHosts ∧ p.nHosts ≤ 16
    ∧ 1 ≤ p.lockMax ∧ p.lockMax ≤ 255
    ∧ 4 ≤ p.bufBytes ∧ p.bufBytes ≤ 0xF000 ∧ p.bufBytes % 4 = 0
    ∧ p.blockBase % 0x10000 = 0)

end Sys2Proof
end

