-- ==== Sys2Proof/Decode.lean ====
section
/-! DEFINITION. The decoder of command words and, after it, the encoder, both from 30_encoding.md R100 to R107. -/

namespace Sys2Proof

/-- Why a 32-bit word is no command (30_encoding.md R107). -/
inductive DecodeError where
  /-- One of the bits [7:5] or [31:12] is 1. -/
  | reservedBits
  /-- OP is 0xC to 0xF. -/
  | reservedOp
  deriving DecidableEq, Repr

/-- OP, bits [3:0] of a command word (30_encoding.md R100). -/
def opField (w : Word) : BitVec 4 := w.extractLsb' 0 4

/-- UNIT, bit [4] (30_encoding.md R102). -/
def unitField (w : Word) : UnitId := if w.getLsbD 4 then .fee else .mirror

/-- HID, bits [11:8] (30_encoding.md R103). -/
def hidField (w : Word) : HostId := w.extractLsb' 8 4

/-- Whether every reserved bit, [7:5] and [31:12], is 0 (30_encoding.md R100). -/
def reservedClear (w : Word) : Bool := w.extractLsb' 5 3 == 0 && w.extractLsb' 12 20 == 0

/-- The MIRROR command of an OP value (30_encoding.md R101, R104). -/
def mirrorCommand (op : BitVec 4) (h : HostId) : Option Instr :=
  match op.toNat with
  | 0 => some (.mirrorInit h)
  | 1 => some (.mirrorObjectInit h)
  | 2 => some (.mirrorStart h)
  | 3 => some (.mirrorStop h)
  | 4 => some (.mirrorRead h)
  | 5 => some (.mirrorWrite h)
  | 6 => some (.mirrorErase h)
  | 7 => some (.mirrorMassErase h)
  | 8 => some (.mirrorSync h)
  | 9 => some (.mirrorGetInfo h)
  | 10 => some (.mirrorAcquireBus h)
  | 11 => some (.mirrorReleaseBus h)
  | _ => none

/-- The FEE command of an OP value (30_encoding.md R101, R104). -/
def feeCommand (op : BitVec 4) (h : HostId) : Option Instr :=
  match op.toNat with
  | 0 => some (.feeInit h)
  | 1 => some (.feeObjectInit h)
  | 2 => some (.feeStart h)
  | 3 => some (.feeStop h)
  | 4 => some (.feeRead h)
  | 5 => some (.feeWrite h)
  | 6 => some (.feeErase h)
  | 7 => some (.feeMassErase h)
  | 8 => some (.feeSync h)
  | 9 => some (.feeGetInfo h)
  | 10 => some (.feeAcquireBus h)
  | 11 => some (.feeReleaseBus h)
  | _ => none

/-- The command a word encodes, or the reason it encodes none. The check of HID against N_HOSTS needs the instance's
parameters and is `legalCommand`. -/
def decode (w : Word) : Except DecodeError Instr :=
  if reservedClear w then
    match unitField w with
    | .mirror => (mirrorCommand (opField w) (hidField w)).elim (.error .reservedOp) .ok
    | .fee => (feeCommand (opField w) (hidField w)).elim (.error .reservedOp) .ok
  else .error .reservedBits

/-- The command of a word that is legal by 30_encoding.md R107 on an instance with `nHosts` hosts. -/
def legalCommand (nHosts : Nat) (w : Word) : Option Instr :=
  match decode w with
  | .ok i => if i.wf nHosts then some i else none
  | .error _ => none

/-- The command an opcode-table word stands for: the host's question about one row. A command is exactly one 32-bit word
(30_encoding.md R108). -/
def decodeTableWord (nbits w : Nat) : Option Instr :=
  if nbits ≤ 32 ∧ w < 2 ^ nbits then
    match decode (BitVec.ofNat 32 w) with
    | .ok i => some i
    | .error _ => none
  else none

/-- The OP value of a command (30_encoding.md R101). -/
def Instr.op : Instr → BitVec 4
  | .mirrorInit _ => 0x0
  | .mirrorObjectInit _ => 0x1
  | .mirrorStart _ => 0x2
  | .mirrorStop _ => 0x3
  | .mirrorRead _ => 0x4
  | .mirrorWrite _ => 0x5
  | .mirrorErase _ => 0x6
  | .mirrorMassErase _ => 0x7
  | .mirrorSync _ => 0x8
  | .mirrorGetInfo _ => 0x9
  | .mirrorAcquireBus _ => 0xA
  | .mirrorReleaseBus _ => 0xB
  | .feeInit _ => 0x0
  | .feeObjectInit _ => 0x1
  | .feeStart _ => 0x2
  | .feeStop _ => 0x3
  | .feeRead _ => 0x4
  | .feeWrite _ => 0x5
  | .feeErase _ => 0x6
  | .feeMassErase _ => 0x7
  | .feeSync _ => 0x8
  | .feeGetInfo _ => 0x9
  | .feeAcquireBus _ => 0xA
  | .feeReleaseBus _ => 0xB

/-- The UNIT bit of a unit (30_encoding.md R102). -/
def UnitId.bit : UnitId → BitVec 1
  | .mirror => 0
  | .fee => 1

/-- The word of a command: OP, UNIT << 4 and HID << 8, every other bit 0 (30_encoding.md R100). -/
def encode (i : Instr) : Word :=
  (0 : BitVec 20) ++ i.hid ++ (0 : BitVec 3) ++ i.unit.bit ++ i.op

end Sys2Proof
end

