-- ==== Sys2Proof/Machine/Fetch.lean ====
section
/-! DEFINITION. What the machine does next: it takes the next item of the schedule, and a CMD write it accepts names the
command to run (44_dispatch_and_lock.md R270 to R272). The block has no program counter (10_state.md R49). -/

namespace Sys2Proof.Machine

/-- What the next step is. -/
inductive Fetched where
  /-- The step is this outcome; no command starts. -/
  | done (o : StepOutcome)
  /-- The step runs a command that the block has just accepted. -/
  | run (i : Instr) (s : State)

/-- The block accepts a command word from host h: it latches it, and a word that is illegal by 30_encoding.md R107
completes at once with ERR_ILLEGAL (44_dispatch_and_lock.md R270 to R272, 60_exceptions.md R301). -/
def acceptCommand (h : HostId) (w : Word) (s : State) : Fetched :=
  match legalCommand s.params.nHosts w with
  | some i => .run i ((s.accept w).recordHost h i.hid)
  | none => .done (finish .illegal (s.accept w))

/-- An access of host h while no command runs; a CMD write issues a command (10_state.md R23). In a state whose BUSY is
1 the access is one during a command. -/
def fetchAccess (h : HostId) (a : Access) (s : State) : Fetched :=
  match commandWrite s.params a, hasHost s.params h && !s.status.busy with
  | some w, true => acceptCommand h w s
  | _, _ =>
    match s.hostEvent s.status.busy h a with
    | .ok s' => .done (.next s')
    | .error f => .done (.fault f)

/-- An event while no command runs (60_exceptions.md R312). -/
def fetchEvent (e : Event) (s : State) : Fetched :=
  match e with
  | .access h a => fetchAccess h a s
  | .powerLoss c => .done (.next (s.powerLoss c))

/-- A waiting ACQUIRE_BUS goes on at the point where it waits (20_memory.md R72, 44_dispatch_and_lock.md R280). -/
def resumeAcquire (u : UnitId) (h : HostId) (s : State) : StepOutcome :=
  conclude u false (acquireFresh u h s)

/-- What the machine does next. With nothing scheduled and no command waiting, it stays as it is: the block does nothing
on its own (00_scope.md R9). A device answer that no operation asked for,
and a mark of a register change that did not come, are dropped. DESIGN CHOICE, safe
(assumption 23). -/
def fetch (s : State) : Fetched :=
  match s.waiting with
  | some (u, h) => .done (resumeAcquire u h s)
  | none =>
    match s.inputs with
    | [] => .done (.next s)
    | .dev _ :: rest => .done (.next { s with inputs := rest })
    | .regStep :: rest => .done (.next { s with inputs := rest })
    | .idle e :: rest => fetchEvent e { s with inputs := rest }
    | .busy e :: rest => fetchEvent e { s with inputs := rest }

/-- The host that a command word names, or host 0 where no host has that number. -/
def State.issuer (s : State) (w : Word) : HostId := if hasHost s.params (hidField w) then hidField w else 0

/-- The state `s` with a command word placed where the next step takes it: an aligned 32-bit write of the word to CMD, by
the host it names, comes first in the schedule, and the block is idle. DESIGN CHOICE, safe (assumption 17). -/
def State.placeCommand (s : State) (w : Nat) : State :=
  { s with
    status := { s.status with busy := false }
    waiting := none
    inputs := .idle (.access (s.issuer (BitVec.ofNat 32 w)) (.write .word s.params.blockBase (BitVec.ofNat 32 w)))
      :: s.inputs }

end Sys2Proof.Machine
end

