-- ==== Sys2Proof/Machine/Step.lean ====
section
/-! DEFINITION. One step of the machine. -/

namespace Sys2Proof.Machine

/-- One step: the next item of the schedule happens, and a command it issues runs to its end
(44_dispatch_and_lock.md R270 to R276). One command is one step: DESIGN CHOICE (assumptions 6 and 24). -/
def step (s : State) : Host.Outcome State Fault Refusal :=
  match fetch s with
  | .done o => o
  | .run i s' => exec i s'

/-- `s` with the command word `w` stored where `step` takes its next command. A command is one 32-bit word
(30_encoding.md R108), so `nbits` is 32 and nothing lies above it. -/
def State.withFetchWord (s : State) (nbits w : Nat) : State := s.placeCommand (w % 2 ^ nbits)

end Sys2Proof.Machine
end

