-- ==== Sys2Proof/Safety.lean ====
section
/-! DEFINITION. The terms in which claims about the machine are stated: what the outside world leaves alone, the
invariants, and what the device content means. -/

namespace Sys2Proof.Machine

/-! ### The outside world -/

/-- Whether an item of the schedule is an event that strikes inside a command. -/
def Input.isBusy : Input → Bool
  | .busy _ => true
  | _ => false

/-- No host access and no power loss is scheduled inside a command; devices may answer anything. -/
def State.quiet (s : State) : Bool := s.inputs.all (fun x => !x.isBusy)

/-- No power loss is scheduled inside a command; hosts and devices may do anything else. -/
def State.noPowerLoss (s : State) : Bool :=
  s.inputs.all fun x =>
    match x with
    | .busy (.powerLoss _) => false
    | _ => true

/-- No event strikes at the command's next point, nor at one after a register change alone; devices may answer
anything. -/
def State.uneventful (s : State) : Bool :=
  match s.inputs with
  | .busy _ :: _ => false
  | .regStep :: _ => false
  | _ => true

/-- The next command meets no host access, no power loss and no device failure. -/
def State.undisturbed (s : State) : Bool :=
  s.tail == .allOk &&
    match s.inputs with
    | [] => true
    | .idle _ :: _ => true
    | _ => false

/-- The unit's lock lets the host's command run (44_dispatch_and_lock.md R273). -/
def State.admits (s : State) (u : UnitId) (h : HostId) : Prop := s.lockedOut u h = false

/-! ### The commands of a unit, by operation (30_encoding.md R101, R102) -/

/-- U.INIT. -/
def initOf : UnitId → HostId → Instr
  | .mirror => .mirrorInit
  | .fee => .feeInit

/-- U.OBJECT_INIT. -/
def objectInitOf : UnitId → HostId → Instr
  | .mirror => .mirrorObjectInit
  | .fee => .feeObjectInit

/-- U.START. -/
def startOf : UnitId → HostId → Instr
  | .mirror => .mirrorStart
  | .fee => .feeStart

/-- U.STOP. -/
def stopOf : UnitId → HostId → Instr
  | .mirror => .mirrorStop
  | .fee => .feeStop

/-- U.READ. -/
def readOf : UnitId → HostId → Instr
  | .mirror => .mirrorRead
  | .fee => .feeRead

/-- U.WRITE. -/
def writeOf : UnitId → HostId → Instr
  | .mirror => .mirrorWrite
  | .fee => .feeWrite

/-- U.ERASE. -/
def eraseOf : UnitId → HostId → Instr
  | .mirror => .mirrorErase
  | .fee => .feeErase

/-- U.MASS_ERASE. -/
def massEraseOf : UnitId → HostId → Instr
  | .mirror => .mirrorMassErase
  | .fee => .feeMassErase

/-- U.SYNC. -/
def syncOf : UnitId → HostId → Instr
  | .mirror => .mirrorSync
  | .fee => .feeSync

/-- U.GET_INFO. -/
def getInfoOf : UnitId → HostId → Instr
  | .mirror => .mirrorGetInfo
  | .fee => .feeGetInfo

/-- U.ACQUIRE_BUS. -/
def acquireOf : UnitId → HostId → Instr
  | .mirror => .mirrorAcquireBus
  | .fee => .feeAcquireBus

/-- U.RELEASE_BUS. -/
def releaseOf : UnitId → HostId → Instr
  | .mirror => .mirrorReleaseBus
  | .fee => .feeReleaseBus

/-- The table of 44_dispatch_and_lock.md R274: the state each command requires. -/
def stateRequirement (i : Instr) (s : State) : Prop :=
  match i with
  | .mirrorInit _ => True
  | .feeInit _ => True
  | .mirrorObjectInit _ => (s.m.drv = .uninit ∨ s.m.drv = .stop) ∧ s.m.lock.count = 0
  | .feeObjectInit _ => (s.f.drv = .uninit ∨ s.f.drv = .stop) ∧ s.f.lock.count = 0
  | .mirrorStart _ => s.m.drv = .stop ∨ s.m.drv = .ready
  | .feeStart _ => s.f.drv = .stop ∨ s.f.drv = .ready
  | .mirrorStop _ => s.m.drv = .stop ∨ s.m.drv = .ready
  | .feeStop _ => s.f.drv = .stop ∨ s.f.drv = .ready
  | .mirrorRead _ => s.m.drv = .ready ∧ s.m.recover = false ∧ s.m.state = .synced
  | .feeRead _ => s.f.drv = .ready ∧ s.f.recover = false
  | .mirrorWrite _ => s.m.drv = .ready ∧ s.m.recover = false ∧ s.m.state = .synced
  | .feeWrite _ => s.f.drv = .ready ∧ s.f.recover = false
  | .mirrorErase _ => s.m.drv = .ready ∧ s.m.recover = false ∧ s.m.state = .synced
  | .feeErase _ => s.f.drv = .ready ∧ s.f.recover = false
  | .mirrorMassErase _ => s.m.drv = .ready ∧ s.m.recover = false ∧ s.m.state = .synced
  | .feeMassErase _ => s.f.drv = .ready ∧ s.f.recover = false
  | .mirrorSync _ => s.m.drv = .ready
  | .feeSync _ => s.f.drv = .ready
  | .mirrorGetInfo _ => s.m.drv = .ready
  | .feeGetInfo _ => s.f.drv = .ready
  | .mirrorAcquireBus _ => s.m.drv = .stop ∨ s.m.drv = .ready
  | .feeAcquireBus _ => s.f.drv = .stop ∨ s.f.drv = .ready
  | .mirrorReleaseBus _ => s.m.drv = .stop ∨ s.m.drv = .ready
  | .feeReleaseBus _ => s.f.drv = .stop ∨ s.f.drv = .ready

/-- The commands whose device failure sets RECOVER: START, WRITE, ERASE and MASS_ERASE (10_state.md R36). -/
def setsRecover (i : Instr) : Bool :=
  match i with
  | .mirrorStart _ => true
  | .feeStart _ => true
  | .mirrorWrite _ => true
  | .feeWrite _ => true
  | .mirrorErase _ => true
  | .feeErase _ => true
  | .mirrorMassErase _ => true
  | .feeMassErase _ => true
  | .mirrorInit _ => false
  | .feeInit _ => false
  | .mirrorObjectInit _ => false
  | .feeObjectInit _ => false
  | .mirrorStop _ => false
  | .feeStop _ => false
  | .mirrorRead _ => false
  | .feeRead _ => false
  | .mirrorSync _ => false
  | .feeSync _ => false
  | .mirrorGetInfo _ => false
  | .feeGetInfo _ => false
  | .mirrorAcquireBus _ => false
  | .feeAcquireBus _ => false
  | .mirrorReleaseBus _ => false
  | .feeReleaseBus _ => false

/-- A command of unit u by host h that the lock, DRV and RECOVER let run as a data command; for Mirror, M_STATE is
SYNCED too (44_dispatch_and_lock.md R273, R274). -/
def State.serves (s : State) (u : UnitId) (h : HostId) : Prop :=
  s.admits u h ∧ s.drv u = .ready ∧ s.recover u = false ∧ (u = .mirror → s.m.state = .synced)

/-- A command of unit u by host h that the lock lets run, with DRV ∈ {STOP, READY} (44_dispatch_and_lock.md R273,
R274). -/
def State.startable (s : State) (u : UnitId) (h : HostId) : Prop :=
  s.admits u h ∧ (s.drv u = .stop ∨ s.drv u = .ready)

/-! ### Invariants -/

/-- Every memory is in its canonical form. -/
def State.memoryCanonical (s : State) : Bool :=
  Memory.wf (some erasedByte) s.devM.cur && Memory.wf (some erasedByte) s.devM.dur
    && Memory.wf (some erasedByte) s.devF.cur && Memory.wf (some erasedByte) s.devF.dur
    && Memory.wf none s.buf

/-- A unit's lock is legal (44_dispatch_and_lock.md R277), and its device is owned exactly while it is held (R280). -/
def State.lockLegal (s : State) (u : UnitId) : Prop :=
  (s.lock u).count.toNat ≤ s.params.lockMax
    ∧ (s.lock u).owner.toNat < s.params.nHosts
    ∧ ((s.lock u).count = 0 → (s.lock u).owner = 0)
    ∧ ((s.dev u).owned = true ↔ (s.lock u).count ≠ 0)

/-- Both locks are legal, and a waiting ACQUIRE_BUS waits for a free one. -/
def State.locksLegal (s : State) : Prop :=
  s.params.wf = true
    ∧ s.lockLegal .mirror ∧ s.lockLegal .fee
    ∧ ∀ u h, s.waiting = some (u, h) → (s.lock u).count = 0 ∧ h.toNat < s.params.nHosts

/-- BUSY is 1 between steps only for a waiting ACQUIRE_BUS. -/
def State.busyLegal (s : State) : Prop := s.status.busy = s.waiting.isSome

/-- A Mirror unit that serves data commands is SYNCED (44_dispatch_and_lock.md R274). -/
def State.mirrorReadyMeansSynced (s : State) : Prop :=
  s.m.drv = .ready → s.m.recover = false → s.m.state = .synced

/-- The Mirror geometry registers and cache are those of the device for some header sector count
(41_mirror.md R170). -/
def State.mirrorLaidOut (s : State) : Prop :=
  ∃ h, mirrorFits s.params s.devM.info h = true ∧ s.m = s.m.withGeometry s.devM.info h

/-- The FEE geometry registers and cache are those of the device (42_fee.md R214). -/
def State.feeLaidOut (s : State) : Prop :=
  s.params.wf = true ∧ feeFits s.params s.devF.info = true ∧ s.f = s.f.withGeometry s.params s.devF.info

/-- The number of the log entry that M_STATE_ADDR names (10_state.md R33). -/
def State.logPosition (s : State) : Nat := s.m.stateAddr.toNat / s.params.widthM.bytes

/-- M_STATE_ADDR is the offset of an entry of the header log (10_state.md R33, 30_encoding.md R112). -/
def State.logPlaced (s : State) : Prop :=
  s.m.stateAddr.toNat % s.params.widthM.bytes = 0 ∧ s.logPosition < s.logEntries

/-- The parameters are legal; a unit that is READY has its device's geometry, and M_STATE_ADDR of a READY Mirror unit
names a log entry. -/
def State.readyLaidOut (s : State) : Prop :=
  s.params.wf = true
    ∧ (s.m.drv = .ready → s.mirrorLaidOut ∧ s.logPlaced)
    ∧ (s.f.drv = .ready → s.feeLaidOut)

/-- F_SLOTS_USED never passes F_NUM_SLOTS (10_state.md R38), F_LOGICAL_SIZE is F_NUM_SLOTS × P (R39), and the geometry
is the device's or all zero. -/
def State.slotsLegal (s : State) : Prop :=
  s.params.wf = true
    ∧ s.f.slotsUsed.toNat ≤ s.f.numSlots.toNat
    ∧ s.f.logicalSize.toNat = s.f.numSlots.toNat * s.params.payload
    ∧ (s.f.numSlots = 0 ∨ s.feeLaidOut)

/-! ### Byte functions -/

/-- The bytes `f` with a byte string laid over them from address a on. -/
def overlayBytes (f : Nat → Byte) (a : Nat) (bs : List Byte) : Nat → Byte :=
  fun x => if a ≤ x ∧ x < a + bs.length then (bs[x - a]?).getD erasedByte else f x

/-- The bytes `f` with [a, a+n) erased. -/
def eraseBytes (f : Nat → Byte) (a n : Nat) : Nat → Byte :=
  fun x => if a ≤ x ∧ x < a + n then erasedByte else f x

/-- The bytes `f` with [dst, dst+n) replaced by [src, src+n). -/
def copyBytes (f : Nat → Byte) (src dst n : Nat) : Nat → Byte :=
  fun x => if dst ≤ x ∧ x < dst + n then f (src + (x - dst)) else f x

/-- What a command leaves a device in: the same device, nothing pending, everything durable, and these bytes. -/
def Device.settledAs (d d' : Device) (bytes : Nat → Byte) : Prop :=
  d'.info = d.info ∧ d'.owned = d.owned ∧ d'.pending = [] ∧ d'.dur = d'.cur ∧ ∀ x, d'.cur.byteAt x = bytes x

/-! ### Torn operations, bit by bit -/

/-- A bit (bit b of byte x) after an operation: a write clears what it holds as 0, an erase sets (20_memory.md R64,
R65). -/
def PendOp.bitAfter (op : PendOp) (x b : Nat) (v : Bool) : Bool :=
  match op with
  | .write a d => if a ≤ x ∧ x < a + d.length then v && ((d[x - a]?).getD erasedByte).getLsbD b else v
  | .erase a n => if a ≤ x ∧ x < a + n then true else v

/-- A bit of DUR after the pending operations, the first of place k, of which it takes those that `took` names
(20_memory.md R67, R68). -/
def tornBit (took : Nat → Nat → Nat → Bool) (x b : Nat) : Nat → List PendOp → Bool → Bool
  | _, [], v => v
  | k, op :: ops, v => tornBit took x b (k + 1) ops (if took k x b then op.bitAfter x b v else v)

/-- `took k x b` says whether bit b of byte x takes the k-th pending operation. Each bit is on its own, but for two
exceptions. The bits of a write of W bytes at a W-aligned address, over which no other pending operation lies, go
together where MARK_ATOMIC holds (20_memory.md R70). The bits that an erase covers in one sector go together under
ERASE_GRANULE = sector (20_memory.md R85). -/
def TearRule.allows (r : TearRule) (pending : List PendOp) (took : Nat → Nat → Nat → Bool) : Prop :=
  (∀ k a d, pending[k]? = some (.write a d) → r.atomic = true → d.length = r.width → a % r.width = 0 →
    (∀ j o, pending[j]? = some o → j ≠ k → o.overlaps (.write a d) = false) →
    ∀ x y b c, a ≤ x → x < a + d.length → a ≤ y → y < a + d.length → b < 8 → c < 8 → took k x b = took k y c)
  ∧ ∀ k a n, pending[k]? = some (.erase a n) → r.granule = .sector →
    ∀ x y b c, a ≤ x → x < a + n → a ≤ y → y < a + n → x / r.sectorSize = y / r.sectorSize → b < 8 → c < 8 →
      took k x b = took k y c

/-- The image holds, in every bit, DUR with the pending operations that `took` names. -/
def tornAs (took : Nat → Nat → Nat → Bool) (dur : Memory) (pending : List PendOp) (image : Memory) : Prop :=
  ∀ x b, b < 8 → (image.byteAt x).getLsbD b = tornBit took x b 0 pending ((dur.byteAt x).getLsbD b)

/-! ### What the FEE device content means (42_fee.md R202, R208, R209, R213, R229) -/

/-- HeaderState of an arena, as CUR holds it (42_fee.md R202). -/
def State.headerAt (s : State) (a : Arena) : ArenaState :=
  let w := s.params.widthF
  let b := s.f.arenaBase a
  headerMeaning s.params (leVal (s.devF.cur.bytesAt b 4)) (leVal (s.devF.cur.bytesAt (b + headerMark0 w) w.bytes))
    (leVal (s.devF.cur.bytesAt (b + headerMark1 w) w.bytes))

/-- The state of slot i of an arena, as CUR holds it. -/
def State.slotStateIn (s : State) (a : Arena) (i : Nat) : SlotState :=
  let w := s.params.widthF
  let b := s.f.slotBase a i
  slotOfMark (FeeMark.decode w (leVal (s.devF.cur.bytesAt b w.bytes)) (leVal (s.devF.cur.bytesAt (b + w.bytes) w.bytes)))

/-- The state of slot i of the active arena. -/
def State.slotStateAt (s : State) (i : Nat) : SlotState := s.slotStateIn s.f.active i

/-- The key of slot i of the active arena, as CUR holds it. -/
def State.slotKeyAt (s : State) (i : Nat) : Nat :=
  leVal (s.devF.cur.bytesAt (s.f.slotBase s.f.active i + slotKeyOffset s.params.widthF) 4)

/-- The payload of slot i of the active arena, as CUR holds it. -/
def State.slotPayloadAt (s : State) (i : Nat) : List Byte :=
  s.devF.cur.bytesAt (s.f.slotBase s.f.active i + slotPayloadOffset s.params.widthF) s.params.payload

/-- ArenaLoad's count: one more than the highest slot of the arena that is not UNUSED (42_fee.md R207). -/
def State.loadedSlots (s : State) (a : Arena) : Nat :=
  match ((List.range s.f.numSlots.toNat).filter (fun i => s.slotStateIn a i != .unused)).getLast? with
  | some i => i + 1
  | none => 0

/-- The slot that ReadRange takes byte x from: the highest-indexed VALID slot below F_SLOTS_USED whose chunk covers x
(42_fee.md R213). -/
def State.byteHolder (s : State) (x : Nat) : Option Nat :=
  ((List.range s.f.slotsUsed.toNat).filter fun i =>
    s.slotStateAt i == .valid && decide (s.slotKeyAt i ≤ x ∧ x < s.slotKeyAt i + s.params.payload)).getLast?

/-- The value of logical byte x (42_fee.md R213, R229). -/
def State.feeByte (s : State) (x : Nat) : Byte :=
  match s.byteHolder x with
  | some i => ((s.slotPayloadAt i)[x - s.slotKeyAt i]?).getD erasedByte
  | none => erasedByte

/-- The slot that holds a chunk: the highest-indexed VALID slot below F_SLOTS_USED with its key (42_fee.md R209). -/
def State.chunkHolder (s : State) (key : Nat) : Option Nat :=
  ((List.range s.f.slotsUsed.toNat).filter
    (fun i => s.slotStateAt i == .valid && s.slotKeyAt i == key)).getLast?

/-- The payload a chunk has: its holder's, or all ones (42_fee.md R211). -/
def State.chunkValue (s : State) (key : Nat) : List Byte :=
  match s.chunkHolder key with
  | some i => s.slotPayloadAt i
  | none => fill erasedByte s.params.payload

/-- Byte x as the chunk it belongs to holds it (42_fee.md R211, R229). -/
def State.chunkByte (s : State) (x : Nat) : Byte :=
  ((s.chunkValue (x / s.params.payload * s.params.payload))[x % s.params.payload]?).getD erasedByte

/-- The keys of the emulated space that some slot holds, in ascending order: the live chunks (43_fee_gc.md R243). -/
def State.liveKeys (s : State) : List Nat := s.chunkKeys.filter (fun k => (s.chunkHolder k).isSome)

/-- Every VALID slot below F_SLOTS_USED carries a chunk's key (43_fee_gc.md R251: every key the block writes is a
multiple of P). -/
def State.keysAligned (s : State) : Prop :=
  ∀ i, i < s.f.slotsUsed.toNat → s.slotStateAt i = .valid → s.slotKeyAt i % s.params.payload = 0

/-- The bytes of the active arena from slot F_SLOTS_USED up to the arena's end are erased (42_fee.md R201). -/
def State.erasedAbove (s : State) : Prop :=
  ∀ x, s.f.slotBase s.f.active s.f.slotsUsed.toNat ≤ x → x < s.f.arenaBase s.f.active + s.f.arenaBytes.toNat →
    s.devF.cur.byteAt x = erasedByte

/-- The FEE unit's content is one that the block's own commands leave. -/
def State.feeSound (s : State) : Prop :=
  s.memoryCanonical = true ∧ s.feeLaidOut ∧ s.f.slotsUsed.toNat ≤ s.f.numSlots.toNat ∧ s.keysAligned ∧ s.erasedAbove

/-- The new byte k of a WRITE or an ERASE: BUF's, or the fill pattern (42_fee.md R222, R223). The command is one of the
two, and WRITE's length fits BUF. -/
def State.feeNewBytes (s : State) (i : Instr) (h : HostId) (nb : Nat → Byte) : Prop :=
  (i = .feeWrite h ∧ s.opLen ≤ s.params.bufBytes ∧ nb = fun k => s.bufByte k) ∨ (i = .feeErase h ∧ nb = fun _ => erasedByte)

/-- The device bytes after Format (42_fee.md R206): both arenas erased, both headers written, arena 0 marked ACTIVE. -/
def formattedBytes (p : Params) (ab : Nat) (f : Nat → Byte) : Nat → Byte :=
  overlayBytes
    (overlayBytes (overlayBytes (eraseBytes f 0 (2 * ab)) 0 (headerImage p)) ab (headerImage p))
    (headerMark0 p.widthF) (fill 0 p.widthF.bytes)

/-- A VALID slot record with a key and a payload (30_encoding.md R114, R117). -/
def validRecord (p : Params) (slotSize key : Nat) (payload : List Byte) : List Byte :=
  FeeMark.encode p.widthF .second
    ++ fill erasedByte (slotKeyOffset p.widthF - 2 * p.widthF.bytes)
    ++ leBytes 4 key
    ++ payload
    ++ fill erasedByte (slotSize - slotPayloadOffset p.widthF - p.payload)

/-! ### What the Mirror device content means (30_encoding.md R112, 41_mirror.md R162 to R167) -/

/-- Log entry k, as CUR holds it. -/
def State.logEntryAt (s : State) (k : Nat) : List Byte :=
  s.devM.cur.bytesAt (k * s.params.widthM.bytes) s.params.widthM.bytes

/-- The header log is `n` recognised entries, of which the last is `last`, and erased entries after them. -/
def State.logEndsWith (s : State) (n : Nat) (last : LogMark) : Prop :=
  1 ≤ n ∧ n ≤ s.logEntries
    ∧ (∀ k, k < n → ∃ x, x ≠ LogMark.unused ∧ s.logEntryAt k = x.encode s.params.widthM)
    ∧ s.logEntryAt (n - 1) = last.encode s.params.widthM
    ∧ ∀ k, n ≤ k → k < s.logEntries → s.logEntryAt k = fill erasedByte s.params.widthM.bytes

/-- M_STATE_ADDR names a log entry, and every entry after it is erased. -/
def State.logReady (s : State) : Prop :=
  s.logPlaced
    ∧ ∀ k, s.logPosition < k → k < s.logEntries → s.logEntryAt k = fill erasedByte s.params.widthM.bytes

/-- The Mirror unit's content is one that the block's own commands leave, whatever the two copies hold. -/
def State.mirrorSound (s : State) : Prop := s.memoryCanonical = true ∧ s.mirrorLaidOut ∧ s.logReady

/-- MarkAppend on a log position and the device's bytes: the next entry takes the mark, or, at the end of the header
span, the header is erased first and entry 0 takes it (41_mirror.md R162). -/
def State.logStep (s : State) (x : LogMark) (p : Nat × (Nat → Byte)) : Nat × (Nat → Byte) :=
  let w := s.params.widthM
  if p.1 + 1 < s.logEntries then (p.1 + 1, overlayBytes p.2 ((p.1 + 1) * w.bytes) (x.encode w))
  else (0, overlayBytes (eraseBytes p.2 0 s.m.hdrBytes.toNat) 0 (x.encode w))

/-- The device's bytes with logical [addr, addr+n) changed in both mirror copies; `new k b` is the new value of byte k
of the range where b stood (41_mirror.md R167). -/
def State.mirrorMutated (s : State) (addr n : Nat) (new : Nat → Byte → Byte) : Nat → Byte :=
  fun x =>
    let a := s.m.aOrg.toNat + addr
    let b := s.m.bOrg.toNat + addr
    if a ≤ x ∧ x < a + n then new (x - a) (s.devM.cur.byteAt x)
    else if b ≤ x ∧ x < b + n then new (x - b) (s.devM.cur.byteAt x)
    else s.devM.cur.byteAt x

/-- The state `t` after a mutating Mirror command that completed on state `s`: the three log entries, the change in both
copies, and nothing else (41_mirror.md R176 to R178). -/
def State.mirrorCommitted (s t : State) (addr n : Nat) (new : Nat → Byte → Byte) : Prop :=
  let r := s.logStep .synced (s.logStep .dirtyB (s.logStep .dirtyA (s.logPosition, s.mirrorMutated addr n new)))
  s.devM.settledAs t.devM r.2
    ∧ t = { s with
        devM := t.devM
        m := { s.m with state := .synced, stateAddr := BitVec.ofNat 32 (r.1 * s.params.widthM.bytes) }
        status := s.status.completed .ok }

/-- The Mirror state as MIRROR.START sees it after its geometry step (41_mirror.md R170). -/
def State.mirrorGeometrySet (s : State) : State := { s with m := s.m.withGeometry s.devM.info s.opCfg }

/-- The FEE state as FEE.START sees it after its geometry step (42_fee.md R214). -/
def State.feeGeometrySet (s : State) : State := { s with f := s.f.withGeometry s.params s.devF.info }

/-- The state `t` after a MIRROR.START that completed on state `s`, with these log position and device bytes
(41_mirror.md R166, R173). -/
def State.mirrorStarted (s t : State) (r : Nat × (Nat → Byte)) : Prop :=
  s.devM.settledAs t.devM r.2
    ∧ t = { s with
        devM := t.devM
        m := { s.mirrorGeometrySet.m with
          drv := .ready
          state := .synced
          stateAddr := BitVec.ofNat 32 (r.1 * s.params.widthM.bytes)
          recover := false }
        status := s.status.completed .ok }

/-- The content of mirror_a, as CUR holds it. -/
def State.mirrorA (s : State) : List Byte := s.devM.cur.bytesAt s.m.aOrg.toNat s.m.size.toNat

/-- The content of mirror_b, as CUR holds it. -/
def State.mirrorB (s : State) : List Byte := s.devM.cur.bytesAt s.m.bOrg.toNat s.m.size.toNat

/-- The command is MIRROR.WRITE, ERASE or MASS_ERASE by host h, which changes logical [addr, addr+n): `new k b` is the
new value of byte k of the range where b stood (41_mirror.md R176 to R178). -/
def State.mirrorChange (s : State) (i : Instr) (h : HostId) (addr n : Nat) (new : Nat → Byte → Byte) : Prop :=
  (i = .mirrorWrite h ∧ addr = s.opAddr ∧ n = s.opLen ∧ new = fun k b => b &&& s.bufByte k)
    ∨ (i = .mirrorErase h ∧ addr = s.opAddr ∧ n = s.opLen ∧ new = fun _ _ => erasedByte)
    ∨ (i = .mirrorMassErase h ∧ addr = 0 ∧ n = s.m.size.toNat ∧ new = fun _ _ => erasedByte)

/-- The content of mirror_a with that change made: V' of 41_mirror.md R183. -/
def State.mirrorAWith (s : State) (addr n : Nat) (new : Nat → Byte → Byte) : List Byte :=
  (List.range s.m.size.toNat).map fun x =>
    if addr ≤ x ∧ x < addr + n then new (x - addr) (s.devM.cur.byteAt (s.m.aOrg.toNat + x))
    else s.devM.cur.byteAt (s.m.aOrg.toNat + x)

/-- The commands that mutate the mirror region (41_mirror.md R176 to R178). -/
def mutatesMirror (i : Instr) : Prop :=
  ∃ h, i = .mirrorWrite h ∨ i = .mirrorErase h ∨ i = .mirrorMassErase h

/-- DEV_M before and after something other than a mutating Mirror command, with these parameters: a power loss while no
command runs, or any other command, however it ends; a MIRROR.START among them has this header sector count. -/
def Device.mirrorPassesTo (p : Params) (cfg : Nat) (d d' : Device) : Prop :=
  ∃ x : State, x.params = p ∧ x.devM = d ∧
    ((∃ c, d' = (x.powerLoss c).devM)
      ∨ ∃ i y, ¬ mutatesMirror i ∧ ((∃ h, i = .mirrorStart h) → x.opCfg = cfg) ∧ exec i x = .next y ∧ d' = y.devM)

/-- The unit's state where a mutating Mirror command meets the premises of 41_mirror.md R183: it serves, PENDING is
empty, CUR is durable, the log ends with SYNCED at M_STATE_ADDR, and the two copies are equal. -/
def State.mirrorSettled (s : State) (h : HostId) : Prop :=
  s.serves .mirror h ∧ s.mirrorSound ∧ s.devM.pending = [] ∧ s.devM.dur = s.devM.cur
    ∧ s.logEndsWith (s.logPosition + 1) .synced ∧ s.mirrorA = s.mirrorB

/-- The claim of 41_mirror.md R183 about one command, started on `s` and ended somehow: after anything but another
mutating Mirror command, failed and cut STARTs included, a MIRROR.START that completes with OK leaves both copies equal,
at the old content or at the new. -/
def State.mirrorAtomic (s : State) (i : Instr) (addr n : Nat) (new : Nat → Byte → Byte) : Prop :=
  ∀ (t x y : State) (h : HostId) (cfg : Nat), exec i s = .next t →
    cfg * s.devM.info.sectorSize = s.m.hdrBytes.toNat →
    Relation.ReflTransGen (Device.mirrorPassesTo s.params cfg) t.devM x.devM →
    x.params = s.params → x.opCfg = cfg → exec (.mirrorStart h) x = .next y →
    y.m.drv = .ready → y.status.err = .ok →
    y.mirrorA = y.mirrorB ∧ (y.mirrorA = s.mirrorA ∨ y.mirrorA = s.mirrorAWith addr n new)

end Sys2Proof.Machine
end

