-- ==== Sys2Proof/Certificates/Slice0/Obligations.lean ====
section
/-! DEFINITION. The statements about the machine, for the provers. Each one's docstring names the rules of the spec it
formalises. Hypotheses are on the state and the operands alone. -/

open Sys2Proof Sys2Proof.Machine

/-! ### Command words -/

/-- 30_encoding.md R100 to R104: a word decodes to a command exactly when it is the command's encoding. -/
def Obligations.DecodeAndEncodeAgree : Prop :=
  ∀ (w : Word) (i : Instr), decode w = .ok i ↔ encode i = w

/-- 30_encoding.md R104: the table of the 24 command words; any other HID adds HID << 8; a decoder matches
`word & 0xFFFFF0FF` against the table's word. -/
def Obligations.ValidWordsAreTheTable : Prop :=
  (∀ h : HostId, let hid : Word := h.setWidth 32 <<< 8
    decode (0x00000000 + hid) = .ok (.mirrorInit h) ∧ decode (0x00000010 + hid) = .ok (.feeInit h)
    ∧ decode (0x00000001 + hid) = .ok (.mirrorObjectInit h) ∧ decode (0x00000011 + hid) = .ok (.feeObjectInit h)
    ∧ decode (0x00000002 + hid) = .ok (.mirrorStart h) ∧ decode (0x00000012 + hid) = .ok (.feeStart h)
    ∧ decode (0x00000003 + hid) = .ok (.mirrorStop h) ∧ decode (0x00000013 + hid) = .ok (.feeStop h)
    ∧ decode (0x00000004 + hid) = .ok (.mirrorRead h) ∧ decode (0x00000014 + hid) = .ok (.feeRead h)
    ∧ decode (0x00000005 + hid) = .ok (.mirrorWrite h) ∧ decode (0x00000015 + hid) = .ok (.feeWrite h)
    ∧ decode (0x00000006 + hid) = .ok (.mirrorErase h) ∧ decode (0x00000016 + hid) = .ok (.feeErase h)
    ∧ decode (0x00000007 + hid) = .ok (.mirrorMassErase h) ∧ decode (0x00000017 + hid) = .ok (.feeMassErase h)
    ∧ decode (0x00000008 + hid) = .ok (.mirrorSync h) ∧ decode (0x00000018 + hid) = .ok (.feeSync h)
    ∧ decode (0x00000009 + hid) = .ok (.mirrorGetInfo h) ∧ decode (0x00000019 + hid) = .ok (.feeGetInfo h)
    ∧ decode (0x0000000A + hid) = .ok (.mirrorAcquireBus h) ∧ decode (0x0000001A + hid) = .ok (.feeAcquireBus h)
    ∧ decode (0x0000000B + hid) = .ok (.mirrorReleaseBus h) ∧ decode (0x0000001B + hid) = .ok (.feeReleaseBus h))
  ∧ ∀ w : Word, (∃ i, decode w = .ok i) ↔
      w &&& 0xFFFFF0FF ∈ ([0x00, 0x01, 0x02, 0x03, 0x04, 0x05, 0x06, 0x07, 0x08, 0x09, 0x0A, 0x0B,
        0x10, 0x11, 0x12, 0x13, 0x14, 0x15, 0x16, 0x17, 0x18, 0x19, 0x1A, 0x1B] : List Word)

/-- 60_exceptions.md R301: an accepted word with OP ≥ 0xC, a reserved bit set or HID ≥ N_HOSTS completes with
ERR_ILLEGAL, whatever the locks and the driver states are, and only STATUS, CMD and the latches change. -/
def Obligations.IllegalWordChangesNothingElse : Prop :=
  ∀ (s : State) (h : HostId) (w : Word) (rest : List Input), h.toNat < s.params.nHosts →
    s.waiting = none → s.status.busy = false →
    s.inputs = .idle (.access h (.write .word s.params.blockBase w)) :: rest →
    State.uneventful { s with inputs := rest } = true →
    (0xC ≤ (w &&& 0xF).toNat ∨ w &&& 0xFFFFF0E0 ≠ 0 ∨ s.params.nHosts ≤ ((w >>> 8) &&& 0xF).toNat) →
    step s = .next { s with
      inputs := rest
      cmd := w
      latch := ⟨w, s.addr, s.len, s.cfg⟩
      status := ⟨false, true, s.status.overrun, .illegal⟩ }

/-- 44_dispatch_and_lock.md R270 to R272: an idle block accepts the word of a host's CMD write and latches the operands,
and the step is the meaning of the command the word decodes to; so it is for a word placed by `withFetchWord`.
30_encoding.md R103, 93_implementation_defined.md I12: so it is too for a host that forges another's HID, whose fault is
recorded. The form rests on the model's choice in assumptions 4, 6, 16 and 17. -/
def Obligations.StepRunsTheAcceptedCommand : Prop :=
  (∀ (s : State) (h : HostId) (w : Word) (rest : List Input) (i : Instr), h.toNat < s.params.nHosts →
    s.waiting = none → s.status.busy = false →
    s.inputs = .idle (.access h (.write .word s.params.blockBase w)) :: rest →
    decode w = .ok i → i.wf s.params.nHosts = true →
    step s = exec i { s with
      inputs := rest
      cmd := w
      latch := ⟨w, s.addr, s.len, s.cfg⟩
      status := ⟨true, false, s.status.overrun, .ok⟩
      forgers := if h = i.hid then s.forgers else h :: s.forgers })
  ∧ ∀ (s : State) (i : Instr), i.wf s.params.nHosts = true →
    step (s.withFetchWord 32 (encode i).toNat) = exec i { s with
      waiting := none
      cmd := encode i
      latch := ⟨encode i, s.addr, s.len, s.cfg⟩
      status := ⟨true, false, s.status.overrun, .ok⟩ }

/-- 44_dispatch_and_lock.md R270, 60_exceptions.md R320: a CMD write at a point of a running command sets OVERRUN and
is otherwise ignored. The form rests on the model's choice in assumptions 4 and 6. -/
def Obligations.CommandWriteWhileBusyOverruns : Prop :=
  ∀ (s : State) (op : Option (UnitId × PendOp)) (h : HostId) (w : Word) (rest : List Input),
    h.toNat < s.params.nHosts → s.inputs = .busy (.access h (.write .word s.params.blockBase w)) :: rest →
    point op s = point op { s with inputs := rest, status := { s.status with overrun := true } }

/-! ### Life cycle, SYNC, GET_INFO and the bus lock -/

/-- 41_mirror.md R171, R174; 42_fee.md R217, R220: INIT completes with OK in every driver state and changes nothing;
STOP sets DRV = STOP and changes nothing else. -/
def Obligations.InitAndStopChangeOnlyTheDriverState : Prop :=
  ∀ (u : UnitId) (h : HostId) (s : State), s.uneventful = true →
    (s.admits u h → exec (initOf u h) s = .next { s with status := ⟨false, true, s.status.overrun, .ok⟩ })
    ∧ (s.startable u h → exec (stopOf u h) s = .next ((s.setDrv u .stop).complete .ok))

/-- 41_mirror.md R172, 42_fee.md R218: OBJECT_INIT sets DRV = STOP and clears the unit's registers and cache; it changes
neither the lock nor F_GC_COUNT nor a device. -/
def Obligations.ObjectInitClearsTheUnit : Prop :=
  (∀ (h : HostId) (s : State), s.admits .mirror h → s.uneventful = true → stateRequirement (.mirrorObjectInit h) s →
    exec (.mirrorObjectInit h) s = .next (State.complete { s with
      m := { drv := .stop, state := .invalid, stateAddr := 0, hdrBytes := 0, sectors := 0, size := 0, aOrg := 0,
             bOrg := 0, lock := s.m.lock, recover := false, cache := ⟨0, 0, 0⟩ } } .ok))
  ∧ ∀ (h : HostId) (s : State), s.admits .fee h → s.uneventful = true → stateRequirement (.feeObjectInit h) s →
    exec (.feeObjectInit h) s = .next (State.complete { s with
      f := { drv := .stop, active := .a0, slotsUsed := 0, numSlots := 0, slotSize := 0, arenaBytes := 0,
             logicalSize := 0, state0 := .invalid, state1 := .invalid, lock := s.f.lock, recover := false,
             gcCount := s.f.gcCount, cache := ⟨0, 0, 0⟩ } } .ok)

/-- 41_mirror.md R179, 42_fee.md R225, 20_memory.md R66: SYNC of a READY unit, in any RECOVER state, makes CUR durable
and empties PENDING; if the device fails it, the command ends with ERR_DEV and nothing else changes. The form rests on
the model's choice in assumption 4. -/
def Obligations.SyncMakesTheDeviceDurable : Prop :=
  (∀ (u : UnitId) (h : HostId) (s : State), s.admits u h → s.drv u = .ready → s.undisturbed = true →
    exec (syncOf u h) s = .next ((s.setDev u { s.dev u with dur := (s.dev u).cur, pending := [] }).complete .ok))
  ∧ ∀ (u : UnitId) (h : HostId) (s : State) (t : Torn) (rest : List Input), s.admits u h → s.drv u = .ready →
    s.inputs = .dev (.fail t) :: rest → State.uneventful { s with inputs := rest } = true →
    exec (syncOf u h) s = .next (State.complete { s with inputs := rest } .dev)

/-- 41_mirror.md R180, 42_fee.md R226: MIRROR.GET_INFO reports the device's sector size and write alignment, and
M_SECTORS; FEE.GET_INFO reports P, F_NUM_SLOTS and 1; both put the device's identification into BUF. -/
def Obligations.GetInfoReportsTheUnit : Prop :=
  ∀ (h : HostId) (s : State), s.uneventful = true →
    (s.admits .mirror h → s.m.drv = .ready → s.devM.info.ident.length ≤ s.params.bufBytes →
      exec (.mirrorGetInfo h) s = .next (State.complete { s.setBuf 0 s.devM.info.ident with
        info := ⟨BitVec.ofNat 32 s.devM.info.sectorSize, s.m.sectors, BitVec.ofNat 32 s.devM.info.writeAlign,
          BitVec.ofNat 32 s.devM.info.ident.length⟩ } .ok))
    ∧ (s.admits .fee h → s.f.drv = .ready → s.devF.info.ident.length ≤ s.params.bufBytes →
      exec (.feeGetInfo h) s = .next (State.complete { s.setBuf 0 s.devF.info.ident with
        info := ⟨BitVec.ofNat 32 s.params.payload, s.f.numSlots, 1, BitVec.ofNat 32 s.devF.info.ident.length⟩ } .ok))

/-- 44_dispatch_and_lock.md R278, R280: ACQUIRE_BUS takes a free lock and the device's ownership; by the owner it
counts one more, up to LOCK_MAX, and leaves the device alone. The form rests on the model's choice in assumption 19.
-/
def Obligations.AcquireTakesOrNestsTheLock : Prop :=
  (∀ (u : UnitId) (h : HostId) (s : State), s.startable u h → s.undisturbed = true → (s.lock u).count = 0 →
    s.waiting = none →
    exec (acquireOf u h) s =
      .next (((s.setDev u { s.dev u with owned := true }).setLock u ⟨1, h⟩).complete .ok))
  ∧ ∀ (u : UnitId) (h : HostId) (s : State), s.startable u h → s.uneventful = true → (s.lock u).count ≠ 0 →
    (s.lock u).count.toNat ≠ s.params.lockMax →
    exec (acquireOf u h) s = .next ((s.setLock u ⟨(s.lock u).count + 1, (s.lock u).owner⟩).complete .ok)

/-- 20_memory.md R72, 44_dispatch_and_lock.md R275, R280: while the device withholds ownership, ACQUIRE_BUS stays BUSY
and nothing changes; when it grants it, the command completes with the lock taken. The form rests on the model's
choice in assumptions 6, 10 and 19. -/
def Obligations.AcquireWaitsForTheDevice : Prop :=
  (∀ (u : UnitId) (h : HostId) (s : State) (t : Torn) (rest : List Input), s.startable u h → (s.lock u).count = 0 →
    s.inputs = .dev (.fail t) :: rest →
    exec (acquireOf u h) s = .next { s with inputs := rest, waiting := some (u, h) })
  ∧ (∀ (u : UnitId) (h : HostId) (s : State) (t : Torn) (rest : List Input), s.waiting = some (u, h) →
    s.inputs = .dev (.fail t) :: rest → step s = .next { s with inputs := rest })
  ∧ ∀ (u : UnitId) (h : HostId) (s : State) (rest : List Input), s.waiting = some (u, h) →
    s.inputs = .dev .ok :: rest → State.uneventful { s with inputs := rest } = true →
    step s = .next (State.complete
      { (s.setDev u { s.dev u with owned := true }).setLock u ⟨1, h⟩ with inputs := rest, waiting := none } .ok)

/-- 44_dispatch_and_lock.md R279, R280: RELEASE_BUS counts one less; the last one frees the lock and gives up the
device's ownership. The form rests on the model's choice in assumption 19. -/
def Obligations.ReleaseCountsDown : Prop :=
  ∀ (u : UnitId) (h : HostId) (s : State), s.startable u h → s.uneventful = true → (s.lock u).count ≠ 0 →
    exec (releaseOf u h) s =
      if (s.lock u).count = 1 then .next (((s.setLock u ⟨0, 0⟩).setDev u { s.dev u with owned := false }).complete .ok)
      else .next ((s.setLock u ⟨(s.lock u).count - 1, (s.lock u).owner⟩).complete .ok)

/-! ### Errors -/

/-- 60_exceptions.md R302: a command whose unit's lock another host holds completes with ERR_LOCKED, and nothing
changes. -/
def Obligations.LockedCommandIsRefused : Prop :=
  ∀ (i : Instr) (s : State), 0 < (s.lock i.unit).count.toNat → (s.lock i.unit).owner ≠ i.hid → s.uneventful = true →
    exec i s = .next (s.complete .locked)

/-- 60_exceptions.md R303: ERR_STATE where the table of 44_dispatch_and_lock.md R274 is not met, where ACQUIRE_BUS would
exceed LOCK_MAX, and where RELEASE_BUS finds the lock free; nothing changes. -/
def Obligations.WrongStateIsRefused : Prop :=
  ∀ (s : State), s.uneventful = true →
    (∀ i, s.admits i.unit i.hid → ¬ stateRequirement i s → exec i s = .next (s.complete .state))
    ∧ (∀ u h, s.startable u h → (s.lock u).count ≠ 0 → (s.lock u).count.toNat = s.params.lockMax →
        exec (acquireOf u h) s = .next (s.complete .state))
    ∧ ∀ u h, s.startable u h → (s.lock u).count = 0 → exec (releaseOf u h) s = .next (s.complete .state)

/-- 60_exceptions.md R305: ERR_RANGE where addr + n, computed without wrap, passes the unit's logical size, and for READ
and WRITE where n > BUF_BYTES; nothing changes. -/
def Obligations.OutOfRangeIsRefused : Prop :=
  ∀ (u : UnitId) (h : HostId) (s : State), s.serves u h → s.uneventful = true →
    let size := match u with
      | .mirror => s.m.size.toNat
      | .fee => s.f.logicalSize.toNat
    (size < s.latch.addr.toNat + s.latch.len.toNat →
      exec (readOf u h) s = .next (s.complete .range) ∧ exec (writeOf u h) s = .next (s.complete .range)
        ∧ exec (eraseOf u h) s = .next (s.complete .range))
    ∧ (s.params.bufBytes < s.latch.len.toNat →
      exec (readOf u h) s = .next (s.complete .range) ∧ exec (writeOf u h) s = .next (s.complete .range))

/-- 60_exceptions.md R306: ERR_ALIGN where MIRROR.WRITE's operands are not multiples of WA or MIRROR.ERASE's not
multiples of SS, and nothing changes; no FEE command raises it. -/
def Obligations.MisalignedMirrorIsRefused : Prop :=
  (∀ (h : HostId) (s : State), s.serves .mirror h → s.uneventful = true → s.opAddr + s.opLen ≤ s.m.size.toNat →
    (s.opLen ≤ s.params.bufBytes →
      (s.opAddr % s.m.cache.writeAlign ≠ 0 ∨ s.opLen % s.m.cache.writeAlign ≠ 0) →
      exec (.mirrorWrite h) s = .next (s.complete .align))
    ∧ ((s.opAddr % s.m.cache.sectorSize ≠ 0 ∨ s.opLen % s.m.cache.sectorSize ≠ 0) →
      exec (.mirrorErase h) s = .next (s.complete .align)))
  ∧ ∀ (i : Instr) (s t : State), i.unit = .fee → exec i s = .next t → s.status.err ≠ .align → t.status.err ≠ .align

/-- 60_exceptions.md R307: ERR_CONFIG is raised only by START, when a check of the unit's geometry fails; no geometry
register is written and DRV is left at STOP. Whatever hosts and devices do meanwhile, a command that ends with it is a
START whose check failed. -/
def Obligations.UnfitDeviceIsRefused : Prop :=
  (∀ (h : HostId) (s : State), s.startable .mirror h → s.uneventful = true →
    mirrorFits s.params s.devM.info s.opCfg = false →
    exec (.mirrorStart h) s = .next ((s.setDrv .mirror .stop).complete .config))
  ∧ (∀ (h : HostId) (s : State), s.startable .fee h → s.uneventful = true → feeFits s.params s.devF.info = false →
    exec (.feeStart h) s = .next ((s.setDrv .fee .stop).complete .config))
  ∧ ∀ (i : Instr) (s t : State), exec i s = .next t → s.status.err ≠ .config → t.status.err = .config →
    (∃ h, i = .mirrorStart h ∧ mirrorFits s.params s.devM.info s.opCfg = false
        ∧ t.m = { s.m with drv := .stop } ∧ t.devM = s.devM)
      ∨ ∃ h, i = .feeStart h ∧ feeFits s.params s.devF.info = false
        ∧ t.f = { s.f with drv := .stop } ∧ t.devF = s.devF

/-- 10_state.md R36, 60_exceptions.md R304: a command that ends with ERR_DEV sets its unit's RECOVER if it is START,
WRITE, ERASE or MASS_ERASE, and leaves it otherwise, and a START then leaves DRV = STOP; only a START of the unit that
completes with OK, or its OBJECT_INIT, clears RECOVER, and each of them does. -/
def Obligations.RecoverFollowsDeviceFailures : Prop :=
  (∀ (i : Instr) (s t : State), exec i s = .next t → s.status.err ≠ .dev → t.status.err = .dev →
    t.recover i.unit = (setsRecover i || s.recover i.unit) ∧ (∀ h, i = startOf i.unit h → t.drv i.unit = .stop))
  ∧ (∀ (i : Instr) (s t : State) (u : UnitId), s.noPowerLoss = true → exec i s = .next t →
    s.recover u = true → t.recover u = false →
    (∃ h, i = startOf u h ∨ i = objectInitOf u h) ∧ t.status.err = .ok)
  ∧ ∀ (s t : State) (u : UnitId) (h : HostId), s.noPowerLoss = true →
    (exec (startOf u h) s = .next t ∨ exec (objectInitOf u h) s = .next t) → t.status.err = .ok →
    t.recover u = false

/-- 30_encoding.md R105, 10_state.md R25, 20_memory.md R75: READ, WRITE and ERASE of no byte pass their checks and change
nothing. -/
def Obligations.ZeroLengthHasNoEffect : Prop :=
  ∀ (h : HostId) (s : State), s.uneventful = true → s.opLen = 0 →
    (s.serves .mirror h → s.opAddr ≤ s.m.size.toNat →
      exec (.mirrorRead h) s = .next (s.complete .ok)
      ∧ (s.opAddr % s.m.cache.writeAlign = 0 → exec (.mirrorWrite h) s = .next (s.complete .ok))
      ∧ (s.opAddr % s.m.cache.sectorSize = 0 → exec (.mirrorErase h) s = .next (s.complete .ok)))
    ∧ (s.serves .fee h → s.opAddr ≤ s.f.logicalSize.toNat →
      exec (.feeRead h) s = .next (s.complete .ok) ∧ exec (.feeWrite h) s = .next (s.complete .ok)
        ∧ exec (.feeErase h) s = .next (s.complete .ok))

/-! ### The Mirror engine -/

/-- 41_mirror.md R167, R175: MIRROR.READ puts mirror_a's bytes into BUF and changes nothing else. -/
def Obligations.MirrorReadReturnsMirrorA : Prop :=
  ∀ (h : HostId) (s : State), s.serves .mirror h → s.undisturbed = true → s.mirrorLaidOut →
    s.opLen ≤ s.params.bufBytes → s.opAddr + s.opLen ≤ s.m.size.toNat →
    exec (.mirrorRead h) s =
      .next ((s.setBuf 0 ((List.range s.opLen).map fun k => s.devM.cur.byteAt (s.m.aOrg.toNat + s.opAddr + k))).complete
        .ok)

/-- 41_mirror.md R162, R176; 20_memory.md R64, R84: MIRROR.WRITE appends DIRTY_A, DIRTY_B and SYNCED to the log (wrapping
where the header span is full), puts BUF's bytes into both copies, and changes nothing else, where the device takes the
data: it sets no 0 bit, or DEV_OVERWRITE = and. -/
def Obligations.MirrorWriteStoresBothCopies : Prop :=
  ∀ (h : HostId) (s : State), s.serves .mirror h → s.undisturbed = true → s.mirrorSound → 1 ≤ s.opLen →
    s.opLen ≤ s.params.bufBytes → s.opAddr + s.opLen ≤ s.m.size.toNat →
    s.opAddr % s.m.cache.writeAlign = 0 → s.opLen % s.m.cache.writeAlign = 0 →
    (s.params.overwrite = .and ∨ ∀ k, k < s.opLen →
      s.bufByte k &&& ~~~ s.devM.cur.byteAt (s.m.aOrg.toNat + s.opAddr + k) = 0
        ∧ s.bufByte k &&& ~~~ s.devM.cur.byteAt (s.m.bOrg.toNat + s.opAddr + k) = 0) →
    ∃ t, exec (.mirrorWrite h) s = .next t ∧ s.mirrorCommitted t s.opAddr s.opLen (fun k b => b &&& s.bufByte k)

/-- 20_memory.md R84, 70_reset_and_hazards.md R356: a MIRROR.WRITE that asks mirror_a to set a 0 bit is a fault under
DEV_OVERWRITE = fault, and a device failure in mirror_a, with DIRTY_A marked and RECOVER set, under DEV_OVERWRITE =
fail. The form rests on the model's choice in assumption 9. -/
def Obligations.MirrorOverwriteFollowsTheParameter : Prop :=
  ∀ (h : HostId) (s : State), s.serves .mirror h → s.undisturbed = true → s.mirrorSound → 1 ≤ s.opLen →
    s.opLen ≤ s.params.bufBytes → s.opAddr + s.opLen ≤ s.m.size.toNat →
    s.opAddr % s.m.cache.writeAlign = 0 → s.opLen % s.m.cache.writeAlign = 0 →
    (∃ k, k < s.opLen ∧ s.bufByte k &&& ~~~ s.devM.cur.byteAt (s.m.aOrg.toNat + s.opAddr + k) ≠ 0) →
    (s.params.overwrite = .fault → exec (.mirrorWrite h) s = .fault .overwrite)
    ∧ (s.params.overwrite = .fail → ∃ t, exec (.mirrorWrite h) s = .next t ∧ t.status.err = .dev
        ∧ t.m.recover = true ∧ t.m.state = .dirtyA
        ∧ ∀ x, s.m.bOrg.toNat ≤ x → x < s.m.bOrg.toNat + s.m.size.toNat → t.devM.cur.byteAt x = s.devM.cur.byteAt x)

/-- 41_mirror.md R162, R177, R178: MIRROR.ERASE and MIRROR.MASS_ERASE append DIRTY_A, DIRTY_B and SYNCED to the log,
erase the range, or the whole, of both copies, and change nothing else. -/
def Obligations.MirrorEraseErasesBothCopies : Prop :=
  ∀ (h : HostId) (s : State), s.serves .mirror h → s.undisturbed = true → s.mirrorSound →
    (1 ≤ s.opLen → s.opAddr + s.opLen ≤ s.m.size.toNat →
      s.opAddr % s.m.cache.sectorSize = 0 → s.opLen % s.m.cache.sectorSize = 0 →
      ∃ t, exec (.mirrorErase h) s = .next t ∧ s.mirrorCommitted t s.opAddr s.opLen (fun _ _ => erasedByte))
    ∧ ∃ t, exec (.mirrorMassErase h) s = .next t
        ∧ s.mirrorCommitted t 0 s.m.size.toNat (fun _ _ => erasedByte)

/-- 41_mirror.md R164, R166, R170, R173: on a log that ends with SYNCED, MIRROR.START sets the geometry, finds the last
entry, and changes no device byte. -/
def Obligations.MirrorStartKeepsASyncedLog : Prop :=
  ∀ (h : HostId) (s : State) (n : Nat), s.startable .mirror h → s.undisturbed = true → s.memoryCanonical = true →
    mirrorFits s.params s.devM.info s.opCfg = true → s.mirrorGeometrySet.logEndsWith n .synced →
    ∃ t, exec (.mirrorStart h) s = .next t ∧ s.mirrorStarted t (n - 1, s.devM.cur.byteAt)

/-- 41_mirror.md R164 to R166, R173: on a log that ends with DIRTY_A, MIRROR.START copies mirror_b over mirror_a, and on
one that ends with DIRTY_B mirror_a over mirror_b; then it appends SYNCED. -/
def Obligations.MirrorStartRepairsADirtyLog : Prop :=
  ∀ (h : HostId) (s : State) (n : Nat), s.startable .mirror h → s.undisturbed = true → s.memoryCanonical = true →
    mirrorFits s.params s.devM.info s.opCfg = true →
    let g := s.mirrorGeometrySet
    (g.logEndsWith n .dirtyA → ∃ t, exec (.mirrorStart h) s = .next t ∧ s.mirrorStarted t (g.logStep .synced
      (n - 1, copyBytes s.devM.cur.byteAt g.m.bOrg.toNat g.m.aOrg.toNat g.m.size.toNat)))
    ∧ (g.logEndsWith n .dirtyB → ∃ t, exec (.mirrorStart h) s = .next t ∧ s.mirrorStarted t (g.logStep .synced
      (n - 1, copyBytes s.devM.cur.byteAt g.m.aOrg.toNat g.m.bOrg.toNat g.m.size.toNat)))

/-- 41_mirror.md R163 to R166, 70_reset_and_hazards.md R344, R345: where the header holds no valid log, MIRROR.START
copies mirror_a over mirror_b and resets the log to one SYNCED entry. -/
def Obligations.MirrorStartResetsAnInvalidLog : Prop :=
  ∀ (h : HostId) (s : State), s.startable .mirror h → s.undisturbed = true → s.memoryCanonical = true →
    mirrorFits s.params s.devM.info s.opCfg = true →
    let g := s.mirrorGeometrySet
    (¬ ∃ n last, g.logEndsWith n last) →
    ∃ t, exec (.mirrorStart h) s = .next t ∧ s.mirrorStarted t
      (0, overlayBytes (eraseBytes (copyBytes s.devM.cur.byteAt g.m.aOrg.toNat g.m.bOrg.toNat g.m.size.toNat)
        0 g.m.hdrBytes.toNat) 0 (LogMark.synced.encode s.params.widthM))

/-- 41_mirror.md R183 where the log does not wrap between DIRTY_A and DIRTY_B: let a MIRROR.WRITE, ERASE or MASS_ERASE
start on a settled unit, meet any schedule of device failures, host accesses and power loss, and end somehow; then, after
any power losses and any other commands, failed and cut STARTs among them, a MIRROR.START that completes with OK leaves
both copies equal, at the old or at the new content. The DIRTY_B mark wraps where DIRTY_A takes the log's last entry,
which the premise on M_STATE_ADDR excludes (assumption 25). -/
def Obligations.MirrorWriteIsAtomicWithLogRoom : Prop :=
  ∀ (s : State) (i : Instr) (h : HostId) (addr n : Nat) (new : Nat → Byte → Byte), s.mirrorSettled h →
    s.mirrorChange i h addr n new → s.logPosition + 2 ≠ s.logEntries → s.mirrorAtomic i addr n new

/-- 41_mirror.md R183 as the spec derives it, with no condition on the log. NOT expected to hold: where DIRTY_A took the
log's last entry, DIRTY_B erases the header first, and a power loss in that erase can leave a log that ends with an older
SYNCED while mirror_a is new and mirror_b old (assumption 25). -/
def Obligations.MirrorWriteIsAtomicAcrossAWrap : Prop :=
  ∀ (s : State) (i : Instr) (h : HostId) (addr n : Nat) (new : Nat → Byte → Byte), s.mirrorSettled h →
    s.mirrorChange i h addr n new → s.mirrorAtomic i addr n new

/-! ### The FEE engine -/

/-- 42_fee.md R213, R221, R229: FEE.READ puts into BUF, for each byte of the range, the byte of the last VALID slot that
covers it, 0xFF where none does, and changes nothing else. -/
def Obligations.FeeReadReturnsTheLastValues : Prop :=
  ∀ (h : HostId) (s : State), s.serves .fee h → s.undisturbed = true → s.feeLaidOut →
    s.f.slotsUsed.toNat ≤ s.f.numSlots.toNat → s.opLen ≤ s.params.bufBytes →
    s.opAddr + s.opLen ≤ s.f.logicalSize.toNat →
    exec (.feeRead h) s =
      .next ((s.setBuf 0 ((List.range s.opLen).map fun k => s.feeByte (s.opAddr + k))).complete .ok)

/-- 42_fee.md R211, R222, R223: a FEE.WRITE or FEE.ERASE whose bytes the emulated space holds already appends nothing and
changes nothing. -/
def Obligations.FeeWriteOfEqualBytesDoesNothing : Prop :=
  ∀ (h : HostId) (s : State) (i : Instr) (nb : Nat → Byte), s.serves .fee h → s.undisturbed = true → s.feeLaidOut →
    s.f.slotsUsed.toNat ≤ s.f.numSlots.toNat → s.opAddr + s.opLen ≤ s.f.logicalSize.toNat → s.feeNewBytes i h nb →
    (∀ k, k < s.opLen → nb k = s.chunkByte (s.opAddr + k)) →
    exec i s = .next (s.complete .ok)

/-- 42_fee.md R210, R211, R222, R223; 30_encoding.md R117, R118: a FEE.WRITE or FEE.ERASE that changes one chunk, with a
free slot, writes one VALID record with the chunk's key and merged payload into slot F_SLOTS_USED, counts it, and changes
nothing else. -/
def Obligations.FeeWriteAppendsOneSlot : Prop :=
  ∀ (h : HostId) (s : State) (i : Instr) (nb : Nat → Byte), s.serves .fee h → s.undisturbed = true → s.feeSound →
    1 ≤ s.opLen → s.opAddr + s.opLen ≤ s.f.logicalSize.toNat → s.feeNewBytes i h nb →
    s.opAddr % s.params.payload + s.opLen ≤ s.params.payload →
    (∃ k, k < s.opLen ∧ nb k ≠ s.chunkByte (s.opAddr + k)) →
    s.f.slotsUsed.toNat < s.f.numSlots.toNat →
    let key := s.opAddr / s.params.payload * s.params.payload
    let record := validRecord s.params s.f.slotSize.toNat key ((List.range s.params.payload).map fun j =>
      if s.opAddr ≤ key + j ∧ key + j < s.opAddr + s.opLen then nb (key + j - s.opAddr) else s.chunkByte (key + j))
    ∃ t, exec i s = .next t
      ∧ s.devF.settledAs t.devF
          (overlayBytes s.devF.cur.byteAt (s.f.slotBase s.f.active s.f.slotsUsed.toNat) record)
      ∧ t = { s with
          devF := t.devF
          f := { s.f with slotsUsed := s.f.slotsUsed + 1 }
          status := s.status.completed .ok }

/-- 43_fee_gc.md R240 to R243, R251: a FEE.WRITE or FEE.ERASE that changes one chunk of a full arena collects first: the
arenas change roles, F_GC_COUNT counts one more, and the number of slots in use is that of the live chunks other than
the written one, plus one for its new record. What the slots hold is FeeWriteReadsBack's. -/
def Obligations.FeeFullArenaIsCollected : Prop :=
  ∀ (h : HostId) (s : State) (i : Instr) (nb : Nat → Byte), s.serves .fee h → s.undisturbed = true → s.feeSound →
    1 ≤ s.opLen → s.opAddr + s.opLen ≤ s.f.logicalSize.toNat → s.feeNewBytes i h nb →
    s.opAddr % s.params.payload + s.opLen ≤ s.params.payload →
    (∃ k, k < s.opLen ∧ nb k ≠ s.chunkByte (s.opAddr + k)) →
    s.f.slotsUsed = s.f.numSlots →
    let key := s.opAddr / s.params.payload * s.params.payload
    ∃ t, exec i s = .next t ∧ t.status = s.status.completed .ok
      ∧ t.f.active = s.f.active.other ∧ t.f.gcCount = s.f.gcCount + 1
      ∧ t.f.slotsUsed.toNat = (s.liveKeys.filter (fun k => k != key)).length + 1
      ∧ t.f.arenaState s.f.active = .unused ∧ t.f.arenaState s.f.active.other = .active

/-- 42_fee.md R212, R222, R223, R229; 43_fee_gc.md R241 to R243: after a FEE.WRITE or FEE.ERASE, whatever it collects,
the range reads as the new bytes, every other byte of the emulated space as before, the unit's content is still sound,
and nothing outside the FEE unit's slots, arena states, GC count and device has changed. -/
def Obligations.FeeWriteReadsBack : Prop :=
  ∀ (h : HostId) (s : State) (i : Instr) (nb : Nat → Byte), s.serves .fee h → s.undisturbed = true → s.feeSound →
    s.opAddr + s.opLen ≤ s.f.logicalSize.toNat → s.feeNewBytes i h nb →
    ∃ t, exec i s = .next t ∧ t.feeSound
      ∧ (∀ x, x < s.f.logicalSize.toNat → t.feeByte x =
          if s.opAddr ≤ x ∧ x < s.opAddr + s.opLen then nb (x - s.opAddr) else s.feeByte x)
      ∧ t.devF.info = s.devF.info ∧ t.devF.owned = s.devF.owned
      ∧ (t.devF = s.devF ∨ t.devF.pending = [] ∧ t.devF.dur = t.devF.cur)
      ∧ t = { s with
          devF := t.devF
          f := { s.f with
            active := t.f.active
            slotsUsed := t.f.slotsUsed
            state0 := t.f.state0
            state1 := t.f.state1
            gcCount := t.f.gcCount }
          status := s.status.completed .ok }

/-- 42_fee.md R205, R206, R224: FEE.MASS_ERASE erases both arenas, writes both headers, makes arena 0 ACTIVE with no slot
in use, and changes nothing else. -/
def Obligations.FeeMassEraseFormats : Prop :=
  ∀ (h : HostId) (s : State), s.serves .fee h → s.undisturbed = true → s.memoryCanonical = true → s.feeLaidOut →
    ∃ t, exec (.feeMassErase h) s = .next t
      ∧ s.devF.settledAs t.devF (formattedBytes s.params s.f.arenaBytes.toNat s.devF.cur.byteAt)
      ∧ t = { s with
          devF := t.devF
          f := { s.f with active := .a0, slotsUsed := 0, state0 := .active, state1 := .unused }
          status := s.status.completed .ok }

/-- 42_fee.md R202, R207, R214, R215, R219: FEE.START on one ACTIVE and one UNUSED arena sets the geometry, adopts the
ACTIVE one with its slot count, and changes no device byte. -/
def Obligations.FeeStartAdoptsTheActiveArena : Prop :=
  ∀ (h : HostId) (s : State) (a : Arena), s.startable .fee h → s.undisturbed = true → s.params.wf = true →
    feeFits s.params s.devF.info = true →
    let g := s.feeGeometrySet
    g.headerAt a = .active → g.headerAt a.other = .unused →
    exec (.feeStart h) s = .next (State.complete { s with
      devF := { s.devF with dur := s.devF.cur, pending := [] }
      f := { (g.f.setArenaState a .active).setArenaState a.other .unused with
        drv := .ready
        active := a
        slotsUsed := BitVec.ofNat 32 (g.loadedSlots a)
        recover := false } } .ok)

/-- 42_fee.md R206, R215, R219; 70_reset_and_hazards.md R344, R345: FEE.START on any other pair of headers, with not
exactly one FROZEN, formats. -/
def Obligations.FeeStartFormatsOtherwise : Prop :=
  ∀ (h : HostId) (s : State), s.startable .fee h → s.undisturbed = true → s.memoryCanonical = true →
    s.params.wf = true → feeFits s.params s.devF.info = true →
    let g := s.feeGeometrySet
    (∀ a, ¬ (g.headerAt a = .active ∧ g.headerAt a.other = .unused)) →
    (∀ a, ¬ (g.headerAt a = .frozen ∧ g.headerAt a.other ≠ .frozen)) →
    ∃ t, exec (.feeStart h) s = .next t
      ∧ s.devF.settledAs t.devF (formattedBytes s.params g.f.arenaBytes.toNat s.devF.cur.byteAt)
      ∧ t = { s with
          devF := t.devF
          f := { g.f with
            drv := .ready
            active := .a0
            slotsUsed := 0
            state0 := .active
            state1 := .unused
            recover := false }
          status := s.status.completed .ok }

/-- 42_fee.md R215, R219; 43_fee_gc.md R241, R245: FEE.START on exactly one FROZEN arena completes the interrupted
collection: the other arena is ACTIVE with one slot for each live chunk of the FROZEN one, and every byte of the emulated
space reads as Lookup finds its chunk in the FROZEN arena; where every key there is a multiple of P, as the block writes
them, that is what a READ of the FROZEN arena gives. -/
def Obligations.FeeStartResumesTheCollection : Prop :=
  ∀ (h : HostId) (s : State) (a : Arena), s.startable .fee h → s.undisturbed = true → s.memoryCanonical = true →
    s.params.wf = true → feeFits s.params s.devF.info = true →
    let g := s.feeGeometrySet
    g.headerAt a = .frozen → g.headerAt a.other ≠ .frozen →
    let v : State := { g with f := { g.f with active := a, slotsUsed := BitVec.ofNat 32 (g.loadedSlots a) } }
    ∃ t, exec (.feeStart h) s = .next t ∧ t.feeSound
      ∧ (∀ x, x < t.f.logicalSize.toNat → t.feeByte x = v.chunkByte x)
      ∧ (v.keysAligned → ∀ x, x < t.f.logicalSize.toNat → t.feeByte x = v.feeByte x)
      ∧ t.devF.info = s.devF.info ∧ t.devF.owned = s.devF.owned ∧ t.devF.pending = [] ∧ t.devF.dur = t.devF.cur
      ∧ t = { s with
          devF := t.devF
          f := { (g.f.setArenaState a .unused).setArenaState a.other .active with
            drv := .ready
            active := a.other
            slotsUsed := BitVec.ofNat 32 v.liveKeys.length
            gcCount := s.f.gcCount + 1
            recover := false }
          status := s.status.completed .ok }

/-! ### Invariants of every step -/

/-- Every memory keeps its canonical form (the model's own form of CUR, DUR and BUF; 20_memory.md R62, R63). The form
rests on the model's choice in assumption 2. -/
def Obligations.StepKeepsMemoryCanonical : Prop :=
  ∀ s t : State, s.memoryCanonical = true → step s = .next t → t.memoryCanonical = true

/-- 44_dispatch_and_lock.md R277, R280: every step keeps both locks legal, and the devices owned exactly while their
locks are held. The form rests on the model's choice in assumption 19. -/
def Obligations.StepKeepsLocksLegal : Prop :=
  ∀ s t : State, s.locksLegal → step s = .next t → t.locksLegal

/-- 10_state.md R27, R49: between steps BUSY is 1 exactly while an ACQUIRE_BUS waits for its device.
44_dispatch_and_lock.md R274: with DRV = READY and RECOVER = 0, M_STATE is SYNCED. The form rests on the model's
choice in assumption 6. -/
def Obligations.StepKeepsBusyAndSyncedLegal : Prop :=
  ∀ s t : State, step s = .next t →
    (s.busyLegal → t.busyLegal) ∧ (s.mirrorReadyMeansSynced → t.mirrorReadyMeansSynced)

/-- 41_mirror.md R170, 42_fee.md R214: a READY unit's geometry is its device's; 10_state.md R33: M_STATE_ADDR of a READY
Mirror unit is the offset of an entry of the header log, a multiple of W_M below the log's end. -/
def Obligations.StepKeepsReadyUnitsLaidOut : Prop :=
  ∀ s t : State, s.readyLaidOut → step s = .next t → t.readyLaidOut

/-- 10_state.md R38, R39; 43_fee_gc.md R251: F_SLOTS_USED ≤ F_NUM_SLOTS and F_LOGICAL_SIZE = F_NUM_SLOTS × P. -/
def Obligations.StepKeepsSlotCountLegal : Prop :=
  ∀ s t : State, s.slotsLegal → step s = .next t → t.slotsLegal

/-- 20_memory.md R61, 10_state.md R22: no step changes the parameters or what a device reports of itself. The form
rests on the model's choice in assumption 1. -/
def Obligations.StepKeepsParametersAndDevices : Prop :=
  ∀ s t : State, step s = .next t →
    t.params = s.params ∧ t.devM.info = s.devM.info ∧ t.devF.info = s.devF.info

/-- The machine right after reset meets every invariant above. The form rests on the model's choice in assumptions 1
and 2. -/
def Obligations.ResetMeetsTheInvariants : Prop :=
  State.reset.memoryCanonical = true ∧ State.reset.locksLegal ∧ State.reset.busyLegal
    ∧ State.reset.mirrorReadyMeansSynced ∧ State.reset.readyLaidOut ∧ State.reset.slotsLegal

/-! ### Rules about all commands -/

/-- 20_memory.md R63 to R65, R74: under the invariants, whatever hosts, devices and power do, no command issues a
device operation outside the device's space or alignment, and none passes BUF's end. The form rests on the model's
choice in assumption 15. -/
def Obligations.CommandsMeetTheDeviceContract : Prop :=
  ∀ (i : Instr) (s : State), s.readyLaidOut → s.slotsLegal →
    exec i s ≠ .fault .deviceContract ∧ exec i s ≠ .fault .bufferBounds

/-- 20_memory.md R84, where the FEE unit's content is sound when it serves: no FEE command asks a device to set a 0 bit,
whatever hosts, devices and power do inside it. The premise says that, if the unit is READY with RECOVER = 0, the bytes
from slot F_SLOTS_USED on are erased and every VALID key is a multiple of P. It is a premise and no invariant: a
FEE.MASS_ERASE cut in its first erase and a START in its case 1 reach a serving unit without it, under ERASE_GRANULE =
bit, and under sector where SS is below 32 and does not divide 32 (assumption 27). The form rests on the model's choice in assumption 9. -/
def Obligations.FeeNeverOverwrites : Prop :=
  ∀ (i : Instr) (s : State), i.unit = .fee → s.memoryCanonical = true → s.params.wf = true →
    (s.f.drv = .ready → s.f.recover = false → s.feeSound) → exec i s ≠ .fault .overwrite

/-- 44_dispatch_and_lock.md R282: with no host access and no power loss inside it, a command of one unit neither reads
nor changes the other unit's bank, lock or device: put anything else there, and the command does the same. The form
rests on the model's choice in assumptions 4 and 6. -/
def Obligations.UnitsAreIndependent : Prop :=
  ∀ (i : Instr) (s : State), s.quiet = true →
    (i.unit = .mirror → ∀ (f : FeeUnit) (d : Device),
      exec i { s with f := f, devF := d } =
        match exec i s with
        | .next t => .next { t with f := f, devF := d }
        | .fault r => .fault r
        | .refused r => .refused r)
    ∧ (i.unit = .fee → ∀ (m : MirrorUnit) (d : Device),
      exec i { s with m := m, devM := d } =
        match exec i s with
        | .next t => .next { t with m := m, devM := d }
        | .fault r => .fault r
        | .refused r => .refused r)

/-- 44_dispatch_and_lock.md R277, R284: only ACQUIRE_BUS and RELEASE_BUS change a lock; 10_state.md R29: only a
GET_INFO that completes with OK writes the INFO registers; 10_state.md R41, 43_fee_gc.md R240: only FEE.WRITE,
FEE.ERASE and FEE.START change F_GC_COUNT; 10_state.md R28, R30, R42, R48: a command writes neither CMD, ADDR, LEN,
CFG nor CTRL, nor the latches, and only READ and GET_INFO write BUF. Its
host is recorded before it runs (assumption 16). The form rests on the model's choice in
assumption 6. -/
def Obligations.CommandsWriteOnlyTheirRegisters : Prop :=
  ∀ (i : Instr) (s t : State), exec i s = .next t →
    t.forgers = s.forgers
    ∧ (s.noPowerLoss = true →
      (∀ u, t.lock u ≠ s.lock u → ∃ h, i = acquireOf u h ∨ i = releaseOf u h)
      ∧ (t.info ≠ s.info → (∃ u h, i = getInfoOf u h) ∧ t.status.err = .ok)
      ∧ (t.f.gcCount ≠ s.f.gcCount → ∃ h, i = .feeWrite h ∨ i = .feeErase h ∨ i = .feeStart h))
    ∧ (s.quiet = true →
      t.cmd = s.cmd ∧ t.addr = s.addr ∧ t.len = s.len ∧ t.cfg = s.cfg ∧ t.ie = s.ie ∧ t.latch = s.latch
      ∧ t.replies = s.replies
      ∧ (t.buf ≠ s.buf → ∃ u h, i = readOf u h ∨ i = getInfoOf u h))

/-! ### Devices, power loss and reset -/

/-- 20_memory.md R67, R68: every bit of a settled image is its DUR value or its value after a pending operation that
covers it; a byte that none covers keeps its value. The form rests on the model's choice in assumption 7. -/
def Obligations.TornBitsComeFromTheirHistory : Prop :=
  ∀ (r : TearRule) (t : Torn) (dur : Memory) (pending : List PendOp) (x b : Nat),
    Memory.wf (some erasedByte) dur = true →
    let v := ((settle r t dur pending).byteAt x).getLsbD b
    v = (dur.byteAt x).getLsbD b
      ∨ ∃ k op, pending[k]? = some op ∧ op.addr ≤ x ∧ x < op.addr + op.len
          ∧ v = ((((pending.take (k + 1)).foldl (fun m o => o.apply m) dur)).byteAt x).getLsbD b

/-- 20_memory.md R67, R68, R70, R85, for every PENDING and every MARK_ATOMIC and ERASE_GRANULE: the settled images are
exactly those in which every bit takes the pending operations that it likes, the bits of an atomic mark unit, and those of
an erased sector under ERASE_GRANULE = sector, going together. R67: where nothing is atomic, each bit independently may
take its DUR value or its value after any pending operation. R68, R70: an interrupted write that is no atomic mark unit
may leave any of its bits old and any of them written, and a mark unit may land whole or not at all. R68, R85: an
interrupted erase may leave any of its bits old under ERASE_GRANULE = bit, and any of its sectors under ERASE_GRANULE =
sector. The form rests on the model's choice in assumption 7. -/
def Obligations.AnyTearOfAWriteIsDrawn : Prop :=
  (∀ (r : TearRule) (dur : Memory) (pending : List PendOp), Memory.wf (some erasedByte) dur = true →
    (∀ took, r.allows pending took → ∃ t : Torn, tornAs took dur pending (settle r t dur pending))
    ∧ ∀ t : Torn, ∃ took, r.allows pending took ∧ tornAs took dur pending (settle r t dur pending))
  ∧ (∀ (r : TearRule) (dur : Memory) (pending : List PendOp) (pick : Nat → Nat → Nat),
    Memory.wf (some erasedByte) dur = true →
    (r.atomic = false ∨ ∀ a d, PendOp.write a d ∈ pending → ¬ (d.length = r.width ∧ a % r.width = 0)) →
    (r.granule = .bit ∨ ∀ a n, PendOp.erase a n ∉ pending) →
    ∃ t : Torn, ∀ x b, b < 8 → ((settle r t dur pending).byteAt x).getLsbD b =
      (((pending.take (pick x b)).foldl (fun m o => o.apply m) dur).byteAt x).getLsbD b)
  ∧ (∀ (r : TearRule) (dur : Memory) (a : Nat) (data : List Byte) (pick : Nat → Byte),
    Memory.wf (some erasedByte) dur = true →
    ¬ (r.atomic = true ∧ data.length = r.width ∧ a % r.width = 0) →
    ∃ t : Torn, ∀ k, (hk : k < data.length) →
      (settle r t dur [.write a data]).byteAt (a + k) = dur.byteAt (a + k) &&& (data[k] ||| ~~~ pick k))
  ∧ (∀ (r : TearRule) (dur : Memory) (a : Nat) (data : List Byte) (lands : Bool),
    Memory.wf (some erasedByte) dur = true →
    ∃ t : Torn, ∀ k, (hk : k < data.length) →
      (settle r t dur [.write a data]).byteAt (a + k) =
        if lands then dur.byteAt (a + k) &&& data[k] else dur.byteAt (a + k))
  ∧ (∀ (r : TearRule) (dur : Memory) (a n : Nat) (pick : Nat → Byte),
    Memory.wf (some erasedByte) dur = true → r.granule = .bit →
    ∃ t : Torn, ∀ k, k < n → (settle r t dur [.erase a n]).byteAt (a + k) = dur.byteAt (a + k) ||| pick k)
  ∧ ∀ (r : TearRule) (dur : Memory) (a n : Nat) (lands : Nat → Bool),
    Memory.wf (some erasedByte) dur = true → r.granule = .sector → 0 < r.sectorSize →
    ∃ t : Torn, ∀ k, k < n → (settle r t dur [.erase a n]).byteAt (a + k) =
      if lands ((a + k) / r.sectorSize) then erasedByte else dur.byteAt (a + k)

/-- 20_memory.md R70: where MARK_ATOMIC holds, a write of exactly W bytes at a W-aligned address, whose bytes no other
pending operation covers, lands whole or not at all. 20_memory.md R85: under ERASE_GRANULE = sector, each whole sector
of an interrupted erase keeps all its old bits or becomes all 1s. The form rests on the model's choice in assumption
7. -/
def Obligations.AtomicUnitsTearWhole : Prop :=
  (∀ (r : TearRule) (t : Torn) (dur : Memory) (before after : List PendOp) (a : Nat) (data : List Byte),
    Memory.wf (some erasedByte) dur = true → r.atomic = true → data.length = r.width → a % r.width = 0 →
    (∀ o ∈ before ++ after, o.overlaps (.write a data) = false) →
    let m := settle r t dur (before ++ .write a data :: after)
    (∀ k, k < data.length → m.byteAt (a + k) = dur.byteAt (a + k))
      ∨ ∀ k, (hk : k < data.length) → m.byteAt (a + k) = dur.byteAt (a + k) &&& data[k])
  ∧ ∀ (r : TearRule) (t : Torn) (dur : Memory) (a n q : Nat),
    Memory.wf (some erasedByte) dur = true → r.granule = .sector → 0 < r.sectorSize → a % r.sectorSize = 0 →
    n % r.sectorSize = 0 → a ≤ q * r.sectorSize → (q + 1) * r.sectorSize ≤ a + n →
    let m := settle r t dur [.erase a n]
    (∀ k, k < r.sectorSize → m.byteAt (q * r.sectorSize + k) = dur.byteAt (q * r.sectorSize + k))
      ∨ ∀ k, k < r.sectorSize → m.byteAt (q * r.sectorSize + k) = erasedByte

/-- 20_memory.md R69: a failed write or erase stays pending; its range takes a settled image of everything pending,
and no other byte of CUR and no byte of DUR changes. The form rests on the model's choice in assumption 8. -/
def Obligations.FailedOperationStaysPending : Prop :=
  ∀ (r : TearRule) (t : Torn) (d : Device) (op : PendOp),
    Memory.wf (some erasedByte) d.cur = true → Memory.wf (some erasedByte) d.dur = true →
    (d.performFailed r t op).pending = d.pending ++ [op] ∧ (d.performFailed r t op).dur = d.dur
      ∧ ∀ x, (d.performFailed r t op).cur.byteAt x =
          if op.addr ≤ x ∧ x < op.addr + op.len then (settle r t d.dur (d.pending ++ [op])).byteAt x
          else d.cur.byteAt x

/-- 60_exceptions.md R312, 70_reset_and_hazards.md R340, R341: a power loss while no command runs, while an ACQUIRE_BUS
waits, at any point of a command, or during the device operation about to be issued there, which then joins PENDING,
resolves both devices' pending operations, ends the command without completion and gives every register its reset value.
Every command completes, waits for its device, or ends so. The form rests on the model's choices in assumptions 3
(`bufEpoch`), 4, 6, 7, 12, 16 (the model's own lists) and 19 (`owned`). -/
def Obligations.PowerLossResetsTheBlock : Prop :=
  (∀ (s : State) (c : PowerCut) (rest : List Input),
    let after (pendingM pendingF : List PendOp) : State := { State.reset with
      params := s.params
      devM := { s.devM with
        cur := settle (s.tearRule .mirror) c.mirror s.devM.dur pendingM
        dur := settle (s.tearRule .mirror) c.mirror s.devM.dur pendingM
        pending := []
        owned := false }
      devF := { s.devF with
        cur := settle (s.tearRule .fee) c.fee s.devF.dur pendingF
        dur := settle (s.tearRule .fee) c.fee s.devF.dur pendingF
        pending := []
        owned := false }
      bufEpoch := s.bufEpoch + 1
      inputs := rest
      tail := s.tail
      draws := s.draws
      replies := s.replies
      forgers := s.forgers }
    let quietly := after s.devM.pending s.devF.pending
    (s.waiting = none → s.inputs = .idle (.powerLoss c) :: rest → step s = .next quietly)
    ∧ (∀ u h, s.waiting = some (u, h) → s.inputs = .busy (.powerLoss c) :: rest → step s = .next quietly)
    ∧ (∀ op, s.inputs = .busy (.powerLoss c) :: rest → (c.inFlight && s.overwriteFault op) = false →
        point op s = .error .powerLost (match c.inFlight, op with
          | true, some (.mirror, o) => after (s.devM.pending ++ [o]) s.devF.pending
          | true, some (.fee, o) => after s.devM.pending (s.devF.pending ++ [o])
          | _, _ => quietly))
    ∧ ∀ i t, s.inputs = .busy (.powerLoss c) :: rest → c.inFlight = false → exec i s = .next t → t = quietly)
  ∧ ∀ (i : Instr) (s t : State), exec i s = .next t →
    (t.status.busy = false ∧ t.status.done = true)
      ∨ (t.waiting = some (i.unit, i.hid) ∧ i = acquireOf i.unit i.hid)
      ∨ t = { State.reset with
          params := s.params
          devM := { t.devM with info := s.devM.info, dur := t.devM.cur, pending := [], owned := false }
          devF := { t.devF with info := s.devF.info, dur := t.devF.cur, pending := [], owned := false }
          bufEpoch := s.bufEpoch + 1
          inputs := t.inputs
          tail := s.tail
          draws := t.draws
          replies := t.replies
          forgers := s.forgers }

/-- 10_state.md R22, R51; 70_reset_and_hazards.md R341: after reset every register but the PARAM registers reads 0, the
PARAM registers hold the parameters, the latches are 0, the caches are empty and IRQ is 0. The parameters and the device
content are the model's (assumptions 1 and 2). -/
def Obligations.ResetValuesAreTheTables : Prop :=
  (∀ r, r ≠ .paramW → r ≠ .paramP → r ≠ .paramBuf → State.reset.readReg r = 0)
    ∧ State.reset.readReg .paramW = 0x2344 ∧ State.reset.readReg .paramP = 8 ∧ State.reset.readReg .paramBuf = 256
    ∧ State.reset.latch = ⟨0, 0, 0, 0⟩ ∧ State.reset.m.cache = ⟨0, 0, 0⟩ ∧ State.reset.f.cache = ⟨0, 0, 0⟩
    ∧ State.reset.irq = false

/-! ### The register window and the codec -/

/-- 10_state.md R20 to R22, R24 to R28; 20_memory.md R76: an aligned 32-bit read at a register's offset returns the
register's fields at their places, at any other aligned offset outside BUF it returns 0, and it changes nothing. A
word write to ADDR, LEN or CFG sets it, to CTRL sets IE, to STATUS clears DONE and OVERRUN where its bits are 1, and
to any other offset below 0x1000 but CMD it changes nothing. The form rests on the model's choice in assumptions 11
and 12. -/
def Obligations.RegisterWindowFollowsTheMap : Prop :=
  ∀ (s : State) (running : Bool) (h : HostId) (v : Word), s.params.wf = true →
    (∀ p ∈ ([(0x000, s.cmd), (0x004, s.addr), (0x008, s.len), (0x00C, s.cfg),
        (0x010, (0 : BitVec 20) ++ BitVec.ofNat 4 s.status.err.code ++ (0 : BitVec 5) ++ BitVec.ofBool s.status.overrun
          ++ BitVec.ofBool s.status.done ++ BitVec.ofBool s.status.busy),
        (0x014, if s.ie then 1 else 0), (0x018, s.info.sectorSize), (0x01C, s.info.sectorNum),
        (0x020, s.info.writeAlign), (0x024, s.info.idLen),
        (0x028, (0 : BitVec 12) ++ BitVec.ofNat 8 s.params.lockMax ++ BitVec.ofNat 4 (s.params.nHosts - 1)
          ++ BitVec.ofNat 4 s.params.widthF.bytes ++ BitVec.ofNat 4 s.params.widthM.bytes),
        (0x02C, BitVec.ofNat 32 s.params.payload), (0x030, BitVec.ofNat 32 s.params.bufBytes),
        (0x040, BitVec.ofNat 32 s.m.drv.code), (0x044, BitVec.ofNat 32 s.m.state.code), (0x048, s.m.stateAddr),
        (0x04C, s.m.hdrBytes), (0x050, s.m.sectors), (0x054, s.m.size), (0x058, s.m.aOrg), (0x05C, s.m.bOrg),
        (0x060, (0 : BitVec 20) ++ s.m.lock.owner ++ s.m.lock.count), (0x064, if s.m.recover then 1 else 0),
        (0x080, BitVec.ofNat 32 s.f.drv.code), (0x084, match s.f.active with | .a0 => 0 | .a1 => 1),
        (0x088, s.f.slotsUsed), (0x08C, s.f.numSlots), (0x090, s.f.slotSize), (0x094, s.f.arenaBytes),
        (0x098, s.f.logicalSize),
        (0x09C, (0 : BitVec 28) ++ BitVec.ofNat 2 s.f.state1.code ++ BitVec.ofNat 2 s.f.state0.code),
        (0x0A0, (0 : BitVec 20) ++ s.f.lock.owner ++ s.f.lock.count), (0x0A4, if s.f.recover then 1 else 0),
        (0x0A8, s.f.gcCount)] : List (Nat × Word)),
      hostAccess running h (.read .word (s.params.blockBase + p.1)) s = .ok { s with replies := p.2 :: s.replies })
    ∧ (∀ off, off % 4 = 0 → off < 0x10000 → regAt off = none → (off < 0x1000 ∨ 0x1000 + s.params.bufBytes ≤ off) →
      hostAccess running h (.read .word (s.params.blockBase + off)) s = .ok { s with replies := 0 :: s.replies })
    ∧ hostAccess running h (.write .word (s.params.blockBase + 0x004) v) s = .ok { s with addr := v }
    ∧ hostAccess running h (.write .word (s.params.blockBase + 0x008) v) s = .ok { s with len := v }
    ∧ hostAccess running h (.write .word (s.params.blockBase + 0x00C) v) s = .ok { s with cfg := v }
    ∧ hostAccess running h (.write .word (s.params.blockBase + 0x014) v) s = .ok { s with ie := v.getLsbD 0 }
    ∧ hostAccess running h (.write .word (s.params.blockBase + 0x010) v) s = .ok { s with
        status := ⟨s.status.busy, s.status.done && !v.getLsbD 1, s.status.overrun && !v.getLsbD 2, s.status.err⟩ }
    ∧ ∀ off, off % 4 = 0 → 0x018 ≤ off → off < 0x1000 →
      hostAccess running h (.write .word (s.params.blockBase + off) v) s = .ok s

/-- 60_exceptions.md R321: misaligned and sub-word register accesses, and BUF accesses wider than 32 bits or not
naturally aligned, are bus errors; a BUF write while a command runs is a fault; each is the issuing host's. A BUF read
then is none and returns a free value; no host access changes device content. That the value is a whole 32-bit word for
every width is the model's choice (assumption 13), and so are the list that takes it (assumption 12) and its draw
(assumption 5). -/
def Obligations.HostViolationsAreFaults : Prop :=
  ∀ (s : State) (h : HostId) (a : Access) (off : Nat) (running : Bool), s.params.wf = true → a.addr = s.params.blockBase + off →
    ((regAt (off / 4 * 4)).isSome = true → (a.size ≠ .word ∨ off % 4 ≠ 0) →
      hostAccess running h a s = .error (.hostBusError h))
    ∧ (0x1000 ≤ off → off < 0x1000 + s.params.bufBytes →
      (4 < a.size.bytes ∨ off % a.size.bytes ≠ 0 → hostAccess running h a s = .error (.hostBusError h))
      ∧ (a.size.bytes ≤ 4 → off % a.size.bytes = 0 →
        (∀ v, a = .write a.size a.addr v → hostAccess true h a s = .error (.hostBufWrite h))
        ∧ (a = .read a.size a.addr →
          hostAccess true h a s =
            .ok { s with replies := Config.freeBusyRead s.draws :: s.replies, draws := s.draws + 1 })))
    ∧ ∀ t, hostAccess running h a s = .ok t → t.devM = s.devM ∧ t.devF = s.devF

/-- 10_state.md R21, R30; 20_memory.md R73: an aligned write of BUF while no command runs stores the value's bytes
little-endian and no other byte, and a read of the same width gives the value back. The form rests on the model's
choice in assumption 12. -/
def Obligations.BufHoldsWhatAHostWrites : Prop :=
  ∀ (s : State) (h : HostId) (z : AccSize) (off : Nat) (v : Word), s.params.wf = true → Memory.wf none s.buf = true →
    z.bytes ≤ 4 → off % z.bytes = 0 → off + z.bytes ≤ s.params.bufBytes →
    ∃ t, hostAccess false h (.write z (s.params.blockBase + 0x1000 + off) v) s = .ok t
      ∧ (∀ k, t.bufByte k = if off ≤ k ∧ k < off + z.bytes then (v >>> (8 * (k - off))).setWidth 8 else s.bufByte k)
      ∧ t = { s with buf := t.buf }
      ∧ hostAccess false h (.read z (s.params.blockBase + 0x1000 + off)) t =
          .ok { t with replies := BitVec.ofNat 32 (v.toNat % 2 ^ (8 * z.bytes)) :: t.replies }

/-- 60_exceptions.md R311: IRQ = CTRL.IE & STATUS.DONE: it rises at every completion while IE = 1, whatever the code, and
falls at an acceptance, at a W1C of DONE and when IE is cleared; OVERRUN does not move it. -/
def Obligations.IrqFollowsDone : Prop :=
  ∀ (s : State) (e : ErrCode) (w v : Word),
    s.irq = (s.ie && s.status.done) ∧ (s.complete e).irq = s.ie ∧ (s.accept w).irq = false
      ∧ (s.writeReg .status v).irq = (s.irq && !v.getLsbD 1) ∧ (s.writeReg .ctrl v).irq = (v.getLsbD 0 && s.status.done)
      ∧ State.irq { s with status := s.status.overrunSet } = s.irq

/-- 40_codec.md R142: W bytes decode to a Mirror state exactly when they are its encoding, and an FEE mark decodes exactly
when its two words are the table's. 40_codec.md R140, R144, R148: each table starts with all ones, and moving a stored
mark from one state to another sets no bit exactly when the second is not earlier. -/
def Obligations.MarkCodecMeetsItsContract : Prop :=
  (∀ (w : MarkWidth) (x : LogMark) (bs : List Byte), bs.length = w.bytes →
    (LogMark.decode w bs = some x ↔ bs = x.encode w))
  ∧ (∀ (w : MarkWidth) (x : FeeMark) (b0 b1 : List Byte), b0.length = w.bytes → b1.length = w.bytes →
    (FeeMark.decode w (leVal b0) (leVal b1) = some x ↔ b0 ++ b1 = x.encode w))
  ∧ (∀ w : MarkWidth, LogMark.pattern w .unused = 2 ^ (8 * w.bytes) - 1
    ∧ FeeMark.pattern w .unused = 2 ^ (16 * w.bytes) - 1)
  ∧ (∀ (w : MarkWidth) (x y : LogMark), y.pattern w &&& x.pattern w = y.pattern w ↔ x.index ≤ y.index)
  ∧ ∀ (w : MarkWidth) (x y : FeeMark), y.pattern w &&& x.pattern w = y.pattern w ↔ x.index ≤ y.index

/-- 60_exceptions.md R318, 20_memory.md R76: while a command runs, a host's read of a register returns its value at that
instant and changes nothing else; hosts' accesses come between any two register changes, so a read may see a value of
mid-procedure: the DRV that a running STOP is about to change and the changed one, the lock before and after a nested
ACQUIRE_BUS, and M_STATE new beside M_STATE_ADDR old. The form rests on the model's choice in assumptions 4, 6 and 12. -/
def Obligations.BusyReadsSeeTheInstant : Prop :=
  ∀ (s : State) (g : HostId) (rest : List Input), g.toNat < s.params.nHosts →
    let look (off : Nat) : Input := .busy (.access g (.read .word (s.params.blockBase + off)))
    (∀ (op : Option (UnitId × PendOp)) (off : Nat) (r : Reg), regAt off = some r → s.inputs = look off :: rest →
      point op s = point op { s with inputs := rest, replies := s.readReg r :: s.replies })
    ∧ (∀ f : State → State, s.inputs = .regStep :: rest → change f s = .ok () (f { s with inputs := rest }))
    ∧ (State.uneventful { s with inputs := rest } = true → ∀ (u : UnitId) (h : HostId), s.startable u h →
      let drv := match u with | .mirror => look 0x040 | .fee => look 0x080
      let lock := match u with | .mirror => look 0x060 | .fee => look 0x0A0
      (s.inputs = drv :: .regStep :: drv :: rest →
        exec (stopOf u h) s = .next (State.complete { s.setDrv u .stop with
          inputs := rest, replies := 1 :: BitVec.ofNat 32 (s.drv u).code :: s.replies } .ok))
      ∧ (s.inputs = lock :: .regStep :: lock :: rest → (s.lock u).count ≠ 0 →
        (s.lock u).count.toNat ≠ s.params.lockMax →
        let l : Lock := ⟨(s.lock u).count + 1, (s.lock u).owner⟩
        exec (acquireOf u h) s = .next (State.complete { s.setLock u l with
          inputs := rest, replies := l.word :: (s.lock u).word :: s.replies } .ok)))
    ∧ (State.uneventful { s with inputs := rest } = true → ∀ (x : MirrorState) (off : Nat),
      s.inputs = .regStep :: look 0x044 :: look 0x048 :: rest →
      setMirrorState x off s = .ok () { s with
        m := { s.m with state := x, stateAddr := BitVec.ofNat 32 off }
        inputs := rest, replies := s.m.stateAddr :: BitVec.ofNat 32 x.code :: s.replies })
end

