-- ==== Sys2Proof/Laws/Memory.lean ====
section
/-! SUPPORT. Laws of the sparse memories: the canonical form is kept by every operation, and what a byte reads as after
a write. -/

namespace Sys2Proof.Machine

/-! ### The order of addresses, as a relation between cells -/

/-- The addresses rise strictly exactly when the cells are pairwise ordered. -/
theorem Memory.rising_iff (m : Memory) : m.rising = true ↔ m.Pairwise (fun x y => x.1 < y.1) := by
  induction m with
  | nil => simp [Memory.rising]
  | cons c m ih =>
    cases m with
    | nil => simp [Memory.rising]
    | cons d m =>
      obtain ⟨a, x⟩ := c
      obtain ⟨b, y⟩ := d
      simp only [Memory.rising, Bool.and_eq_true, decide_eq_true_eq, ih]
      constructor
      · rintro ⟨hab, h⟩
        refine List.pairwise_cons.2 ⟨?_, h⟩
        intro z hz
        rcases List.mem_cons.1 hz with rfl | hz
        · exact hab
        · exact lt_trans hab ((List.pairwise_cons.1 h).1 z hz)
      · intro h
        exact ⟨(List.pairwise_cons.1 h).1 (b, y) (by simp), (List.pairwise_cons.1 h).2⟩

/-- The canonical form, unfolded. -/
theorem Memory.wf_iff (blank : Option Byte) (m : Memory) :
    m.wf blank = true ↔ m.Pairwise (fun x y => x.1 < y.1) ∧ ∀ c ∈ m, some c.2 ≠ blank := by
  simp [Memory.wf, Memory.rising_iff]

theorem Memory.wf_nil (blank : Option Byte) : Memory.wf blank [] = true := by simp [Memory.wf_iff]

theorem Memory.wf_filter {blank : Option Byte} {m : Memory} (h : m.wf blank = true) (p : Host.Cell → Bool) :
    Memory.wf blank (m.filter p) = true := by
  rw [Memory.wf_iff] at *
  exact ⟨h.1.filter _, fun c hc => h.2 c (List.mem_of_mem_filter hc)⟩

theorem Memory.mem_insert {a : Nat} {b : Byte} {m : Memory} {c : Host.Cell} (h : c ∈ Memory.insert a b m) :
    c = (a, b) ∨ c ∈ m := by
  induction m with
  | nil => simpa [Memory.insert] using h
  | cons d m ih =>
    obtain ⟨k, v⟩ := d
    simp only [Memory.insert] at h
    split at h
    · simpa using h
    · split at h
      · rcases List.mem_cons.1 h with h | h
        · exact .inl h
        · exact .inr (List.mem_cons_of_mem _ h)
      · rcases List.mem_cons.1 h with h | h
        · exact .inr (by simp [h])
        · rcases ih h with h | h
          · exact .inl h
          · exact .inr (List.mem_cons_of_mem _ h)

theorem Memory.pairwise_insert {a : Nat} {b : Byte} {m : Memory} (h : m.Pairwise (fun x y => x.1 < y.1)) :
    (Memory.insert a b m).Pairwise (fun x y => x.1 < y.1) := by
  induction m with
  | nil => simp [Memory.insert]
  | cons d m ih =>
    obtain ⟨k, v⟩ := d
    obtain ⟨h1, h2⟩ := List.pairwise_cons.1 h
    simp only [Memory.insert]
    split
    · rename_i hak
      refine List.pairwise_cons.2 ⟨?_, h⟩
      intro z hz
      rcases List.mem_cons.1 hz with rfl | hz
      · exact hak
      · exact lt_trans hak (h1 z hz)
    · split
      · rename_i hak
        subst hak
        exact List.pairwise_cons.2 ⟨h1, h2⟩
      · rename_i h3 h4
        refine List.pairwise_cons.2 ⟨?_, ih h2⟩
        intro z hz
        rcases Memory.mem_insert hz with rfl | hz
        · show k < a
          omega
        · exact h1 z hz

/-- Writing a byte keeps the canonical form. -/
theorem Memory.wf_put {blank : Option Byte} {m : Memory} (h : m.wf blank = true) (a : Nat) (b : Byte) :
    Memory.wf blank (m.put blank a b) = true := by
  unfold Memory.put
  split
  · exact Memory.wf_filter h _
  · rename_i hb
    rw [Memory.wf_iff] at *
    refine ⟨Memory.pairwise_insert h.1, fun c hc => ?_⟩
    rcases Memory.mem_insert hc with rfl | hc
    · exact hb
    · exact h.2 c hc

/-- Writing a byte string keeps the canonical form. -/
theorem Memory.wf_putBytes {blank : Option Byte} {m : Memory} (h : m.wf blank = true) (a : Nat) (bs : List Byte) :
    Memory.wf blank (m.putBytes blank a bs) = true := by
  induction bs generalizing m a with
  | nil => exact h
  | cons b bs ih => exact ih (Memory.wf_put h a b) (a + 1)

/-- Splicing two canonical memories gives a canonical one. -/
theorem Memory.wf_splice {blank : Option Byte} {m o : Memory} (h : m.wf blank = true) (h' : o.wf blank = true)
    (a n : Nat) : Memory.wf blank (m.splice o a n) = true := by
  rw [Memory.wf_iff] at *
  refine ⟨?_, ?_⟩
  · refine List.pairwise_append.2 ⟨List.pairwise_append.2 ⟨h'.1.filter _, h.1.filter _, ?_⟩, h'.1.filter _, ?_⟩
    · intro x hx y hy
      have h1 := List.of_mem_filter hx
      have h2 := List.of_mem_filter hy
      simp only [decide_eq_true_eq] at h1 h2
      omega
    · intro x hx y hy
      have h2 := List.of_mem_filter hy
      simp only [decide_eq_true_eq] at h2
      rcases List.mem_append.1 hx with hx | hx
      · have h1 := List.of_mem_filter hx
        simp only [decide_eq_true_eq] at h1
        omega
      · have h1 := List.of_mem_filter hx
        simp only [decide_eq_true_eq] at h1
        omega
  · intro c hc
    rcases List.mem_append.1 hc with hc | hc
    · rcases List.mem_append.1 hc with hc | hc
      · exact h'.2 c (List.mem_of_mem_filter hc)
      · exact h.2 c (List.mem_of_mem_filter hc)
    · exact h'.2 c (List.mem_of_mem_filter hc)

/-! ### Device operations keep the canonical form -/

theorem wf_landWrite {m : Memory} (h : m.wf (some erasedByte) = true) (mask : Nat → Byte) (a : Nat) (bs : List Byte) :
    Memory.wf (some erasedByte) (landWrite mask m a bs) = true := by
  induction bs generalizing m a with
  | nil => exact h
  | cons b bs ih => exact ih (Memory.wf_put h a _) (a + 1)

theorem wf_landErase {m : Memory} (h : m.wf (some erasedByte) = true) (mask : Nat → Byte) (a n : Nat) :
    Memory.wf (some erasedByte) (landErase mask m a n) = true := by
  have key : ∀ c d : Host.Cell, (if a ≤ c.1 ∧ c.1 < a + n then
      (if c.2 ||| mask c.1 = erasedByte then none else some (c.1, c.2 ||| mask c.1)) else some c) = some d →
      d.1 = c.1 ∧ (d.2 = c.2 ∨ d.2 ≠ erasedByte) := by
    intro c d hd
    split at hd
    · split at hd
      · cases hd
      · cases hd
        exact ⟨rfl, .inr (by assumption)⟩
    · cases hd
      exact ⟨rfl, .inl rfl⟩
  rw [Memory.wf_iff] at *
  refine ⟨?_, ?_⟩
  · unfold landErase
    rw [List.pairwise_filterMap]
    refine h.1.imp ?_
    intro x y hxy x' hx y' hy
    rw [(key x x' hx).1, (key y y' hy).1]
    exact hxy
  · intro d hd
    obtain ⟨c, hc, hcd⟩ := List.mem_filterMap.1 hd
    have hc' := h.2 c hc
    rcases (key c d hcd).2 with h1 | h1
    · rw [h1]
      exact hc'
    · simpa using h1

theorem wf_land {m : Memory} (h : m.wf (some erasedByte) = true) (op : PendOp) (mask : Nat → Byte) :
    Memory.wf (some erasedByte) (op.land mask m) = true := by
  cases op with
  | write a d => exact wf_landWrite h mask a d
  | erase a n => exact wf_landErase h mask a n

/-- Settling the pending operations keeps the canonical form. -/
theorem wf_settle {m : Memory} (h : m.wf (some erasedByte) = true) (r : TearRule) (t : Torn) (p : List PendOp) :
    Memory.wf (some erasedByte) (settle r t m p) = true := by
  suffices H : ∀ (ops : List PendOp) (k : Nat) (m : Memory), m.wf (some erasedByte) = true →
      Memory.wf (some erasedByte) (settleFrom r t p k ops m) = true from H p 0 m h
  intro ops
  induction ops with
  | nil => exact fun _ _ h => h
  | cons op ops ih => exact fun k m h => ih _ _ (wf_land h op _)

/-! ### What a byte reads as -/

theorem Memory.get?_insert (m : Memory) (a : Nat) (b : Byte) (h : m.Pairwise (fun x y => x.1 < y.1)) (x : Nat) :
    (Memory.insert a b m).get? x = if a = x then some b else m.get? x := by
  induction m with
  | nil => simp [Memory.insert, Memory.get?]
  | cons d m ih =>
    obtain ⟨k, v⟩ := d
    obtain ⟨h1, h2⟩ := List.pairwise_cons.1 h
    simp only [Memory.insert]
    split
    · simp [Memory.get?]
    · split
      · rename_i hak
        subst hak
        simp only [Memory.get?]
        split <;> simp_all
      · rename_i hak
        simp only [Memory.get?, ih h2]
        split
        · rename_i hkx
          subst hkx
          simp [hak]
        · rfl

theorem Memory.get?_filter_ne (m : Memory) (a x : Nat) :
    Memory.get? (m.filter (fun c => c.1 != a)) x = if a = x then none else m.get? x := by
  induction m with
  | nil => simp [Memory.get?]
  | cons d m ih =>
    obtain ⟨k, v⟩ := d
    by_cases hk : k = a
    · subst hk
      simp only [List.filter_cons, bne_self_eq_false, Bool.false_eq_true, if_false, ih, Memory.get?]
      split <;> simp_all
    · simp only [List.filter_cons, bne_iff_ne, ne_eq, hk, not_false_eq_true, if_true, Memory.get?, ih]
      split
      · rename_i hkx
        subst hkx
        simp [Ne.symm hk]
      · rfl

/-- A device byte after a write of one byte. -/
theorem Memory.byteAt_put {m : Memory} (h : m.wf (some erasedByte) = true) (a : Nat) (b : Byte) (x : Nat) :
    (m.put (some erasedByte) a b).byteAt x = if a = x then b else m.byteAt x := by
  unfold Memory.put Memory.byteAt
  split
  · rename_i hb
    rw [Memory.get?_filter_ne]
    split
    · simpa using (Option.some.inj hb).symm
    · rfl
  · rw [Memory.get?_insert _ _ _ ((Memory.wf_iff _ _).1 h).1]
    split <;> rfl

/-- A device byte after a write that lands under a mask. -/
theorem byteAt_landWrite {m : Memory} (h : m.wf (some erasedByte) = true) (mask : Nat → Byte) (a : Nat)
    (bs : List Byte) (x : Nat) :
    (landWrite mask m a bs).byteAt x =
      if a ≤ x ∧ x < a + bs.length then m.byteAt x &&& ((bs[x - a]?).getD erasedByte ||| ~~~ mask x)
      else m.byteAt x := by
  induction bs generalizing m a with
  | nil =>
    simp only [landWrite, List.length_nil]
    rw [if_neg (by omega)]
  | cons b bs ih =>
    simp only [landWrite]
    rw [ih (Memory.wf_put h _ _), Memory.byteAt_put h]
    by_cases hx : a = x
    · subst hx
      simp
    · rw [if_neg hx]
      by_cases hr : a + 1 ≤ x ∧ x < a + 1 + bs.length
      · rw [if_pos hr, if_pos (by simp; omega)]
        obtain ⟨k, rfl⟩ : ∃ k, x = a + 1 + k := ⟨x - (a + 1), by omega⟩
        have : a + 1 + k - a = k + 1 := by omega
        simp [this]
      · rw [if_neg hr, if_neg (by simp; omega)]

theorem Memory.get?_eq_none_of_lt {m : Memory} {a : Nat} (h : ∀ c ∈ m, a < c.1) : m.get? a = none := by
  induction m with
  | nil => rfl
  | cons d m ih =>
    obtain ⟨k, v⟩ := d
    have h1 : a < k := h (k, v) (by simp)
    simp only [Memory.get?]
    rw [if_neg (by omega)]
    exact ih fun c hc => h c (List.mem_cons_of_mem _ hc)

/-- A device byte after an erase that lands under a mask. -/
theorem byteAt_landErase {m : Memory} (h : m.wf (some erasedByte) = true) (mask : Nat → Byte) (a n x : Nat) :
    (landErase mask m a n).byteAt x = if a ≤ x ∧ x < a + n then m.byteAt x ||| mask x else m.byteAt x := by
  have hff : erasedByte ||| mask x = erasedByte := by
    rw [show erasedByte = BitVec.allOnes 8 from rfl, BitVec.allOnes_or]
  induction m with
  | nil =>
    simp only [landErase, List.filterMap_nil, Memory.byteAt, Memory.get?, Option.getD_none, hff, ite_self]
  | cons d m ih =>
    obtain ⟨k, v⟩ := d
    have hm : Memory.wf (some erasedByte) m = true := by
      rw [Memory.wf_iff] at *
      exact ⟨(List.pairwise_cons.1 h.1).2, fun c hc => h.2 c (List.mem_cons_of_mem _ hc)⟩
    have hlt : ∀ c ∈ m, k < c.1 := by
      rw [Memory.wf_iff] at h
      exact (List.pairwise_cons.1 h.1).1
    have hlt' : ∀ c ∈ landErase mask m a n, k < c.1 := by
      intro c hc
      obtain ⟨c', hc', he⟩ := List.mem_filterMap.1 hc
      have h1 := hlt c' hc'
      split at he
      · split at he
        · cases he
        · cases he
          exact h1
      · cases he
        exact h1
    have ih' := ih hm
    simp only [landErase] at ih' hlt' ⊢
    simp only [List.filterMap_cons]
    by_cases hr : a ≤ k ∧ k < a + n
    · simp only [hr, and_self, if_true]
      by_cases he : v ||| mask k = erasedByte
      · simp only [he, if_true]
        by_cases hkx : k = x
        · subst hkx
          rw [ih', if_pos hr, if_pos hr]
          have : Memory.byteAt m k = erasedByte := by
            simp [Memory.byteAt, Memory.get?_eq_none_of_lt hlt]
          rw [this, hff]
          simp [Memory.byteAt, Memory.get?, he]
        · rw [ih']
          simp [Memory.byteAt, Memory.get?, hkx]
      · simp only [he, if_false]
        by_cases hkx : k = x
        · subst hkx
          simp [Memory.byteAt, Memory.get?, hr]
        · have := ih'
          simp only [Memory.byteAt, Memory.get?, hkx, if_false] at this ⊢
          exact this
    · simp only [hr, if_false]
      by_cases hkx : k = x
      · subst hkx
        simp [Memory.byteAt, Memory.get?, hr]
      · have := ih'
        simp only [Memory.byteAt, Memory.get?, hkx, if_false] at this ⊢
        exact this

/-! ### Byte strings -/

@[simp] theorem length_fill (b : Byte) (n : Nat) : (fill b n).length = n := by simp [fill]

@[simp] theorem length_leBytes (n v : Nat) : (leBytes n v).length = n := by
  induction n generalizing v with
  | zero => rfl
  | succ n ih => simp [leBytes, ih]

@[simp] theorem length_bytesAt (m : Memory) (a n : Nat) : (m.bytesAt a n).length = n := by simp [Memory.bytesAt]

/-- `le_val` inverts `le_bytes` (00_scope.md R11). -/
theorem leVal_leBytes (n v : Nat) (h : v < 256 ^ n) : leVal (leBytes n v) = v := by
  induction n generalizing v with
  | zero => simp at h; simp [leBytes, leVal, h]
  | succ n ih =>
    have h' : v / 256 < 256 ^ n := by
      rw [Nat.div_lt_iff_lt_mul (by decide)]
      rwa [pow_succ] at h
    simp only [leBytes, leVal, ih _ h', BitVec.toNat_ofNat]
    omega

end Sys2Proof.Machine
end

