-- ==== Sys2Proof/Laws/State.lean ====
section
/-! SUPPORT. The fields of the state after each of its updates, all true by unfolding. -/

namespace Sys2Proof.Machine

section setDev
variable (s : State) (u : UnitId) (d : Device)
@[simp] theorem State.dev_setDev : (s.setDev u d).dev u = d := by cases u <;> rfl
@[simp] theorem State.devF_setDev_mirror : (s.setDev .mirror d).devF = s.devF := rfl
@[simp] theorem State.devM_setDev_fee : (s.setDev .fee d).devM = s.devM := rfl
@[simp] theorem State.devM_setDev_mirror : (s.setDev .mirror d).devM = d := rfl
@[simp] theorem State.devF_setDev_fee : (s.setDev .fee d).devF = d := rfl
@[simp] theorem State.m_setDev : (s.setDev u d).m = s.m := by cases u <;> rfl
@[simp] theorem State.f_setDev : (s.setDev u d).f = s.f := by cases u <;> rfl
@[simp] theorem State.params_setDev : (s.setDev u d).params = s.params := by cases u <;> rfl
@[simp] theorem State.cmd_setDev : (s.setDev u d).cmd = s.cmd := by cases u <;> rfl
@[simp] theorem State.addr_setDev : (s.setDev u d).addr = s.addr := by cases u <;> rfl
@[simp] theorem State.len_setDev : (s.setDev u d).len = s.len := by cases u <;> rfl
@[simp] theorem State.cfg_setDev : (s.setDev u d).cfg = s.cfg := by cases u <;> rfl
@[simp] theorem State.status_setDev : (s.setDev u d).status = s.status := by cases u <;> rfl
@[simp] theorem State.ie_setDev : (s.setDev u d).ie = s.ie := by cases u <;> rfl
@[simp] theorem State.info_setDev : (s.setDev u d).info = s.info := by cases u <;> rfl
@[simp] theorem State.latch_setDev : (s.setDev u d).latch = s.latch := by cases u <;> rfl
@[simp] theorem State.buf_setDev : (s.setDev u d).buf = s.buf := by cases u <;> rfl
@[simp] theorem State.bufEpoch_setDev : (s.setDev u d).bufEpoch = s.bufEpoch := by cases u <;> rfl
@[simp] theorem State.waiting_setDev : (s.setDev u d).waiting = s.waiting := by cases u <;> rfl
@[simp] theorem State.inputs_setDev : (s.setDev u d).inputs = s.inputs := by cases u <;> rfl
@[simp] theorem State.tail_setDev : (s.setDev u d).tail = s.tail := by cases u <;> rfl
@[simp] theorem State.draws_setDev : (s.setDev u d).draws = s.draws := by cases u <;> rfl
@[simp] theorem State.replies_setDev : (s.setDev u d).replies = s.replies := by cases u <;> rfl
@[simp] theorem State.forgers_setDev : (s.setDev u d).forgers = s.forgers := by cases u <;> rfl
@[simp] theorem State.markWidth_setDev (v : UnitId) : (s.setDev u d).markWidth v = s.markWidth v := by
  cases u <;> cases v <;> rfl
@[simp] theorem State.lock_setDev (v : UnitId) : (s.setDev u d).lock v = s.lock v := by cases u <;> cases v <;> rfl
@[simp] theorem State.drv_setDev (v : UnitId) : (s.setDev u d).drv v = s.drv v := by cases u <;> cases v <;> rfl
@[simp] theorem State.recover_setDev (v : UnitId) : (s.setDev u d).recover v = s.recover v := by
  cases u <;> cases v <;> rfl
@[simp] theorem State.setDev_setDev (e : Device) : (s.setDev u d).setDev u e = s.setDev u e := by cases u <;> rfl
@[simp] theorem State.setDev_dev : s.setDev u (s.dev u) = s := by cases u <;> rfl
end setDev

section setLock
variable (s : State) (u : UnitId) (l : Lock)
@[simp] theorem State.lock_setLock : (s.setLock u l).lock u = l := by cases u <;> rfl
@[simp] theorem State.m_setLock_fee : (s.setLock .fee l).m = s.m := rfl
@[simp] theorem State.f_setLock_mirror : (s.setLock .mirror l).f = s.f := rfl
@[simp] theorem State.m_setLock_mirror : (s.setLock .mirror l).m = { s.m with lock := l } := rfl
@[simp] theorem State.f_setLock_fee : (s.setLock .fee l).f = { s.f with lock := l } := rfl
@[simp] theorem State.devM_setLock : (s.setLock u l).devM = s.devM := by cases u <;> rfl
@[simp] theorem State.devF_setLock : (s.setLock u l).devF = s.devF := by cases u <;> rfl
@[simp] theorem State.dev_setLock (v : UnitId) : (s.setLock u l).dev v = s.dev v := by cases u <;> cases v <;> rfl
@[simp] theorem State.params_setLock : (s.setLock u l).params = s.params := by cases u <;> rfl
@[simp] theorem State.status_setLock : (s.setLock u l).status = s.status := by cases u <;> rfl
@[simp] theorem State.info_setLock : (s.setLock u l).info = s.info := by cases u <;> rfl
@[simp] theorem State.latch_setLock : (s.setLock u l).latch = s.latch := by cases u <;> rfl
@[simp] theorem State.buf_setLock : (s.setLock u l).buf = s.buf := by cases u <;> rfl
@[simp] theorem State.waiting_setLock : (s.setLock u l).waiting = s.waiting := by cases u <;> rfl
@[simp] theorem State.inputs_setLock : (s.setLock u l).inputs = s.inputs := by cases u <;> rfl
@[simp] theorem State.tail_setLock : (s.setLock u l).tail = s.tail := by cases u <;> rfl
@[simp] theorem State.drv_setLock (v : UnitId) : (s.setLock u l).drv v = s.drv v := by cases u <;> cases v <;> rfl
@[simp] theorem State.recover_setLock (v : UnitId) : (s.setLock u l).recover v = s.recover v := by
  cases u <;> cases v <;> rfl
end setLock

section setDrv
variable (s : State) (u : UnitId) (d : DrvState)
@[simp] theorem State.drv_setDrv : (s.setDrv u d).drv u = d := by cases u <;> rfl
@[simp] theorem State.m_setDrv_fee : (s.setDrv .fee d).m = s.m := rfl
@[simp] theorem State.f_setDrv_mirror : (s.setDrv .mirror d).f = s.f := rfl
@[simp] theorem State.m_setDrv_mirror : (s.setDrv .mirror d).m = { s.m with drv := d } := rfl
@[simp] theorem State.f_setDrv_fee : (s.setDrv .fee d).f = { s.f with drv := d } := rfl
@[simp] theorem State.dev_setDrv (v : UnitId) : (s.setDrv u d).dev v = s.dev v := by cases u <;> cases v <;> rfl
@[simp] theorem State.devM_setDrv : (s.setDrv u d).devM = s.devM := by cases u <;> rfl
@[simp] theorem State.devF_setDrv : (s.setDrv u d).devF = s.devF := by cases u <;> rfl
@[simp] theorem State.params_setDrv : (s.setDrv u d).params = s.params := by cases u <;> rfl
@[simp] theorem State.status_setDrv : (s.setDrv u d).status = s.status := by cases u <;> rfl
@[simp] theorem State.info_setDrv : (s.setDrv u d).info = s.info := by cases u <;> rfl
@[simp] theorem State.latch_setDrv : (s.setDrv u d).latch = s.latch := by cases u <;> rfl
@[simp] theorem State.buf_setDrv : (s.setDrv u d).buf = s.buf := by cases u <;> rfl
@[simp] theorem State.waiting_setDrv : (s.setDrv u d).waiting = s.waiting := by cases u <;> rfl
@[simp] theorem State.inputs_setDrv : (s.setDrv u d).inputs = s.inputs := by cases u <;> rfl
@[simp] theorem State.tail_setDrv : (s.setDrv u d).tail = s.tail := by cases u <;> rfl
@[simp] theorem State.lock_setDrv (v : UnitId) : (s.setDrv u d).lock v = s.lock v := by cases u <;> cases v <;> rfl
@[simp] theorem State.recover_setDrv (v : UnitId) : (s.setDrv u d).recover v = s.recover v := by
  cases u <;> cases v <;> rfl
end setDrv

section setRecover
variable (s : State) (u : UnitId) (b : Bool)
@[simp] theorem State.recover_setRecover : (s.setRecover u b).recover u = b := by cases u <;> rfl
@[simp] theorem State.m_setRecover_fee : (s.setRecover .fee b).m = s.m := rfl
@[simp] theorem State.f_setRecover_mirror : (s.setRecover .mirror b).f = s.f := rfl
@[simp] theorem State.m_setRecover_mirror : (s.setRecover .mirror b).m = { s.m with recover := b } := rfl
@[simp] theorem State.f_setRecover_fee : (s.setRecover .fee b).f = { s.f with recover := b } := rfl
@[simp] theorem State.dev_setRecover (v : UnitId) : (s.setRecover u b).dev v = s.dev v := by
  cases u <;> cases v <;> rfl
@[simp] theorem State.devM_setRecover : (s.setRecover u b).devM = s.devM := by cases u <;> rfl
@[simp] theorem State.devF_setRecover : (s.setRecover u b).devF = s.devF := by cases u <;> rfl
@[simp] theorem State.params_setRecover : (s.setRecover u b).params = s.params := by cases u <;> rfl
@[simp] theorem State.status_setRecover : (s.setRecover u b).status = s.status := by cases u <;> rfl
@[simp] theorem State.info_setRecover : (s.setRecover u b).info = s.info := by cases u <;> rfl
@[simp] theorem State.latch_setRecover : (s.setRecover u b).latch = s.latch := by cases u <;> rfl
@[simp] theorem State.buf_setRecover : (s.setRecover u b).buf = s.buf := by cases u <;> rfl
@[simp] theorem State.waiting_setRecover : (s.setRecover u b).waiting = s.waiting := by cases u <;> rfl
@[simp] theorem State.inputs_setRecover : (s.setRecover u b).inputs = s.inputs := by cases u <;> rfl
@[simp] theorem State.tail_setRecover : (s.setRecover u b).tail = s.tail := by cases u <;> rfl
@[simp] theorem State.lock_setRecover (v : UnitId) : (s.setRecover u b).lock v = s.lock v := by
  cases u <;> cases v <;> rfl
@[simp] theorem State.drv_setRecover (v : UnitId) : (s.setRecover u b).drv v = s.drv v := by
  cases u <;> cases v <;> rfl
end setRecover

section complete
variable (s : State) (e : ErrCode)
@[simp] theorem State.status_complete : (s.complete e).status = s.status.completed e := rfl
@[simp] theorem State.m_complete : (s.complete e).m = s.m := rfl
@[simp] theorem State.f_complete : (s.complete e).f = s.f := rfl
@[simp] theorem State.devM_complete : (s.complete e).devM = s.devM := rfl
@[simp] theorem State.devF_complete : (s.complete e).devF = s.devF := rfl
@[simp] theorem State.buf_complete : (s.complete e).buf = s.buf := rfl
@[simp] theorem State.params_complete : (s.complete e).params = s.params := rfl
@[simp] theorem State.info_complete : (s.complete e).info = s.info := rfl
@[simp] theorem State.latch_complete : (s.complete e).latch = s.latch := rfl
@[simp] theorem State.inputs_complete : (s.complete e).inputs = s.inputs := rfl
@[simp] theorem State.tail_complete : (s.complete e).tail = s.tail := rfl
@[simp] theorem State.waiting_complete : (s.complete e).waiting = s.waiting := rfl
@[simp] theorem State.forgers_complete : (s.complete e).forgers = s.forgers := rfl
end complete

section accept
variable (s : State) (w : Word)
@[simp] theorem State.cmd_accept : (s.accept w).cmd = w := rfl
@[simp] theorem State.latch_accept : (s.accept w).latch = ⟨w, s.addr, s.len, s.cfg⟩ := rfl
@[simp] theorem State.status_accept : (s.accept w).status = s.status.accepted := rfl
@[simp] theorem State.m_accept : (s.accept w).m = s.m := rfl
@[simp] theorem State.f_accept : (s.accept w).f = s.f := rfl
@[simp] theorem State.devM_accept : (s.accept w).devM = s.devM := rfl
@[simp] theorem State.devF_accept : (s.accept w).devF = s.devF := rfl
@[simp] theorem State.buf_accept : (s.accept w).buf = s.buf := rfl
@[simp] theorem State.params_accept : (s.accept w).params = s.params := rfl
@[simp] theorem State.inputs_accept : (s.accept w).inputs = s.inputs := rfl
@[simp] theorem State.tail_accept : (s.accept w).tail = s.tail := rfl
@[simp] theorem State.waiting_accept : (s.accept w).waiting = s.waiting := rfl
@[simp] theorem State.forgers_accept : (s.accept w).forgers = s.forgers := rfl
end accept

section recordHost
variable (s : State) (h hid : HostId)

/-- Recording a command's host changes the list of forgers and nothing else. -/
theorem State.recordHost_eq : s.recordHost h hid = { s with forgers := if h = hid then s.forgers else h :: s.forgers } := by
  unfold State.recordHost
  split <;> rfl

/-- A host that issues a command under its own id is not recorded. -/
@[simp] theorem State.recordHost_self : s.recordHost h h = s := if_pos rfl

@[simp] theorem State.m_recordHost : (s.recordHost h hid).m = s.m := by rw [State.recordHost_eq]
@[simp] theorem State.f_recordHost : (s.recordHost h hid).f = s.f := by rw [State.recordHost_eq]
@[simp] theorem State.devM_recordHost : (s.recordHost h hid).devM = s.devM := by rw [State.recordHost_eq]
@[simp] theorem State.devF_recordHost : (s.recordHost h hid).devF = s.devF := by rw [State.recordHost_eq]
@[simp] theorem State.params_recordHost : (s.recordHost h hid).params = s.params := by rw [State.recordHost_eq]
@[simp] theorem State.status_recordHost : (s.recordHost h hid).status = s.status := by rw [State.recordHost_eq]
@[simp] theorem State.buf_recordHost : (s.recordHost h hid).buf = s.buf := by rw [State.recordHost_eq]
@[simp] theorem State.latch_recordHost : (s.recordHost h hid).latch = s.latch := by rw [State.recordHost_eq]
@[simp] theorem State.inputs_recordHost : (s.recordHost h hid).inputs = s.inputs := by rw [State.recordHost_eq]
@[simp] theorem State.tail_recordHost : (s.recordHost h hid).tail = s.tail := by rw [State.recordHost_eq]
@[simp] theorem State.waiting_recordHost : (s.recordHost h hid).waiting = s.waiting := by rw [State.recordHost_eq]
end recordHost

section status
variable (s : Status) (e : ErrCode)
@[simp] theorem Status.completed_busy : (s.completed e).busy = false := rfl
@[simp] theorem Status.completed_done : (s.completed e).done = true := rfl
@[simp] theorem Status.completed_overrun : (s.completed e).overrun = s.overrun := rfl
@[simp] theorem Status.completed_err : (s.completed e).err = e := rfl
@[simp] theorem Status.accepted_busy : s.accepted.busy = true := rfl
@[simp] theorem Status.accepted_done : s.accepted.done = false := rfl
@[simp] theorem Status.accepted_overrun : s.accepted.overrun = s.overrun := rfl
@[simp] theorem Status.accepted_err : s.accepted.err = .ok := rfl
end status

section powerLoss
variable (s : State) (c : PowerCut)
@[simp] theorem State.m_powerLoss : (s.powerLoss c).m = .reset := rfl
@[simp] theorem State.f_powerLoss : (s.powerLoss c).f = .reset := rfl
@[simp] theorem State.status_powerLoss : (s.powerLoss c).status = .reset := rfl
@[simp] theorem State.params_powerLoss : (s.powerLoss c).params = s.params := rfl
@[simp] theorem State.inputs_powerLoss : (s.powerLoss c).inputs = s.inputs := rfl
@[simp] theorem State.tail_powerLoss : (s.powerLoss c).tail = s.tail := rfl
@[simp] theorem State.waiting_powerLoss : (s.powerLoss c).waiting = none := rfl
@[simp] theorem State.forgers_powerLoss : (s.powerLoss c).forgers = s.forgers := rfl
@[simp] theorem State.buf_powerLoss : (s.powerLoss c).buf = [] := rfl
@[simp] theorem State.devM_powerLoss :
    (s.powerLoss c).devM = s.devM.afterPowerLoss (s.tearRule .mirror) c.mirror := rfl
@[simp] theorem State.devF_powerLoss :
    (s.powerLoss c).devF = s.devF.afterPowerLoss (s.tearRule .fee) c.fee := rfl
end powerLoss

end Sys2Proof.Machine
end

