-- ==== Sys2Proof/Laws/Proc.lean ====
section
/-! SUPPORT. How procedures of the engine compose, and predicates of the state that a procedure keeps. -/

namespace Sys2Proof.Machine

variable {α β : Type}

/-! ### Composition -/

theorem Proc.bind_apply (p : Proc α) (f : α → Proc β) (s : State) :
    (p >>= f) s = match p s with
      | .ok a t => f a t
      | .error e t => .error e t := by
  show EStateM.bind p f s = _
  unfold EStateM.bind
  cases p s <;> rfl

theorem Proc.bind_ok {p : Proc α} {s t : State} {a : α} (h : p s = .ok a t) (f : α → Proc β) :
    (p >>= f) s = f a t := by rw [Proc.bind_apply, h]

theorem Proc.bind_error {p : Proc α} {s t : State} {e : Stop} (h : p s = .error e t) (f : α → Proc β) :
    (p >>= f) s = .error e t := by rw [Proc.bind_apply, h]

@[simp] theorem Proc.pure_apply (a : α) (s : State) : (pure a : Proc α) s = .ok a s := rfl
@[simp] theorem Proc.get_apply (s : State) : (get : Proc State) s = .ok s s := rfl
@[simp] theorem Proc.set_apply (s t : State) : (set t : Proc PUnit) s = .ok ⟨⟩ t := rfl
@[simp] theorem Proc.modify_apply (f : State → State) (s : State) : (modify f : Proc PUnit) s = .ok ⟨⟩ (f s) := rfl
@[simp] theorem Proc.throw_apply (e : Stop) (s : State) : (throw e : Proc α) s = .error e s := rfl
@[simp] theorem raise_apply (e : ErrCode) (s : State) : (raise e : Proc α) s = .error (.raised e) s := rfl

theorem require_apply (e : ErrCode) (c : Bool) (s : State) :
    require e c s = if c then .ok () s else .error (.raised e) s := by
  cases c <;> rfl

theorem contract_apply (f : Fault) (c : Bool) (s : State) :
    contract f c s = if c then .ok () s else .error (.fault f) s := by
  cases c <;> rfl

theorem contract_holds (f : Fault) {c : Bool} (h : c = true) (s : State) : contract f c s = .ok () s := by
  rw [contract_apply, if_pos h]

theorem contract_broken (f : Fault) {c : Bool} (h : ¬c = true) (s : State) :
    contract f c s = .error (.fault f) s := by
  rw [contract_apply, if_neg h]

theorem checkState_apply (c : State → Bool) (s : State) :
    checkState c s = if c s then .ok () s else .error (.raised .state) s := by
  unfold checkState
  rw [Proc.bind_ok (Proc.get_apply s), require_apply]

/-! ### Predicates a procedure keeps, however it ends -/

/-- The state a procedure ends in. -/
def endState : EStateM.Result Stop State α → State
  | .ok _ t => t
  | .error _ t => t

@[simp] theorem endState_ok (a : α) (t : State) : endState (.ok a t : EStateM.Result Stop State α) = t := rfl
@[simp] theorem endState_error (e : Stop) (t : State) : endState (.error e t : EStateM.Result Stop State α) = t := rfl

/-- The procedure keeps a predicate of the state, however it ends. -/
def Keeps (I : State → Prop) (p : Proc α) : Prop := ∀ s, I s → I (endState (p s))

theorem keeps_pure {I : State → Prop} (a : α) : Keeps I (pure a : Proc α) := fun _ h => h
theorem keeps_get {I : State → Prop} : Keeps I (get : Proc State) := fun _ h => h
theorem keeps_throw {I : State → Prop} (e : Stop) : Keeps I (throw e : Proc α) := fun _ h => h
theorem keeps_raise {I : State → Prop} (e : ErrCode) : Keeps I (raise e : Proc α) := fun _ h => h

theorem keeps_modify {I : State → Prop} {f : State → State} (h : ∀ s, I s → I (f s)) :
    Keeps I (modify f : Proc PUnit) := fun s hs => h s hs

theorem keeps_require {I : State → Prop} (e : ErrCode) (c : Bool) : Keeps I (require e c) := by
  intro s h
  rw [require_apply]
  split <;> exact h

theorem keeps_contract {I : State → Prop} (f : Fault) (c : Bool) : Keeps I (contract f c) := by
  intro s h
  rw [contract_apply]
  split <;> exact h

theorem keeps_checkState {I : State → Prop} (c : State → Bool) : Keeps I (checkState c) := by
  intro s h
  rw [checkState_apply]
  split <;> exact h

theorem keeps_bind {I : State → Prop} {p : Proc α} {f : α → Proc β} (hp : Keeps I p) (hf : ∀ a, Keeps I (f a)) :
    Keeps I (p >>= f) := by
  intro s h
  have h' := hp s h
  rw [Proc.bind_apply]
  cases hps : p s with
  | ok a t =>
    rw [hps] at h'
    exact hf a t h'
  | error e t =>
    rw [hps] at h'
    exact h'

/-- As `keeps_bind`, for a first part that reads the state: the rest may use what it read. -/
theorem keeps_bind_get {I : State → Prop} {f : State → Proc β} (hf : ∀ s, I s → I (endState (f s s))) :
    Keeps I (get >>= f) := fun s h => hf s h

theorem keeps_ite {I : State → Prop} {c : Prop} [Decidable c] {p q : Proc α} (hp : Keeps I p) (hq : Keeps I q) :
    Keeps I (if c then p else q) := by
  split
  · exact hp
  · exact hq

/-! ### From a procedure to its command -/

/-- What a completed command's state is, in the cases of `conclude`. -/
theorem conclude_cases (u : UnitId) (mu : Bool) (r : EStateM.Result Stop State Unit) :
    (∃ a t, r = .ok a t ∧ conclude u mu r = finish .ok t)
      ∨ (∃ e t, r = .error (.raised e) t ∧ conclude u mu r = finish e (t.afterRaise u mu e))
      ∨ (∃ t, (r = .error .powerLost t ∨ r = .error .waiting t) ∧ conclude u mu r = .next t)
      ∨ (∃ f t, r = .error (.fault f) t ∧ conclude u mu r = .fault f) := by
  cases r with
  | ok a t => exact .inl ⟨a, t, rfl, rfl⟩
  | error e t =>
    cases e with
    | raised e => exact .inr (.inl ⟨e, t, rfl, rfl⟩)
    | powerLost => exact .inr (.inr (.inl ⟨t, .inl rfl, rfl⟩))
    | waiting => exact .inr (.inr (.inl ⟨t, .inr rfl, rfl⟩))
    | fault f => exact .inr (.inr (.inr ⟨f, t, rfl, rfl⟩))

/-- What a command's end is, in the cases of `finish`. -/
theorem finish_cases (e : ErrCode) (s : State) :
    (∃ t, point none s = .ok () t ∧ finish e s = .next (t.complete e))
      ∨ (∃ f t, point none s = .error (.fault f) t ∧ finish e s = .fault f)
      ∨ (∃ x t, point none s = .error x t ∧ (∀ f, x ≠ .fault f) ∧ finish e s = .next t) := by
  unfold finish
  cases h : point none s with
  | ok a t => exact .inl ⟨t, rfl, rfl⟩
  | error x t =>
    cases x with
    | fault f => exact .inr (.inl ⟨f, t, rfl, rfl⟩)
    | raised e => exact .inr (.inr ⟨_, t, rfl, by simp, rfl⟩)
    | powerLost => exact .inr (.inr ⟨_, t, rfl, by simp, rfl⟩)
    | waiting => exact .inr (.inr ⟨_, t, rfl, by simp, rfl⟩)

/-- A predicate that points and completion keep is kept by a command's end. -/
theorem finish_keeps {I : State → Prop} (hp : Keeps I (point none)) (hc : ∀ s e, I s → I (s.complete e))
    {e : ErrCode} {s t : State} (hs : I s) (h : finish e s = .next t) : I t := by
  have h' := hp s hs
  rcases finish_cases e s with ⟨t', ht, hf⟩ | ⟨f, t', -, hf⟩ | ⟨x, t', ht, -, hf⟩
  · rw [hf] at h
    rw [ht] at h'
    cases h
    exact hc _ _ h'
  · rw [hf] at h
    cases h
  · rw [hf] at h
    rw [ht] at h'
    cases h
    exact h'

/-- A predicate that points, completion, RECOVER and the procedure keep is kept by the command. -/
theorem runCommand_keeps {I : State → Prop} {u : UnitId} {hid : HostId} {mu : Bool} {p : Proc Unit}
    (hp : Keeps I (point none)) (hc : ∀ s e, I s → I (s.complete e))
    (hr : mu = true → ∀ s, I s → I (s.setRecover u true)) (hk : Keeps I p)
    {s t : State} (hs : I s) (h : runCommand u hid mu p s = .next t) : I t := by
  unfold runCommand at h
  split at h
  · exact finish_keeps hp hc hs h
  · have hb := hk s hs
    rcases conclude_cases u mu (p s) with ⟨a, t', ht, hf⟩ | ⟨e, t', ht, hf⟩ | ⟨t', ht, hf⟩ | ⟨f, t', -, hf⟩
    · rw [ht] at hb
      rw [hf] at h
      exact finish_keeps hp hc hb h
    · rw [ht] at hb
      rw [hf] at h
      refine finish_keeps hp hc ?_ h
      unfold State.afterRaise
      split
      · rename_i hmu
        simp only [Bool.and_eq_true] at hmu
        exact hr hmu.1 _ hb
      · exact hb
    · rw [hf] at h
      cases h
      rcases ht with ht | ht <;> (rw [ht] at hb; exact hb)
    · rw [hf] at h
      cases h

end Sys2Proof.Machine
end

