-- ==== Sys2Proof/Laws/Ops.lean ====
section
/-! SUPPORT. What each shared operation of the commands can do, said once; and what it does where nothing outside the
block interferes. -/

namespace Sys2Proof.Machine

/-! ### The points at which the outside world acts -/

/-- A point with no event scheduled for it changes nothing. -/
theorem point_of_no_event {s : State} (op : Option (UnitId × PendOp))
    (h : ∀ e rest, s.inputs ≠ .busy e :: rest) : point op s = .ok () s := by
  show takeEvents op s.inputs s = .ok () s
  cases hi : s.inputs with
  | nil => rw [takeEvents.eq_def]; simp [← hi]
  | cons x rest =>
    cases x with
    | busy e => exact absurd hi (h e rest)
    | idle e => rw [takeEvents.eq_def]; simp [← hi]
    | dev d => rw [takeEvents.eq_def]; simp [← hi]
    | regStep => rw [takeEvents.eq_def]; simp [← hi]

/-- All that an access to a register can change. -/
theorem regAccess_frame (r : Reg) (a : Access) (s : State) :
    regAccess r a s = { s with
        addr := (regAccess r a s).addr, len := (regAccess r a s).len, cfg := (regAccess r a s).cfg
        status := (regAccess r a s).status, ie := (regAccess r a s).ie, buf := (regAccess r a s).buf
        draws := (regAccess r a s).draws, replies := (regAccess r a s).replies }
      ∧ (regAccess r a s).status.busy = s.status.busy ∧ (regAccess r a s).status.err = s.status.err := by
  cases a with
  | read z x => exact ⟨rfl, rfl, rfl⟩
  | write z x v => cases r <;> exact ⟨rfl, rfl, rfl⟩

/-- All that a host access can change: the registers a host writes, STATUS but for BUSY and ERR, BUF, and the model's own
record of reads (10_state.md R21, R22). -/
theorem hostAccess_frame {running : Bool} {h : HostId} {a : Access} {s t : State}
    (ht : hostAccess running h a s = .ok t) :
    t = { s with
        addr := t.addr, len := t.len, cfg := t.cfg, status := t.status, ie := t.ie, buf := t.buf, draws := t.draws
        replies := t.replies }
      ∧ t.status.busy = s.status.busy ∧ t.status.err = s.status.err := by
  unfold hostAccess at ht
  split at ht
  · cases ht
    exact ⟨rfl, rfl, rfl⟩
  · split at ht
    · split at ht
      · cases ht
        exact regAccess_frame _ a s
      · cases ht
    · split at ht
      · split at ht
        · unfold bufAccess at ht
          split at ht <;> first | (cases ht; exact ⟨rfl, rfl, rfl⟩) | cases ht
        · cases ht
      · cases ht
        cases a <;> exact ⟨rfl, rfl, rfl⟩

/-- An access by a host of the platform. -/
theorem hostEvent_of_host {s : State} {h : HostId} (hh : h.toNat < s.params.nHosts) (running : Bool) (a : Access) :
    s.hostEvent running h a = hostAccess running h a s := by
  unfold State.hostEvent
  rw [if_pos (by simpa [hasHost] using hh)]

/-- As `hostAccess_frame`, for an access by any number. -/
theorem hostEvent_frame {running : Bool} {h : HostId} {a : Access} {s t : State}
    (ht : s.hostEvent running h a = .ok t) :
    t = { s with
        addr := t.addr, len := t.len, cfg := t.cfg, status := t.status, ie := t.ie, buf := t.buf, draws := t.draws
        replies := t.replies }
      ∧ t.status.busy = s.status.busy ∧ t.status.err = s.status.err := by
  unfold State.hostEvent at ht
  split at ht
  · exact hostAccess_frame ht
  · cases ht
    exact ⟨rfl, rfl, rfl⟩

/-- A point ends well, with a fault, or with a power loss: it raises no error and waits for nothing. -/
theorem takeEvents_cases (op : Option (UnitId × PendOp)) (l : List Input) (s : State) :
    (∃ t, takeEvents op l s = .ok () t) ∨ (∃ f t, takeEvents op l s = .error (.fault f) t)
      ∨ (∃ t, takeEvents op l s = .error .powerLost t) := by
  induction l generalizing s with
  | nil => exact .inl ⟨_, by rw [takeEvents.eq_def]⟩
  | cons x rest ih =>
    cases x with
    | idle e => exact .inl ⟨_, by rw [takeEvents.eq_def]⟩
    | dev d => exact .inl ⟨_, by rw [takeEvents.eq_def]⟩
    | regStep => exact .inl ⟨_, by rw [takeEvents.eq_def]⟩
    | busy e =>
      cases e with
      | access h a =>
        rw [takeEvents.eq_def]
        dsimp only
        cases s.hostEvent true h a with
        | ok s' => exact ih s'
        | error f => exact .inr (.inl ⟨f, _, rfl⟩)
      | powerLoss c =>
        rw [takeEvents.eq_def]
        dsimp only
        split
        · exact .inr (.inl ⟨_, _, rfl⟩)
        · exact .inr (.inr ⟨_, rfl⟩)

/-- As `takeEvents_cases`, for the point itself. -/
theorem point_cases (op : Option (UnitId × PendOp)) (s : State) :
    (∃ t, point op s = .ok () t) ∨ (∃ f t, point op s = .error (.fault f) t)
      ∨ (∃ t, point op s = .error .powerLost t) := takeEvents_cases op s.inputs s

/-- A device always answers, and only the schedule and the count of draws change. -/
theorem answer_cases (s : State) :
    ∃ d i n, answer s = .ok d { s with inputs := i, draws := n } := by
  unfold answer
  split
  · exact ⟨_, _, s.draws, rfl⟩
  · split
    · exact ⟨_, s.inputs, s.draws, rfl⟩
    · exact ⟨_, s.inputs, _, rfl⟩

theorem undisturbed_inputs {s : State} (h : s.undisturbed = true) :
    s.tail = .allOk ∧ (s.inputs = [] ∨ ∃ e rest, s.inputs = .idle e :: rest) := by
  unfold State.undisturbed at h
  rw [Bool.and_eq_true] at h
  refine ⟨by simpa using h.1, ?_⟩
  have h2 := h.2
  cases hi : s.inputs with
  | nil => exact .inl rfl
  | cons x rest =>
    cases x with
    | idle e => exact .inr ⟨e, rest, rfl⟩
    | busy e => rw [hi] at h2; cases h2
    | dev d => rw [hi] at h2; cases h2
    | regStep => rw [hi] at h2; cases h2

/-- Being undisturbed depends on the schedule alone. -/
theorem undisturbed_of_eq {s t : State} (h : s.undisturbed = true) (hi : t.inputs = s.inputs) (ht : t.tail = s.tail) :
    t.undisturbed = true := by
  unfold State.undisturbed at *
  rw [hi, ht]
  exact h

theorem point_undisturbed {s : State} (h : s.undisturbed = true) (op : Option (UnitId × PendOp)) :
    point op s = .ok () s := by
  refine point_of_no_event op fun e rest he => ?_
  rcases (undisturbed_inputs h).2 with hi | ⟨e', r, hi⟩ <;> rw [hi] at he <;> cases he

theorem undisturbed_uneventful {s : State} (h : s.undisturbed = true) : s.uneventful = true := by
  unfold State.uneventful
  rcases (undisturbed_inputs h).2 with hi | ⟨e, r, hi⟩ <;> rw [hi]

/-- Being uneventful depends on the schedule alone. -/
theorem uneventful_of_eq {s t : State} (h : s.uneventful = true) (hi : t.inputs = s.inputs) : t.uneventful = true := by
  unfold State.uneventful at *
  rw [hi]
  exact h

theorem point_uneventful {s : State} (h : s.uneventful = true) (op : Option (UnitId × PendOp)) :
    point op s = .ok () s := by
  refine point_of_no_event op fun e rest he => ?_
  unfold State.uneventful at h
  rw [he] at h
  cases h

/-- What a point lets through changes nothing that a command reads but BUF: the registers a host writes, STATUS but for
BUSY and ERR, and the model's own lists. -/
theorem takeEvents_frame {op : Option (UnitId × PendOp)} {l : List Input} {s t : State}
    (ht : takeEvents op l s = .ok () t) :
    t = { s with
        addr := t.addr, len := t.len, cfg := t.cfg, status := t.status, ie := t.ie, buf := t.buf, draws := t.draws
        replies := t.replies, inputs := t.inputs }
      ∧ t.status.busy = s.status.busy ∧ t.status.err = s.status.err := by
  induction l generalizing s with
  | nil =>
    rw [takeEvents.eq_def] at ht
    cases ht
    exact ⟨rfl, rfl, rfl⟩
  | cons x rest ih =>
    rw [takeEvents.eq_def] at ht
    cases x with
    | idle e => cases ht; exact ⟨rfl, rfl, rfl⟩
    | dev d => cases ht; exact ⟨rfl, rfl, rfl⟩
    | regStep => cases ht; exact ⟨rfl, rfl, rfl⟩
    | busy e =>
      cases e with
      | access h a =>
        dsimp only at ht
        cases he : s.hostEvent true h a with
        | error f => rw [he] at ht; cases ht
        | ok s' =>
          rw [he] at ht
          obtain ⟨h1, h2, h3⟩ := hostEvent_frame he
          obtain ⟨k1, k2, k3⟩ := ih ht
          refine ⟨?_, k2.trans h2, k3.trans h3⟩
          rw [k1, h1]
      | powerLoss c =>
        dsimp only at ht
        split at ht <;> cases ht

/-- As `takeEvents_frame`, for the point itself. -/
theorem point_frame {op : Option (UnitId × PendOp)} {s t : State} (ht : point op s = .ok () t) :
    t = { s with
        addr := t.addr, len := t.len, cfg := t.cfg, status := t.status, ie := t.ie, buf := t.buf, draws := t.draws
        replies := t.replies, inputs := t.inputs }
      ∧ t.status.busy = s.status.busy ∧ t.status.err = s.status.err := takeEvents_frame ht

/-! ### Register changes -/

/-- Only the schedule shows that a mark was used up. -/
theorem State.dropRegStep_frame (s : State) : s.dropRegStep = { s with inputs := s.dropRegStep.inputs } := by
  unfold State.dropRegStep
  split <;> rfl

@[simp] theorem State.m_dropRegStep (s : State) : s.dropRegStep.m = s.m := by rw [s.dropRegStep_frame]
@[simp] theorem State.f_dropRegStep (s : State) : s.dropRegStep.f = s.f := by rw [s.dropRegStep_frame]
@[simp] theorem State.info_dropRegStep (s : State) : s.dropRegStep.info = s.info := by rw [s.dropRegStep_frame]
@[simp] theorem State.devM_dropRegStep (s : State) : s.dropRegStep.devM = s.devM := by rw [s.dropRegStep_frame]
@[simp] theorem State.devF_dropRegStep (s : State) : s.dropRegStep.devF = s.devF := by rw [s.dropRegStep_frame]
@[simp] theorem State.params_dropRegStep (s : State) : s.dropRegStep.params = s.params := by rw [s.dropRegStep_frame]
@[simp] theorem State.status_dropRegStep (s : State) : s.dropRegStep.status = s.status := by rw [s.dropRegStep_frame]
@[simp] theorem State.latch_dropRegStep (s : State) : s.dropRegStep.latch = s.latch := by rw [s.dropRegStep_frame]
@[simp] theorem State.waiting_dropRegStep (s : State) : s.dropRegStep.waiting = s.waiting := by rw [s.dropRegStep_frame]
@[simp] theorem State.buf_dropRegStep (s : State) : s.dropRegStep.buf = s.buf := by rw [s.dropRegStep_frame]

theorem State.dropRegStep_uneventful {s : State} (h : s.uneventful = true) : s.dropRegStep = s := by
  unfold State.uneventful at h
  unfold State.dropRegStep
  split
  · rename_i hi
    rw [hi] at h
    cases h
  · rfl

/-- All that a register change can do. -/
theorem change_apply (f : State → State) (s : State) :
    change f s = match point none s with
      | .ok _ t => .ok () (f t.dropRegStep)
      | .error e t => .error e t := by
  unfold change
  rw [Proc.bind_apply]
  cases point none s <;> rfl

theorem change_uneventful {s : State} (h : s.uneventful = true) (f : State → State) : change f s = .ok () (f s) := by
  rw [change_apply, point_uneventful h]
  simp only [State.dropRegStep_uneventful h]

theorem keeps_change {I : State → Prop} {f : State → State} (hp : Keeps I (point none))
    (hd : ∀ s, I s → I s.dropRegStep) (hf : ∀ s, I s → I (f s)) : Keeps I (change f) :=
  keeps_bind hp fun _ => keeps_modify fun s hs => hf _ (hd s hs)

/-- Changes of Mirror registers, where nothing outside interferes. -/
theorem mirrorRegs_uneventful {s : State} (h : s.uneventful = true) (gs : List (MirrorUnit → MirrorUnit)) :
    mirrorRegs gs s = .ok () { s with m := gs.foldl (fun m g => g m) s.m } := by
  induction gs generalizing s with
  | nil => rfl
  | cons g gs ih =>
    exact (Proc.bind_ok (change_uneventful h _) _).trans (ih (uneventful_of_eq h rfl))

/-- Changes of FEE registers, where nothing outside interferes. -/
theorem feeRegs_uneventful {s : State} (h : s.uneventful = true) (gs : List (FeeUnit → FeeUnit)) :
    feeRegs gs s = .ok () { s with f := gs.foldl (fun f g => g f) s.f } := by
  induction gs generalizing s with
  | nil => rfl
  | cons g gs ih =>
    exact (Proc.bind_ok (change_uneventful h _) _).trans (ih (uneventful_of_eq h rfl))

/-- Changes of INFO registers, where nothing outside interferes. -/
theorem infoRegs_uneventful {s : State} (h : s.uneventful = true) (gs : List (InfoRegs → InfoRegs)) :
    infoRegs gs s = .ok () { s with info := gs.foldl (fun i g => g i) s.info } := by
  induction gs generalizing s with
  | nil => rfl
  | cons g gs ih =>
    exact (Proc.bind_ok (change_uneventful h _) _).trans (ih (uneventful_of_eq h rfl))

/-- All that changes of Mirror registers can do: they happen, with host accesses between them that leave the rest alone,
or a fault or a power loss ends them. -/
theorem mirrorRegs_cases (gs : List (MirrorUnit → MirrorUnit)) (s : State) :
    (∃ t, mirrorRegs gs s = .ok () t
      ∧ t = { s with
          m := gs.foldl (fun m g => g m) s.m
          addr := t.addr, len := t.len, cfg := t.cfg, status := t.status, ie := t.ie, buf := t.buf, draws := t.draws
          replies := t.replies, inputs := t.inputs }
      ∧ t.status.busy = s.status.busy ∧ t.status.err = s.status.err)
    ∨ (∃ f t, mirrorRegs gs s = .error (.fault f) t) ∨ ∃ t, mirrorRegs gs s = .error .powerLost t := by
  induction gs generalizing s with
  | nil => exact .inl ⟨s, rfl, rfl, rfl, rfl⟩
  | cons g gs ih =>
    rcases point_cases none s with ⟨t, ht⟩ | ⟨f, t, ht⟩ | ⟨t, ht⟩
    · obtain ⟨k1, k2, k3⟩ := point_frame ht
      have hc : change (fun s => { s with m := g s.m }) s
          = .ok () { t.dropRegStep with m := g t.dropRegStep.m } := by rw [change_apply, ht]
      have hs : mirrorRegs (g :: gs) s = mirrorRegs gs { t.dropRegStep with m := g t.dropRegStep.m } := Proc.bind_ok hc _
      rw [hs]
      have hm : t.m = s.m := by rw [k1]
      rcases ih { t.dropRegStep with m := g t.dropRegStep.m } with ⟨t', h1, h2, h3, h4⟩ | h | h
      · refine .inl ⟨t', h1, ?_, ?_, ?_⟩
        · rw [h2, t.dropRegStep_frame]
          simp only [hm, List.foldl_cons]
          rw [k1]
        · simpa [k2] using h3
        · simpa [k3] using h4
      · exact .inr (.inl h)
      · exact .inr (.inr h)
    · exact .inr (.inl ⟨f, t, Proc.bind_error (by rw [change_apply, ht]) _⟩)
    · exact .inr (.inr ⟨t, Proc.bind_error (by rw [change_apply, ht]) _⟩)

/-- As `mirrorRegs_cases`, for the FEE bank. -/
theorem feeRegs_cases (gs : List (FeeUnit → FeeUnit)) (s : State) :
    (∃ t, feeRegs gs s = .ok () t
      ∧ t = { s with
          f := gs.foldl (fun f g => g f) s.f
          addr := t.addr, len := t.len, cfg := t.cfg, status := t.status, ie := t.ie, buf := t.buf, draws := t.draws
          replies := t.replies, inputs := t.inputs }
      ∧ t.status.busy = s.status.busy ∧ t.status.err = s.status.err)
    ∨ (∃ f t, feeRegs gs s = .error (.fault f) t) ∨ ∃ t, feeRegs gs s = .error .powerLost t := by
  induction gs generalizing s with
  | nil => exact .inl ⟨s, rfl, rfl, rfl, rfl⟩
  | cons g gs ih =>
    rcases point_cases none s with ⟨t, ht⟩ | ⟨f, t, ht⟩ | ⟨t, ht⟩
    · obtain ⟨k1, k2, k3⟩ := point_frame ht
      have hc : change (fun s => { s with f := g s.f }) s
          = .ok () { t.dropRegStep with f := g t.dropRegStep.f } := by rw [change_apply, ht]
      have hs : feeRegs (g :: gs) s = feeRegs gs { t.dropRegStep with f := g t.dropRegStep.f } := Proc.bind_ok hc _
      rw [hs]
      have hm : t.f = s.f := by rw [k1]
      rcases ih { t.dropRegStep with f := g t.dropRegStep.f } with ⟨t', h1, h2, h3, h4⟩ | h | h
      · refine .inl ⟨t', h1, ?_, ?_, ?_⟩
        · rw [h2, t.dropRegStep_frame]
          simp only [hm, List.foldl_cons]
          rw [k1]
        · simpa [k2] using h3
        · simpa [k3] using h4
      · exact .inr (.inl h)
      · exact .inr (.inr h)
    · exact .inr (.inl ⟨f, t, Proc.bind_error (by rw [change_apply, ht]) _⟩)
    · exact .inr (.inr ⟨t, Proc.bind_error (by rw [change_apply, ht]) _⟩)

theorem answer_undisturbed {s : State} (h : s.undisturbed = true) : answer s = .ok .ok s := by
  obtain ⟨ht, hi | ⟨e, r, hi⟩⟩ := undisturbed_inputs h <;> simp [answer, hi, ht]

/-! ### The device primitives -/

/-- A write or erase that the device performs, or fails. -/
theorem performOp_apply (u : UnitId) (op : PendOp) (d : Draw) (s : State) :
    performOp u op d s =
      match d with
      | .ok => .ok () (s.setDev u ((s.dev u).perform op))
      | .fail t => .error (.raised .dev) (s.setDev u ((s.dev u).performFailed (s.tearRule u) t op)) := by
  unfold performOp
  rw [Proc.bind_ok (Proc.get_apply s)]
  cases d <;> rfl

/-- All that DevRead can do. -/
theorem devRead_apply (u : UnitId) (a n : Nat) (s : State) :
    devRead u a n s =
      if (s.dev u).readable a n then
        match point none s with
        | .error x t => .error x t
        | .ok _ t =>
          match answer t with
          | .error x t' => .error x t'
          | .ok (.fail _) t' => .error (.raised .dev) t'
          | .ok .ok t' => .ok ((t'.dev u).cur.bytesAt a n) t'
      else .error (.fault .deviceContract) s := by
  unfold devRead
  rw [Proc.bind_ok (Proc.get_apply s)]
  by_cases hc : (s.dev u).readable a n = true
  · rw [Proc.bind_ok (contract_holds _ hc s), if_pos hc]
    simp only [Proc.bind_apply]
    cases point none s with
    | error x t => rfl
    | ok a t =>
      simp only
      cases answer t with
      | error x t' => rfl
      | ok d t' => cases d <;> rfl
  · rw [Proc.bind_error (contract_broken _ hc s), if_neg hc]

/-- All that DevErase can do. -/
theorem devErase_apply (u : UnitId) (a n : Nat) (s : State) :
    devErase u a n s =
      if (s.dev u).erasable a n then
        match point (some (u, .erase a n)) s with
        | .error x t => .error x t
        | .ok _ t =>
          match answer t with
          | .error x t' => .error x t'
          | .ok d t' => performOp u (.erase a n) d t'
      else .error (.fault .deviceContract) s := by
  unfold devErase
  rw [Proc.bind_ok (Proc.get_apply s)]
  by_cases hc : (s.dev u).erasable a n = true
  · rw [Proc.bind_ok (contract_holds _ hc s), if_pos hc]
    simp only [Proc.bind_apply]
    cases point (some (u, PendOp.erase a n)) s with
    | error x t => rfl
    | ok a t =>
      simp only
      cases answer t <;> rfl
  · rw [Proc.bind_error (contract_broken _ hc s), if_neg hc]

/-- All that DevSync can do. -/
theorem devSync_apply (u : UnitId) (s : State) :
    devSync u s =
      match point none s with
      | .error x t => .error x t
      | .ok _ t =>
        match answer t with
        | .error x t' => .error x t'
        | .ok (.fail _) t' => .error (.raised .dev) t'
        | .ok .ok t' => .ok () (t'.setDev u (t'.dev u).synced) := by
  unfold devSync
  simp only [Proc.bind_apply]
  cases point none s with
  | error x t => rfl
  | ok a t =>
    simp only
    cases answer t with
    | error x t' => rfl
    | ok d t' => cases d <;> rfl

/-- All that DevWrite can do. -/
theorem devWrite_apply (u : UnitId) (a : Nat) (data : List Byte) (s : State) :
    devWrite u a data s =
      if (s.dev u).writable a data.length then
        match point (some (u, .write a data)) s with
        | .error x t => .error x t
        | .ok _ t =>
          match answer t with
          | .error x t' => .error x t'
          | .ok d t' =>
            if (t'.dev u).overwrites a data then overwriteOp u (.write a data) d t'
            else performOp u (.write a data) d t'
      else .error (.fault .deviceContract) s := by
  unfold devWrite
  rw [Proc.bind_ok (Proc.get_apply s)]
  by_cases hc : (s.dev u).writable a data.length = true
  · rw [Proc.bind_ok (contract_holds _ hc s), if_pos hc]
    simp only [Proc.bind_apply]
    cases point (some (u, PendOp.write a data)) s with
    | error x t => rfl
    | ok b t =>
      simp only
      cases answer t with
      | error x t' => rfl
      | ok d t' =>
        simp only [Proc.get_apply]
        split <;> rfl
  · rw [Proc.bind_error (contract_broken _ hc s), if_neg hc]

/-! ### The same where nothing outside interferes -/

theorem devRead_undisturbed {s : State} (h : s.undisturbed = true) {u : UnitId} {a n : Nat}
    (hr : (s.dev u).readable a n = true) : devRead u a n s = .ok ((s.dev u).cur.bytesAt a n) s := by
  rw [devRead_apply, if_pos hr, point_undisturbed h]
  simp only [answer_undisturbed h]

theorem devErase_undisturbed {s : State} (h : s.undisturbed = true) {u : UnitId} {a n : Nat}
    (hr : (s.dev u).erasable a n = true) :
    devErase u a n s = .ok () (s.setDev u ((s.dev u).perform (.erase a n))) := by
  rw [devErase_apply, if_pos hr, point_undisturbed h]
  simp only [answer_undisturbed h, performOp_apply]

theorem devSync_undisturbed {s : State} (h : s.undisturbed = true) (u : UnitId) :
    devSync u s = .ok () (s.setDev u (s.dev u).synced) := by
  rw [devSync_apply, point_undisturbed h]
  simp only [answer_undisturbed h]

theorem devWrite_undisturbed {s : State} (h : s.undisturbed = true) {u : UnitId} {a : Nat} {data : List Byte}
    (hw : (s.dev u).writable a data.length = true) (ho : (s.dev u).overwrites a data = false) :
    devWrite u a data s = .ok () (s.setDev u ((s.dev u).perform (.write a data))) := by
  rw [devWrite_apply, if_pos hw, point_undisturbed h]
  simp only [answer_undisturbed h, ho, performOp_apply, Bool.false_eq_true, if_false]

/-- A mark write, with its sync, where nothing outside interferes (40_codec.md R145). -/
theorem writeMarkWord_undisturbed {s : State} (h : s.undisturbed = true) {u : UnitId} {a v : Nat}
    (hw : (s.dev u).writable a (s.markWidth u).bytes = true)
    (ho : (s.dev u).overwrites a (leBytes (s.markWidth u).bytes v) = false) :
    writeMarkWord u a v s =
      .ok () (s.setDev u ((s.dev u).perform (.write a (leBytes (s.markWidth u).bytes v))).synced) := by
  unfold writeMarkWord
  rw [Proc.bind_ok (Proc.get_apply s),
    Proc.bind_ok (devWrite_undisturbed h (by simpa using hw) ho),
    devSync_undisturbed (undisturbed_of_eq h (State.inputs_setDev _ _ _) (State.tail_setDev _ _ _))]
  simp

/-- A command's end where nothing outside interferes (44_dispatch_and_lock.md R276). -/
theorem finish_undisturbed {s : State} (h : s.undisturbed = true) (e : ErrCode) : finish e s = .next (s.complete e) := by
  unfold finish
  rw [point_undisturbed h]

/-! ### BUF -/

/-- All that a command's read of BUF can do. -/
theorem bufLoad_apply (n : Nat) (s : State) :
    bufLoad n s = if n ≤ s.params.bufBytes then .ok (s.bufBytes 0 n) s else .error (.fault .bufferBounds) s := by
  unfold bufLoad
  rw [Proc.bind_ok (Proc.get_apply s), Proc.bind_apply, contract_apply]
  by_cases h : n ≤ s.params.bufBytes <;> simp [h]

/-- All that a command's write of BUF can do. -/
theorem bufStore_apply (bs : List Byte) (s : State) :
    bufStore bs s =
      if bs.length ≤ s.params.bufBytes then .ok () (s.setBuf 0 bs) else .error (.fault .bufferBounds) s := by
  unfold bufStore
  rw [Proc.bind_ok (Proc.get_apply s), Proc.bind_apply, contract_apply]
  by_cases h : bs.length ≤ s.params.bufBytes <;> simp [h]

/-- A byte of BUF after a write of a byte string. -/
theorem get?_putBytes {m : Memory} (h : m.wf none = true) (a : Nat) (bs : List Byte) (x : Nat) :
    (m.putBytes none a bs).get? x = if a ≤ x ∧ x < a + bs.length then bs[x - a]? else m.get? x := by
  induction bs generalizing m a with
  | nil =>
    simp only [Memory.putBytes, List.length_nil]
    rw [if_neg (by omega)]
  | cons b bs ih =>
    simp only [Memory.putBytes]
    rw [ih (Memory.wf_put h a b)]
    have hp : (m.put none a b).get? x = if a = x then some b else m.get? x := by
      unfold Memory.put
      rw [if_neg (by simp), Memory.get?_insert _ _ _ ((Memory.wf_iff _ _).1 h).1]
    rw [hp]
    by_cases hx : a = x
    · subst hx
      simp
    · rw [if_neg hx]
      by_cases hr : a + 1 ≤ x ∧ x < a + 1 + bs.length
      · rw [if_pos hr, if_pos (by simp; omega)]
        obtain ⟨k, rfl⟩ : ∃ k, x = a + 1 + k := ⟨x - (a + 1), by omega⟩
        have h1 : a + 1 + k - a = k + 1 := by omega
        have h2 : a + 1 + k - (a + 1) = k := by omega
        rw [h1, h2, List.getElem?_cons_succ]
      · rw [if_neg hr, if_neg (by simp; omega)]

/-! ### The bus lock -/

/-- All that Release can do (44_dispatch_and_lock.md R279). -/
theorem release_apply (u : UnitId) (s : State) :
    release u s =
      if (s.lock u).count = 0 then .error (.raised .state) s
      else if (s.lock u).count = 1 then
        change (fun s => (s.setLock u ⟨0, 0⟩).setDev u { s.dev u with owned := false }) s
      else change (fun s => s.setLock u { s.lock u with count := (s.lock u).count - 1 }) s := by
  unfold release
  rw [Proc.bind_ok (Proc.get_apply s)]
  split
  · rfl
  · split <;> rfl

/-- All that Acquire can do (44_dispatch_and_lock.md R278). -/
theorem acquire_apply (u : UnitId) (h : HostId) (s : State) :
    acquire u h s =
      if (s.lock u).count = 0 then acquireFresh u h s
      else if (s.lock u).count.toNat = s.params.lockMax then .error (.raised .state) s
      else change (fun s => s.setLock u { s.lock u with count := (s.lock u).count + 1 }) s := by
  unfold acquire
  rw [Proc.bind_ok (Proc.get_apply s)]
  split
  · rfl
  · split <;> rfl

/-- DevAcquire that the device grants at once, where nothing outside interferes. -/
theorem acquireFresh_undisturbed {s : State} (h : s.undisturbed = true) (u : UnitId) (hid : HostId) :
    acquireFresh u hid s =
      .ok () { (s.setDev u { s.dev u with owned := true }).setLock u ⟨1, hid⟩ with waiting := none } := by
  unfold acquireFresh
  rw [Proc.bind_ok (point_undisturbed h none), Proc.bind_ok (answer_undisturbed h)]
  exact change_uneventful (undisturbed_uneventful h) _

/-! ### The memories keep their canonical form -/

/-- The machine right after reset holds canonical memories. -/
theorem reset_memory_wf :
    Memory.wf (some erasedByte) State.reset.devM.cur = true ∧ Memory.wf (some erasedByte) State.reset.devM.dur = true
      ∧ Memory.wf (some erasedByte) State.reset.devF.cur = true
      ∧ Memory.wf (some erasedByte) State.reset.devF.dur = true ∧ Memory.wf none State.reset.buf = true :=
  ⟨rfl, rfl, rfl, rfl, rfl⟩

/-- Both images of a device are canonical. -/
def Device.canonical (d : Device) : Prop :=
  Memory.wf (some erasedByte) d.cur = true ∧ Memory.wf (some erasedByte) d.dur = true

theorem Device.perform_canonical {d : Device} (h : d.canonical) (op : PendOp) : (d.perform op).canonical :=
  ⟨wf_land h.1 op _, h.2⟩

theorem Device.performFailed_canonical {d : Device} (h : d.canonical) (r : TearRule) (t : Torn) (op : PendOp) :
    (d.performFailed r t op).canonical :=
  ⟨Memory.wf_splice (wf_settle h.2 r t _) h.1 _ _, h.2⟩

theorem Device.synced_canonical {d : Device} (h : d.canonical) : d.synced.canonical := ⟨h.1, h.1⟩

theorem Device.afterPowerLoss_canonical {d : Device} (h : d.canonical) (r : TearRule) (t : Torn) :
    (d.afterPowerLoss r t).canonical := ⟨wf_settle h.2 r t _, wf_settle h.2 r t _⟩

theorem State.setBuf_wf {s : State} (h : Memory.wf none s.buf = true) (i : Nat) (bs : List Byte) :
    Memory.wf none (s.setBuf i bs).buf = true := Memory.wf_putBytes h i bs

end Sys2Proof.Machine
end

