-- ==== Sys2Proof/Laws/Banks.lean ====
section
/-! SUPPORT. The lists of register changes that OBJECT_INIT and START make, done to the end. -/

namespace Sys2Proof.Machine

theorem MirrorUnit.geometryRegs_done (m : MirrorUnit) (i : DevInfo) (h : Nat) :
    (m.withGeometry i h).geometryRegs.foldl (fun m g => g m) m = m.withGeometry i h := rfl

theorem FeeUnit.geometryRegs_done (f : FeeUnit) (p : Params) (i : DevInfo) :
    (f.withGeometry p i).geometryRegs.foldl (fun f g => g f) f = f.withGeometry p i := rfl

/-- DRV is set to STOP before the geometry is taken. -/
theorem MirrorUnit.geometryRegs_drv (m : MirrorUnit) (d : DrvState) (i : DevInfo) (h : Nat) :
    (m.withGeometry i h).geometryRegs.foldl (fun m g => g m) { m with drv := d } =
      { m.withGeometry i h with drv := d } := rfl

theorem MirrorUnit.initRegs_done (m : MirrorUnit) : m.objectInit.initRegs.foldl (fun m g => g m) m = m.objectInit := rfl

theorem FeeUnit.initRegs_done (f : FeeUnit) : f.objectInit.initRegs.foldl (fun f g => g f) f = f.objectInit := rfl

end Sys2Proof.Machine
end

