-- ==== Sys2Proof/Laws/Device.lean ====
section
/-! SUPPORT. Laws of the devices' torn operations, bit by bit. -/

namespace Sys2Proof.Machine

/-- A bit after an operation that lands under a mask: the operation's own effect where the mask's bit is 1. -/
theorem PendOp.bit_land {m : Memory} (h : m.wf (some erasedByte) = true) (op : PendOp) (mask : Nat → Byte)
    (x : Nat) {b : Nat} (hb : b < 8) :
    ((op.land mask m).byteAt x).getLsbD b =
      if (mask x).getLsbD b then op.bitAfter x b ((m.byteAt x).getLsbD b) else (m.byteAt x).getLsbD b := by
  cases op with
  | write a d =>
    simp only [PendOp.land, PendOp.bitAfter, byteAt_landWrite h]
    split
    · simp only [BitVec.getLsbD_and, BitVec.getLsbD_or, BitVec.getLsbD_not, hb, decide_true, Bool.true_and]
      cases (mask x).getLsbD b <;> simp
    · simp
  | erase a n =>
    simp only [PendOp.land, PendOp.bitAfter, byteAt_landErase h]
    split
    · simp only [BitVec.getLsbD_or]
      cases (mask x).getLsbD b <;> simp
    · simp

/-- A settled image, bit by bit: every bit takes the operations whose tear mask names it. -/
theorem settleFrom_bit (r : TearRule) (t : Torn) (pending : List PendOp) (took : Nat → Nat → Nat → Bool) (x : Nat)
    {b : Nat} (hb : b < 8) (ops : List PendOp) (k : Nat) {m : Memory} (h : m.wf (some erasedByte) = true)
    (ht : ∀ j op, ops[j]? = some op → op.addr ≤ x → x < op.addr + op.len →
      took (k + j) x b = (tearMask r t pending (k + j) op x).getLsbD b) :
    ((settleFrom r t pending k ops m).byteAt x).getLsbD b = tornBit took x b k ops ((m.byteAt x).getLsbD b) := by
  induction ops generalizing k m with
  | nil => rfl
  | cons op ops ih =>
    simp only [settleFrom, tornBit]
    rw [ih (k + 1) (wf_land h op _) (fun j o hj => by
      have := ht (j + 1) o (by simpa using hj)
      rwa [show k + (j + 1) = k + 1 + j by omega] at this), PendOp.bit_land h op _ x hb]
    congr 1
    by_cases hc : op.addr ≤ x ∧ x < op.addr + op.len
    · rw [show took k x b = _ from ht 0 op (by simp) hc.1 hc.2]
      rfl
    · have : ∀ v, op.bitAfter x b v = v := fun v => by
        cases op <;> exact if_neg hc
      simp [this]

end Sys2Proof.Machine
end

