-- ==== Sys2Proof/Laws/PerInstr.lean ====
section
/-! SUPPORT. A statement about every command as syntax, proved command by command: the fields of its word read back, and
its reserved bits are 0 (30_encoding.md R100). -/

namespace Sys2Proof.Laws.Fields

/-- The OP, UNIT and HID fields of a command's word are the command's, and every reserved bit is 0. -/
def Statement (i : Instr) : Prop :=
  opField (encode i) = i.op ∧ unitField (encode i) = i.unit ∧ hidField (encode i) = i.hid
    ∧ reservedClear (encode i) = true

/-- The fields of a word put together from its parts. -/
theorem of_parts (h : HostId) (u : BitVec 1) (o : BitVec 4) :
    opField ((0 : BitVec 20) ++ h ++ (0 : BitVec 3) ++ u ++ o) = o
      ∧ hidField ((0 : BitVec 20) ++ h ++ (0 : BitVec 3) ++ u ++ o) = h
      ∧ ((0 : BitVec 20) ++ h ++ (0 : BitVec 3) ++ u ++ o : Word).getLsbD 4 = u.getLsbD 0
      ∧ reservedClear ((0 : BitVec 20) ++ h ++ (0 : BitVec 3) ++ u ++ o) = true := by
  revert h u o
  decide +kernel

/-- A MIRROR command's fields. -/
theorem of_mirror {i : Instr} (hu : i.unit = .mirror) : Statement i := by
  obtain ⟨ho, hh, hb, hr⟩ := of_parts i.hid i.unit.bit i.op
  refine ⟨ho, ?_, hh, hr⟩
  unfold unitField encode
  rw [hb, hu]
  rfl

/-- An FEE command's fields. -/
theorem of_fee {i : Instr} (hu : i.unit = .fee) : Statement i := by
  obtain ⟨ho, hh, hb, hr⟩ := of_parts i.hid i.unit.bit i.op
  refine ⟨ho, ?_, hh, hr⟩
  unfold unitField encode
  rw [hb, hu]
  rfl

theorem mirrorInit (hid : HostId) : Statement (.mirrorInit hid) := of_mirror rfl
theorem mirrorObjectInit (hid : HostId) : Statement (.mirrorObjectInit hid) := of_mirror rfl
theorem mirrorStart (hid : HostId) : Statement (.mirrorStart hid) := of_mirror rfl
theorem mirrorStop (hid : HostId) : Statement (.mirrorStop hid) := of_mirror rfl
theorem mirrorRead (hid : HostId) : Statement (.mirrorRead hid) := of_mirror rfl
theorem mirrorWrite (hid : HostId) : Statement (.mirrorWrite hid) := of_mirror rfl
theorem mirrorErase (hid : HostId) : Statement (.mirrorErase hid) := of_mirror rfl
theorem mirrorMassErase (hid : HostId) : Statement (.mirrorMassErase hid) := of_mirror rfl
theorem mirrorSync (hid : HostId) : Statement (.mirrorSync hid) := of_mirror rfl
theorem mirrorGetInfo (hid : HostId) : Statement (.mirrorGetInfo hid) := of_mirror rfl
theorem mirrorAcquireBus (hid : HostId) : Statement (.mirrorAcquireBus hid) := of_mirror rfl
theorem mirrorReleaseBus (hid : HostId) : Statement (.mirrorReleaseBus hid) := of_mirror rfl
theorem feeInit (hid : HostId) : Statement (.feeInit hid) := of_fee rfl
theorem feeObjectInit (hid : HostId) : Statement (.feeObjectInit hid) := of_fee rfl
theorem feeStart (hid : HostId) : Statement (.feeStart hid) := of_fee rfl
theorem feeStop (hid : HostId) : Statement (.feeStop hid) := of_fee rfl
theorem feeRead (hid : HostId) : Statement (.feeRead hid) := of_fee rfl
theorem feeWrite (hid : HostId) : Statement (.feeWrite hid) := of_fee rfl
theorem feeErase (hid : HostId) : Statement (.feeErase hid) := of_fee rfl
theorem feeMassErase (hid : HostId) : Statement (.feeMassErase hid) := of_fee rfl
theorem feeSync (hid : HostId) : Statement (.feeSync hid) := of_fee rfl
theorem feeGetInfo (hid : HostId) : Statement (.feeGetInfo hid) := of_fee rfl
theorem feeAcquireBus (hid : HostId) : Statement (.feeAcquireBus hid) := of_fee rfl
theorem feeReleaseBus (hid : HostId) : Statement (.feeReleaseBus hid) := of_fee rfl

end Sys2Proof.Laws.Fields
end

