-- ==== Sys2Proof/Tests/Slice0.lean ====
section
/-! SUPPORT. The model's own tests: decoding, well-formedness, one step on small states, and a witness for the hypotheses
of every statement. Expected results come from the spec's tables and vectors, named in each docstring. -/

open Sys2Proof Sys2Proof.Machine

namespace Sys2Proof.Tests

set_option Elab.async false

/-! ### Helpers -/

/-- The command ends in a next state that passes the check. -/
def ends (i : Instr) (s : State) (p : State → Bool) : Bool :=
  match exec i s with
  | .next t => p t
  | _ => false

/-- The step ends in a next state that passes the check. -/
def steps (s : State) (p : State → Bool) : Bool :=
  match step s with
  | .next t => p t
  | _ => false

/-- The state after a command; the same state if it stops. -/
def after (i : Instr) (s : State) : State :=
  match exec i s with
  | .next t => t
  | _ => s

/-- The state with operands in the latches. -/
def withOps (s : State) (addr len cfg : Word) : State := { s with latch := ⟨0, addr, len, cfg⟩ }

/-- The test platform of 95_test_vectors.md section 0.1 after reset, with devices that answer ok. -/
def calm : State := { State.reset with params := { Config.defaultParams with granule := .sector }, tail := .allOk }

/-- The Mirror unit right after MIRROR.OBJECT_INIT, with CFG = 1. -/
def mStop : State := withOps (after (.mirrorObjectInit 0) calm) 0 0 1

/-- The Mirror unit right after its first boot (95_test_vectors.md V-M-1). -/
def mReady : State := after (.mirrorStart 0) mStop

/-- The FEE unit right after FEE.OBJECT_INIT. -/
def fStop : State := after (.feeObjectInit 0) calm

/-- The FEE unit right after its first boot (95_test_vectors.md T-FEE-1, step 0). -/
def fReady : State := after (.feeStart 0) fStop

/-- A state with a byte string at an address of DEV_M, durable. -/
def withM (s : State) (a : Nat) (bs : List Byte) : State :=
  let m := s.devM.cur.putBytes (some erasedByte) a bs
  { s with devM := { s.devM with cur := m, dur := m } }

/-- A state with a byte string at an address of DEV_F, durable. -/
def withF (s : State) (a : Nat) (bs : List Byte) : State :=
  let m := s.devF.cur.putBytes (some erasedByte) a bs
  { s with devF := { s.devF with cur := m, dur := m } }

/-- An 8-byte payload b, b+1, ... -/
def payload (b : Byte) : List Byte := (List.range 8).map fun k => b + BitVec.ofNat 8 k

/-- The VALID record of a key and a payload, as 95_test_vectors.md T-FEE-1 writes it. -/
def slot (key b : Byte) : List Byte := [0, 0, 0, 0, 0, 0, 0, 0, key, 0, 0, 0] ++ payload b

/-- The FEE unit with its four slots full: A at 0, B at 8, C at 16, D at 24 (95_test_vectors.md T-FEE-1, step 4). -/
def fFull : State :=
  let s := withF fReady 32 (slot 0 0xA0 ++ slot 8 0xB0 ++ slot 16 0xC0 ++ slot 24 0xD0)
  { s with f := { s.f with slotsUsed := 4 } }

/-- The FEE unit with one slot in use: A at 0. -/
def fOne : State :=
  let s := withF fReady 32 (slot 0 0xA0)
  { s with f := { s.f with slotsUsed := 1 } }

/-- A Mirror log entry for W_M = 4. -/
def entry (x : LogMark) : List Byte := x.encode .w4

/-! ### Well-formedness refuses ill-formed terms (00_scope.md R7, 30_encoding.md R107) -/

theorem test_wf_accepts_a_host : (Instr.mirrorInit 3).wf 4 = true := by decide
theorem test_wf_refuses_a_host_past_n_hosts : (Instr.mirrorInit 4).wf 4 = false := by decide
theorem test_wf_accepts_the_platform : Config.defaultParams.wf = true := by decide
theorem test_wf_refuses_no_payload : { Config.defaultParams with payload := 0 }.wf = false := by decide
theorem test_wf_refuses_a_long_payload : { Config.defaultParams with payload := 0x100000 }.wf = false := by decide
theorem test_wf_refuses_no_host : { Config.defaultParams with nHosts := 0 }.wf = false := by decide
theorem test_wf_refuses_17_hosts : { Config.defaultParams with nHosts := 17 }.wf = false := by decide
theorem test_wf_refuses_no_lock_depth : { Config.defaultParams with lockMax := 0 }.wf = false := by decide
theorem test_wf_refuses_lock_depth_256 : { Config.defaultParams with lockMax := 256 }.wf = false := by decide
theorem test_wf_refuses_no_buffer : { Config.defaultParams with bufBytes := 0 }.wf = false := by decide
theorem test_wf_refuses_a_long_buffer : { Config.defaultParams with bufBytes := 0xF004 }.wf = false := by decide
theorem test_wf_refuses_an_odd_buffer : { Config.defaultParams with bufBytes := 6 }.wf = false := by decide
theorem test_wf_refuses_an_unaligned_base : { Config.defaultParams with blockBase := 4 }.wf = false := by decide

/-! ### Decoding, by the words of 30_encoding.md R104; HID = 3 adds 0x300 -/

theorem test_decode_mirrorInit : decode 0x00000000 = .ok (.mirrorInit 0) ∧ decode 0x00000300 = .ok (.mirrorInit 3) := by
  decide +kernel
theorem test_decode_mirrorObjectInit : decode 0x00000001 = .ok (.mirrorObjectInit 0)
    ∧ decode 0x00000301 = .ok (.mirrorObjectInit 3) := by
  decide +kernel
theorem test_decode_mirrorStart : decode 0x00000002 = .ok (.mirrorStart 0)
    ∧ decode 0x00000302 = .ok (.mirrorStart 3) := by
  decide +kernel
theorem test_decode_mirrorStop : decode 0x00000003 = .ok (.mirrorStop 0) ∧ decode 0x00000303 = .ok (.mirrorStop 3) := by
  decide +kernel
theorem test_decode_mirrorRead : decode 0x00000004 = .ok (.mirrorRead 0) ∧ decode 0x00000304 = .ok (.mirrorRead 3) := by
  decide +kernel
theorem test_decode_mirrorWrite : decode 0x00000005 = .ok (.mirrorWrite 0)
    ∧ decode 0x00000305 = .ok (.mirrorWrite 3) := by
  decide +kernel
theorem test_decode_mirrorErase : decode 0x00000006 = .ok (.mirrorErase 0)
    ∧ decode 0x00000306 = .ok (.mirrorErase 3) := by
  decide +kernel
theorem test_decode_mirrorMassErase : decode 0x00000007 = .ok (.mirrorMassErase 0)
    ∧ decode 0x00000307 = .ok (.mirrorMassErase 3) := by
  decide +kernel
theorem test_decode_mirrorSync : decode 0x00000008 = .ok (.mirrorSync 0) ∧ decode 0x00000308 = .ok (.mirrorSync 3) := by
  decide +kernel
theorem test_decode_mirrorGetInfo : decode 0x00000009 = .ok (.mirrorGetInfo 0)
    ∧ decode 0x00000309 = .ok (.mirrorGetInfo 3) := by
  decide +kernel
theorem test_decode_mirrorAcquireBus : decode 0x0000000A = .ok (.mirrorAcquireBus 0)
    ∧ decode 0x0000030A = .ok (.mirrorAcquireBus 3) := by
  decide +kernel
theorem test_decode_mirrorReleaseBus : decode 0x0000000B = .ok (.mirrorReleaseBus 0)
    ∧ decode 0x0000030B = .ok (.mirrorReleaseBus 3) := by
  decide +kernel
theorem test_decode_feeInit : decode 0x00000010 = .ok (.feeInit 0) ∧ decode 0x00000310 = .ok (.feeInit 3) := by
  decide +kernel
theorem test_decode_feeObjectInit : decode 0x00000011 = .ok (.feeObjectInit 0)
    ∧ decode 0x00000311 = .ok (.feeObjectInit 3) := by
  decide +kernel
theorem test_decode_feeStart : decode 0x00000012 = .ok (.feeStart 0) ∧ decode 0x00000312 = .ok (.feeStart 3) := by
  decide +kernel
theorem test_decode_feeStop : decode 0x00000013 = .ok (.feeStop 0) ∧ decode 0x00000313 = .ok (.feeStop 3) := by
  decide +kernel
theorem test_decode_feeRead : decode 0x00000014 = .ok (.feeRead 0) ∧ decode 0x00000314 = .ok (.feeRead 3) := by
  decide +kernel
theorem test_decode_feeWrite : decode 0x00000015 = .ok (.feeWrite 0) ∧ decode 0x00000315 = .ok (.feeWrite 3) := by
  decide +kernel
theorem test_decode_feeErase : decode 0x00000016 = .ok (.feeErase 0) ∧ decode 0x00000316 = .ok (.feeErase 3) := by
  decide +kernel
theorem test_decode_feeMassErase : decode 0x00000017 = .ok (.feeMassErase 0)
    ∧ decode 0x00000317 = .ok (.feeMassErase 3) := by
  decide +kernel
theorem test_decode_feeSync : decode 0x00000018 = .ok (.feeSync 0) ∧ decode 0x00000318 = .ok (.feeSync 3) := by
  decide +kernel
theorem test_decode_feeGetInfo : decode 0x00000019 = .ok (.feeGetInfo 0) ∧ decode 0x00000319 = .ok (.feeGetInfo 3) := by
  decide +kernel
theorem test_decode_feeAcquireBus : decode 0x0000001A = .ok (.feeAcquireBus 0)
    ∧ decode 0x0000031A = .ok (.feeAcquireBus 3) := by
  decide +kernel
theorem test_decode_feeReleaseBus : decode 0x0000001B = .ok (.feeReleaseBus 0)
    ∧ decode 0x0000031B = .ok (.feeReleaseBus 3) := by
  decide +kernel

/-- 95_test_vectors.md V-D-1 to V-D-4. -/
theorem test_illegal_words : decode 0x0000000C = .error .reservedOp ∧ decode 0x0000001F = .error .reservedOp
    ∧ decode 0x00000020 = .error .reservedBits ∧ decode 0x00001000 = .error .reservedBits
    ∧ legalCommand 4 0x00000400 = none := by decide +kernel

/-- The table's bits above the word are 0, and a word of more bits is no command (30_encoding.md R108). -/
theorem test_table_words : decodeTableWord 32 0x21B = some (.feeReleaseBus 2)
    ∧ decodeTableWord 32 0x100000000 = none := by decide +kernel

/-! ### One step each, by 95_test_vectors.md -/

/-- V-D-8. -/
theorem test_mirrorInit_step : steps (State.reset.withFetchWord 32 0x00000000)
    (fun t => t.status.word == 0x2 && t.m.drv == .uninit) = true := by decide +kernel

/-- V-D-9. -/
theorem test_mirrorObjectInit_step : steps (State.reset.withFetchWord 32 0x00000001)
    (fun t => t.status.word == 0x2 && t.m.drv == .stop) = true := by decide +kernel

/-- V-K-7: refused while the lock is held, even for its owner. -/
theorem test_mirrorObjectInit_held : ends (.mirrorObjectInit 1) (mReady.setLock .mirror ⟨1, 1⟩)
    (fun t => t.status.word == 0x302 && t.m.drv == .ready) = true := by decide +kernel

/-- V-G-1, first row, and V-M-1. -/
theorem test_mirrorStart_boot : ends (.mirrorStart 0) mStop (fun t => t.status.word == 0x2 && t.m.drv == .ready
    && t.m.state == .synced && t.m.stateAddr == 0 && t.m.hdrBytes == 64 && t.m.sectors == 2 && t.m.size == 128
    && t.m.aOrg == 64 && t.m.bOrg == 192 && t.devM.cur == [(0, 0), (1, 0), (2, 0), (3, 0)]) = true := by
  decide +kernel

/-- V-M-9, first row: SYNCED, DIRTY_A copies mirror_b over mirror_a. -/
theorem test_mirrorStart_dirtyA : ends (.mirrorStart 0)
    (withM (withM (withM mStop 0 (entry .synced ++ entry .dirtyA)) 64 [1, 0x22, 0x33, 4]) 192 [0x11, 0x22, 0x33, 0x44])
    (fun t => t.m.state == .synced && t.m.stateAddr == 8 && t.devM.cur.bytesAt 64 4 == [0x11, 0x22, 0x33, 0x44]
      && t.devM.cur.bytesAt 192 4 == [0x11, 0x22, 0x33, 0x44]) = true := by decide +kernel

/-- 41_mirror.md R174, its example. -/
theorem test_mirrorStop_step : ends (.mirrorStop 0) mReady (fun t => t.m.drv == .stop && t.m.state == .synced
    && t.status.word == 0x2) = true := by decide +kernel

/-- 41_mirror.md R175, its example. -/
theorem test_mirrorRead_bytes : ends (.mirrorRead 0) (withOps (withM mReady 64 [0x11, 0x22]) 0 2 0)
    (fun t => t.status.word == 0x2 && t.bufBytes 0 2 == [0x11, 0x22]) = true := by decide +kernel

/-- A failed READ reports ERR_DEV and leaves RECOVER (60_exceptions.md R304). -/
theorem test_mirrorRead_fails : ends (.mirrorRead 0)
    { withOps mReady 0 2 0 with inputs := [.dev (.fail (.listed [] 0))] }
    (fun t => t.status.err == .dev && !t.m.recover && t.devM == mReady.devM) = true := by decide +kernel

/-- V-M-3: the log takes DIRTY_A, DIRTY_B, SYNCED at 4, 8 and 12, and both copies take the data. -/
theorem test_mirrorWrite_both : ends (.mirrorWrite 0) (withOps (mReady.setBuf 0 [0x12, 0x34, 0x56, 0x78]) 0 4 0)
    (fun t => t.status.word == 0x2 && t.m.stateAddr == 12
      && t.devM.cur.bytesAt 0 16 == [0, 0, 0, 0, 0, 0, 0xFF, 0xFF, 0, 0, 0, 0xFF, 0, 0, 0, 0]
      && t.devM.cur.bytesAt 64 4 == [0x12, 0x34, 0x56, 0x78]
      && t.devM.cur.bytesAt 192 4 == [0x12, 0x34, 0x56, 0x78]) = true := by decide +kernel

/-- V-D-13: a WRITE that is out of range and misaligned is ERR_RANGE. -/
theorem test_mirrorWrite_range : ends (.mirrorWrite 0) (withOps mReady 126 6 0)
    (fun t => t.status.word == 0x402 && t.devM == mReady.devM) = true := by decide +kernel

/-- V-M-7 in its second sector. -/
theorem test_mirrorErase_sector : ends (.mirrorErase 0)
    (withOps (withM (withM (withM mReady 64 [7]) 128 [1]) 256 [2]) 64 64 0)
    (fun t => t.status.word == 0x2 && t.m.stateAddr == 12 && t.devM.cur.byteAt 64 == 7
      && t.devM.cur.byteAt 128 == 0xFF && t.devM.cur.byteAt 256 == 0xFF) = true := by decide +kernel

/-- V-M-6: everything in both copies is erased. -/
theorem test_mirrorMassErase_all : ends (.mirrorMassErase 0) (withM (withM mReady 64 [7]) 319 [2])
    (fun t => t.status.word == 0x2 && t.m.stateAddr == 12 && t.devM.cur.byteAt 64 == 0xFF
      && t.devM.cur.byteAt 319 == 0xFF) = true := by decide +kernel

/-- 41_mirror.md R179: a failed SYNC is ERR_DEV and sets no RECOVER. -/
theorem test_mirrorSync_fails : ends (.mirrorSync 0) { mReady with inputs := [.dev (.fail (.free 0))] }
    (fun t => t.status.word == 0x702 && !t.m.recover) = true := by decide +kernel

/-- V-M-5. -/
theorem test_mirrorGetInfo_values : ends (.mirrorGetInfo 0) mReady
    (fun t => t.info == ⟨64, 2, 4, 2⟩ && t.bufBytes 0 2 == [0x4D, 0x31]) = true := by decide +kernel

/-- V-K-1. -/
theorem test_mirrorAcquireBus_fresh : ends (.mirrorAcquireBus 1) mReady
    (fun t => t.m.lock.word == 0x101 && t.devM.owned) = true := by decide +kernel

/-- V-K-3: one more at LOCK_MAX is ERR_STATE. -/
theorem test_mirrorAcquireBus_limit : ends (.mirrorAcquireBus 1) (mReady.setLock .mirror ⟨2, 1⟩)
    (fun t => t.status.word == 0x302 && t.m.lock.word == 0x102) = true := by decide +kernel

/-- V-K-8. -/
theorem test_mirrorReleaseBus_nested : ends (.mirrorReleaseBus 1) (mReady.setLock .mirror ⟨2, 1⟩)
    (fun t => t.status.word == 0x2 && t.m.lock.word == 0x101) = true := by decide +kernel

/-- V-K-5: another host's release is ERR_LOCKED. -/
theorem test_mirrorReleaseBus_other : ends (.mirrorReleaseBus 2) (mReady.setLock .mirror ⟨2, 1⟩)
    (fun t => t.status.word == 0x202 && t.m.lock.word == 0x102) = true := by decide +kernel

/-- 42_fee.md R217, its example. -/
theorem test_feeInit_step : steps (State.reset.withFetchWord 32 0x00000010)
    (fun t => t.status.word == 0x2 && t.f.drv == .uninit) = true := by decide +kernel

/-- 42_fee.md R218, its example. -/
theorem test_feeObjectInit_step : steps (State.reset.withFetchWord 32 0x00000011)
    (fun t => t.status.word == 0x2 && t.f.drv == .stop) = true := by decide +kernel

/-- T-FEE-1, step 0. -/
theorem test_feeStart_boot : ends (.feeStart 0) fStop (fun t => t.status.word == 0x2 && t.f.drv == .ready
    && t.f.numSlots == 4 && t.f.slotSize == 20 && t.f.logicalSize == 32 && t.f.slotsUsed == 0
    && t.f.arenaStateWord == 6 && t.devF.cur.bytesAt 0 9 == [8, 0, 0x20, 0xFE, 0, 0, 0, 0, 0xFF]
    && t.devF.cur.bytesAt 128 5 == [8, 0, 0x20, 0xFE, 0xFF]) = true := by decide +kernel

/-- V-F-9: a DIRTY slot counts as used. -/
theorem test_feeStart_counts : ends (.feeStart 0) (withF (withF fReady 32 (slot 0 0xA0)) 52 [0, 0, 0, 0])
    (fun t => t.f.slotsUsed == 2 && t.f.active == .a0 && t.f.gcCount == 0) = true := by decide +kernel

/-- 42_fee.md R220, its example. -/
theorem test_feeStop_step : ends (.feeStop 0) fReady (fun t => t.f.drv == .stop && t.devF == fReady.devF) = true := by
  decide +kernel

/-- T-FEE-1, step 4, read back over two chunks. -/
theorem test_feeRead_chunks : ends (.feeRead 0) (withOps fFull 6 4 0)
    (fun t => t.status.word == 0x2 && t.bufBytes 0 4 == [0xA6, 0xA7, 0xB0, 0xB1]) = true := by decide +kernel

/-- Bytes never written read 0xFF (42_fee.md R221). -/
theorem test_feeRead_unwritten : ends (.feeRead 0) (withOps fOne 7 2 0)
    (fun t => t.bufBytes 0 2 == [0xA7, 0xFF]) = true := by decide +kernel

/-- T-FEE-1, step 1. -/
theorem test_feeWrite_appends : ends (.feeWrite 0) (withOps (fReady.setBuf 0 (payload 0xA0)) 0 8 0)
    (fun t => t.status.word == 0x2 && t.f.slotsUsed == 1 && t.devF.cur.bytesAt 32 20 == slot 0 0xA0
      && t.devF.pending == []) = true := by decide +kernel

/-- T-FEE-1, step 5: the full arena is collected, without key 0, and E is appended in slot 3. -/
theorem test_feeWrite_collects : ends (.feeWrite 0) (withOps (fFull.setBuf 0 (payload 0xE0)) 0 8 0)
    (fun t => t.status.word == 0x2 && t.f.active == .a1 && t.f.slotsUsed == 4 && t.f.gcCount == 1
      && t.f.arenaStateWord == 9
      && t.devF.cur.bytesAt 160 80 == slot 8 0xB0 ++ slot 16 0xC0 ++ slot 24 0xD0 ++ slot 0 0xE0) = true := by
  decide +kernel

/-- 42_fee.md R223: a chunk is erased by a record of 0xFF bytes. -/
theorem test_feeErase_appends : ends (.feeErase 0) (withOps fOne 0 8 0)
    (fun t => t.status.word == 0x2 && t.f.slotsUsed == 2
      && t.devF.cur.bytesAt 52 20 == List.replicate 12 0 ++ List.replicate 8 0xFF) = true := by decide +kernel

/-- 42_fee.md R223: erasing what was never written appends nothing. -/
theorem test_feeErase_unwritten : ends (.feeErase 0) (withOps fOne 8 24 0)
    (fun t => t.status.word == 0x2 && t.f.slotsUsed == 1 && t.devF == fOne.devF) = true := by decide +kernel

/-- 42_fee.md R224. -/
theorem test_feeMassErase_formats : ends (.feeMassErase 0) fFull (fun t => t.status.word == 0x2
    && t.f.slotsUsed == 0 && t.f.active == .a0 && t.f.gcCount == 0 && t.devF.cur == fReady.devF.cur) = true := by
  decide +kernel

/-- 42_fee.md R225. -/
theorem test_feeSync_step : ends (.feeSync 0) { fReady with devF := { fReady.devF with pending := [.erase 0 128] } }
    (fun t => t.status.word == 0x2 && t.devF.pending == []) = true := by decide +kernel

/-- 42_fee.md R226, its example. -/
theorem test_feeGetInfo_values : ends (.feeGetInfo 0) fReady
    (fun t => t.info == ⟨8, 4, 1, 2⟩ && t.bufBytes 0 2 == [0x46, 0x31]) = true := by decide +kernel

/-- 42_fee.md R227, its example. -/
theorem test_feeAcquireBus_fresh : ends (.feeAcquireBus 1) fReady
    (fun t => t.f.lock.word == 0x101 && t.devF.owned && !t.devM.owned) = true := by decide +kernel

/-- 42_fee.md R228, its example. -/
theorem test_feeReleaseBus_last : ends (.feeReleaseBus 1)
    { (fReady.setLock .fee ⟨1, 1⟩) with devF := { fReady.devF with owned := true } }
    (fun t => t.f.lock.word == 0 && !t.devF.owned) = true := by decide +kernel

/-- V-D-14: a CMD write while BUSY is dropped and sets OVERRUN; STATUS then reads 5 and CMD the accepted word. -/
theorem test_overrun : steps { fReady with inputs := [.idle (.access 0 (.write .word 0 0x12)),
      .busy (.access 1 (.write .word 0 0x08)), .busy (.access 1 (.read .word 0x10)), .busy (.access 1 (.read .word 0))] }
    (fun t => t.replies == [0x12, 5] && t.status.word == 6 && t.m.drv == .uninit) = true := by decide +kernel

/-- V-D-15. -/
theorem test_status_w1c : (Status.hostWrite ⟨false, true, true, .state⟩ 0x2).word = 0x304
    ∧ (Status.hostWrite ⟨false, true, true, .state⟩ 0xF00).word = 0x306 := by decide +kernel

/-- 40_codec.md R142, its corner case, and V-C-3. -/
theorem test_decode_mark_exact : LogMark.decode .w1 [0xF8] = none ∧ LogMark.decode .w4 [0, 0, 0xF0, 0xFF] = none
    ∧ LogMark.decode .w4 [0, 0, 0xFF, 0xFF] = some .dirtyA ∧ LogMark.encode .w2 .dirtyB = [0x00, 0xF0] := by
  decide +kernel

/-- V-L-1 for W_F = 8 and V-L-2. -/
theorem test_layout : headerMark0 .w8 = 8 ∧ headerMark1 .w8 = 16 ∧ slotKeyOffset .w8 = 16 ∧ slotPayloadOffset .w8 = 20
    ∧ slotBytes .w8 8 = 32 ∧ slotBytes .w4 32 = 44 ∧ magic { Config.defaultParams with widthF := .w8 } = 0xFE300008
    ∧ magic { Config.defaultParams with payload := 0xFFFFF } = 0xFE2FFFFF := by decide +kernel

/-- A host that acquires the bus under another's HID takes that host's lock, and the fault is recorded as its own; a
number that no host has makes no access (00_scope.md R9, 93_implementation_defined.md I12). -/
theorem test_forged_hid : steps { mReady with inputs := [.idle (.access 1 (.write .word 0 0x30A)), .dev .ok] }
      (fun t => t.m.lock.word == 0x301 && t.forgers == [1]) = true
    ∧ steps { mReady with inputs := [.idle (.access 3 (.write .word 0 0x30A)), .dev .ok] }
      (fun t => t.m.lock.word == 0x301 && t.forgers == []) = true
    ∧ steps { mReady with inputs := [.idle (.access 4 (.write .word 0 0x30A))] }
      (fun t => t == { mReady with inputs := [] }) = true := by decide +kernel

/-! ### A witness for the hypotheses of every statement -/

theorem exec_after {i : Instr} {s : State} (h : ends i s (fun _ => true) = true) : exec i s = .next (after i s) := by
  unfold ends at h
  unfold after
  cases he : exec i s <;> simp [he] at h ⊢

theorem step_next {s : State} (h : steps s (fun _ => true) = true) : ∃ t, step s = .next t := by
  unfold steps at h
  cases he : step s <;> simp [he] at h ⊢

/-- Host h's CMD write that comes first in the schedule of an idle block. -/
def issued (s : State) (h : HostId) (w : Word) : State :=
  { s with inputs := [.idle (.access h (.write .word s.params.blockBase w))] }

theorem issued_witness {s : State} {h : HostId} (hh : h.toNat < s.params.nHosts) (hw : s.waiting = none)
    (hb : s.status.busy = false) (hu : State.uneventful { s with inputs := [] } = true) (w : Word) :
    h.toNat < (issued s h w).params.nHosts ∧ (issued s h w).waiting = none ∧ (issued s h w).status.busy = false
    ∧ (issued s h w).inputs = .idle (.access h (.write .word (issued s h w).params.blockBase w)) :: []
    ∧ State.uneventful { issued s h w with inputs := [] } = true := ⟨hh, hw, hb, rfl, hu⟩

/-- A reserved OP, each end of each reserved field, and the first HID past N_HOSTS, from the last host. -/
theorem witness_IllegalWordChangesNothingElse : (∀ w, (3 : HostId).toNat < (issued mReady 3 w).params.nHosts
      ∧ (issued mReady 3 w).waiting = none ∧ (issued mReady 3 w).status.busy = false
      ∧ (issued mReady 3 w).inputs = .idle (.access 3 (.write .word (issued mReady 3 w).params.blockBase w)) :: []
      ∧ State.uneventful { issued mReady 3 w with inputs := [] } = true)
    ∧ ([0xC, 0xF, 0x20, 0x80, 0x1000, 0x80000000, 0x400] : List Word).all (fun w =>
      decide (0xC ≤ (w &&& 0xF).toNat ∨ w &&& 0xFFFFF0E0 ≠ 0 ∨ mReady.params.nHosts ≤ ((w >>> 8) &&& 0xF).toNat))
      = true :=
  ⟨issued_witness (by decide +kernel) (by decide +kernel) (by decide +kernel) (by decide +kernel), by decide +kernel⟩

/-- From the host that the word names, and from another. -/
theorem witness_StepRunsTheAcceptedCommand : ∀ h ∈ ([3, 0] : List HostId),
    h.toNat < (issued mReady h 0x31B).params.nHosts ∧ (issued mReady h 0x31B).waiting = none
    ∧ (issued mReady h 0x31B).status.busy = false
    ∧ (issued mReady h 0x31B).inputs = .idle (.access h (.write .word (issued mReady h 0x31B).params.blockBase 0x31B)) :: []
    ∧ decode 0x31B = .ok (.feeReleaseBus 3)
    ∧ (Instr.feeReleaseBus 3).wf (issued mReady h 0x31B).params.nHosts = true := by
  decide +kernel

theorem witness_CommandWriteWhileBusyOverruns : (3 : HostId).toNat < calm.params.nHosts
    ∧ State.inputs { calm with inputs := [.busy (.access 3 (.write .word calm.params.blockBase 8))] }
      = .busy (.access 3 (.write .word calm.params.blockBase 8)) :: [] := ⟨by decide, rfl⟩

/-- From reset for INIT; a READY unit for STOP. -/
theorem witness_InitAndStopChangeOnlyTheDriverState :
    (calm.uneventful = true ∧ calm.admits .fee 3) ∧ mReady.uneventful = true ∧ mReady.startable .mirror 0 :=
  ⟨⟨by decide +kernel, (by decide +kernel : calm.lockedOut .fee 3 = false)⟩, by decide +kernel,
    (by decide +kernel : mReady.lockedOut .mirror 0 = false), .inr (by decide +kernel)⟩

/-- UNINIT for Mirror, STOP for FEE. -/
theorem witness_ObjectInitClearsTheUnit :
    (calm.admits .mirror 0 ∧ calm.uneventful = true ∧ stateRequirement (.mirrorObjectInit 0) calm)
    ∧ fStop.admits .fee 1 ∧ fStop.uneventful = true ∧ stateRequirement (.feeObjectInit 1) fStop :=
  ⟨⟨(by decide +kernel : calm.lockedOut .mirror 0 = false), by decide +kernel, .inl (by decide +kernel),
      by decide +kernel⟩,
    (by decide +kernel : fStop.lockedOut .fee 1 = false), by decide +kernel, .inr (by decide +kernel),
      by decide +kernel⟩

/-- A device that answers ok, and one that fails. -/
def syncFails : State := { mReady with inputs := [.dev (.fail (.free 0))] }

theorem witness_SyncMakesTheDeviceDurable :
    (fReady.admits .fee 0 ∧ fReady.drv .fee = .ready ∧ fReady.undisturbed = true)
    ∧ syncFails.admits .mirror 0 ∧ syncFails.drv .mirror = .ready ∧ syncFails.inputs = .dev (.fail (.free 0)) :: []
    ∧ State.uneventful { syncFails with inputs := [] } = true :=
  ⟨⟨(by decide +kernel : fReady.lockedOut .fee 0 = false), by decide +kernel, by decide +kernel⟩,
    (by decide +kernel : syncFails.lockedOut .mirror 0 = false), by decide +kernel, by decide +kernel, by decide +kernel⟩

theorem witness_GetInfoReportsTheUnit :
    (mReady.uneventful = true ∧ mReady.admits .mirror 0 ∧ mReady.m.drv = .ready
      ∧ mReady.devM.info.ident.length ≤ mReady.params.bufBytes)
    ∧ fReady.uneventful = true ∧ fReady.admits .fee 0 ∧ fReady.f.drv = .ready
    ∧ fReady.devF.info.ident.length ≤ fReady.params.bufBytes :=
  ⟨⟨by decide +kernel, (by decide +kernel : mReady.lockedOut .mirror 0 = false), by decide +kernel, by decide +kernel⟩,
    by decide +kernel, (by decide +kernel : fReady.lockedOut .fee 0 = false), by decide +kernel, by decide +kernel⟩

/-- The Mirror lock held once by host 1. -/
def mHeld : State := mReady.setLock .mirror ⟨1, 1⟩

/-- The Mirror lock held by host 1 to the depth LOCK_MAX. -/
def mDeep : State := mReady.setLock .mirror ⟨2, 1⟩

theorem mReady_startable : mReady.startable .mirror 1 :=
  ⟨(by decide +kernel : mReady.lockedOut .mirror 1 = false), .inr (by decide +kernel)⟩

theorem mHeld_startable : mHeld.startable .mirror 1 :=
  ⟨(by decide +kernel : mHeld.lockedOut .mirror 1 = false), .inr (by decide +kernel)⟩

theorem mDeep_startable : mDeep.startable .mirror 1 :=
  ⟨(by decide +kernel : mDeep.lockedOut .mirror 1 = false), .inr (by decide +kernel)⟩

theorem witness_AcquireTakesOrNestsTheLock :
    (mReady.startable .mirror 1 ∧ mReady.undisturbed = true ∧ (mReady.lock .mirror).count = 0 ∧ mReady.waiting = none)
    ∧ mHeld.startable .mirror 1 ∧ mHeld.uneventful = true ∧ (mHeld.lock .mirror).count ≠ 0
    ∧ (mHeld.lock .mirror).count.toNat ≠ mHeld.params.lockMax :=
  ⟨⟨mReady_startable, by decide +kernel, by decide +kernel, by decide +kernel⟩, mHeld_startable, by decide +kernel,
    by decide +kernel, by decide +kernel⟩

/-- ACQUIRE_BUS meets a device that withholds ownership, then waits, then is granted it. -/
def mWithheld : State := { mReady with inputs := [.dev (.fail (.free 0))] }

theorem mWithheld_startable : mWithheld.startable .mirror 1 :=
  ⟨(by decide +kernel : mWithheld.lockedOut .mirror 1 = false), .inr (by decide +kernel)⟩

theorem witness_AcquireWaitsForTheDevice :
    (mWithheld.startable .mirror 1 ∧ (mWithheld.lock .mirror).count = 0
      ∧ mWithheld.inputs = .dev (.fail (.free 0)) :: [])
    ∧ (State.waiting { mWithheld with waiting := some (.mirror, 1) } = some (.mirror, 1)
      ∧ State.inputs { mWithheld with waiting := some (.mirror, 1) } = .dev (.fail (.free 0)) :: [])
    ∧ State.waiting { calm with waiting := some (.mirror, 1), inputs := [.dev .ok] } = some (.mirror, 1)
    ∧ State.inputs { calm with waiting := some (.mirror, 1), inputs := [.dev .ok] } = .dev .ok :: []
    ∧ State.uneventful { calm with waiting := some (.mirror, 1), inputs := [] } = true :=
  ⟨⟨mWithheld_startable, by decide +kernel, rfl⟩, ⟨rfl, rfl⟩, rfl, rfl, rfl⟩

/-- Both branches: COUNT = 1 and COUNT = 2. -/
theorem witness_ReleaseCountsDown :
    (mHeld.startable .mirror 1 ∧ mHeld.uneventful = true ∧ (mHeld.lock .mirror).count ≠ 0
      ∧ (mHeld.lock .mirror).count = 1)
    ∧ mDeep.startable .mirror 1 ∧ mDeep.uneventful = true ∧ (mDeep.lock .mirror).count ≠ 0
    ∧ (mDeep.lock .mirror).count ≠ 1 :=
  ⟨⟨mHeld_startable, by decide +kernel, by decide +kernel, by decide +kernel⟩, mDeep_startable, by decide +kernel,
    by decide +kernel, by decide +kernel⟩

theorem witness_LockedCommandIsRefused : 0 < (mHeld.lock (Instr.mirrorInit 2).unit).count.toNat
    ∧ (mHeld.lock (Instr.mirrorInit 2).unit).owner ≠ (Instr.mirrorInit 2).hid ∧ mHeld.uneventful = true := by
  decide +kernel

/-- A START from UNINIT, an ACQUIRE_BUS at LOCK_MAX and a RELEASE_BUS of a free lock. -/
theorem witness_WrongStateIsRefused :
    (calm.uneventful = true ∧ calm.admits (Instr.mirrorStart 0).unit (Instr.mirrorStart 0).hid
      ∧ ¬ stateRequirement (.mirrorStart 0) calm)
    ∧ (mDeep.uneventful = true ∧ mDeep.startable .mirror 1 ∧ (mDeep.lock .mirror).count ≠ 0
      ∧ (mDeep.lock .mirror).count.toNat = mDeep.params.lockMax)
    ∧ mReady.uneventful = true ∧ mReady.startable .mirror 1 ∧ (mReady.lock .mirror).count = 0 :=
  ⟨⟨by decide +kernel, (by decide +kernel : calm.lockedOut .mirror 0 = false), by
      show ¬ (calm.m.drv = .stop ∨ calm.m.drv = .ready)
      decide +kernel⟩,
    ⟨by decide +kernel, mDeep_startable, by decide +kernel, by decide +kernel⟩, by decide +kernel, mReady_startable,
    by decide +kernel⟩

theorem mirror_serves {s : State} (hl : s.lockedOut .mirror 0 = false) (hd : s.m.drv = .ready)
    (hr : s.m.recover = false) (hm : s.m.state = .synced) : s.serves .mirror 0 := ⟨hl, hd, hr, fun _ => hm⟩

theorem fee_serves {s : State} (hl : s.lockedOut .fee 0 = false) (hd : s.f.drv = .ready) (hr : s.f.recover = false) :
    s.serves .fee 0 := ⟨hl, hd, hr, fun h => absurd h (by decide)⟩

/-- One byte past the logical size, and one byte past BUF, on each unit. -/
def mPast : State := withOps mReady 127 2 0
def mLong : State := withOps mReady 0 257 0
def fPast : State := withOps fReady 31 2 0
def fLong : State := withOps fReady 0 257 0

theorem witness_OutOfRangeIsRefused :
    (mPast.serves .mirror 0 ∧ mPast.uneventful = true
      ∧ mPast.m.size.toNat < mPast.latch.addr.toNat + mPast.latch.len.toNat)
    ∧ (mLong.serves .mirror 0 ∧ mLong.uneventful = true ∧ mLong.params.bufBytes < mLong.latch.len.toNat)
    ∧ (fPast.serves .fee 0 ∧ fPast.uneventful = true
      ∧ fPast.f.logicalSize.toNat < fPast.latch.addr.toNat + fPast.latch.len.toNat)
    ∧ fLong.serves .fee 0 ∧ fLong.uneventful = true ∧ fLong.params.bufBytes < fLong.latch.len.toNat :=
  ⟨⟨mirror_serves (by decide +kernel) (by decide +kernel) (by decide +kernel) (by decide +kernel), by decide +kernel,
      by decide +kernel⟩,
    ⟨mirror_serves (by decide +kernel) (by decide +kernel) (by decide +kernel) (by decide +kernel), by decide +kernel,
      by decide +kernel⟩,
    ⟨fee_serves (by decide +kernel) (by decide +kernel) (by decide +kernel), by decide +kernel, by decide +kernel⟩,
    fee_serves (by decide +kernel) (by decide +kernel) (by decide +kernel), by decide +kernel, by decide +kernel⟩

/-- The last range that fits, one byte short of WA; and an FEE command that ends. -/
def mOdd : State := withOps mReady 125 3 0

theorem witness_MisalignedMirrorIsRefused :
    (mOdd.serves .mirror 0 ∧ mOdd.uneventful = true ∧ mOdd.opAddr + mOdd.opLen ≤ mOdd.m.size.toNat
      ∧ mOdd.opLen ≤ mOdd.params.bufBytes ∧ mOdd.opAddr % mOdd.m.cache.writeAlign ≠ 0
      ∧ mOdd.opAddr % mOdd.m.cache.sectorSize ≠ 0)
    ∧ (Instr.feeSync 0).unit = .fee ∧ exec (.feeSync 0) fReady = .next (after (.feeSync 0) fReady)
    ∧ fReady.status.err ≠ .align :=
  ⟨⟨mirror_serves (by decide +kernel) (by decide +kernel) (by decide +kernel) (by decide +kernel), by decide +kernel,
      by decide +kernel, by decide +kernel, by decide +kernel, by decide +kernel⟩,
    rfl, exec_after (by decide +kernel), by decide +kernel⟩

/-- CFG = 0 for Mirror, one sector for FEE. -/
def mUnfit : State := withOps mStop 0 0 0
def fUnfit : State := { fStop with devF := { fStop.devF with info := { fStop.devF.info with sectorNum := 1 } } }

theorem witness_UnfitDeviceIsRefused :
    (mUnfit.startable .mirror 0 ∧ mUnfit.uneventful = true
      ∧ mirrorFits mUnfit.params mUnfit.devM.info mUnfit.opCfg = false)
    ∧ (fUnfit.startable .fee 0 ∧ fUnfit.uneventful = true ∧ feeFits fUnfit.params fUnfit.devF.info = false)
    ∧ exec (.mirrorStart 0) mUnfit = .next (after (.mirrorStart 0) mUnfit) ∧ mUnfit.status.err ≠ .config
    ∧ (after (.mirrorStart 0) mUnfit).status.err = .config :=
  ⟨⟨⟨(by decide +kernel : mUnfit.lockedOut .mirror 0 = false), .inl (by decide +kernel)⟩, by decide +kernel,
      by decide +kernel⟩,
    ⟨⟨(by decide +kernel : fUnfit.lockedOut .fee 0 = false), .inl (by decide +kernel)⟩, by decide +kernel,
      by decide +kernel⟩,
    exec_after (by decide +kernel), by decide +kernel, by decide +kernel⟩

/-- A device failure in a MASS_ERASE, in a START and in a SYNC; a START and an OBJECT_INIT that clear RECOVER. -/
def mFails : State := { mReady with inputs := [.dev (.fail (.listed [] 0))] }
def mStartFails : State := { mStop with inputs := [.dev (.fail (.listed [] 0))] }
def mRecover : State := { mStop with m := { mStop.m with recover := true }, status := ⟨true, false, false, .ok⟩ }

theorem witness_RecoverFollowsDeviceFailures :
    (∀ i ∈ [Instr.mirrorMassErase 0, Instr.mirrorSync 0], exec i mFails = .next (after i mFails)
      ∧ mFails.status.err ≠ .dev ∧ (after i mFails).status.err = .dev)
    ∧ (exec (.mirrorStart 0) mStartFails = .next (after (.mirrorStart 0) mStartFails)
      ∧ mStartFails.status.err ≠ .dev ∧ (after (.mirrorStart 0) mStartFails).status.err = .dev)
    ∧ ∀ i ∈ [startOf .mirror 0, objectInitOf .mirror 0], mRecover.noPowerLoss = true
      ∧ exec i mRecover = .next (after i mRecover) ∧ mRecover.recover .mirror = true
      ∧ (after i mRecover).recover .mirror = false ∧ (after i mRecover).status.err = .ok := by
  refine ⟨fun i hi => ?_, ⟨exec_after (by decide +kernel), by decide +kernel, by decide +kernel⟩, fun i hi => ?_⟩
  · rcases List.mem_cons.1 hi with rfl | hi
    · exact ⟨exec_after (by decide +kernel), by decide +kernel, by decide +kernel⟩
    · rcases List.mem_singleton.1 hi with rfl
      exact ⟨exec_after (by decide +kernel), by decide +kernel, by decide +kernel⟩
  · rcases List.mem_cons.1 hi with rfl | hi
    · exact ⟨by decide +kernel, exec_after (by decide +kernel), by decide +kernel, by decide +kernel, by decide +kernel⟩
    · rcases List.mem_singleton.1 hi with rfl
      exact ⟨by decide +kernel, exec_after (by decide +kernel), by decide +kernel, by decide +kernel, by decide +kernel⟩

/-- The top end of each logical space. -/
def mEnd : State := withOps mReady 128 0 0
def fEnd : State := withOps fReady 32 0 0

theorem witness_ZeroLengthHasNoEffect :
    (mEnd.uneventful = true ∧ mEnd.opLen = 0 ∧ mEnd.serves .mirror 0 ∧ mEnd.opAddr ≤ mEnd.m.size.toNat
      ∧ mEnd.opAddr % mEnd.m.cache.writeAlign = 0 ∧ mEnd.opAddr % mEnd.m.cache.sectorSize = 0)
    ∧ fEnd.uneventful = true ∧ fEnd.opLen = 0 ∧ fEnd.serves .fee 0 ∧ fEnd.opAddr ≤ fEnd.f.logicalSize.toNat :=
  ⟨⟨by decide +kernel, by decide +kernel,
      mirror_serves (by decide +kernel) (by decide +kernel) (by decide +kernel) (by decide +kernel), by decide +kernel,
      by decide +kernel, by decide +kernel⟩,
    by decide +kernel, by decide +kernel, fee_serves (by decide +kernel) (by decide +kernel) (by decide +kernel),
    by decide +kernel⟩

/-! #### Mirror -/

theorem mirror_laid_out {s : State} (hf : mirrorFits s.params s.devM.info 1 = true)
    (hm : s.m = s.m.withGeometry s.devM.info 1) : s.mirrorLaidOut := ⟨1, hf, hm⟩

theorem log_ready {s : State} (ha : s.m.stateAddr.toNat % s.params.widthM.bytes = 0)
    (hp : s.logPosition < s.logEntries) (he : ∀ k, k < s.logEntries → s.logPosition < k →
      s.logEntryAt k = fill erasedByte s.params.widthM.bytes) : s.logReady := ⟨⟨ha, hp⟩, fun k h1 h2 => he k h2 h1⟩

/-- A WRITE of four bytes at the top of the logical space. -/
def mWrite : State := withOps (mReady.setBuf 0 [0x12, 0x34, 0x56, 0x78]) 124 4 1

theorem mWrite_serves : mWrite.serves .mirror 0 :=
  mirror_serves (by decide +kernel) (by decide +kernel) (by decide +kernel) (by decide +kernel)

theorem mWrite_sound : mWrite.mirrorSound :=
  ⟨by decide +kernel, mirror_laid_out (by decide +kernel) (by decide +kernel),
    log_ready (by decide +kernel) (by decide +kernel) (by decide +kernel)⟩

theorem witness_MirrorReadReturnsMirrorA : mWrite.serves .mirror 0 ∧ mWrite.undisturbed = true ∧ mWrite.mirrorLaidOut
    ∧ mWrite.opLen ≤ mWrite.params.bufBytes ∧ mWrite.opAddr + mWrite.opLen ≤ mWrite.m.size.toNat :=
  ⟨mWrite_serves, by decide +kernel, mWrite_sound.2.1, by decide +kernel, by decide +kernel⟩

/-- The same WRITE over bytes that are 0, under a DEV_OVERWRITE rule. -/
def mOver (o : OverwriteRule) : State :=
  let s := withM (withM mWrite 188 [0, 0, 0, 0]) 316 [0, 0, 0, 0]
  { s with params := { s.params with overwrite := o } }

theorem mOver_serves (o : OverwriteRule) : (mOver o).serves .mirror 0 := by
  cases o <;>
    exact mirror_serves (by decide +kernel) (by decide +kernel) (by decide +kernel) (by decide +kernel)

theorem mOver_sound (o : OverwriteRule) : (mOver o).mirrorSound := by
  cases o <;>
    exact ⟨by decide +kernel, mirror_laid_out (by decide +kernel) (by decide +kernel),
    log_ready (by decide +kernel) (by decide +kernel) (by decide +kernel)⟩

theorem mOver_rest (o : OverwriteRule) : (mOver o).undisturbed = true ∧ 1 ≤ (mOver o).opLen
    ∧ (mOver o).opLen ≤ (mOver o).params.bufBytes ∧ (mOver o).opAddr + (mOver o).opLen ≤ (mOver o).m.size.toNat
    ∧ (mOver o).opAddr % (mOver o).m.cache.writeAlign = 0 ∧ (mOver o).opLen % (mOver o).m.cache.writeAlign = 0
    ∧ (mOver o).params.overwrite = o
    ∧ (mOver o).bufByte 0 &&& ~~~ (mOver o).devM.cur.byteAt ((mOver o).m.aOrg.toNat + (mOver o).opAddr + 0) ≠ 0 := by
  cases o <;> decide +kernel

/-- Data that sets no 0 bit, and DEV_OVERWRITE = and. -/
theorem witness_MirrorWriteStoresBothCopies :
    (mWrite.serves .mirror 0 ∧ mWrite.undisturbed = true ∧ mWrite.mirrorSound ∧ 1 ≤ mWrite.opLen
      ∧ mWrite.opLen ≤ mWrite.params.bufBytes ∧ mWrite.opAddr + mWrite.opLen ≤ mWrite.m.size.toNat
      ∧ mWrite.opAddr % mWrite.m.cache.writeAlign = 0 ∧ mWrite.opLen % mWrite.m.cache.writeAlign = 0
      ∧ ∀ k, k < mWrite.opLen →
        mWrite.bufByte k &&& ~~~ mWrite.devM.cur.byteAt (mWrite.m.aOrg.toNat + mWrite.opAddr + k) = 0
        ∧ mWrite.bufByte k &&& ~~~ mWrite.devM.cur.byteAt (mWrite.m.bOrg.toNat + mWrite.opAddr + k) = 0)
    ∧ (mOver .and).serves .mirror 0 ∧ (mOver .and).undisturbed = true ∧ (mOver .and).mirrorSound
    ∧ (mOver .and).params.overwrite = .and :=
  ⟨⟨mWrite_serves, by decide +kernel, mWrite_sound, by decide +kernel, by decide +kernel, by decide +kernel,
      by decide +kernel, by decide +kernel, by decide +kernel⟩,
    mOver_serves _, (mOver_rest _).1, mOver_sound _, rfl⟩

theorem witness_MirrorOverwriteFollowsTheParameter : ∀ o, (mOver o).serves .mirror 0 ∧ (mOver o).undisturbed = true
    ∧ (mOver o).mirrorSound ∧ 1 ≤ (mOver o).opLen ∧ (mOver o).opLen ≤ (mOver o).params.bufBytes
    ∧ (mOver o).opAddr + (mOver o).opLen ≤ (mOver o).m.size.toNat
    ∧ (mOver o).opAddr % (mOver o).m.cache.writeAlign = 0 ∧ (mOver o).opLen % (mOver o).m.cache.writeAlign = 0
    ∧ (∃ k, k < (mOver o).opLen ∧
      (mOver o).bufByte k &&& ~~~ (mOver o).devM.cur.byteAt ((mOver o).m.aOrg.toNat + (mOver o).opAddr + k) ≠ 0)
    ∧ (mOver o).params.overwrite = o := fun o =>
  have h := mOver_rest o
  ⟨mOver_serves o, h.1, mOver_sound o, h.2.1, h.2.2.1, h.2.2.2.1, h.2.2.2.2.1, h.2.2.2.2.2.1, ⟨0, h.2.1, h.2.2.2.2.2.2.2⟩,
    h.2.2.2.2.2.2.1⟩

/-- An ERASE of the last sector, with a full log. -/
def mErase : State :=
  let s := withOps (withM mReady 0 (List.replicate 64 0)) 64 64 1
  { s with m := { s.m with stateAddr := 60 } }

theorem mErase_sound : mErase.mirrorSound :=
  ⟨by decide +kernel, mirror_laid_out (by decide +kernel) (by decide +kernel),
    log_ready (by decide +kernel) (by decide +kernel) (by decide +kernel)⟩

theorem witness_MirrorEraseErasesBothCopies : mErase.serves .mirror 0 ∧ mErase.undisturbed = true ∧ mErase.mirrorSound
    ∧ 1 ≤ mErase.opLen ∧ mErase.opAddr + mErase.opLen ≤ mErase.m.size.toNat
    ∧ mErase.opAddr % mErase.m.cache.sectorSize = 0 ∧ mErase.opLen % mErase.m.cache.sectorSize = 0 :=
  ⟨mirror_serves (by decide +kernel) (by decide +kernel) (by decide +kernel) (by decide +kernel), by decide +kernel,
    mErase_sound, by decide +kernel, by decide +kernel, by decide +kernel, by decide +kernel⟩

/-- A stopped Mirror unit whose header holds these entries. -/
def mLog (l : List LogMark) : State := withM mStop 0 (l.flatMap entry)

theorem mLog_startable (l : List LogMark) (hl : (mLog l).lockedOut .mirror 0 = false) (hd : (mLog l).m.drv = .stop) :
    (mLog l).startable .mirror 0 := ⟨hl, .inl hd⟩

/-- The Bool form of `logEndsWith` by the three recognised states. -/
def logCheck (s : State) (n : Nat) (last : LogMark) : Bool :=
  decide (1 ≤ n ∧ n ≤ s.logEntries)
    && (List.range n).all (fun k => [LogMark.dirtyA, .dirtyB, .synced].any fun x => s.logEntryAt k == x.encode s.params.widthM)
    && s.logEntryAt (n - 1) == last.encode s.params.widthM
    && (List.range s.logEntries).all fun k => decide (k < n) || s.logEntryAt k == fill erasedByte s.params.widthM.bytes

theorem logEndsWith_of {s : State} {n : Nat} {last : LogMark} (h : logCheck s n last = true) : s.logEndsWith n last := by
  unfold logCheck at h
  simp only [Bool.and_eq_true, decide_eq_true_eq, beq_iff_eq, List.all_eq_true, List.mem_range, List.any_eq_true,
    Bool.or_eq_true] at h
  obtain ⟨⟨⟨h1, h2⟩, h3⟩, h4⟩ := h
  refine ⟨h1.1, h1.2, fun k hk => ?_, h3, fun k hk hk' => (h4 k hk').resolve_left (by omega)⟩
  obtain ⟨x, hx, he⟩ := h2 k hk
  exact ⟨x, by rintro rfl; simp at hx, he⟩

/-- A log of one entry, and a full one. -/
theorem witness_MirrorStartKeepsASyncedLog : ∀ n ∈ [1, 16],
    (mLog (List.replicate n .synced)).startable .mirror 0 ∧ (mLog (List.replicate n .synced)).undisturbed = true
    ∧ (mLog (List.replicate n .synced)).memoryCanonical = true
    ∧ mirrorFits (mLog (List.replicate n .synced)).params (mLog (List.replicate n .synced)).devM.info
        (mLog (List.replicate n .synced)).opCfg = true
    ∧ (mLog (List.replicate n .synced)).mirrorGeometrySet.logEndsWith n .synced := by
  intro n hn
  rcases List.mem_cons.1 hn with rfl | hn
  · exact ⟨mLog_startable _ (by decide +kernel) (by decide +kernel), by decide +kernel, by decide +kernel,
      by decide +kernel, logEndsWith_of (by decide +kernel)⟩
  · rcases List.mem_singleton.1 hn with rfl
    exact ⟨mLog_startable _ (by decide +kernel) (by decide +kernel), by decide +kernel, by decide +kernel,
      by decide +kernel, logEndsWith_of (by decide +kernel)⟩

/-- DIRTY_A with room in the log, DIRTY_B as the last entry of a full one. -/
def mDirtyA : State := mLog [.synced, .dirtyA]
def mDirtyB : State := mLog (List.replicate 14 .synced ++ [.dirtyA, .dirtyB])

theorem witness_MirrorStartRepairsADirtyLog :
    (mDirtyA.startable .mirror 0 ∧ mDirtyA.undisturbed = true ∧ mDirtyA.memoryCanonical = true
      ∧ mirrorFits mDirtyA.params mDirtyA.devM.info mDirtyA.opCfg = true
      ∧ mDirtyA.mirrorGeometrySet.logEndsWith 2 .dirtyA)
    ∧ mDirtyB.startable .mirror 0 ∧ mDirtyB.undisturbed = true ∧ mDirtyB.memoryCanonical = true
    ∧ mirrorFits mDirtyB.params mDirtyB.devM.info mDirtyB.opCfg = true
    ∧ mDirtyB.mirrorGeometrySet.logEndsWith 16 .dirtyB :=
  ⟨⟨mLog_startable _ (by decide +kernel) (by decide +kernel), by decide +kernel, by decide +kernel, by decide +kernel,
      logEndsWith_of (by decide +kernel)⟩,
    mLog_startable _ (by decide +kernel) (by decide +kernel), by decide +kernel, by decide +kernel, by decide +kernel,
    logEndsWith_of (by decide +kernel)⟩

theorem no_log_of_erased {s : State} (h : s.logEntryAt 0 = [0xFF, 0xFF, 0xFF, 0xFF]) (hw : s.params.widthM = .w4) :
    ¬ ∃ n last, s.logEndsWith n last := by
  rintro ⟨n, last, h1, -, h2, -⟩
  obtain ⟨x, hx, he⟩ := h2 0 (by omega)
  rw [h, hw] at he
  cases x <;> revert he <;> first | exact absurd rfl hx | decide +kernel

/-- The erased device of a first boot. -/
theorem witness_MirrorStartResetsAnInvalidLog : mStop.startable .mirror 0 ∧ mStop.undisturbed = true
    ∧ mStop.memoryCanonical = true ∧ mirrorFits mStop.params mStop.devM.info mStop.opCfg = true
    ∧ ¬ ∃ n last, mStop.mirrorGeometrySet.logEndsWith n last :=
  ⟨⟨(by decide +kernel : mStop.lockedOut .mirror 0 = false), .inl (by decide +kernel)⟩, by decide +kernel,
    by decide +kernel, by decide +kernel, no_log_of_erased (by decide +kernel) (by decide +kernel)⟩

/-- A WRITE that loses power in its first data write, then OBJECT_INIT and START. -/
def mCut : State :=
  { mWrite with inputs := [.dev .ok, .dev .ok, .busy (.powerLoss ⟨true, .listed [] 0x0F, .listed [] 0⟩)] }

/-- The unit after the power returns, stopped, with CFG = 1 and a START accepted. -/
def reboot (t : State) : State :=
  { withOps (after (.mirrorObjectInit 0) t) 0 0 1 with status := ⟨true, false, false, .ok⟩ }

/-- A START of that unit that loses power at its second device operation. -/
def mCutStart : State :=
  { reboot (after (.mirrorWrite 0) mCut) with inputs := [.dev .ok, .busy (.powerLoss ⟨true, .listed [] 0x0F, .listed [] 0⟩)] }

/-- The next START, which completes. -/
def mLastStart : State := { reboot (after (.mirrorStart 0) mCutStart) with inputs := [] }

theorem mCut_settled : mCut.mirrorSettled 0 :=
  ⟨mirror_serves (by decide +kernel) (by decide +kernel) (by decide +kernel) (by decide +kernel),
    ⟨by decide +kernel, mirror_laid_out (by decide +kernel) (by decide +kernel),
      log_ready (by decide +kernel) (by decide +kernel) (by decide +kernel)⟩,
    by decide +kernel, by decide +kernel, logEndsWith_of (by decide +kernel), by decide +kernel⟩

/-- The premises inside `State.mirrorAtomic`: a cut WRITE, a cut START, and a START that completes. -/
theorem mCut_restarts : exec (.mirrorWrite 0) mCut = .next (after (.mirrorWrite 0) mCut)
    ∧ 1 * mCut.devM.info.sectorSize = mCut.m.hdrBytes.toNat
    ∧ Relation.ReflTransGen (Device.mirrorPassesTo mCut.params 1) (after (.mirrorWrite 0) mCut).devM mLastStart.devM
    ∧ mLastStart.params = mCut.params ∧ mLastStart.opCfg = 1
    ∧ exec (.mirrorStart 0) mLastStart = .next (after (.mirrorStart 0) mLastStart)
    ∧ (after (.mirrorStart 0) mLastStart).m.drv = .ready ∧ (after (.mirrorStart 0) mLastStart).status.err = .ok :=
  ⟨exec_after (by decide +kernel), by decide +kernel,
    .single ⟨mCutStart, by decide +kernel, by decide +kernel, .inr ⟨.mirrorStart 0, after (.mirrorStart 0) mCutStart,
      fun ⟨_, h⟩ => h.elim nofun (·.elim nofun nofun), fun _ => (by decide +kernel), exec_after (by decide +kernel),
      by decide +kernel⟩⟩,
    by decide +kernel, by decide +kernel, exec_after (by decide +kernel), by decide +kernel, by decide +kernel⟩

/-- WRITE and MASS_ERASE, on a log with room; the premises of the claim itself are `mCut_restarts`. -/
theorem witness_MirrorWriteIsAtomicWithLogRoom : mCut.mirrorSettled 0
    ∧ mCut.mirrorChange (.mirrorWrite 0) 0 mCut.opAddr mCut.opLen (fun k b => b &&& mCut.bufByte k)
    ∧ mCut.mirrorChange (.mirrorMassErase 0) 0 0 mCut.m.size.toNat (fun _ _ => erasedByte)
    ∧ mCut.logPosition + 2 ≠ mCut.logEntries :=
  ⟨mCut_settled, .inl ⟨rfl, rfl, rfl, rfl⟩, .inr (.inr ⟨rfl, rfl, rfl, rfl⟩), by decide +kernel⟩

theorem witness_MirrorWriteIsAtomicAcrossAWrap : mCut.mirrorSettled 0
    ∧ mCut.mirrorChange (.mirrorWrite 0) 0 mCut.opAddr mCut.opLen (fun k b => b &&& mCut.bufByte k) :=
  ⟨mCut_settled, .inl ⟨rfl, rfl, rfl, rfl⟩⟩

/-! #### FEE -/

theorem fee_sound {s : State} (h1 : s.memoryCanonical = true) (h2 : s.params.wf = true)
    (h3 : feeFits s.params s.devF.info = true) (h4 : s.f = s.f.withGeometry s.params s.devF.info)
    (h5 : s.f.slotsUsed.toNat ≤ s.f.numSlots.toNat) (h6 : s.keysAligned) (h7 : s.erasedAbove) : s.feeSound :=
  ⟨h1, ⟨h2, h3, h4⟩, h5, h6, h7⟩

/-- An operation on two chunks of the unit with one slot, and on one chunk of it and of the full unit. -/
def fTwo : State := withOps (fOne.setBuf 0 [0x11, 0x22, 0x33, 0x44]) 6 4 0
def fLast : State := withOps (fOne.setBuf 0 [0x11, 0x22, 0x33, 0x44]) 28 4 0
def fFullOp : State := withOps (fFull.setBuf 0 (payload 0xE0)) 0 8 0

theorem fTwo_serves : fTwo.serves .fee 0 := fee_serves (by decide +kernel) (by decide +kernel) (by decide +kernel)
theorem fLast_serves : fLast.serves .fee 0 := fee_serves (by decide +kernel) (by decide +kernel) (by decide +kernel)
theorem fFullOp_serves : fFullOp.serves .fee 0 := fee_serves (by decide +kernel) (by decide +kernel) (by decide +kernel)

theorem fTwo_sound : fTwo.feeSound :=
  fee_sound (by decide +kernel) (by decide +kernel) (by decide +kernel) (by decide +kernel) (by decide +kernel)
    (by unfold State.keysAligned; decide +kernel) (by unfold State.erasedAbove; decide +kernel)

theorem fLast_sound : fLast.feeSound :=
  fee_sound (by decide +kernel) (by decide +kernel) (by decide +kernel) (by decide +kernel) (by decide +kernel)
    (by unfold State.keysAligned; decide +kernel) (by unfold State.erasedAbove; decide +kernel)

theorem fFullOp_sound : fFullOp.feeSound :=
  fee_sound (by decide +kernel) (by decide +kernel) (by decide +kernel) (by decide +kernel) (by decide +kernel)
    (by unfold State.keysAligned; decide +kernel) (by unfold State.erasedAbove; decide +kernel)

theorem witness_FeeReadReturnsTheLastValues : fLast.serves .fee 0 ∧ fLast.undisturbed = true ∧ fLast.feeLaidOut
    ∧ fLast.f.slotsUsed.toNat ≤ fLast.f.numSlots.toNat ∧ fLast.opLen ≤ fLast.params.bufBytes
    ∧ fLast.opAddr + fLast.opLen ≤ fLast.f.logicalSize.toNat :=
  ⟨fLast_serves, by decide +kernel, fLast_sound.2.1, by decide +kernel, by decide +kernel, by decide +kernel⟩

/-- A WRITE of the payload that slot 0 holds, and an ERASE of bytes that nothing holds. -/
def fSame : State := withOps (fOne.setBuf 0 (payload 0xA0)) 0 8 0
def fNever : State := withOps fOne 8 24 0

theorem witness_FeeWriteOfEqualBytesDoesNothing :
    (fSame.serves .fee 0 ∧ fSame.undisturbed = true ∧ fSame.feeLaidOut
      ∧ fSame.f.slotsUsed.toNat ≤ fSame.f.numSlots.toNat ∧ fSame.opAddr + fSame.opLen ≤ fSame.f.logicalSize.toNat
      ∧ fSame.feeNewBytes (.feeWrite 0) 0 (fun k => fSame.bufByte k)
      ∧ ∀ k, k < fSame.opLen → fSame.bufByte k = fSame.chunkByte (fSame.opAddr + k))
    ∧ fNever.serves .fee 0 ∧ fNever.undisturbed = true ∧ fNever.feeLaidOut
    ∧ fNever.f.slotsUsed.toNat ≤ fNever.f.numSlots.toNat ∧ fNever.opAddr + fNever.opLen ≤ fNever.f.logicalSize.toNat
    ∧ fNever.feeNewBytes (.feeErase 0) 0 (fun _ => erasedByte)
    ∧ ∀ k, k < fNever.opLen → erasedByte = fNever.chunkByte (fNever.opAddr + k) :=
  ⟨⟨fee_serves (by decide +kernel) (by decide +kernel) (by decide +kernel), by decide +kernel,
      ⟨by decide +kernel, by decide +kernel, by decide +kernel⟩, by decide +kernel, by decide +kernel,
      .inl ⟨rfl, by decide +kernel, rfl⟩, by decide +kernel⟩,
    fee_serves (by decide +kernel) (by decide +kernel) (by decide +kernel), by decide +kernel,
    ⟨by decide +kernel, by decide +kernel, by decide +kernel⟩, by decide +kernel, by decide +kernel, .inr ⟨rfl, rfl⟩,
    by decide +kernel⟩

/-- A WRITE into the last bytes of the last chunk, and an ERASE of a held chunk. -/
def fEraseHeld : State := withOps fOne 0 8 0

theorem fEraseHeld_sound : fEraseHeld.feeSound :=
  fee_sound (by decide +kernel) (by decide +kernel) (by decide +kernel) (by decide +kernel) (by decide +kernel)
    (by unfold State.keysAligned; decide +kernel) (by unfold State.erasedAbove; decide +kernel)

theorem witness_FeeWriteAppendsOneSlot :
    (fLast.serves .fee 0 ∧ fLast.undisturbed = true ∧ fLast.feeSound ∧ 1 ≤ fLast.opLen
      ∧ fLast.opAddr + fLast.opLen ≤ fLast.f.logicalSize.toNat
      ∧ fLast.feeNewBytes (.feeWrite 0) 0 (fun k => fLast.bufByte k)
      ∧ fLast.opAddr % fLast.params.payload + fLast.opLen ≤ fLast.params.payload
      ∧ (∃ k, k < fLast.opLen ∧ fLast.bufByte k ≠ fLast.chunkByte (fLast.opAddr + k))
      ∧ fLast.f.slotsUsed.toNat < fLast.f.numSlots.toNat)
    ∧ fEraseHeld.serves .fee 0 ∧ fEraseHeld.undisturbed = true ∧ fEraseHeld.feeSound ∧ 1 ≤ fEraseHeld.opLen
    ∧ fEraseHeld.opAddr + fEraseHeld.opLen ≤ fEraseHeld.f.logicalSize.toNat
    ∧ fEraseHeld.feeNewBytes (.feeErase 0) 0 (fun _ => erasedByte)
    ∧ fEraseHeld.opAddr % fEraseHeld.params.payload + fEraseHeld.opLen ≤ fEraseHeld.params.payload
    ∧ (∃ k, k < fEraseHeld.opLen ∧ erasedByte ≠ fEraseHeld.chunkByte (fEraseHeld.opAddr + k))
    ∧ fEraseHeld.f.slotsUsed.toNat < fEraseHeld.f.numSlots.toNat :=
  ⟨⟨fLast_serves, by decide +kernel, fLast_sound, by decide +kernel, by decide +kernel,
      .inl ⟨rfl, by decide +kernel, rfl⟩, by decide +kernel, ⟨0, by decide +kernel⟩, by decide +kernel⟩,
    fee_serves (by decide +kernel) (by decide +kernel) (by decide +kernel), by decide +kernel, fEraseHeld_sound,
    by decide +kernel, by decide +kernel, .inr ⟨rfl, rfl⟩, by decide +kernel, ⟨0, by decide +kernel⟩, by decide +kernel⟩

theorem witness_FeeFullArenaIsCollected : fFullOp.serves .fee 0 ∧ fFullOp.undisturbed = true ∧ fFullOp.feeSound
    ∧ 1 ≤ fFullOp.opLen ∧ fFullOp.opAddr + fFullOp.opLen ≤ fFullOp.f.logicalSize.toNat
    ∧ fFullOp.feeNewBytes (.feeWrite 0) 0 (fun k => fFullOp.bufByte k)
    ∧ fFullOp.opAddr % fFullOp.params.payload + fFullOp.opLen ≤ fFullOp.params.payload
    ∧ (∃ k, k < fFullOp.opLen ∧ fFullOp.bufByte k ≠ fFullOp.chunkByte (fFullOp.opAddr + k))
    ∧ fFullOp.f.slotsUsed = fFullOp.f.numSlots :=
  ⟨fFullOp_serves, by decide +kernel, fFullOp_sound, by decide +kernel, by decide +kernel,
    .inl ⟨rfl, by decide +kernel, rfl⟩, by decide +kernel, ⟨0, by decide +kernel⟩, by decide +kernel⟩

/-- Over two chunks, and at the cost of a collection. -/
theorem witness_FeeWriteReadsBack :
    (fTwo.serves .fee 0 ∧ fTwo.undisturbed = true ∧ fTwo.feeSound
      ∧ fTwo.opAddr + fTwo.opLen ≤ fTwo.f.logicalSize.toNat
      ∧ fTwo.feeNewBytes (.feeErase 0) 0 (fun _ => erasedByte))
    ∧ fFullOp.serves .fee 0 ∧ fFullOp.undisturbed = true ∧ fFullOp.feeSound
    ∧ fFullOp.opAddr + fFullOp.opLen ≤ fFullOp.f.logicalSize.toNat
    ∧ fFullOp.feeNewBytes (.feeWrite 0) 0 (fun k => fFullOp.bufByte k) :=
  ⟨⟨fTwo_serves, by decide +kernel, fTwo_sound, by decide +kernel, .inr ⟨rfl, rfl⟩⟩, fFullOp_serves, by decide +kernel,
    fFullOp_sound, by decide +kernel, .inl ⟨rfl, by decide +kernel, rfl⟩⟩

theorem witness_FeeMassEraseFormats : fFullOp.serves .fee 0 ∧ fFullOp.undisturbed = true
    ∧ fFullOp.memoryCanonical = true ∧ fFullOp.feeLaidOut :=
  ⟨fFullOp_serves, by decide +kernel, fFullOp_sound.1, fFullOp_sound.2.1⟩

/-- A stopped FEE unit on the device of the full one, and on the same with arena 0 FROZEN. -/
def fRestart : State := { fStop with devF := fFull.devF }
def fFrozen : State := withF fRestart 8 [0, 0, 0, 0]

theorem fRestart_startable : fRestart.startable .fee 0 :=
  ⟨(by decide +kernel : fRestart.lockedOut .fee 0 = false), .inl (by decide +kernel)⟩

theorem fFrozen_startable : fFrozen.startable .fee 0 :=
  ⟨(by decide +kernel : fFrozen.lockedOut .fee 0 = false), .inl (by decide +kernel)⟩

theorem witness_FeeStartAdoptsTheActiveArena : fRestart.startable .fee 0 ∧ fRestart.undisturbed = true
    ∧ fRestart.params.wf = true ∧ feeFits fRestart.params fRestart.devF.info = true
    ∧ fRestart.feeGeometrySet.headerAt .a0 = .active ∧ fRestart.feeGeometrySet.headerAt (Arena.other .a0) = .unused :=
  ⟨fRestart_startable, by decide +kernel, by decide +kernel, by decide +kernel, by decide +kernel, by decide +kernel⟩

/-- The erased device of a first boot. -/
theorem witness_FeeStartFormatsOtherwise : fStop.startable .fee 0 ∧ fStop.undisturbed = true
    ∧ fStop.memoryCanonical = true ∧ fStop.params.wf = true ∧ feeFits fStop.params fStop.devF.info = true
    ∧ (∀ a, ¬ (fStop.feeGeometrySet.headerAt a = .active ∧ fStop.feeGeometrySet.headerAt a.other = .unused))
    ∧ ∀ a, ¬ (fStop.feeGeometrySet.headerAt a = .frozen ∧ fStop.feeGeometrySet.headerAt a.other ≠ .frozen) :=
  ⟨⟨(by decide +kernel : fStop.lockedOut .fee 0 = false), .inl (by decide +kernel)⟩, by decide +kernel,
    by decide +kernel, by decide +kernel, by decide +kernel, fun a => by cases a <;> decide +kernel,
    fun a => by cases a <;> decide +kernel⟩

theorem witness_FeeStartResumesTheCollection :
    let g := fFrozen.feeGeometrySet
    let v : State := { g with f := { g.f with active := .a0, slotsUsed := BitVec.ofNat 32 (g.loadedSlots .a0) } }
    fFrozen.startable .fee 0 ∧ fFrozen.undisturbed = true ∧ fFrozen.memoryCanonical = true ∧ fFrozen.params.wf = true
    ∧ feeFits fFrozen.params fFrozen.devF.info = true ∧ g.headerAt .a0 = .frozen
    ∧ g.headerAt (Arena.other .a0) ≠ .frozen ∧ v.keysAligned :=
  ⟨fFrozen_startable, by decide +kernel, by decide +kernel, by decide +kernel, by decide +kernel, by decide +kernel,
    by decide +kernel, by unfold State.keysAligned; decide +kernel⟩

/-! #### Invariants and rules about all commands -/

/-- An invariant's premise and a step, from the reset state with a command word placed. -/
def first : State := State.reset.withFetchWord 32 1

theorem first_steps : ∃ t, step first = .next t := step_next (by decide +kernel)

theorem reset_locks : State.reset.locksLegal :=
  ⟨by decide, ⟨by decide, by decide, by decide, by decide⟩, ⟨by decide, by decide, by decide, by decide⟩,
    fun _ _ h => by cases h⟩

theorem witness_StepKeepsMemoryCanonical : first.memoryCanonical = true ∧ ∃ t, step first = .next t :=
  ⟨by decide +kernel, first_steps⟩

theorem witness_StepKeepsLocksLegal : first.locksLegal ∧ ∃ t, step first = .next t := ⟨reset_locks, first_steps⟩

theorem witness_StepKeepsBusyAndSyncedLegal : (∃ t, step first = .next t) ∧ first.busyLegal ∧ first.mirrorReadyMeansSynced :=
  ⟨first_steps, rfl, fun h => by cases h⟩

theorem witness_StepKeepsReadyUnitsLaidOut : first.readyLaidOut ∧ ∃ t, step first = .next t :=
  ⟨⟨by decide +kernel, fun h => absurd h (by decide +kernel), fun h => absurd h (by decide +kernel)⟩, first_steps⟩

theorem witness_StepKeepsSlotCountLegal : first.slotsLegal ∧ ∃ t, step first = .next t :=
  ⟨⟨by decide +kernel, by decide +kernel, by decide +kernel, .inl rfl⟩, first_steps⟩

theorem witness_StepKeepsParametersAndDevices : ∃ t, step first = .next t := first_steps

theorem witness_CommandsMeetTheDeviceContract : fTwo.readyLaidOut ∧ fTwo.slotsLegal :=
  ⟨⟨by decide +kernel, fun h => absurd h (by decide +kernel), fun _ => fTwo_sound.2.1⟩, by decide +kernel,
    by decide +kernel, by decide +kernel, .inr fTwo_sound.2.1⟩

theorem witness_FeeNeverOverwrites : (Instr.feeWrite 0).unit = .fee ∧ fTwo.memoryCanonical = true
    ∧ fTwo.params.wf = true ∧ (fTwo.f.drv = .ready → fTwo.f.recover = false → fTwo.feeSound) :=
  ⟨rfl, fTwo_sound.1, by decide +kernel, fun _ _ => fTwo_sound⟩

theorem witness_UnitsAreIndependent : fTwo.quiet = true ∧ (Instr.feeWrite 0).unit = .fee
    ∧ mWrite.quiet = true ∧ (Instr.mirrorWrite 0).unit = .mirror := by decide +kernel

/-- A command that changes its lock, one that writes INFO and BUF, and one that collects. -/
theorem witness_CommandsWriteOnlyTheirRegisters :
    (mReady.noPowerLoss = true ∧ exec (.mirrorAcquireBus 1) mReady = .next (after (.mirrorAcquireBus 1) mReady)
      ∧ (after (.mirrorAcquireBus 1) mReady).lock .mirror ≠ mReady.lock .mirror)
    ∧ (mReady.noPowerLoss = true ∧ mReady.quiet = true
      ∧ exec (.mirrorGetInfo 0) mReady = .next (after (.mirrorGetInfo 0) mReady)
      ∧ (after (.mirrorGetInfo 0) mReady).info ≠ mReady.info ∧ (after (.mirrorGetInfo 0) mReady).buf ≠ mReady.buf)
    ∧ fFullOp.noPowerLoss = true ∧ exec (.feeWrite 0) fFullOp = .next (after (.feeWrite 0) fFullOp)
    ∧ (after (.feeWrite 0) fFullOp).f.gcCount ≠ fFullOp.f.gcCount :=
  ⟨⟨by decide +kernel, exec_after (by decide +kernel), by decide +kernel⟩,
    ⟨by decide +kernel, by decide +kernel, exec_after (by decide +kernel), by decide +kernel, by decide +kernel⟩,
    by decide +kernel, exec_after (by decide +kernel), by decide +kernel⟩

/-! #### Devices, power loss and the register window -/

theorem witness_TornBitsComeFromTheirHistory : Memory.wf (some erasedByte) [(3, 7)] = true := by decide

/-- Under MARK_ATOMIC and sector erases, a sector's erase that one of two sectors takes, and a mark write after it that
lands whole; a bit-wise tear of the same list is not allowed. -/
def tearPending : List PendOp := [.erase 0 128, .write 128 [0, 0, 0, 0]]
def tearTook : Nat → Nat → Nat → Bool := fun k x _ => k == 1 || x < 64

theorem witness_AnyTearOfAWriteIsDrawn_allows : (TearRule.mk true .sector 4 64).allows tearPending tearTook
    ∧ ¬ (TearRule.mk true .sector 4 64).allows tearPending (fun _ x _ => x == 0) := by
  refine ⟨⟨?_, ?_⟩, ?_⟩
  · rintro (_ | _ | k) a d h <;> simp [tearPending, tearTook] at *
  · rintro (_ | _ | k) a n h <;> simp [tearPending, tearTook] at *
    omega
  · intro h
    have := h.2 0 0 128 rfl rfl 0 1 0 0 (by decide) (by decide) (by decide) (by decide) (by decide) (by decide) (by decide)
    simp at this

/-- Two writes, neither a mark unit, and no erase, under MARK_ATOMIC and sector erases. -/
theorem witness_AnyTearOfAWriteIsDrawn_histories :
    (∀ a d, PendOp.write a d ∈ [PendOp.write 0 [0, 0], .write 9 [0, 0, 0, 0]] → ¬ (d.length = 4 ∧ a % 4 = 0))
    ∧ ∀ a n, PendOp.erase a n ∉ [PendOp.write 0 [0, 0], .write 9 [0, 0, 0, 0]] := by
  refine ⟨fun a d h => ?_, by simp⟩
  rcases List.mem_cons.1 h with h | h
  · cases h
    decide
  · cases List.mem_singleton.1 h
    decide

/-- A canonical DUR; bit-wise tears; a mark word that is
not atomic, and a longer write beside an atomic one; sector-wise tears. -/
theorem witness_AnyTearOfAWriteIsDrawn : Memory.wf (some erasedByte) [(3, 7)] = true
    ∧ ((TearRule.mk false .bit 4 64).atomic = false ∧ (TearRule.mk false .bit 4 64).granule = .bit)
    ∧ ¬ ((TearRule.mk false .bit 4 64).atomic = true ∧ ([0, 0, 0, 0] : List Byte).length = 4 ∧ 8 % 4 = 0)
    ∧ ¬ ((TearRule.mk true .bit 4 64).atomic = true ∧ ([0, 0] : List Byte).length = (TearRule.mk true .bit 4 64).width
      ∧ 8 % (TearRule.mk true .bit 4 64).width = 0)
    ∧ (TearRule.mk true .sector 4 64).granule = .sector ∧ 0 < (TearRule.mk true .sector 4 64).sectorSize := by decide

/-- A mark write beside an erase of another sector, and the last sector of an erase. -/
theorem witness_AtomicUnitsTearWhole :
    (Memory.wf (some erasedByte) [(3, 7)] = true ∧ (TearRule.mk true .bit 4 64).atomic = true
      ∧ ([0, 0, 0, 0] : List Byte).length = (TearRule.mk true .bit 4 64).width
      ∧ 8 % (TearRule.mk true .bit 4 64).width = 0
      ∧ ∀ o ∈ [PendOp.erase 64 64] ++ [], o.overlaps (.write 8 [0, 0, 0, 0]) = false)
    ∧ (TearRule.mk true .sector 4 64).granule = .sector ∧ 0 < (TearRule.mk true .sector 4 64).sectorSize
    ∧ 64 % (TearRule.mk true .sector 4 64).sectorSize = 0 ∧ 128 % (TearRule.mk true .sector 4 64).sectorSize = 0
    ∧ 64 ≤ 2 * (TearRule.mk true .sector 4 64).sectorSize
    ∧ (2 + 1) * (TearRule.mk true .sector 4 64).sectorSize ≤ 64 + 128 := by decide +kernel

theorem witness_FailedOperationStaysPending :
    Memory.wf (some erasedByte) mReady.devM.cur = true ∧ Memory.wf (some erasedByte) mReady.devM.dur = true := by
  decide +kernel

/-- Idle, waiting, at the first point of a SYNC, and in flight with a write of the FEE device. -/
def cutNow : PowerCut := ⟨false, .listed [] 0, .listed [] 0⟩
def cutInFlight : PowerCut := ⟨true, .listed [] 0, .listed [] 0⟩
def mCutSync : State := { mReady with inputs := [.busy (.powerLoss cutNow)] }

theorem witness_PowerLossResetsTheBlock :
    (State.waiting { mReady with inputs := [.idle (.powerLoss cutNow)] } = none
      ∧ State.inputs { mReady with inputs := [.idle (.powerLoss cutNow)] } = .idle (.powerLoss cutNow) :: [])
    ∧ (State.waiting { mCutSync with waiting := some (.fee, 2) } = some (.fee, 2)
      ∧ State.inputs { mCutSync with waiting := some (.fee, 2) } = .busy (.powerLoss cutNow) :: [])
    ∧ (State.inputs { mReady with inputs := [.busy (.powerLoss cutInFlight)] } = .busy (.powerLoss cutInFlight) :: []
      ∧ (cutInFlight.inFlight && mReady.overwriteFault (some (.fee, .write 0 [0]))) = false)
    ∧ mCutSync.inputs = .busy (.powerLoss cutNow) :: [] ∧ cutNow.inFlight = false
    ∧ exec (.mirrorSync 0) mCutSync = .next (after (.mirrorSync 0) mCutSync) :=
  ⟨⟨by decide +kernel, rfl⟩, ⟨rfl, rfl⟩, ⟨rfl, by decide +kernel⟩, rfl, rfl, exec_after (by decide +kernel)⟩

/-- The platform's parameters; the gap after PARAM_BUF, and the first offsets after F_GC_COUNT and after BUF. -/
theorem witness_RegisterWindowFollowsTheMap : calm.params.wf = true
    ∧ ∀ off ∈ [0x034, 0x0AC, 0xFFC, 0x1100, 0xFFFC], off % 4 = 0 ∧ off < 0x10000 ∧ regAt off = none
      ∧ (off < 0x1000 ∨ 0x1000 + calm.params.bufBytes ≤ off) := by decide +kernel

/-- A half-word read of STATUS, a misaligned BUF read, and an aligned BUF write and read at BUF's last word. -/
theorem witness_HostViolationsAreFaults : calm.params.wf = true
    ∧ ((Access.read .half 0x10).addr = calm.params.blockBase + 0x10 ∧ (regAt (0x10 / 4 * 4)).isSome = true
      ∧ (Access.read .half 0x10).size ≠ .word)
    ∧ ((Access.read .word 0x1002).addr = calm.params.blockBase + 0x1002 ∧ 0x1000 ≤ 0x1002
      ∧ 0x1002 < 0x1000 + calm.params.bufBytes ∧ 0x1002 % (Access.read .word 0x1002).size.bytes ≠ 0)
    ∧ ((Access.write .word 0x10FC 5).addr = calm.params.blockBase + 0x10FC ∧ 0x10FC < 0x1000 + calm.params.bufBytes
      ∧ (Access.write .word 0x10FC 5).size.bytes ≤ 4 ∧ 0x10FC % (Access.write .word 0x10FC 5).size.bytes = 0)
    ∧ hostAccess false 2 (.write .word 4 9) calm = .ok { calm with addr := 9 } :=
  ⟨by decide +kernel, by decide +kernel, by decide +kernel, by decide +kernel, rfl⟩

theorem witness_BufHoldsWhatAHostWrites : calm.params.wf = true ∧ Memory.wf none calm.buf = true
    ∧ AccSize.half.bytes ≤ 4 ∧ 254 % AccSize.half.bytes = 0 ∧ 254 + AccSize.half.bytes ≤ calm.params.bufBytes := by
  decide +kernel

theorem witness_MarkCodecMeetsItsContract : ([0, 0, 0xFF, 0xFF] : List Byte).length = MarkWidth.w4.bytes := rfl

/-! ### Reads while a command runs (60_exceptions.md R318) -/

/-- A host's read of a register of the platform whose window starts at 0. -/
def look (off : Nat) : Input := .busy (.access 3 (.read .word off))

/-- A STOP that is read before and after it changes M_DRV, from READY (2) to STOP (1). -/
theorem test_stop_is_seen_midway : ends (.mirrorStop 0) { mReady with inputs := [look 0x040, .regStep, look 0x040] }
    (fun t => t.replies == [1, 2] && t.inputs == []) = true := by decide +kernel

/-- GET_INFO read between its first and its second change: the sector size is new, M_SECTORS is not yet reported. -/
theorem test_getInfo_is_seen_midway : ends (.mirrorGetInfo 0) { mReady with inputs := [.regStep, look 0x018, look 0x01C] }
    (fun t => t.replies == [0, 64] && t.info.sectorNum == 2) = true := by decide +kernel

def mStopSeen : State := { mReady with inputs := [look 0x040, .regStep, look 0x040] }
def mHeldSeen : State := { mHeld with inputs := [look 0x060, .regStep, look 0x060] }

theorem mStopSeen_startable : mStopSeen.startable .mirror 1 :=
  ⟨(by decide +kernel : mStopSeen.lockedOut .mirror 1 = false), .inr (by decide +kernel)⟩

theorem mHeldSeen_startable : mHeldSeen.startable .mirror 1 :=
  ⟨(by decide +kernel : mHeldSeen.lockedOut .mirror 1 = false), .inr (by decide +kernel)⟩

/-- The first register and the last; a STOP and a nested ACQUIRE_BUS with reads around their change; a mark's change. -/
theorem witness_BusyReadsSeeTheInstant :
    (3 : HostId).toNat < calm.params.nHosts
    ∧ (regAt 0x000 = some .cmd ∧ regAt 0x0A8 = some .fGcCount
      ∧ State.inputs { calm with inputs := [look 0x0A8] } = look (calm.params.blockBase + 0x0A8) :: [])
    ∧ State.inputs { calm with inputs := [.regStep] } = .regStep :: []
    ∧ (State.uneventful { mStopSeen with inputs := [] } = true ∧ mStopSeen.startable .mirror 1
      ∧ mStopSeen.inputs = look 0x040 :: .regStep :: look 0x040 :: [])
    ∧ (mHeldSeen.startable .mirror 1 ∧ (mHeldSeen.lock .mirror).count ≠ 0
      ∧ (mHeldSeen.lock .mirror).count.toNat ≠ mHeldSeen.params.lockMax
      ∧ mHeldSeen.inputs = look 0x060 :: .regStep :: look 0x060 :: [])
    ∧ State.inputs { calm with inputs := [.regStep, look 0x044, look 0x048] }
      = .regStep :: look 0x044 :: look 0x048 :: [] :=
  ⟨by decide +kernel, ⟨rfl, rfl, by decide +kernel⟩, rfl,
    ⟨by decide +kernel, mStopSeen_startable, by decide +kernel⟩,
    ⟨mHeldSeen_startable, by decide +kernel, by decide +kernel, by decide +kernel⟩, rfl⟩

end Sys2Proof.Tests
end

