-- ==== Sys2Proof/Proofs/Window.lean ====
section
/-! PROOF. The register window: where an access goes, by its offset, and the statements about the registers and BUF. -/

open Sys2Proof Sys2Proof.Machine

namespace Sys2Proof.Machine

/-! ### Offsets of the window -/

theorem windowOffset_base (p : Params) {off : Nat} (h : off < 0x10000) :
    windowOffset p (p.blockBase + off) = some off := by
  unfold windowOffset
  rw [if_pos (by omega), Nat.add_sub_cancel_left]

/-- Every register stands at an aligned offset of the first 4 KiB. -/
theorem regAt_bounds {off : Nat} {r : Reg} (h : regAt off = some r) : off % 4 = 0 ∧ off < 0x1000 := by
  unfold regAt at h
  split at h <;> simp at h ⊢

theorem regAt_of_le {off : Nat} (h : 0x1000 ≤ off) : regAt off = none := by
  cases hr : regAt off with
  | none => rfl
  | some r => exact absurd (regAt_bounds hr).2 (by omega)

theorem touchesReg_word {off : Nat} (h : off % 4 = 0) : touchesReg off AccSize.word.bytes = (regAt off).isSome := by
  have aligned : ∀ i < 4, (off + i) / 4 * 4 = off := fun i hi => by omega
  rw [Bool.eq_iff_iff, touchesReg, List.any_eq_true]
  constructor
  · rintro ⟨i, hi, hs⟩
    rwa [aligned i (List.mem_range.1 hi)] at hs
  · intro hs
    exact ⟨0, List.mem_range.2 (by decide), by rwa [aligned 0 (by decide)]⟩

theorem touchesReg_of_le {off : Nat} (h : 0x1000 ≤ off) (n : Nat) : touchesReg off n = false := by
  simp only [touchesReg, List.any_eq_false, List.mem_range]
  intro i _
  rw [regAt_of_le (by omega)]
  simp

theorem touchesBuf_iff (p : Params) (off n : Nat) :
    touchesBuf p off n = true ↔ off < 0x1000 + p.bufBytes ∧ 0x1000 < off + n := decide_eq_true_iff

/-! ### Where an access goes -/

section access
variable (running : Bool) (h : HostId) {s : State} {off : Nat}

theorem hostAccess_reg {r : Reg} (hr : regAt off = some r) {a : Access} (hz : a.size = .word)
    (ha : a.addr = s.params.blockBase + off) : hostAccess running h a s = .ok (regAccess r a s) := by
  obtain ⟨h4, hlt⟩ := regAt_bounds hr
  unfold hostAccess
  rw [ha, windowOffset_base _ (by omega)]
  simp only [hz, touchesReg_word h4, hr, Option.isSome_some, if_true]

theorem hostAccess_unmapped (h4 : off % 4 = 0) (hlt : off < 0x10000) (hr : regAt off = none)
    (hb : off < 0x1000 ∨ 0x1000 + s.params.bufBytes ≤ off) {a : Access} (hz : a.size = .word)
    (ha : a.addr = s.params.blockBase + off) : hostAccess running h a s = .ok (unmappedAccess a s) := by
  have outside : touchesBuf s.params off AccSize.word.bytes = false := by
    have hword : AccSize.word.bytes = 4 := rfl
    rw [Bool.eq_false_iff, ne_eq, touchesBuf_iff]
    omega
  unfold hostAccess
  rw [ha, windowOffset_base _ hlt]
  simp only [hz, touchesReg_word h4, hr, Option.isSome_none, outside, Bool.false_eq_true, if_false]

theorem hostAccess_buf {a : Access} (hw : s.params.wf = true) (hz : a.size.bytes ≤ 4) (hal : off % a.size.bytes = 0)
    (hin : off + a.size.bytes ≤ s.params.bufBytes) (ha : a.addr = s.params.blockBase + 0x1000 + off) :
    hostAccess running h a s = bufAccess running h off a s := by
  have hbytes : s.params.bufBytes ≤ 0xF000 := by
    simp only [Params.wf, decide_eq_true_eq] at hw
    omega
  have hpos : 0 < a.size.bytes := by cases a.size <;> decide
  have hdvd : 0x1000 % a.size.bytes = 0 := by cases a.size <;> rfl
  have inside : touchesBuf s.params (0x1000 + off) a.size.bytes = true := (touchesBuf_iff _ _ _).2 (by omega)
  have aligned : a.size.bytes ≤ 4 ∧ (0x1000 + off) % a.size.bytes = 0 :=
    ⟨hz, by rw [Nat.add_mod, hdvd, hal]; simp⟩
  unfold hostAccess
  rw [ha, Nat.add_assoc, windowOffset_base _ (by omega)]
  simp only [touchesReg_of_le (Nat.le_add_right _ _), inside, if_pos aligned, Bool.false_eq_true, if_false, if_true,
    bufBase, Nat.add_sub_cancel_left]

/-- An aligned word read of a register replies with its value and changes nothing else. -/
theorem hostAccess_read_reg {r : Reg} {w : Word} (hr : regAt off = some r) (hw : s.readReg r = w) :
    hostAccess running h (.read .word (s.params.blockBase + off)) s = .ok { s with replies := w :: s.replies } := by
  rw [hostAccess_reg running h hr rfl rfl, ← hw]
  rfl

theorem hostAccess_write_reg {r : Reg} (hr : regAt off = some r) (v : Word) :
    hostAccess running h (.write .word (s.params.blockBase + off) v) s = .ok (s.writeReg r v) :=
  hostAccess_reg running h hr rfl rfl

/-- An aligned read of BUF while no command runs replies with its bytes, little-endian. -/
theorem hostAccess_read_buf {z : AccSize} {w : Word} (hp : s.params.wf = true) (hz : z.bytes ≤ 4)
    (hal : off % z.bytes = 0) (hin : off + z.bytes ≤ s.params.bufBytes)
    (hw : BitVec.ofNat 32 (leVal (s.bufBytes off z.bytes)) = w) :
    hostAccess false h (.read z (s.params.blockBase + 0x1000 + off)) s = .ok { s with replies := w :: s.replies } := by
  rw [hostAccess_buf (a := .read z _) false h hp hz hal hin rfl, ← hw]
  rfl

end access

/-- The registers from INFO on are read-only. -/
theorem writeReg_readOnly {off : Nat} {r : Reg} (hr : regAt off = some r) (h : 0x018 ≤ off) (s : State) (v : Word) :
    s.writeReg r v = s := by
  unfold regAt at hr
  split at hr <;> simp at hr h
  all_goals subst hr; rfl

/-! ### Packed registers, field by field -/

theorem Status.word_fields (s : Status) :
    s.word = (0 : BitVec 20) ++ BitVec.ofNat 4 s.err.code ++ (0 : BitVec 5) ++ BitVec.ofBool s.overrun
      ++ BitVec.ofBool s.done ++ BitVec.ofBool s.busy := by
  obtain ⟨busy, done, overrun, err⟩ := s
  cases busy <;> cases done <;> cases overrun <;> cases err <;> decide

theorem Lock.word_fields (l : Lock) : l.word = (0 : BitVec 20) ++ l.owner ++ l.count := by
  apply BitVec.eq_of_toNat_eq
  have := l.count.isLt
  have := l.owner.isLt
  simp only [Lock.word, BitVec.toNat_append, BitVec.toNat_ofNat]
  rw [← Nat.shiftLeft_add_eq_or_of_lt l.count.isLt]
  simp [Nat.shiftLeft_eq]
  omega

theorem FeeUnit.arenaStateWord_fields (f : FeeUnit) :
    f.arenaStateWord = (0 : BitVec 28) ++ BitVec.ofNat 2 f.state1.code ++ BitVec.ofNat 2 f.state0.code := by
  unfold FeeUnit.arenaStateWord
  cases f.state0 <;> cases f.state1 <;> decide

theorem flag_word (b : Bool) : BitVec.ofNat 32 b.toNat = if b then 1 else 0 := by cases b <;> rfl

/-- PARAM_W of legal parameters; the fields hold N_HOSTS - 1 and LOCK_MAX without overlap (00_scope.md R7). -/
theorem paramW_fields {p : Params} (h : p.wf = true) :
    paramW p = (0 : BitVec 12) ++ BitVec.ofNat 8 p.lockMax ++ BitVec.ofNat 4 (p.nHosts - 1)
      ++ BitVec.ofNat 4 p.widthF.bytes ++ BitVec.ofNat 4 p.widthM.bytes := by
  simp only [Params.wf, decide_eq_true_eq] at h
  obtain ⟨-, -, -, hn, -, hl, -⟩ := h
  have hF : p.widthF.bytes < 16 := by cases p.widthF <;> decide
  have hM : p.widthM.bytes < 16 := by cases p.widthM <;> decide
  apply BitVec.eq_of_toNat_eq
  simp only [paramW, BitVec.toNat_append, BitVec.toNat_ofNat]
  simp only [← Nat.shiftLeft_add_eq_or_of_lt (Nat.mod_lt _ (by decide : 0 < 2 ^ 4)),
    ← Nat.shiftLeft_add_eq_or_of_lt (Nat.mod_lt _ (by decide : 0 < 2 ^ 8))]
  simp [Nat.shiftLeft_eq]
  omega

/-! ### BUF as a host sees it -/

theorem get?_leBytes (n v i : Nat) :
    (leBytes n v)[i]? = if i < n then some (BitVec.ofNat 8 (v / 256 ^ i)) else none := by
  induction n generalizing v i with
  | zero => simp [leBytes]
  | succ n ih =>
    cases i with
    | zero => simp [leBytes]
    | succ i => simp [leBytes, ih, Nat.div_div_eq_div_mul, pow_succ']

/-- Reading n bytes back takes the value modulo their range. -/
theorem leVal_leBytes_mod (n v : Nat) : leVal (leBytes n v) = v % 256 ^ n := by
  induction n generalizing v with
  | zero => simp [leBytes, leVal, Nat.mod_one]
  | succ n ih => simp [leBytes, leVal, ih, pow_succ', Nat.mod_mul]

theorem bufByte_setBuf {s : State} (h : Memory.wf none s.buf = true) (i : Nat) (bs : List Byte) (k : Nat) :
    (s.setBuf i bs).bufByte k = if i ≤ k ∧ k < i + bs.length then (bs[k - i]?).getD 0 else s.bufByte k := by
  simp only [State.bufByte, State.setBuf, get?_putBytes h]
  split
  · next hk =>
    have : k - i < bs.length := by omega
    simp [this]
  · rfl

/-- BUF gives back a byte string that was stored in it. -/
theorem bufBytes_setBuf {s : State} (h : Memory.wf none s.buf = true) (i : Nat) (bs : List Byte) :
    (s.setBuf i bs).bufBytes i bs.length = bs := by
  refine List.ext_getElem (by simp [State.bufBytes]) fun k hk hk' => ?_
  simp only [State.bufBytes, List.getElem_map, List.getElem_range, bufByte_setBuf h]
  rw [if_pos (by omega)]
  simp [hk']

/-- A byte of a word, by division and by shift. -/
theorem ofNat_div_eq_shift (v : Word) (i : Nat) : BitVec.ofNat 8 (v.toNat / 256 ^ i) = (v >>> (8 * i)).setWidth 8 := by
  apply BitVec.eq_of_toNat_eq
  simp [Nat.shiftRight_eq_div_pow, pow_mul]

end Sys2Proof.Machine

namespace Sys2Proof.Proofs

/-- Settles O54: register by register, from the table of reset values. -/
theorem resetValuesAreTheTables : Obligations.ResetValuesAreTheTables := by
  unfold Obligations.ResetValuesAreTheTables
  refine ⟨fun r hw hp hb => ?_, by decide, by decide, by decide, rfl, rfl, rfl, rfl⟩
  cases r
  case paramW => exact absurd rfl hw
  case paramP => exact absurd rfl hp
  case paramBuf => exact absurd rfl hb
  all_goals rfl

/-- Settles O57: the write stores `leBytes` of the value at its place in BUF, and `leVal` inverts it. -/
theorem bufHoldsWhatAHostWrites : Obligations.BufHoldsWhatAHostWrites := by
  unfold Obligations.BufHoldsWhatAHostWrites
  intro s h z off v hw hm hz hal hin
  have hlen : (leBytes z.bytes v.toNat).length = z.bytes := length_leBytes _ _
  refine ⟨s.setBuf off (leBytes z.bytes v.toNat), ?_, fun k => ?_, rfl, ?_⟩
  · exact hostAccess_buf (a := .write z _ v) false h hw hz hal hin rfl
  · rw [bufByte_setBuf hm, hlen]
    split
    · next hk =>
      rw [get?_leBytes, if_pos (by omega), Option.getD_some, ofNat_div_eq_shift]
    · rfl
  · have hread : (s.setBuf off (leBytes z.bytes v.toNat)).bufBytes off z.bytes = leBytes z.bytes v.toNat := by
      simpa only [hlen] using bufBytes_setBuf hm off (leBytes z.bytes v.toNat)
    have hval : leVal (leBytes z.bytes v.toNat) = v.toNat % 2 ^ (8 * z.bytes) := by
      rw [leVal_leBytes_mod, pow_mul]
      norm_num
    exact hostAccess_read_buf h (s := s.setBuf off (leBytes z.bytes v.toNat)) hw hz hal hin (by rw [hread, hval])

/-- Settles O55: every access goes where `regAt` says, and the packed registers are read field by field. -/
theorem registerWindowFollowsTheMap : Obligations.RegisterWindowFollowsTheMap := by
  unfold Obligations.RegisterWindowFollowsTheMap
  intro s running h v hw
  have write {off : Nat} {r : Reg} (hr : regAt off = some r) := hostAccess_write_reg running h (s := s) hr v
  refine ⟨?_, ?_, write (r := .addr) rfl, write (r := .len) rfl, write (r := .cfg) rfl, write (r := .ctrl) rfl,
    write (r := .status) rfl, ?_⟩
  · intro p hp
    suffices hmap : ∃ r, regAt p.1 = some r ∧ s.readReg r = p.2 by
      obtain ⟨r, hr, hv⟩ := hmap
      exact hostAccess_read_reg running h hr hv
    revert p
    have active : BitVec.ofNat 32 s.f.active.index = match s.f.active with | .a0 => 0 | .a1 => 1 := by
      cases s.f.active <;> rfl
    simp only [List.forall_mem_cons]
    refine ⟨⟨.cmd, rfl, rfl⟩, ⟨.addr, rfl, rfl⟩, ⟨.len, rfl, rfl⟩, ⟨.cfg, rfl, rfl⟩,
      ⟨.status, rfl, s.status.word_fields⟩, ⟨.ctrl, rfl, flag_word _⟩, ⟨.infoSectorSize, rfl, rfl⟩,
      ⟨.infoSectorNum, rfl, rfl⟩, ⟨.infoWriteAlign, rfl, rfl⟩, ⟨.infoIdLen, rfl, rfl⟩,
      ⟨.paramW, rfl, paramW_fields hw⟩, ⟨.paramP, rfl, rfl⟩, ⟨.paramBuf, rfl, rfl⟩, ⟨.mDrv, rfl, rfl⟩,
      ⟨.mState, rfl, rfl⟩, ⟨.mStateAddr, rfl, rfl⟩, ⟨.mHdrBytes, rfl, rfl⟩, ⟨.mSectors, rfl, rfl⟩,
      ⟨.mSize, rfl, rfl⟩, ⟨.mAOrg, rfl, rfl⟩, ⟨.mBOrg, rfl, rfl⟩, ⟨.mLock, rfl, s.m.lock.word_fields⟩,
      ⟨.mFlags, rfl, flag_word _⟩, ⟨.fDrv, rfl, rfl⟩, ⟨.fArenaActive, rfl, active⟩, ⟨.fSlotsUsed, rfl, rfl⟩,
      ⟨.fNumSlots, rfl, rfl⟩, ⟨.fSlotSize, rfl, rfl⟩, ⟨.fArenaBytes, rfl, rfl⟩, ⟨.fLogicalSize, rfl, rfl⟩,
      ⟨.fArenaState, rfl, s.f.arenaStateWord_fields⟩, ⟨.fLock, rfl, s.f.lock.word_fields⟩,
      ⟨.fFlags, rfl, flag_word _⟩, ⟨.fGcCount, rfl, rfl⟩, by simp⟩
  · intro off h4 hlt hr hb
    exact hostAccess_unmapped running h h4 hlt hr hb rfl rfl
  · intro off h4 hge hlt
    cases hr : regAt off with
    | none => exact hostAccess_unmapped running h h4 (by omega) hr (.inl hlt) rfl rfl
    | some r => rw [write hr, writeReg_readOnly hr hge]

end Sys2Proof.Proofs
end

