-- ==== Sys2Proof/Proofs/Frame.lean ====
section
/-! PROOF. How a procedure of the engine may end, and what it leaves as it was: a small logic of ends, and the frame of
every shared operation. -/

namespace Sys2Proof.Machine

variable {α β γ δ : Type}

/-! ### Ends of a procedure -/

/-- A procedure's end meets `Q` if it ended well, and `E` if it ended early. -/
def Ends (Q : α → State → Prop) (E : Stop → State → Prop) : EStateM.Result Stop State α → Prop
  | .ok a t => Q a t
  | .error e t => E e t

theorem Ends.mono {Q Q' : α → State → Prop} {E E' : Stop → State → Prop} {r : EStateM.Result Stop State α}
    (h : Ends Q E r) (hq : ∀ a t, Q a t → Q' a t) (he : ∀ e t, E e t → E' e t) : Ends Q' E' r := by
  cases r with
  | ok a t => exact hq a t h
  | error e t => exact he e t h

theorem Ends.bind {Q : α → State → Prop} {Q' : β → State → Prop} {E : Stop → State → Prop} {p : Proc α}
    {f : α → Proc β} {s : State} (hp : Ends Q E (p s)) (hf : ∀ a t, Q a t → Ends Q' E (f a t)) :
    Ends Q' E ((p >>= f) s) := by
  rw [Proc.bind_apply]
  cases hps : p s with
  | ok a t =>
    rw [hps] at hp
    exact hf a t hp
  | error e t =>
    rw [hps] at hp
    exact hp

/-- As `Ends.bind`, with the first part's early ends brought into the whole's. -/
theorem Ends.bind' {Q : α → State → Prop} {Q' : β → State → Prop} {E E' : Stop → State → Prop} {p : Proc α}
    {f : α → Proc β} {s : State} (hp : Ends Q E' (p s)) (he : ∀ e t, E' e t → E e t)
    (hf : ∀ a t, Q a t → Ends Q' E (f a t)) : Ends Q' E ((p >>= f) s) := (hp.mono (fun _ _ k => k) he).bind hf

theorem Ends.and {Q Q' : α → State → Prop} {E E' : Stop → State → Prop} {r : EStateM.Result Stop State α}
    (h : Ends Q E r) (h' : Ends Q' E' r) : Ends (fun a t => Q a t ∧ Q' a t) (fun e t => E e t ∧ E' e t) r := by
  cases r with
  | ok a t => exact ⟨h, h'⟩
  | error e t => exact ⟨h, h'⟩

/-- A procedure that first reads the state. -/
theorem Ends.read {Q : β → State → Prop} {E : Stop → State → Prop} {f : State → Proc β} {s : State}
    (h : Ends Q E (f s s)) : Ends Q E ((get >>= f) s) := h

theorem Ends.ite {Q : α → State → Prop} {E : Stop → State → Prop} {c : Prop} [Decidable c] {p q : Proc α} {s : State}
    (hp : c → Ends Q E (p s)) (hq : ¬c → Ends Q E (q s)) : Ends Q E ((if c then p else q) s) := by
  split
  · next h => exact hp h
  · next h => exact hq h

theorem Ends.require {Q : β → State → Prop} {E : Stop → State → Prop} {e : ErrCode} {c : Bool} {f : Unit → Proc β}
    {s : State} (hc : c = true → Ends Q E (f () s)) (he : c = false → E (.raised e) s) :
    Ends Q E ((require e c >>= f) s) := by
  rw [Proc.bind_apply, require_apply]
  cases c
  · exact he rfl
  · exact hc rfl

/-! ### What a state keeps of another -/

/-- What no step changes: the parameters and what the devices report of themselves. -/
def State.fixed (s : State) : Params × DevInfo × DevInfo := (s.params, s.devM.info, s.devF.info)

/-- What neither a host access nor a device changes: the latches, the two banks, a waiting command, BUSY and ERR. -/
structure Banks where
  latch : Latches
  m : MirrorUnit
  f : FeeUnit
  waiting : Option (UnitId × HostId)
  busy : Bool
  err : ErrCode

/-- Replace the Mirror bank. -/
def State.setM (s : State) (m : MirrorUnit) : State := { s with m := m }

/-- Replace the FEE bank. -/
def State.setF (s : State) (f : FeeUnit) : State := { s with f := f }

/-- What `Banks` lists, of a state. -/
def State.banks (s : State) : Banks := ⟨s.latch, s.m, s.f, s.waiting, s.status.busy, s.status.err⟩

/-- A view that is a function of another tells no more apart. -/
theorem view_of {v : Banks → β} {w : Banks → γ} (g : β → γ) (hg : ∀ b, g (v b) = w b) {a b : Banks} (h : v a = v b) :
    w a = w b := by rw [← hg, ← hg, h]

/-- `t` comes after `s` with no power loss between them, and a view of the banks is as it was. -/
structure State.Follows (v : Banks → β) (s t : State) : Prop where
  fixed : t.fixed = s.fixed
  calm : s.noPowerLoss = true → t.noPowerLoss = true
  view : v t.banks = v s.banks

/-- `t` comes after `s` by a power loss and power return (60_exceptions.md R312). -/
structure State.Restarted (s t : State) : Prop where
  fixed : t.fixed = s.fixed
  m : t.m = .reset
  f : t.f = .reset
  status : t.status = .reset
  waiting : t.waiting = none

section follows
variable {v : Banks → β} {s t r : State}

theorem State.Follows.refl (v : Banks → β) (s : State) : s.Follows v s := ⟨rfl, id, rfl⟩

theorem State.Follows.trans (h : s.Follows v t) (k : t.Follows v r) : s.Follows v r :=
  ⟨k.fixed.trans h.fixed, k.calm ∘ h.calm, k.view.trans h.view⟩

theorem State.Follows.mono {w : Banks → γ} (hv : ∀ a b, v a = v b → w a = w b) (h : s.Follows v t) : s.Follows w t :=
  ⟨h.fixed, h.calm, hv _ _ h.view⟩

/-- What keeps the whole of the banks keeps every view of them. -/
theorem State.Follows.see (h : s.Follows id t) (w : Banks → γ) : s.Follows w t := h.mono fun _ _ e => congrArg w e

theorem State.Restarted.after (h : s.Follows v t) (k : t.Restarted r) : s.Restarted r :=
  ⟨k.fixed.trans h.fixed, k.m, k.f, k.status, k.waiting⟩

/-- A change of other fields alone. -/
theorem State.Follows.of_eq (hf : t.fixed = s.fixed) (hi : t.inputs = s.inputs) (hv : v t.banks = v s.banks) :
    s.Follows v t := ⟨hf, by unfold State.noPowerLoss; rw [hi]; exact id, hv⟩

/-- An item of the schedule is used up. -/
theorem State.Follows.drop {x : Input} {rest : List Input} (h : s.inputs = x :: rest) :
    s.Follows v { s with inputs := rest } := by
  refine ⟨rfl, fun hc => ?_, rfl⟩
  unfold State.noPowerLoss at *
  rw [h, List.all_cons, Bool.and_eq_true] at hc
  exact hc.2

theorem State.Follows.setDev {u : UnitId} {d : Device} (h : d.info = (s.dev u).info) : s.Follows v (s.setDev u d) := by
  cases u with
  | mirror => exact .of_eq (congrArg (fun i => (s.params, i, s.devF.info)) h) rfl rfl
  | fee => exact .of_eq (congrArg (fun i => (s.params, s.devM.info, i)) h) rfl rfl

theorem State.Follows.setM (h : s.Follows id t) (m : MirrorUnit) : (s.setM m).Follows id (t.setM m) :=
  ⟨h.fixed, h.calm, congrArg (fun b : Banks => { b with m := m }) h.view⟩

theorem State.Follows.setF (h : s.Follows id t) (f : FeeUnit) : (s.setF f).Follows id (t.setF f) :=
  ⟨h.fixed, h.calm, congrArg (fun b : Banks => { b with f := f }) h.view⟩

/-- A Mirror bank that a view does not tell from the old one. -/
theorem setM_follows {m : MirrorUnit} (h : v { s.banks with m := m } = v s.banks) : s.Follows v (s.setM m) :=
  .of_eq rfl rfl h

/-- An FEE bank that a view does not tell from the old one. -/
theorem setF_follows {f : FeeUnit} (h : v { s.banks with f := f } = v s.banks) : s.Follows v (s.setF f) :=
  .of_eq rfl rfl h

theorem State.Follows.dropRegStep (v : Banks → β) (s : State) : s.Follows v s.dropRegStep := by
  unfold State.dropRegStep
  split
  · next hi => exact .drop hi
  · exact .refl _ s

end follows

theorem hostEvent_follows {running : Bool} {h : HostId} {a : Access} {s t : State} (v : Banks → β)
    (ht : s.hostEvent running h a = .ok t) : s.Follows v t := by
  obtain ⟨heq, hbusy, herr⟩ := hostEvent_frame ht
  have hbanks : t.banks = s.banks := by
    unfold State.banks
    rw [hbusy, herr, heq]
  exact .of_eq (by rw [heq]; rfl) (by rw [heq]) (congrArg v hbanks)

theorem powerLoss_restarted (s : State) (c : PowerCut) : s.Restarted (s.powerLoss c) := ⟨rfl, rfl, rfl, rfl, rfl⟩

theorem cutPower_restarted (s : State) (op : Option (UnitId × PendOp)) (c : PowerCut) :
    s.Restarted (s.cutPower op c) := by
  unfold State.cutPower
  split
  · next u o _ =>
    have hs : s.Follows id (s.setDev u { s.dev u with pending := (s.dev u).pending ++ [o] }) := .setDev rfl
    exact .after hs (powerLoss_restarted _ c)
  · exact powerLoss_restarted s c

/-! ### Ends that follow the start -/

/-- A fault of the model, or a power loss that the schedule placed inside the command. -/
def Interrupted (s : State) (e : Stop) (t : State) : Prop :=
  (∃ f, e = .fault f) ∨ (e = .powerLost ∧ s.noPowerLoss = false ∧ s.Restarted t)

/-- An early end: an interruption, or one of the ends in `C` with a view of the banks as it was. -/
def Early (C : Stop → Prop) (v : Banks → β) (s : State) (e : Stop) (t : State) : Prop :=
  Interrupted s e t ∨ (C e ∧ s.Follows v t)

/-- However it ends, the procedure keeps a view of the banks; unless interrupted, it ends early only as `C` says. -/
structure Within (C : Stop → Prop) (v : Banks → β) (p : Proc α) : Prop where
  ends (s : State) : Ends (fun _ t => s.Follows v t) (Early C v s) (p s)

theorem Interrupted.after {v : Banks → β} {s t r : State} {e : Stop} (h : s.Follows v t) (k : Interrupted t e r) :
    Interrupted s e r := by
  rcases k with hf | ⟨he, hc, hr⟩
  · exact .inl hf
  · exact .inr ⟨he, by simpa using mt h.calm (by simpa using hc), .after h hr⟩

theorem Early.after {C : Stop → Prop} {v : Banks → β} {s t r : State} {e : Stop} (h : s.Follows v t)
    (k : Early C v t e r) : Early C v s e r := by
  rcases k with hi | ⟨hc, hf⟩
  · exact .inl (hi.after h)
  · exact .inr ⟨hc, h.trans hf⟩

theorem Interrupted.not_raised {s t : State} {c : ErrCode} : ¬Interrupted s (.raised c) t := by
  rintro (⟨f, h⟩ | ⟨h, -, -⟩) <;> cases h

theorem Interrupted.not_waiting {s t : State} : ¬Interrupted s .waiting t := by
  rintro (⟨f, h⟩ | ⟨h, -, -⟩) <;> cases h

/-- A reported error is none of the interruptions. -/
theorem Early.of_raised {C : Stop → Prop} {v : Banks → β} {s t : State} {c : ErrCode} (h : Early C v s (.raised c) t) :
    C (.raised c) ∧ s.Follows v t := Or.resolve_left h Interrupted.not_raised

section within
variable {C D : Stop → Prop} {v : Banks → β} {w : Banks → γ} {p : Proc α}

theorem Within.mono (h : Within C v p) (hC : ∀ e, C e → D e) (hv : ∀ a b, v a = v b → w a = w b) : Within D w p :=
  ⟨fun s => (h.ends s).mono (fun _ _ k => k.mono hv) fun _ _ k => k.imp id fun ⟨hc, hf⟩ => ⟨hC _ hc, hf.mono hv⟩⟩

/-- What keeps the whole of the banks keeps every view of them. -/
theorem Within.see (h : Within C id p) (hC : ∀ e, C e → D e) (w : Banks → γ) : Within D w p :=
  h.mono hC fun _ _ e => congrArg w e

theorem within_pure (a : α) : Within C v (pure a : Proc α) := ⟨.refl v⟩
theorem within_get : Within C v (get : Proc State) := ⟨.refl v⟩

theorem within_modify {f : State → State} (h : ∀ s : State, s.Follows v (f s)) :
    Within C v (modify f : Proc PUnit) := ⟨h⟩

theorem within_throw {e : Stop} (h : C e) : Within C v (throw e : Proc α) := ⟨fun s => .inr ⟨h, .refl v s⟩⟩

theorem within_raise {e : ErrCode} (h : C (.raised e)) : Within C v (raise e : Proc α) := within_throw h

theorem within_contract (f : Fault) (c : Bool) : Within C v (contract f c) := by
  refine ⟨fun s => ?_⟩
  rw [contract_apply]
  split
  · exact .refl v s
  · exact .inl (.inl ⟨f, rfl⟩)

theorem within_require {e : ErrCode} (h : C (.raised e)) (c : Bool) : Within C v (require e c) := by
  refine ⟨fun s => ?_⟩
  rw [require_apply]
  split
  · exact .refl v s
  · exact .inr ⟨h, .refl v s⟩

theorem within_checkState (h : C (.raised .state)) (c : State → Bool) : Within C v (checkState c) := by
  refine ⟨fun s => ?_⟩
  rw [checkState_apply]
  split
  · exact .refl v s
  · exact .inr ⟨h, .refl v s⟩

theorem Within.bind {f : α → Proc δ} (hp : Within C v p) (hf : ∀ a, Within C v (f a)) : Within C v (p >>= f) :=
  ⟨fun s => (hp.ends s).bind fun a t k =>
    ((hf a).ends t).mono (fun _ _ k' => k.trans k') fun _ _ k' => k'.after k⟩

/-- A procedure that first reads the state. -/
theorem within_bind_get {f : State → Proc δ} (hf : ∀ s, Within C v (f s)) : Within C v (get >>= f) := within_get.bind hf

theorem within_ite {c : Prop} [Decidable c] {q : Proc α} (hp : Within C v p) (hq : Within C v q) :
    Within C v (if c then p else q) := by
  split
  · exact hp
  · exact hq

end within

/-- The procedure is `Within`, and `R` holds where it ends well. -/
structure Reaches (C : Stop → Prop) (v : Banks → β) (R : α → State → Prop) (p : Proc α) : Prop where
  ends (s : State) : Ends (fun a t => s.Follows v t ∧ R a t) (Early C v s) (p s)

section reaches
variable {C : Stop → Prop} {v : Banks → β} {p : Proc α}

theorem Within.bind_reaches {f : α → Proc δ} {R : δ → State → Prop} (hp : Within C v p)
    (hf : ∀ a, Reaches C v R (f a)) : Reaches C v R (p >>= f) :=
  ⟨fun s => (hp.ends s).bind fun a t k =>
    ((hf a).ends t).mono (fun _ _ k' => ⟨k.trans k'.1, k'.2⟩) fun _ _ k' => k'.after k⟩

theorem reaches_bind_get {f : State → Proc δ} {R : δ → State → Prop} (hf : ∀ s, Reaches C v R (f s)) :
    Reaches C v R (get >>= f) := within_get.bind_reaches hf

theorem reaches_ite {c : Prop} [Decidable c] {q : Proc α} {R : α → State → Prop} (hp : Reaches C v R p)
    (hq : Reaches C v R q) : Reaches C v R (if c then p else q) := by
  split
  · exact hp
  · exact hq

end reaches

/-! ### The points and the register changes -/

/-- No early end but an interruption. -/
def NoStop (_ : Stop) : Prop := False

/-- The device answered fail. -/
def DeviceStop (e : Stop) : Prop := e = .raised .dev

/-- An error that a command reports. -/
def Reported (e : Stop) : Prop := ∃ c, c ≠ ErrCode.ok ∧ e = .raised c

theorem NoStop.elim {P : Stop → Prop} (e : Stop) (h : NoStop e) : P e := False.elim h
theorem DeviceStop.reported (e : Stop) (h : DeviceStop e) : Reported e := ⟨.dev, by decide, h⟩
theorem reported {c : ErrCode} (h : c ≠ .ok) : Reported (.raised c) := ⟨c, h, rfl⟩

theorem takeEvents_ends (v : Banks → β) (op : Option (UnitId × PendOp)) (l : List Input) (s : State) :
    Ends (fun _ t => State.Follows v { s with inputs := l } t) (Interrupted { s with inputs := l })
      (takeEvents op l s) := by
  induction l generalizing s with
  | nil => rw [takeEvents.eq_def]; exact .refl v _
  | cons x rest ih =>
    rw [takeEvents.eq_def]
    cases x with
    | idle e => exact .refl v _
    | dev d => exact .refl v _
    | regStep => exact .refl v _
    | busy e =>
      cases e with
      | access h a =>
        dsimp only
        cases he : s.hostEvent true h a with
        | error f => exact .inl ⟨f, rfl⟩
        | ok s' =>
          have hs :
              State.Follows v { s with inputs := .busy (.access h a) :: rest } { s' with inputs := rest } :=
            State.Follows.trans (.drop rfl) ⟨(hostEvent_follows id he).fixed, id, (hostEvent_follows v he).view⟩
          exact (ih s').mono (fun _ _ k => hs.trans k) fun _ _ k => k.after hs
      | powerLoss c =>
        dsimp only
        split
        · exact .inl ⟨_, rfl⟩
        · exact .inr ⟨rfl, rfl, .after (v := v) (.drop rfl) (cutPower_restarted _ op c)⟩

/-- A point lets host accesses through, or ends by an interruption. -/
theorem point_ends (v : Banks → β) (op : Option (UnitId × PendOp)) (s : State) :
    Ends (fun _ t => s.Follows v t) (Interrupted s) (point op s) := takeEvents_ends v op s.inputs s

theorem point_within (op : Option (UnitId × PendOp)) : Within NoStop id (point op) :=
  ⟨fun s => (point_ends id op s).mono (fun _ _ k => k) fun _ _ k => .inl k⟩

/-- A register change happens after a point, or an interruption prevents it. -/
theorem change_ends (f : State → State) (s : State) :
    Ends (fun _ t => ∃ s', s.Follows id s' ∧ t = f s') (Interrupted s) (change f s) :=
  (point_ends id none s).bind fun _ t k => ⟨_, k.trans (.dropRegStep id t), rfl⟩

theorem change_within {v : Banks → β} {f : State → State} (h : ∀ s : State, s.Follows v (f s)) :
    Within NoStop v (change f) :=
  ⟨fun s => (change_ends f s).mono (fun _ _ ⟨s', k, e⟩ => e ▸ (k.see v).trans (h s')) fun _ _ k => .inl k⟩

/-- An interruption takes nothing from the banks it struck. -/
theorem Interrupted.of_eq {s t r : State} {e : Stop} (hf : t.fixed = s.fixed) (hi : t.inputs = s.inputs)
    (k : Interrupted t e r) : Interrupted s e r := k.after (v := fun _ => ()) (.of_eq hf hi rfl)

/-- Changes of Mirror registers happen, or an interruption ends them. -/
theorem mirrorRegs_ends (gs : List (MirrorUnit → MirrorUnit)) (s : State) :
    Ends (fun _ t => (s.setM (gs.foldl (fun m g => g m) s.m)).Follows id t) (Interrupted s) (mirrorRegs gs s) := by
  induction gs generalizing s with
  | nil => exact .refl id s
  | cons g gs ih =>
    refine (change_ends _ s).bind ?_
    rintro - t ⟨s', k, rfl⟩
    have hm : s'.m = s.m := congrArg Banks.m k.view
    refine (ih (s'.setM (g s'.m))).mono (fun _ t k' => ?_) fun _ _ k' =>
      .after k (Interrupted.of_eq (t := s'.setM (g s'.m)) rfl rfl k')
    have hs := k.setM (gs.foldl (fun m g => g m) (g s.m))
    rw [← hm] at hs
    exact hm ▸ hs.trans k'

/-- As `mirrorRegs_ends`, for the FEE bank. -/
theorem feeRegs_ends (gs : List (FeeUnit → FeeUnit)) (s : State) :
    Ends (fun _ t => (s.setF (gs.foldl (fun f g => g f) s.f)).Follows id t) (Interrupted s) (feeRegs gs s) := by
  induction gs generalizing s with
  | nil => exact .refl id s
  | cons g gs ih =>
    refine (change_ends _ s).bind ?_
    rintro - t ⟨s', k, rfl⟩
    have hf : s'.f = s.f := congrArg Banks.f k.view
    refine (ih (s'.setF (g s'.f))).mono (fun _ t k' => ?_) fun _ _ k' =>
      .after k (Interrupted.of_eq (t := s'.setF (g s'.f)) rfl rfl k')
    have hs := k.setF (gs.foldl (fun f g => g f) (g s.f))
    rw [← hf] at hs
    exact hf ▸ hs.trans k'

theorem mirrorRegs_within {v : Banks → β} {gs : List (MirrorUnit → MirrorUnit)}
    (h : ∀ g ∈ gs, ∀ b : Banks, v { b with m := g b.m } = v b) : Within NoStop v (mirrorRegs gs) := by
  induction gs with
  | nil => exact within_pure ()
  | cons g gs ih =>
    have hg (s : State) : s.Follows v (s.setM (g s.m)) := setM_follows (h g List.mem_cons_self s.banks)
    exact (change_within hg).bind fun _ => ih fun g' hg' => h g' (List.mem_cons_of_mem _ hg')

theorem feeRegs_within {v : Banks → β} {gs : List (FeeUnit → FeeUnit)}
    (h : ∀ g ∈ gs, ∀ b : Banks, v { b with f := g b.f } = v b) : Within NoStop v (feeRegs gs) := by
  induction gs with
  | nil => exact within_pure ()
  | cons g gs ih =>
    have hg (s : State) : s.Follows v (s.setF (g s.f)) := setF_follows (h g List.mem_cons_self s.banks)
    exact (change_within hg).bind fun _ => ih fun g' hg' => h g' (List.mem_cons_of_mem _ hg')

theorem infoRegs_within (gs : List (InfoRegs → InfoRegs)) : Within NoStop id (infoRegs gs) := by
  induction gs with
  | nil => exact within_pure ()
  | cons g gs ih =>
    have hg (s : State) : s.Follows id { s with info := g s.info } := .of_eq rfl rfl rfl
    exact (change_within hg).bind fun _ => ih

/-! ### The device primitives and BUF -/

/-- The procedure leaves the banks as they were, and raises no error but a device's. -/
def DeviceOnly (p : Proc α) : Prop := Within DeviceStop id p

theorem answer_within : Within NoStop id answer := by
  refine ⟨fun s => ?_⟩
  unfold answer
  split
  · next hi => exact .drop hi
  · split
    · exact .refl id s
    · exact .of_eq rfl rfl rfl

theorem answer_deviceOnly : DeviceOnly answer := answer_within.mono NoStop.elim fun _ _ e => e

theorem point_deviceOnly (op : Option (UnitId × PendOp)) : DeviceOnly (point op) :=
  (point_within op).mono NoStop.elim fun _ _ e => e

theorem devRead_deviceOnly (u : UnitId) (a n : Nat) : DeviceOnly (devRead u a n) :=
  within_bind_get fun _ => (within_contract _ _).bind fun _ => (point_deviceOnly none).bind fun _ =>
    answer_deviceOnly.bind fun
      | .ok => within_bind_get fun _ => within_pure _
      | .fail _ => within_raise rfl

theorem performOp_deviceOnly (u : UnitId) (op : PendOp) (d : Draw) : DeviceOnly (performOp u op d) := by
  refine ⟨fun s => ?_⟩
  rw [performOp_apply]
  cases d with
  | ok => exact .setDev rfl
  | fail t => exact .inr ⟨rfl, .setDev rfl⟩

theorem overwriteOp_deviceOnly (u : UnitId) (op : PendOp) (d : Draw) : DeviceOnly (overwriteOp u op d) := by
  refine ⟨fun s => ?_⟩
  unfold overwriteOp
  rw [Proc.bind_ok (Proc.get_apply s)]
  generalize s.params.overwrite = o
  match o, d with
  | .fault, _ => exact .inl (.inl ⟨_, rfl⟩)
  | .and, _ => exact (performOp_deviceOnly u op _).ends s
  | .fail, .fail _ => exact (performOp_deviceOnly u op _).ends s
  | .fail, .ok =>
    have hs : s.Follows id { s with draws := s.draws + 1 } := .of_eq rfl rfl rfl
    exact ((performOp_deviceOnly u op (.fail (.free s.draws))).ends _).mono (fun _ _ k => hs.trans k)
      fun _ _ k => k.after hs

theorem devWrite_deviceOnly (u : UnitId) (a : Nat) (data : List Byte) : DeviceOnly (devWrite u a data) :=
  within_bind_get fun _ => (within_contract _ _).bind fun _ => (point_deviceOnly _).bind fun _ =>
    answer_deviceOnly.bind fun _ => within_bind_get fun _ =>
      within_ite (overwriteOp_deviceOnly u _ _) (performOp_deviceOnly u _ _)

theorem devErase_deviceOnly (u : UnitId) (a n : Nat) : DeviceOnly (devErase u a n) :=
  within_bind_get fun _ => (within_contract _ _).bind fun _ => (point_deviceOnly _).bind fun _ =>
    answer_deviceOnly.bind fun _ => performOp_deviceOnly u _ _

theorem devSync_deviceOnly (u : UnitId) : DeviceOnly (devSync u) :=
  (point_deviceOnly none).bind fun _ => answer_deviceOnly.bind fun
    | .ok => within_modify fun _ => .setDev rfl
    | .fail _ => within_raise rfl

theorem devGetInfo_deviceOnly (u : UnitId) : DeviceOnly (devGetInfo u) := within_bind_get fun _ => within_pure _

theorem writeMarkWord_deviceOnly (u : UnitId) (a x : Nat) : DeviceOnly (writeMarkWord u a x) :=
  within_bind_get fun _ => (devWrite_deviceOnly u _ _).bind fun _ => devSync_deviceOnly u

theorem bufLoad_deviceOnly (n : Nat) : DeviceOnly (bufLoad n) :=
  within_bind_get fun _ => (within_contract _ _).bind fun _ => within_pure _

theorem bufStore_deviceOnly (bs : List Byte) : DeviceOnly (bufStore bs) :=
  within_bind_get fun _ => (within_contract _ _).bind fun _ => within_modify fun _ => .of_eq rfl rfl rfl

theorem reportInfo_deviceOnly (ss sn wa : Word) (ident : List Byte) : DeviceOnly (reportInfo ss sn wa ident) :=
  ((infoRegs_within _).see NoStop.elim id).bind fun _ => (bufStore_deviceOnly ident).bind fun _ =>
    (infoRegs_within _).see NoStop.elim id

theorem guardRead_deviceOnly {p : Proc Unit} (n : Nat) (h : DeviceOnly p) : DeviceOnly (guardRead n p) := by
  refine ⟨fun s => ?_⟩
  have hs := h.ends s
  unfold guardRead
  split
  · next s' he =>
    rw [he] at hs
    obtain ⟨hd, hf⟩ := Early.of_raised hs
    exact .inr ⟨hd, hf.trans (.of_eq rfl rfl rfl)⟩
  · exact hs

end Sys2Proof.Machine
end

