-- ==== Sys2Proof/Proofs/Engines.lean ====
section
/-! PROOF. The frame of every procedure of the two engines, and of every command: which registers of the banks each can
change. -/

namespace Sys2Proof.Machine

/-! ### Views of the banks -/

/-- All but F_ARENA_ACTIVE, F_ARENA_STATE and F_GC_COUNT. -/
def Banks.exceptArenas (b : Banks) : Banks :=
  { b with f := { b.f with active := .a0, state0 := .invalid, state1 := .invalid, gcCount := 0 } }

/-- All but the registers of `exceptArenas` and F_SLOTS_USED. -/
def Banks.exceptSlots (b : Banks) : Banks :=
  { b.exceptArenas with f := { b.exceptArenas.f with slotsUsed := 0 } }

/-- All but M_STATE and M_STATE_ADDR. -/
def Banks.exceptMark (b : Banks) : Banks := { b with m := { b.m with state := .invalid, stateAddr := 0 } }

/-- All but DRV of a unit. -/
def Banks.exceptDrv (u : UnitId) (b : Banks) : Banks :=
  match u with
  | .mirror => { b with m := { b.m with drv := .uninit } }
  | .fee => { b with f := { b.f with drv := .uninit } }

/-- All but LOCK_U. -/
def Banks.exceptLock (u : UnitId) (b : Banks) : Banks :=
  match u with
  | .mirror => { b with m := { b.m with lock := .reset } }
  | .fee => { b with f := { b.f with lock := .reset } }

/-- All but LOCK_U and a waiting command. -/
def Banks.exceptWait (u : UnitId) (b : Banks) : Banks := { b.exceptLock u with waiting := none }

/-- All but the bank of a unit. -/
def Banks.exceptBank (u : UnitId) (b : Banks) : Banks :=
  match u with
  | .mirror => { b with m := .reset }
  | .fee => { b with f := .reset }

/-! ### Shared operations -/

theorem DeviceOnly.see {α β : Type} {p : Proc α} (h : DeviceOnly p) (v : Banks → β) : Within DeviceStop v p :=
  Within.see h (fun _ e => e) v

theorem DeviceOnly.reports {α : Type} {p : Proc α} (h : DeviceOnly p) : Within Reported id p :=
  Within.see h DeviceStop.reported id

theorem changeDrv_within (u : UnitId) (d : DrvState) : Within NoStop (Banks.exceptDrv u) (changeDrv u d) :=
  change_within fun s => by cases u <;> exact .of_eq rfl rfl rfl

theorem setLock_follows (s : State) (u : UnitId) (l : Lock) : s.Follows (Banks.exceptLock u) (s.setLock u l) := by
  cases u <;> exact .of_eq rfl rfl rfl

/-- The end of DevAcquire: the grant, the lock taken and nothing waiting, or a command that waits. -/
theorem acquireFresh_ends (u : UnitId) (h : HostId) (s : State) :
    Ends (fun _ t => s.Follows (Banks.exceptWait u) t ∧ t.waiting = none)
      (fun e t => Interrupted s e t
        ∨ (e = .waiting ∧ s.Follows (Banks.exceptWait u) t ∧ t.waiting = some (u, h))) (acquireFresh u h s) := by
  refine (point_ends id none s).bind' (fun _ _ k => .inl k) fun _ s1 h1 => ?_
  refine ((answer_within).ends s1).bind' (fun _ _ k => .inl ?_) fun d s2 h2 => ?_
  · exact (k.resolve_right fun hk => hk.1).after h1
  have h12 := h1.trans h2
  cases d with
  | ok =>
    refine (change_ends _ s2).mono ?_ fun _ _ k => .inl (k.after h12)
    rintro - t ⟨s3, h3, rfl⟩
    refine ⟨((h12.trans h3).see _).trans ?_, rfl⟩
    cases u <;> exact .of_eq rfl rfl rfl
  | fail t =>
    refine .inr ⟨rfl, (h12.see _).trans ?_, rfl⟩
    cases u <;> exact .of_eq rfl rfl rfl

theorem acquireFresh_within (u : UnitId) (h : HostId) :
    Within (fun e => e = .waiting) (Banks.exceptWait u) (acquireFresh u h) :=
  ⟨fun s => (acquireFresh_ends u h s).mono (fun _ _ k => k.1) fun _ _ k => k.imp id fun ⟨he, hf, _⟩ => ⟨he, hf⟩⟩

theorem acquire_within (u : UnitId) (h : HostId) :
    Within (fun e => Reported e ∨ e = .waiting) (Banks.exceptWait u) (acquire u h) :=
  within_bind_get fun _ => within_ite ((acquireFresh_within u h).mono (fun _ e => .inr e) fun _ _ e => e)
    (within_ite (within_raise (.inl (reported (by decide))))
      ((change_within fun s => setLock_follows s u _).mono NoStop.elim fun _ _ =>
        view_of (fun b : Banks => { b with waiting := none }) fun _ => rfl))

theorem release_within (u : UnitId) : Within Reported (Banks.exceptLock u) (release u) :=
  within_bind_get fun _ => within_ite (within_raise (reported (by decide))) (within_ite
    ((change_within fun s => (setLock_follows s u _).trans (.setDev (by simp))).mono NoStop.elim fun _ _ e => e)
    ((change_within fun s => setLock_follows s u _).mono NoStop.elim fun _ _ e => e))

/-! ### The FEE engine -/

theorem headerState_deviceOnly (a : Arena) : DeviceOnly (headerState a) :=
  within_bind_get fun _ => (devRead_deviceOnly ..).bind fun _ => (devRead_deviceOnly ..).bind fun _ =>
    (devRead_deviceOnly ..).bind fun _ => within_pure _

theorem headerInit_deviceOnly (a : Arena) : DeviceOnly (headerInit a) :=
  within_bind_get fun _ => (devWrite_deviceOnly ..).bind fun _ => devSync_deviceOnly _

theorem eraseBody_deviceOnly (base eh ab : Nat) : DeviceOnly (eraseBody base eh ab) :=
  within_ite ((devErase_deviceOnly ..).bind fun _ => devSync_deviceOnly _) (within_pure ())

theorem slotMark_deviceOnly (a : Arena) (i : Nat) : DeviceOnly (slotMark a i) :=
  within_bind_get fun _ => (devRead_deviceOnly ..).bind fun _ => (devRead_deviceOnly ..).bind fun _ => within_pure _

theorem slotKey_deviceOnly (a : Arena) (i : Nat) : DeviceOnly (slotKey a i) :=
  within_bind_get fun _ => (devRead_deviceOnly ..).bind fun _ => within_pure _

theorem slotPayload_deviceOnly (a : Arena) (i : Nat) : DeviceOnly (slotPayload a i) :=
  within_bind_get fun _ => devRead_deviceOnly ..

theorem slotRecord_deviceOnly (a : Arena) (i : Nat) : DeviceOnly (slotRecord a i) :=
  within_bind_get fun _ => devRead_deviceOnly ..

theorem countUsed_deviceOnly (a : Arena) (u n i : Nat) : DeviceOnly (countUsed a u n i) := by
  induction n generalizing u i with
  | zero => exact within_pure u
  | succ n ih =>
    refine (slotMark_deviceOnly a i).bind fun x => ?_
    cases x <;> exact ih _ _

theorem slotMatches_deviceOnly (a : Arena) (key i : Nat) : DeviceOnly (slotMatches a key i) :=
  (slotMark_deviceOnly a i).bind fun
    | .valid => (slotKey_deviceOnly a i).bind fun _ => within_pure _
    | .unused => within_pure _
    | .dirty => within_pure _
    | .unknown => within_pure _

theorem lookupFrom_deviceOnly (a : Arena) (key : Nat) (r : Option Nat) (n i : Nat) :
    DeviceOnly (lookupFrom a key r n i) := by
  induction n generalizing r i with
  | zero => exact within_pure r
  | succ n ih => exact (slotMatches_deviceOnly a key i).bind fun _ => within_ite (ih _ _) (ih _ _)

theorem lookup_deviceOnly (a : Arena) (key : Nat) : DeviceOnly (lookup a key) :=
  within_bind_get fun _ => lookupFrom_deviceOnly ..

theorem blankArena_deviceOnly (a : Arena) : DeviceOnly (blankArena a) :=
  within_bind_get fun _ => (devRead_deviceOnly ..).bind fun _ => within_pure _

theorem copyLive_deviceOnly (src dst : Arena) (omitted : Option Nat) (j : Nat) (ks : List Nat) :
    DeviceOnly (copyLive src dst omitted j ks) := by
  induction ks generalizing j with
  | nil => exact within_pure j
  | cons k ks ih =>
    refine within_ite (ih j) ((lookup_deviceOnly src k).bind fun r => ?_)
    cases r with
    | none => exact ih j
    | some r =>
      exact (slotRecord_deviceOnly src r).bind fun _ => within_bind_get fun _ => (devWrite_deviceOnly ..).bind fun _ =>
        ih (j + 1)

theorem chunkPayload_deviceOnly (key : Nat) : DeviceOnly (chunkPayload key) :=
  within_bind_get fun _ => (lookup_deviceOnly ..).bind fun
    | some _ => slotPayload_deviceOnly ..
    | none => within_bind_get fun _ => within_pure _

theorem readSlot_deviceOnly (a : Arena) (addr i : Nat) (out : List Byte) : DeviceOnly (readSlot a addr i out) :=
  (slotMark_deviceOnly a i).bind fun
    | .valid => (slotKey_deviceOnly a i).bind fun _ => within_bind_get fun _ =>
        within_ite ((slotPayload_deviceOnly a i).bind fun _ => within_pure _) (within_pure _)
    | .unused => within_pure _
    | .dirty => within_pure _
    | .unknown => within_pure _

theorem readSlots_deviceOnly (a : Arena) (addr n i : Nat) (out : List Byte) :
    DeviceOnly (readSlots a addr n i out) := by
  induction n generalizing i out with
  | zero => exact within_pure out
  | succ n ih => exact (readSlot_deviceOnly a addr i out).bind fun _ => ih _ _

theorem readRange_deviceOnly (addr n : Nat) : DeviceOnly (readRange addr n) :=
  within_bind_get fun _ => readSlots_deviceOnly ..

theorem feeReg_within {C : Stop → Prop} {v : Banks → Banks} {g : FeeUnit → FeeUnit}
    (h : ∀ b : Banks, v { b with f := g b.f } = v b) : Within C v (feeRegs [g]) :=
  (feeRegs_within fun g' hg' => by rw [List.mem_singleton.1 hg']; exact h).mono NoStop.elim fun _ _ e => e

theorem setArenaState_within {C : Stop → Prop} (a : Arena) (x : ArenaState) :
    Within C Banks.exceptArenas (setArenaState a x) := feeReg_within fun _ => by cases a <;> rfl

theorem setActive_within {C : Stop → Prop} (a : Arena) : Within C Banks.exceptArenas (setActive a) :=
  feeReg_within fun _ => rfl

theorem setSlotsUsed_within {C : Stop → Prop} (n : Nat) : Within C Banks.exceptSlots (setSlotsUsed n) :=
  feeReg_within fun _ => rfl

theorem markArenaActive_within (a : Arena) : Within DeviceStop Banks.exceptArenas (markArenaActive a) :=
  within_bind_get fun _ => ((writeMarkWord_deviceOnly ..).see _).bind fun _ => setArenaState_within a _

theorem markArenaFrozen_within (a : Arena) : Within DeviceStop Banks.exceptArenas (markArenaFrozen a) :=
  within_bind_get fun _ => ((writeMarkWord_deviceOnly ..).see _).bind fun _ => setArenaState_within a _

theorem arenaReinit_within (a : Arena) : Within DeviceStop Banks.exceptArenas (arenaReinit a) :=
  within_bind_get fun _ => ((devErase_deviceOnly ..).see _).bind fun _ => ((devSync_deviceOnly _).see _).bind fun _ =>
    ((eraseBody_deviceOnly ..).see _).bind fun _ => ((headerInit_deviceOnly a).see _).bind fun _ =>
      setArenaState_within a _

theorem prepareDst_within (a : Arena) : Within DeviceStop Banks.exceptArenas (prepareDst a) :=
  ((blankArena_deviceOnly a).see _).bind fun _ => within_ite
    (within_bind_get fun _ => ((devRead_deviceOnly ..).see _).bind fun _ =>
      within_ite ((headerInit_deviceOnly a).see _) (within_pure ()))
    (arenaReinit_within a)

/-- What keeps all but the arenas' registers keeps all but those and F_SLOTS_USED. -/
theorem Within.slots {α : Type} {C : Stop → Prop} {p : Proc α} (h : Within C Banks.exceptArenas p) :
    Within C Banks.exceptSlots p :=
  h.mono (fun _ e => e) fun _ _ e => congrArg (fun b : Banks => { b with f := { b.f with slotsUsed := 0 } }) e

theorem format_within : Within DeviceStop Banks.exceptSlots format :=
  (arenaReinit_within .a0).slots.bind fun _ => (arenaReinit_within .a1).slots.bind fun _ =>
    (markArenaActive_within .a0).slots.bind fun _ => (setActive_within .a0).slots.bind fun _ => setSlotsUsed_within 0

theorem arenaLoad_within (a : Arena) : Within DeviceStop Banks.exceptSlots (arenaLoad a) :=
  within_bind_get fun _ => ((countUsed_deviceOnly ..).see _).bind fun _ => setSlotsUsed_within _

theorem append_within (key : Nat) (pl : List Byte) : Within DeviceStop Banks.exceptSlots (append key pl) :=
  within_bind_get fun _ => ((writeMarkWord_deviceOnly ..).see _).bind fun _ => ((devWrite_deviceOnly ..).see _).bind
    fun _ => ((devSync_deviceOnly _).see _).bind fun _ => ((writeMarkWord_deviceOnly ..).see _).bind fun _ =>
      setSlotsUsed_within _

theorem gc_within (omitted : Option Nat) : Within DeviceStop Banks.exceptSlots (gc omitted) :=
  within_bind_get fun s => (markArenaFrozen_within s.f.active).slots.bind fun _ =>
    (prepareDst_within s.f.active.other).slots.bind fun _ => within_bind_get fun _ =>
      ((copyLive_deviceOnly ..).see _).bind fun _ => ((devSync_deviceOnly _).see _).bind fun _ =>
        (markArenaActive_within _).slots.bind fun _ => (arenaReinit_within _).slots.bind fun _ =>
          (setActive_within _).slots.bind fun _ => (setSlotsUsed_within _).bind fun _ => feeReg_within fun _ => rfl

theorem makeRoom_within (key : Nat) : Within DeviceStop Banks.exceptSlots (makeRoom key) :=
  within_bind_get fun _ => within_ite (gc_within _) (within_pure ())

theorem writeSpan_within (sa lo : Nat) (nb : List Byte) : Within DeviceStop Banks.exceptSlots (writeSpan sa lo nb) :=
  ((chunkPayload_deviceOnly sa).see _).bind fun _ => within_ite (within_pure ())
    ((makeRoom_within sa).bind fun _ => append_within sa _)

theorem writeChunks_within (n x : Nat) (nb : List Byte) : Within DeviceStop Banks.exceptSlots (writeChunks n x nb) := by
  induction n generalizing x nb with
  | zero => exact within_pure ()
  | succ n ih =>
    exact within_ite (within_pure ()) (within_bind_get fun _ => (writeSpan_within ..).bind fun _ => ih _ _)

theorem writeRange_within (addr : Nat) (nb : List Byte) : Within DeviceStop Banks.exceptSlots (writeRange addr nb) :=
  writeChunks_within ..

theorem adoptArena_within (a : Arena) : Within DeviceStop Banks.exceptSlots (adoptArena a) :=
  (setActive_within a).slots.bind fun _ => arenaLoad_within a

theorem resumeGc_within (a : Arena) : Within DeviceStop Banks.exceptSlots (resumeGc a) :=
  (arenaReinit_within a.other).slots.bind fun _ => (adoptArena_within a).bind fun _ => gc_within none

theorem startCases_within : Within DeviceStop Banks.exceptSlots startCases :=
  ((headerState_deviceOnly .a0).see _).bind fun s0 => ((headerState_deviceOnly .a1).see _).bind fun s1 =>
    (setArenaState_within .a0 s0).slots.bind fun _ => (setArenaState_within .a1 s1).slots.bind fun _ => by
      cases startCase s0 s1 with
      | adopt a => exact adoptArena_within a
      | resume a => exact resumeGc_within a
      | cold => exact format_within

/-! ### The Mirror engine -/

theorem eraseHeader_deviceOnly : DeviceOnly eraseHeader :=
  within_bind_get fun _ => (devErase_deviceOnly ..).bind fun _ => devSync_deviceOnly _

theorem readLogEntry_deviceOnly (k : Nat) : DeviceOnly (readLogEntry k) :=
  within_bind_get fun _ => devRead_deviceOnly ..

theorem scanTail_deviceOnly (r : MirrorState × Nat) (n k : Nat) : DeviceOnly (scanTail r n k) := by
  induction n generalizing k with
  | zero => exact within_pure r
  | succ n ih =>
    exact (readLogEntry_deviceOnly k).bind fun _ => within_bind_get fun _ => within_ite (ih _) (within_pure _)

theorem scanFrom_deviceOnly (r : MirrorState × Nat) (n k : Nat) : DeviceOnly (scanFrom r n k) := by
  induction n generalizing r k with
  | zero => exact within_pure r
  | succ n ih =>
    refine (readLogEntry_deviceOnly k).bind fun bs => within_bind_get fun s => ?_
    dsimp only
    cases LogMark.decode s.params.widthM bs with
    | none => exact within_pure _
    | some x =>
      cases x with
      | unused => exact scanTail_deviceOnly ..
      | dirtyA => exact ih _ _
      | dirtyB => exact ih _ _
      | synced => exact ih _ _

theorem scan_deviceOnly : DeviceOnly scan := within_bind_get fun _ => scanFrom_deviceOnly ..

theorem copySectors_deviceOnly (src dst n i : Nat) : DeviceOnly (copySectors src dst n i) := by
  induction n generalizing i with
  | zero => exact within_pure ()
  | succ n ih =>
    exact within_bind_get fun _ => (devErase_deviceOnly ..).bind fun _ => (devRead_deviceOnly ..).bind fun _ =>
      (devWrite_deviceOnly ..).bind fun _ => ih _

theorem copyMirror_deviceOnly (src dst : Nat) : DeviceOnly (copyMirror src dst) :=
  within_bind_get fun _ => (copySectors_deviceOnly ..).bind fun _ => devSync_deviceOnly _

theorem copyBtoA_deviceOnly : DeviceOnly copyBtoA := within_bind_get fun _ => copyMirror_deviceOnly ..
theorem copyAtoB_deviceOnly : DeviceOnly copyAtoB := within_bind_get fun _ => copyMirror_deviceOnly ..

theorem setMirrorState_within (x : MirrorState) (off : Nat) :
    Within DeviceStop Banks.exceptMark (setMirrorState x off) :=
  (mirrorRegs_within (by simp [Banks.exceptMark])).mono NoStop.elim fun _ _ e => e

theorem writeLogEntry_within (off : Nat) (x : LogMark) : Within DeviceStop Banks.exceptMark (writeLogEntry off x) :=
  within_bind_get fun _ => ((writeMarkWord_deviceOnly ..).see _).bind fun _ => setMirrorState_within ..

theorem markAppend_within (x : LogMark) : Within DeviceStop Banks.exceptMark (markAppend x) :=
  within_bind_get fun _ => within_ite ((eraseHeader_deviceOnly.see _).bind fun _ => writeLogEntry_within 0 x)
    (writeLogEntry_within _ x)

theorem markReset_within (x : LogMark) : Within DeviceStop Banks.exceptMark (markReset x) :=
  (eraseHeader_deviceOnly.see _).bind fun _ => writeLogEntry_within 0 x

theorem threePhase_within {mutate : Nat → Proc Unit} (h : ∀ org, DeviceOnly (mutate org)) :
    Within DeviceStop Banks.exceptMark (threePhase mutate) :=
  (markAppend_within _).bind fun _ => within_bind_get fun _ => ((h _).see _).bind fun _ =>
    ((devSync_deviceOnly _).see _).bind fun _ => (markAppend_within _).bind fun _ => within_bind_get fun _ =>
      ((h _).see _).bind fun _ => ((devSync_deviceOnly _).see _).bind fun _ => markAppend_within _

theorem mirrorWriteAt_deviceOnly (addr n org : Nat) : DeviceOnly (mirrorWriteAt addr n org) :=
  (bufLoad_deviceOnly n).bind fun _ => devWrite_deviceOnly ..

/-! ### The mark in force (41_mirror.md R162, R166) -/

/-- M_STATE takes the state that was written. -/
theorem setMirrorState_reaches (x : MirrorState) (off : Nat) :
    Reaches DeviceStop Banks.exceptMark (fun _ t => t.m.state = x) (setMirrorState x off) :=
  ⟨fun s => (mirrorRegs_ends _ s).mono (fun _ t k => ⟨(setM_follows (by rfl)).trans (k.see _),
    congrArg (fun b : Banks => b.m.state) k.view⟩) fun _ _ k => .inl k⟩

theorem writeLogEntry_reaches (off : Nat) (x : LogMark) :
    Reaches DeviceStop Banks.exceptMark (fun _ t => t.m.state = x.mirrorState) (writeLogEntry off x) :=
  reaches_bind_get fun _ => ((writeMarkWord_deviceOnly ..).see _).bind_reaches fun _ => setMirrorState_reaches ..

theorem markReset_reaches (x : LogMark) :
    Reaches DeviceStop Banks.exceptMark (fun _ t => t.m.state = x.mirrorState) (markReset x) :=
  (eraseHeader_deviceOnly.see _).bind_reaches fun _ => writeLogEntry_reaches 0 x

theorem markAppend_reaches (x : LogMark) :
    Reaches DeviceStop Banks.exceptMark (fun _ t => t.m.state = x.mirrorState) (markAppend x) :=
  reaches_bind_get fun _ => reaches_ite (markReset_reaches x) (writeLogEntry_reaches _ x)

/-- Recovery ends SYNCED, whatever the log said. -/
theorem recoverMirror_reaches :
    Reaches DeviceStop Banks.exceptMark (fun _ t => t.m.state = .synced) recoverMirror :=
  (scan_deviceOnly.see _).bind_reaches fun (st, sa) =>
    match st with
    | .synced => ⟨fun s => ((setMirrorState_reaches .synced sa).ends s).bind fun _ _ k => k⟩
    | .dirtyA => (setMirrorState_within _ sa).bind_reaches fun _ => (copyBtoA_deviceOnly.see _).bind_reaches fun _ =>
        markAppend_reaches .synced
    | .dirtyB => (setMirrorState_within _ sa).bind_reaches fun _ => (copyAtoB_deviceOnly.see _).bind_reaches fun _ =>
        markAppend_reaches .synced
    | .invalid => (setMirrorState_within _ sa).bind_reaches fun _ => (copyAtoB_deviceOnly.see _).bind_reaches fun _ =>
        markReset_reaches .synced

/-- A mutation that completes ends SYNCED. -/
theorem threePhase_reaches {mutate : Nat → Proc Unit} (h : ∀ org, DeviceOnly (mutate org)) :
    Reaches DeviceStop Banks.exceptMark (fun _ t => t.m.state = .synced) (threePhase mutate) :=
  (markAppend_within _).bind_reaches fun _ => reaches_bind_get fun _ => ((h _).see _).bind_reaches fun _ =>
    ((devSync_deviceOnly _).see _).bind_reaches fun _ => (markAppend_within _).bind_reaches fun _ =>
      reaches_bind_get fun _ => ((h _).see _).bind_reaches fun _ => ((devSync_deviceOnly _).see _).bind_reaches
        fun _ => markAppend_reaches .synced

end Sys2Proof.Machine
end

