-- ==== Sys2Proof/Proofs/Commands.lean ====
section
/-! PROOF. Every command as a procedure run by `runCommand`, what each leaves as it was, and how a command and a step of
the machine end. -/

namespace Sys2Proof.Machine

/-! ### Every command's procedure -/

/-- The procedure that a command runs after its lock check. -/
def bodyOf : Instr → Proc Unit
  | .mirrorInit _ => pure ()
  | .mirrorObjectInit _ => do
    checkState (·.initable .mirror)
    mirrorRegs (← get).m.objectInit.initRegs
  | .mirrorStart _ => mirrorStartBody
  | .mirrorStop _ => do
    checkState (·.started .mirror)
    changeDrv .mirror .stop
  | .mirrorRead _ => mirrorReadBody
  | .mirrorWrite _ => mirrorWriteBody
  | .mirrorErase _ => mirrorEraseBody
  | .mirrorMassErase _ => mirrorMassEraseBody
  | .mirrorSync _ => do
    checkState (·.isReady .mirror)
    devSync .mirror
  | .mirrorGetInfo _ => mirrorGetInfoBody
  | .mirrorAcquireBus h => do
    checkState (·.started .mirror)
    acquire .mirror h
  | .mirrorReleaseBus _ => do
    checkState (·.started .mirror)
    release .mirror
  | .feeInit _ => pure ()
  | .feeObjectInit _ => do
    checkState (·.initable .fee)
    feeRegs (← get).f.objectInit.initRegs
  | .feeStart _ => feeStartBody
  | .feeStop _ => do
    checkState (·.started .fee)
    changeDrv .fee .stop
  | .feeRead _ => feeReadBody
  | .feeWrite _ => feeWriteBody
  | .feeErase _ => feeEraseBody
  | .feeMassErase _ => do
    checkState State.feeServes
    format
  | .feeSync _ => do
    checkState (·.isReady .fee)
    devSync .fee
  | .feeGetInfo _ => feeGetInfoBody
  | .feeAcquireBus h => do
    checkState (·.started .fee)
    acquire .fee h
  | .feeReleaseBus _ => do
    checkState (·.started .fee)
    release .fee

/-- Every command is its procedure behind the lock check; START, WRITE, ERASE and MASS_ERASE are the mutating ones. -/
theorem exec_eq_runCommand (i : Instr) (s : State) :
    exec i s = runCommand i.unit i.hid (setsRecover i) (bodyOf i) s := by cases i <;> rfl

/-- What a command leaves as it was in the banks, however it ends. -/
def keptBy : Instr → Banks → Banks
  | .mirrorInit _ | .mirrorRead _ | .mirrorSync _ | .mirrorGetInfo _ => id
  | .feeInit _ | .feeRead _ | .feeSync _ | .feeGetInfo _ => id
  | .mirrorObjectInit _ | .mirrorStart _ => Banks.exceptBank .mirror
  | .feeObjectInit _ | .feeStart _ => Banks.exceptBank .fee
  | .mirrorStop _ => Banks.exceptDrv .mirror
  | .feeStop _ => Banks.exceptDrv .fee
  | .mirrorWrite _ | .mirrorErase _ | .mirrorMassErase _ => Banks.exceptMark
  | .feeWrite _ | .feeErase _ | .feeMassErase _ => Banks.exceptSlots
  | .mirrorAcquireBus _ => Banks.exceptWait .mirror
  | .mirrorReleaseBus _ => Banks.exceptLock .mirror
  | .feeAcquireBus _ => Banks.exceptWait .fee
  | .feeReleaseBus _ => Banks.exceptLock .fee

/-- How a command's procedure may end early: ACQUIRE_BUS may wait. -/
def stopsOf (i : Instr) (e : Stop) : Prop := Reported e ∨ (e = .waiting ∧ ∃ u h, i = acquireOf u h)

section bodies
variable {β : Type} {v : Banks → β} {p : Proc Unit}

/-- A procedure behind a state check runs, or the check refuses it and nothing changes. -/
theorem checked_apply (c : State → Bool) (p : Proc Unit) (s : State) :
    (do checkState c; p : Proc Unit) s = if c s then p s else .error (.raised .state) s := by
  rw [Proc.bind_apply, checkState_apply]
  cases c s <;> rfl

theorem checked_within {C : Stop → Prop} (hC : C (.raised .state)) (c : State → Bool) (h : Within C v p) :
    Within C v (do checkState c; p) := (within_checkState hC c).bind fun _ => h

theorem mirrorReadBody_within : Within Reported id mirrorReadBody :=
  (within_checkState (reported (by decide)) _).bind fun _ => within_bind_get fun _ =>
    (within_require (reported (by decide)) _).bind fun _ => within_ite (within_pure ()) (DeviceOnly.reports
      (guardRead_deviceOnly _ ((devRead_deviceOnly ..).bind fun _ => bufStore_deviceOnly _)))

theorem feeReadBody_within : Within Reported id feeReadBody :=
  (within_checkState (reported (by decide)) _).bind fun _ => within_bind_get fun _ =>
    (within_require (reported (by decide)) _).bind fun _ => within_ite (within_pure ()) (DeviceOnly.reports
      (guardRead_deviceOnly _ ((readRange_deviceOnly ..).bind fun _ => bufStore_deviceOnly _)))

theorem mirrorGetInfoBody_within : Within Reported id mirrorGetInfoBody :=
  (within_checkState (reported (by decide)) _).bind fun _ => DeviceOnly.reports
    ((devGetInfo_deviceOnly _).bind fun _ => within_bind_get fun _ => reportInfo_deviceOnly ..)

theorem feeGetInfoBody_within : Within Reported id feeGetInfoBody :=
  (within_checkState (reported (by decide)) _).bind fun _ => DeviceOnly.reports
    ((devGetInfo_deviceOnly _).bind fun _ => within_bind_get fun _ => reportInfo_deviceOnly ..)

/-- A device's error is one that a command reports. -/
theorem Within.reports {α : Type} {q : Proc α} (h : Within DeviceStop v q) : Within Reported v q :=
  h.mono DeviceStop.reported fun _ _ e => e

theorem mirrorWriteBody_within : Within Reported Banks.exceptMark mirrorWriteBody :=
  (within_checkState (reported (by decide)) _).bind fun _ => within_bind_get fun _ =>
    (within_require (reported (by decide)) _).bind fun _ => (within_require (reported (by decide)) _).bind fun _ =>
      within_ite (within_pure ()) (threePhase_within fun _ => mirrorWriteAt_deviceOnly ..).reports

theorem mirrorEraseBody_within : Within Reported Banks.exceptMark mirrorEraseBody :=
  (within_checkState (reported (by decide)) _).bind fun _ => within_bind_get fun _ =>
    (within_require (reported (by decide)) _).bind fun _ => (within_require (reported (by decide)) _).bind fun _ =>
      within_ite (within_pure ()) (threePhase_within fun _ => devErase_deviceOnly ..).reports

theorem mirrorMassEraseBody_within : Within Reported Banks.exceptMark mirrorMassEraseBody :=
  (within_checkState (reported (by decide)) _).bind fun _ => within_bind_get fun _ =>
    (threePhase_within fun _ => devErase_deviceOnly ..).reports

theorem feeWriteBody_within : Within Reported Banks.exceptSlots feeWriteBody :=
  (within_checkState (reported (by decide)) _).bind fun _ => within_bind_get fun _ =>
    (within_require (reported (by decide)) _).bind fun _ => within_ite (within_pure ())
      (((bufLoad_deviceOnly _).see _).bind fun _ => writeRange_within ..).reports

theorem feeEraseBody_within : Within Reported Banks.exceptSlots feeEraseBody :=
  (within_checkState (reported (by decide)) _).bind fun _ => within_bind_get fun _ =>
    (within_require (reported (by decide)) _).bind fun _ => within_ite (within_pure ()) (writeRange_within ..).reports

end bodies

/-! ### START, STOP and OBJECT_INIT -/

/-- A unit's bank less all but DRV, RECOVER and the lock. -/
def Banks.onlyDriver (u : UnitId) (b : Banks) : Banks :=
  match u with
  | .mirror => { b with m := { MirrorUnit.reset with drv := b.m.drv, lock := b.m.lock, recover := b.m.recover } }
  | .fee => { b with f := { FeeUnit.reset with drv := b.f.drv, lock := b.f.lock, recover := b.f.recover } }

/-- What keeps a unit's DRV, RECOVER and lock keeps all outside its bank. -/
theorem State.Follows.exceptBank {u : UnitId} {s t : State} (h : s.Follows (Banks.onlyDriver u) t) :
    s.Follows (Banks.exceptBank u) t :=
  h.mono fun _ _ => view_of (Banks.exceptBank u) fun _ => by cases u <;> rfl

theorem State.Follows.drv_eq {u : UnitId} {s t : State} (h : s.Follows (Banks.onlyDriver u) t) : t.drv u = s.drv u := by
  cases u
  case mirror => exact congrArg (fun b : Banks => b.m.drv) h.view
  case fee => exact congrArg (fun b : Banks => b.f.drv) h.view

theorem State.Follows.recover_eq {u : UnitId} {s t : State} (h : s.Follows (Banks.onlyDriver u) t) :
    t.recover u = s.recover u := by
  cases u
  case mirror => exact congrArg (fun b : Banks => b.m.recover) h.view
  case fee => exact congrArg (fun b : Banks => b.f.recover) h.view

theorem mirrorGeometry_within : Within Reported (Banks.onlyDriver .mirror) mirrorGeometry :=
  ((devGetInfo_deviceOnly _).reports.see (fun _ e => e) _).bind fun _ => within_bind_get fun _ =>
    (within_require (reported (by decide)) _).bind fun _ =>
      (mirrorRegs_within (by simp [MirrorUnit.geometryRegs, Banks.onlyDriver])).mono NoStop.elim fun _ _ e => e

theorem feeGeometry_within : Within Reported (Banks.onlyDriver .fee) feeGeometry :=
  ((devGetInfo_deviceOnly _).reports.see (fun _ e => e) _).bind fun _ => within_bind_get fun _ =>
    (within_require (reported (by decide)) _).bind fun _ =>
      (feeRegs_within (by simp [FeeUnit.geometryRegs, Banks.onlyDriver])).mono NoStop.elim fun _ _ e => e

/-- The end of a START that has set DRV to STOP: it comes READY with RECOVER clear, or DRV and RECOVER stay. -/
def Starts (u : UnitId) (R : State → Prop) (p : Proc Unit) : Prop :=
  ∀ s, Ends (fun _ t => s.Follows (Banks.exceptBank u) t ∧ t.recover u = false ∧ R t)
    (Early Reported (Banks.onlyDriver u) s) (p s)

theorem Within.bind_starts {α : Type} {u : UnitId} {R : State → Prop} {p : Proc α} {f : α → Proc Unit}
    (hp : Within Reported (Banks.onlyDriver u) p) (hf : ∀ a, Starts u R (f a)) : Starts u R (p >>= f) :=
  fun s => (hp.ends s).bind fun a t k =>
    (hf a t).mono (fun _ _ k' => ⟨k.exceptBank.trans k'.1, k'.2⟩) fun _ _ k' => k'.after k

/-- START's last two changes make a SYNCED Mirror unit READY. -/
theorem mirrorReady_ends (s : State) (hs : s.m.state = .synced) :
    Ends (fun _ t => s.Follows (Banks.exceptBank .mirror) t ∧ t.recover .mirror = false ∧ t.m.state = .synced)
      (Interrupted s) (mirrorRegs [fun m => { m with recover := false }, fun m => { m with drv := .ready }] s) :=
  (mirrorRegs_ends _ s).mono (fun _ _ k => ⟨(setM_follows (by rfl)).trans (k.see _),
    congrArg (fun b : Banks => b.m.recover) k.view,
    (congrArg (fun b : Banks => b.m.state) k.view).trans hs⟩) fun _ _ k => k

theorem feeReady_starts :
    Starts .fee (fun _ => True) (feeRegs [fun f => { f with recover := false }, fun f => { f with drv := .ready }]) :=
  fun s => (feeRegs_ends _ s).mono (fun _ _ k => ⟨(setF_follows (by rfl)).trans (k.see _),
    congrArg (fun b : Banks => b.f.recover) k.view, trivial⟩) fun _ _ k => .inl k

/-- MIRROR.START after DRV has been set to STOP. -/
def mirrorStartTail : Proc Unit := do
  mirrorGeometry
  devSync .mirror
  recoverMirror
  mirrorRegs [fun m => { m with recover := false }, fun m => { m with drv := .ready }]

/-- FEE.START after DRV has been set to STOP. -/
def feeStartTail : Proc Unit := do
  feeGeometry
  devSync .fee
  startCases
  feeRegs [fun f => { f with recover := false }, fun f => { f with drv := .ready }]

theorem exceptMark_onlyDriver {a b : Banks} (h : a.exceptMark = b.exceptMark) :
    a.onlyDriver .mirror = b.onlyDriver .mirror :=
  view_of (Banks.onlyDriver .mirror) (fun _ => rfl) h

theorem exceptSlots_onlyDriver {a b : Banks} (h : a.exceptSlots = b.exceptSlots) :
    a.onlyDriver .fee = b.onlyDriver .fee :=
  view_of (Banks.onlyDriver .fee) (fun _ => rfl) h

theorem mirrorStartTail_starts : Starts .mirror (fun t => t.m.state = .synced) mirrorStartTail :=
  mirrorGeometry_within.bind_starts fun _ => ((devSync_deviceOnly _).reports.see (fun _ e => e) _).bind_starts
    fun _ s => (recoverMirror_reaches.ends s).bind' (fun _ _ k => k.imp id fun ⟨hc, hf⟩ =>
      ⟨DeviceStop.reported _ hc, hf.mono fun _ _ => exceptMark_onlyDriver⟩) fun _ t ⟨hf, hs⟩ =>
        have hd := hf.mono (w := Banks.onlyDriver .mirror) fun _ _ => exceptMark_onlyDriver
        (mirrorReady_ends t hs).mono (fun _ _ k => ⟨hd.exceptBank.trans k.1, k.2⟩) fun _ _ k => .inl (k.after hd)

theorem feeStartTail_starts : Starts .fee (fun _ => True) feeStartTail :=
  feeGeometry_within.bind_starts fun _ => ((devSync_deviceOnly _).reports.see (fun _ e => e) _).bind_starts fun _ =>
    (startCases_within.mono DeviceStop.reported fun _ _ => exceptSlots_onlyDriver).bind_starts fun _ => feeReady_starts

theorem State.Follows.setDrv {s t : State} (h : s.Follows id t) (u : UnitId) (d : DrvState) :
    (s.setDrv u d).Follows id (t.setDrv u d) := by
  cases u
  case mirror => exact ⟨h.fixed, h.calm, congrArg (fun b : Banks => { b with m := { b.m with drv := d } }) h.view⟩
  case fee => exact ⟨h.fixed, h.calm, congrArg (fun b : Banks => { b with f := { b.f with drv := d } }) h.view⟩

/-- A START, however it ends: refused in the wrong state, or as `Starts` says from DRV = STOP on. -/
theorem startBody_ends {u : UnitId} {R : State → Prop} {p : Proc Unit} (hp : Starts u R p) (s : State) :
    Ends (fun _ t => s.Follows (Banks.exceptBank u) t ∧ t.recover u = false ∧ R t)
      (fun e t => Interrupted s e t ∨ (e = .raised .state ∧ t = s)
        ∨ (Reported e ∧ (s.setDrv u .stop).Follows (Banks.onlyDriver u) t))
      ((do checkState (·.started u); changeDrv u .stop; p) s) := by
  rw [checked_apply]
  split
  · refine (change_ends _ s).bind' (fun _ _ k => .inl k) fun _ t ⟨s', hs', ht⟩ => ?_
    have hdrv : (s.setDrv u .stop).Follows id t := ht ▸ hs'.setDrv u .stop
    have hout : s.Follows (Banks.exceptBank u) t := by
      refine State.Follows.trans ?_ (hdrv.see _)
      cases u <;> exact .of_eq rfl rfl rfl
    refine (hp t).mono (fun _ _ k => ⟨hout.trans k.1, k.2⟩) fun _ _ k => ?_
    rcases k with k | ⟨hc, hf⟩
    · exact .inl (k.after hout)
    · exact .inr (.inr ⟨hc, (hdrv.see _).trans hf⟩)
  · exact .inr (.inl ⟨rfl, rfl⟩)

/-- A STOP that completes leaves DRV = STOP. -/
theorem stopBody_ends (u : UnitId) (s : State) :
    Ends (fun _ t => s.Follows (Banks.exceptDrv u) t ∧ t.drv u = .stop)
      (fun e t => Interrupted s e t ∨ (e = .raised .state ∧ t = s))
      ((do checkState (·.started u); changeDrv u .stop) s) := by
  rw [checked_apply]
  split
  · refine (change_ends _ s).mono ?_ fun _ _ k => .inl k
    rintro - t ⟨s', hs', rfl⟩
    refine ⟨(hs'.see _).trans ?_, State.drv_setDrv ..⟩
    cases u <;> exact .of_eq rfl rfl rfl
  · exact .inr ⟨rfl, rfl⟩

/-- MIRROR.OBJECT_INIT that completes leaves the bank as `objectInit` says. -/
theorem mirrorObjectInit_ends (s : State) :
    Ends (fun _ t => (s.setM s.m.objectInit).Follows id t)
      (fun e t => Interrupted s e t ∨ (e = .raised .state ∧ t = s))
      ((do checkState (·.initable .mirror); mirrorRegs (← get).m.objectInit.initRegs) s) := by
  rw [checked_apply]
  split
  · exact (mirrorRegs_ends _ s).mono (fun _ _ k => s.m.initRegs_done ▸ k) fun _ _ k => .inl k
  · exact .inr ⟨rfl, rfl⟩

/-- FEE.OBJECT_INIT that completes leaves the bank as `objectInit` says. -/
theorem feeObjectInit_ends (s : State) :
    Ends (fun _ t => (s.setF s.f.objectInit).Follows id t)
      (fun e t => Interrupted s e t ∨ (e = .raised .state ∧ t = s))
      ((do checkState (·.initable .fee); feeRegs (← get).f.objectInit.initRegs) s) := by
  rw [checked_apply]
  split
  · exact (feeRegs_ends _ s).mono (fun _ _ k => s.f.initRegs_done ▸ k) fun _ _ k => .inl k
  · exact .inr ⟨rfl, rfl⟩

/-! ### What every command leaves as it was -/

theorem early_of_refused {v : Banks → Banks} {s t : State} {e : Stop}
    (h : Interrupted s e t ∨ (e = .raised .state ∧ t = s)) : Early Reported v s e t :=
  h.imp id fun ⟨he, ht⟩ => ⟨he ▸ reported (by decide), ht ▸ .refl v s⟩

theorem startBody_within {u : UnitId} {R : State → Prop} {p : Proc Unit} (hp : Starts u R p) :
    Within Reported (Banks.exceptBank u) (do checkState (·.started u); changeDrv u .stop; p) := by
  refine ⟨fun s => (startBody_ends hp s).mono (fun _ _ k => k.1) fun e t k => ?_⟩
  rcases k with k | k | ⟨hc, hf⟩
  · exact .inl k
  · exact early_of_refused (.inr k)
  · refine .inr ⟨hc, State.Follows.trans ?_ hf.exceptBank⟩
    cases u <;> exact .of_eq rfl rfl rfl

theorem stopBody_within (u : UnitId) :
    Within Reported (Banks.exceptDrv u) (do checkState (·.started u); changeDrv u .stop) :=
  ⟨fun s => (stopBody_ends u s).mono (fun _ _ k => k.1) fun _ _ => early_of_refused⟩

/-- The frame of every command. -/
theorem bodyOf_within (i : Instr) : Within (stopsOf i) (keptBy i) (bodyOf i) := by
  have low {v : Banks → Banks} {p : Proc Unit} (h : Within Reported v p) : Within (stopsOf i) v p :=
    h.mono (fun _ => .inl) fun _ _ e => e
  have hstate : Reported (.raised .state) := reported (by decide)
  cases i
  case mirrorInit h => exact within_pure ()
  case feeInit h => exact within_pure ()
  case mirrorObjectInit h =>
    exact low ⟨fun s => (mirrorObjectInit_ends s).mono
      (fun _ _ k => (setM_follows (by rfl)).trans (k.see _)) fun _ _ => early_of_refused⟩
  case feeObjectInit h =>
    exact low ⟨fun s => (feeObjectInit_ends s).mono
      (fun _ _ k => (setF_follows (by rfl)).trans (k.see _)) fun _ _ => early_of_refused⟩
  case mirrorStart h => exact low (startBody_within mirrorStartTail_starts)
  case feeStart h => exact low (startBody_within feeStartTail_starts)
  case mirrorStop h => exact low (stopBody_within .mirror)
  case feeStop h => exact low (stopBody_within .fee)
  case mirrorRead h => exact low mirrorReadBody_within
  case feeRead h => exact low feeReadBody_within
  case mirrorWrite h => exact low mirrorWriteBody_within
  case feeWrite h => exact low feeWriteBody_within
  case mirrorErase h => exact low mirrorEraseBody_within
  case feeErase h => exact low feeEraseBody_within
  case mirrorMassErase h => exact low mirrorMassEraseBody_within
  case feeMassErase h => exact low (checked_within hstate _ format_within.reports)
  case mirrorSync h => exact low (checked_within hstate _ (devSync_deviceOnly _).reports)
  case feeSync h => exact low (checked_within hstate _ (devSync_deviceOnly _).reports)
  case mirrorGetInfo h => exact low mirrorGetInfoBody_within
  case feeGetInfo h => exact low feeGetInfoBody_within
  case mirrorAcquireBus h =>
    exact (checked_within (.inl hstate) _ (acquire_within _ h)).mono
      (fun _ => Or.imp id fun he => ⟨he, .mirror, h, rfl⟩) fun _ _ e => e
  case feeAcquireBus h =>
    exact (checked_within (.inl hstate) _ (acquire_within _ h)).mono
      (fun _ => Or.imp id fun he => ⟨he, .fee, h, rfl⟩) fun _ _ e => e
  case mirrorReleaseBus h => exact low (checked_within hstate _ (release_within .mirror))
  case feeReleaseBus h => exact low (checked_within hstate _ (release_within .fee))

/-! ### How a command and a step end -/

theorem setRecover_follows (s : State) (u : UnitId) (b : Bool) : s.Follows (Banks.exceptBank u) (s.setRecover u b) := by
  cases u <;> exact .of_eq rfl rfl rfl

/-- A command's end completes it, unless the power is lost just before. -/
theorem finish_next {e : ErrCode} {s t : State} (h : finish e s = .next t) :
    (∃ s', s.Follows id s' ∧ t = s'.complete e) ∨ (s.noPowerLoss = false ∧ s.Restarted t) := by
  have hp := point_ends id none s
  unfold finish at h
  cases hq : point none s with
  | ok a s' =>
    rw [hq] at hp h
    cases h
    exact .inl ⟨s', hp, rfl⟩
  | error x s' =>
    rw [hq] at hp h
    rcases hp with ⟨f, rfl⟩ | ⟨rfl, hc, hr⟩ <;> cases h
    exact .inr ⟨hc, hr⟩

/-- The ways a command's procedure, whose end is `r`, ends the command in a state. -/
inductive Concluded (u : UnitId) (mu : Bool) (r : EStateM.Result Stop State Unit) : State → Prop where
  | completed {s s' : State} : r = .ok () s → s.Follows id s' → Concluded u mu r (s'.complete .ok)
  | reported {e : ErrCode} {s s' : State} : r = .error (.raised e) s → (s.afterRaise u mu e).Follows id s' →
      Concluded u mu r (s'.complete e)
  | cutAfter {s t : State} : r = .ok () s → s.noPowerLoss = false → s.Restarted t → Concluded u mu r t
  | cutAfterRaise {e : ErrCode} {s t : State} : r = .error (.raised e) s →
      (s.afterRaise u mu e).noPowerLoss = false → (s.afterRaise u mu e).Restarted t → Concluded u mu r t
  | powerLost {t : State} : r = .error .powerLost t → Concluded u mu r t
  | waiting {t : State} : r = .error .waiting t → Concluded u mu r t

theorem conclude_next {u : UnitId} {mu : Bool} {r : EStateM.Result Stop State Unit} {t : State}
    (h : conclude u mu r = .next t) : Concluded u mu r t := by
  rcases conclude_cases u mu r with ⟨a, s, hr, hf⟩ | ⟨e, s, hr, hf⟩ | ⟨s, hr, hf⟩ | ⟨f, s, -, hf⟩ <;> rw [hf] at h
  · rcases finish_next h with ⟨s', hs, rfl⟩ | ⟨hc, hs⟩
    · exact .completed hr hs
    · exact .cutAfter hr hc hs
  · rcases finish_next h with ⟨s', hs, rfl⟩ | ⟨hc, hs⟩
    · exact .reported hr hs
    · exact .cutAfterRaise hr hc hs
  · cases h
    rcases hr with hr | hr
    · exact .powerLost hr
    · exact .waiting hr
  · cases h

/-- A raise touches the banks at RECOVER of the unit alone. -/
theorem afterRaise_follows (s : State) (u : UnitId) (mu : Bool) (e : ErrCode) :
    s.Follows (Banks.exceptBank u) (s.afterRaise u mu e) := by
  unfold State.afterRaise
  split
  · exact setRecover_follows s u true
  · exact .refl _ s

section bodyEnds
variable {i : Instr} {s t : State}

theorem body_completed (h : bodyOf i s = .ok () t) : s.Follows (keptBy i) t := by
  have hb := (bodyOf_within i).ends s
  rwa [h] at hb

theorem body_raised {e : ErrCode} (h : bodyOf i s = .error (.raised e) t) : e ≠ .ok ∧ s.Follows (keptBy i) t := by
  have hb := (bodyOf_within i).ends s
  rw [h] at hb
  obtain ⟨⟨c, hc, he⟩ | ⟨he, -⟩, hf⟩ := Early.of_raised hb
  · cases he
    exact ⟨hc, hf⟩
  · cases he

theorem body_powerLost (h : bodyOf i s = .error .powerLost t) : s.noPowerLoss = false ∧ s.Restarted t := by
  have hb := (bodyOf_within i).ends s
  rw [h] at hb
  rcases hb with (⟨f, hf⟩ | ⟨-, hr⟩) | ⟨⟨c, -, hc⟩ | ⟨hc, -⟩, -⟩
  · cases hf
  · exact hr
  · cases hc
  · cases hc

theorem body_waiting (h : bodyOf i s = .error .waiting t) : (∃ u g, i = acquireOf u g) ∧ s.Follows (keptBy i) t := by
  have hb := (bodyOf_within i).ends s
  rw [h] at hb
  rcases hb with hi | ⟨⟨c, -, hc⟩ | ⟨-, ha⟩, hf⟩
  · exact absurd hi Interrupted.not_waiting
  · cases hc
  · exact ⟨ha, hf⟩

end bodyEnds

/-- The ways a command ends in a next state. -/
inductive Ended (i : Instr) (s : State) : State → Prop where
  | locked {s' : State} : s.Follows id s' → Ended i s (s'.complete .locked)
  | completed {r s' : State} : bodyOf i s = .ok () r → r.Follows id s' → Ended i s (s'.complete .ok)
  | reported {e : ErrCode} {r s' : State} : bodyOf i s = .error (.raised e) r →
      (r.afterRaise i.unit (setsRecover i) e).Follows id s' → Ended i s (s'.complete e)
  | restarted {t : State} : s.noPowerLoss = false → s.Restarted t → Ended i s t
  | waiting {t : State} : bodyOf i s = .error .waiting t → Ended i s t

theorem noPowerLoss_before {β : Type} {v : Banks → β} {s t : State} (h : s.Follows v t) (ht : t.noPowerLoss = false) :
    s.noPowerLoss = false := by
  simpa using mt h.calm (by simpa using ht)

/-- Every command ends in one of the ways of `Ended`. -/
theorem ended_of_exec {i : Instr} {s t : State} (h : exec i s = .next t) : Ended i s t := by
  rw [exec_eq_runCommand] at h
  unfold runCommand at h
  split at h
  · rcases finish_next h with ⟨s', hs, rfl⟩ | ⟨hc, hr⟩
    · exact .locked hs
    · exact .restarted hc hr
  · cases conclude_next h with
    | completed hb hs => exact .completed hb hs
    | reported hb hs => exact .reported hb hs
    | cutAfter hb hc hr =>
      have hf := body_completed hb
      exact .restarted (noPowerLoss_before hf hc) (.after hf hr)
    | cutAfterRaise hb hc hr =>
      have hf := (body_raised hb).2
      exact .restarted (noPowerLoss_before hf (noPowerLoss_before (afterRaise_follows ..) hc))
        (.after hf (.after (afterRaise_follows ..) hr))
    | powerLost hb => exact .restarted (body_powerLost hb).1 (body_powerLost hb).2
    | waiting hb => exact .waiting hb

/-- The ways a step can go. -/
inductive Stepped (s : State) : State → Prop where
  | granted {u : UnitId} {h : HostId} {s' : State} : s.waiting = some (u, h) → s.Follows (Banks.exceptWait u) s' →
      s'.waiting = none → Stepped s (s'.complete .ok)
  | waits {u : UnitId} {h : HostId} {t : State} : s.waiting = some (u, h) → s.Follows (Banks.exceptWait u) t →
      t.waiting = some (u, h) → Stepped s t
  | passed {t : State} : s.Follows id t → Stepped s t
  | restarted {t : State} : s.Restarted t → Stepped s t
  | illegal {s' r : State} {w : Word} : s.waiting = none → s.Follows id s' → (s'.accept w).Follows id r →
      Stepped s (r.complete .illegal)
  | ran {s' t : State} {w : Word} {h : HostId} {i : Instr} : s.waiting = none → s.Follows id s' →
      Ended i ((s'.accept w).recordHost h i.hid) t → Stepped s t

/-- A waiting ACQUIRE_BUS is granted, goes on waiting, or is cut. -/
theorem resumeAcquire_next {u : UnitId} {h : HostId} {s t : State} (hw : s.waiting = some (u, h))
    (ht : resumeAcquire u h s = .next t) : Stepped s t := by
  have ha := acquireFresh_ends u h s
  cases conclude_next ht with
  | completed hr hf =>
    rw [hr] at ha
    exact .granted hw (ha.1.trans (hf.see _)) ((congrArg Banks.waiting hf.view).trans ha.2)
  | reported hr _ =>
    rw [hr] at ha
    rcases ha with ha | ⟨ha, -⟩
    · exact absurd ha Interrupted.not_raised
    · cases ha
  | cutAfter hr _ hs =>
    rw [hr] at ha
    exact .restarted (.after ha.1 hs)
  | cutAfterRaise hr _ _ =>
    rw [hr] at ha
    rcases ha with ha | ⟨ha, -⟩
    · exact absurd ha Interrupted.not_raised
    · cases ha
  | powerLost hr =>
    rw [hr] at ha
    rcases ha with (⟨f, ha⟩ | ⟨-, -, hs⟩) | ⟨ha, -⟩
    · cases ha
    · exact .restarted hs
    · cases ha
  | waiting hr =>
    rw [hr] at ha
    obtain ⟨-, hf, hwait⟩ := ha.resolve_left Interrupted.not_waiting
    exact .waits hw hf hwait

/-- The outcome of what was fetched. -/
def Fetched.outcome : Fetched → StepOutcome
  | .done o => o
  | .run i s => exec i s

theorem step_eq_outcome (s : State) : step s = (fetch s).outcome := by
  unfold step
  cases fetch s <;> rfl

section fetch
variable {s s' t : State} (hw : s.waiting = none) (hs : s.Follows id s')
include hw hs

theorem acceptCommand_next {h : HostId} {w : Word} (ht : (acceptCommand h w s').outcome = .next t) : Stepped s t := by
  unfold acceptCommand at ht
  split at ht
  · exact .ran hw hs (ended_of_exec ht)
  · rcases finish_next ht with ⟨r, hr, rfl⟩ | ⟨-, hr⟩
    · exact .illegal hw hs hr
    · have ha : s'.Follows (fun _ => ()) (s'.accept w) := .of_eq rfl rfl rfl
      exact .restarted (.after hs (.after ha hr))

theorem fetchAccess_next {h : HostId} {a : Access} (ht : (fetchAccess h a s').outcome = .next t) : Stepped s t := by
  unfold fetchAccess at ht
  split at ht
  · exact acceptCommand_next hw hs ht
  · split at ht
    · next s'' he =>
      cases ht
      exact .passed (hs.trans (hostEvent_follows id he))
    · cases ht

theorem fetchEvent_next {e : Event} (ht : (fetchEvent e s').outcome = .next t) : Stepped s t := by
  cases e with
  | access h a => exact fetchAccess_next hw hs ht
  | powerLoss c =>
    cases ht
    exact .restarted (.after hs (powerLoss_restarted s' c))

end fetch

/-- Every step is one of `Stepped`. -/
theorem stepped_of_step {s t : State} (h : step s = .next t) : Stepped s t := by
  rw [step_eq_outcome] at h
  unfold fetch at h
  split at h
  · next u hid hw => exact resumeAcquire_next hw h
  · next hw =>
    split at h
    · cases h
      exact .passed (.refl id s)
    · next hi =>
      cases h
      exact .passed (.drop hi)
    · next hi =>
      cases h
      exact .passed (.drop hi)
    · next hi => exact fetchEvent_next hw (.drop hi) h
    · next hi => exact fetchEvent_next hw (.drop hi) h

end Sys2Proof.Machine
end

