-- ==== Sys2Proof/Proofs/Recover.lean ====
section
/-! PROOF. RECOVER: which commands set it, which clear it, and which leave it. -/

open Sys2Proof Sys2Proof.Machine

namespace Sys2Proof.Machine

/-- RECOVER of a unit in the banks. -/
def Banks.recover (b : Banks) : UnitId → Bool
  | .mirror => b.m.recover
  | .fee => b.f.recover

theorem State.recover_banks (s : State) (u : UnitId) : s.banks.recover u = s.recover u := by cases u <;> rfl

theorem State.Follows.recover {s t : State} (h : s.Follows id t) (u : UnitId) : t.recover u = s.recover u := by
  rw [← State.recover_banks, ← State.recover_banks]
  exact congrArg (fun b : Banks => b.recover u) h.view

@[simp] theorem State.recover_complete (s : State) (e : ErrCode) (u : UnitId) :
    (s.complete e).recover u = s.recover u := by cases u <;> rfl

@[simp] theorem State.drv_complete (s : State) (e : ErrCode) (u : UnitId) : (s.complete e).drv u = s.drv u := by
  cases u <;> rfl

/-- No command's frame leaves ERR out. -/
theorem keptBy_err (i : Instr) (b : Banks) : (keptBy i b).err = b.err := by cases i <;> rfl

theorem body_err {i : Instr} {s t : State} (h : s.Follows (keptBy i) t) : t.status.err = s.status.err := by
  have hv := congrArg Banks.err h.view
  rwa [keptBy_err, keptBy_err] at hv

/-- Only the unit's START and OBJECT_INIT may change its RECOVER before they end. -/
theorem keptBy_recover (i : Instr) (u : UnitId) :
    (∃ h, i = startOf u h ∨ i = objectInitOf u h) ∨ ∀ b, (keptBy i b).recover u = b.recover u := by
  cases u
  · cases i
    case mirrorStart h => exact .inl ⟨h, .inl rfl⟩
    case mirrorObjectInit h => exact .inl ⟨h, .inr rfl⟩
    all_goals exact .inr fun _ => rfl
  · cases i
    case feeStart h => exact .inl ⟨h, .inl rfl⟩
    case feeObjectInit h => exact .inl ⟨h, .inr rfl⟩
    all_goals exact .inr fun _ => rfl

theorem recover_of_keptBy {i : Instr} {u : UnitId} {s t : State} (hk : ∀ b, (keptBy i b).recover u = b.recover u)
    (h : s.Follows (keptBy i) t) : t.recover u = s.recover u := by
  have hv := congrArg (fun b : Banks => b.recover u) h.view
  simpa only [hk, State.recover_banks] using hv

/-- How a START ends: it clears RECOVER, or leaves it and, after a device failure, DRV = STOP. -/
theorem startOf_ends (u : UnitId) (h : HostId) (s : State) :
    Ends (fun _ t => t.recover u = false)
      (fun e t => Interrupted s e t ∨ (t.recover u = s.recover u ∧ (e = .raised .dev → t.drv u = .stop)))
      (bodyOf (startOf u h) s) := by
  have key {R : State → Prop} {p : Proc Unit} (hp : Starts u R p) := (startBody_ends hp s).mono (fun _ t k => k.2.1)
    (E' := fun e t => Interrupted s e t ∨ (t.recover u = s.recover u ∧ (e = .raised .dev → t.drv u = .stop))) ?_
  · cases u
    · exact key mirrorStartTail_starts
    · exact key feeStartTail_starts
  · rintro e t (hi | ⟨rfl, rfl⟩ | ⟨-, hf⟩)
    · exact .inl hi
    · exact .inr ⟨rfl, nofun⟩
    · exact .inr ⟨by rw [hf.recover_eq, State.recover_setDrv], fun _ => by rw [hf.drv_eq, State.drv_setDrv]⟩

/-- How an OBJECT_INIT ends: it clears RECOVER, or changes nothing. -/
theorem objectInitOf_ends (u : UnitId) (h : HostId) (s : State) :
    Ends (fun _ t => t.recover u = false) (fun e t => Interrupted s e t ∨ (e = .raised .state ∧ t = s))
      (bodyOf (objectInitOf u h) s) := by
  cases u
  · exact (mirrorObjectInit_ends s).mono (fun _ _ k => k.recover .mirror) fun _ _ k => k
  · exact (feeObjectInit_ends s).mono (fun _ _ k => k.recover .fee) fun _ _ k => k

section ends
variable {i : Instr} {s t : State} {u : UnitId} {h : HostId}

/-- A command that raises an error has not changed RECOVER yet. -/
theorem recover_of_raised {e : ErrCode} (hb : bodyOf i s = .error (.raised e) t) (u : UnitId) :
    t.recover u = s.recover u := by
  rcases keptBy_recover i u with ⟨h, rfl | rfl⟩ | hk
  · have hs := startOf_ends u h s
    rw [hb] at hs
    exact (hs.resolve_left Interrupted.not_raised).1
  · have hs := objectInitOf_ends u h s
    rw [hb] at hs
    rw [(hs.resolve_left Interrupted.not_raised).2]
  · exact recover_of_keptBy hk (body_raised hb).2

theorem drv_of_start_failed (hb : bodyOf (startOf u h) s = .error (.raised .dev) t) : t.drv u = .stop := by
  have hs := startOf_ends u h s
  rw [hb] at hs
  exact (hs.resolve_left Interrupted.not_raised).2 rfl

/-- START and OBJECT_INIT clear RECOVER where they complete. -/
theorem recover_of_completed (hi : i = startOf u h ∨ i = objectInitOf u h) (hb : bodyOf i s = .ok () t) :
    t.recover u = false := by
  rcases hi with rfl | rfl
  · have hs := startOf_ends u h s
    rwa [hb] at hs
  · have hs := objectInitOf_ends u h s
    rwa [hb] at hs

/-- START and OBJECT_INIT do not wait. -/
theorem not_waiting_of_start (hi : i = startOf u h ∨ i = objectInitOf u h) : bodyOf i s ≠ .error .waiting t := by
  intro hb
  obtain ⟨⟨v, g, rfl⟩, -⟩ := body_waiting hb
  rcases hi with hi | hi <;> cases u <;> cases v <;> cases hi

theorem recover_afterRaise (r : State) (mu : Bool) (e : ErrCode) (v : UnitId) :
    (r.afterRaise v mu e).recover u = (r.recover u || (decide (u = v) && mu && e == .dev)) := by
  unfold State.afterRaise
  split
  · next hc =>
    rw [Bool.and_assoc, hc]
    cases u <;> cases v <;> simp [State.recover, State.setRecover]
  · next hc =>
    rw [Bool.and_assoc, Bool.eq_false_iff.2 hc]
    simp

theorem drv_afterRaise (r : State) (mu : Bool) (e : ErrCode) (v : UnitId) : (r.afterRaise v mu e).drv u = r.drv u := by
  unfold State.afterRaise
  split <;> simp

/-- A command that ends with ERR_DEV has set RECOVER if it is one of the four. -/
theorem recover_of_devError (hend : Ended i s t) (hs : s.status.err ≠ .dev) (ht : t.status.err = .dev) :
    t.recover i.unit = (setsRecover i || s.recover i.unit) ∧ (∀ h, i = startOf i.unit h → t.drv i.unit = .stop) := by
  cases hend with
  | locked _ => cases ht
  | completed _ _ => cases ht
  | restarted _ hr => rw [hr.status] at ht; cases ht
  | waiting hb => exact absurd ((body_err (body_waiting hb).2).symm.trans ht) hs
  | @reported e r s' hb hs' =>
    have he : e = .dev := ht
    subst he
    refine ⟨?_, fun h hi => ?_⟩
    · rw [State.recover_complete, hs'.recover, recover_afterRaise, recover_of_raised hb]
      simp [Bool.or_comm]
    · rw [hi] at hb
      have hdrv := (hs'.see (Banks.onlyDriver i.unit)).drv_eq
      rw [State.drv_complete, hdrv, drv_afterRaise]
      exact drv_of_start_failed hb

/-- Without a power loss, only a START or OBJECT_INIT of the unit that completes clears its RECOVER. -/
theorem cleared_recover (hend : Ended i s t) (hc : s.noPowerLoss = true) (hs : s.recover u = true)
    (ht : t.recover u = false) : (∃ h, i = startOf u h ∨ i = objectInitOf u h) ∧ t.status.err = .ok := by
  have hne : t.recover u ≠ s.recover u := by simp [hs, ht]
  cases hend with
  | locked hs' => exact absurd (by simpa using hs'.recover u) hne
  | restarted hc' _ => rw [hc] at hc'; cases hc'
  | waiting hb =>
    rcases keptBy_recover i u with ⟨h, hi⟩ | hk
    · exact absurd hb (not_waiting_of_start hi)
    · exact absurd (recover_of_keptBy hk (body_waiting hb).2) hne
  | completed hb hs' =>
    rcases keptBy_recover i u with hi | hk
    · exact ⟨hi, rfl⟩
    · refine absurd ?_ hne
      rw [State.recover_complete, hs'.recover, recover_of_keptBy hk (body_completed hb)]
  | reported hb hs' =>
    rw [State.recover_complete, hs'.recover, recover_afterRaise, recover_of_raised hb, hs] at ht
    cases ht

/-- Without a power loss, a START or OBJECT_INIT that completes with OK clears RECOVER. -/
theorem recover_of_start_ok (hend : Ended i s t) (hc : s.noPowerLoss = true)
    (hi : i = startOf u h ∨ i = objectInitOf u h) (ht : t.status.err = .ok) : t.recover u = false := by
  cases hend with
  | locked _ => cases ht
  | restarted hc' _ => rw [hc] at hc'; cases hc'
  | waiting hb => exact absurd hb (not_waiting_of_start hi)
  | completed hb hs' => rw [State.recover_complete, hs'.recover, recover_of_completed hi hb]
  | reported hb _ => exact absurd ht (body_raised hb).1

end ends

end Sys2Proof.Machine

namespace Sys2Proof.Proofs

/-- Settles O18, clause by clause over the ways a command ends. -/
theorem recoverFollowsDeviceFailures : Obligations.RecoverFollowsDeviceFailures := by
  unfold Obligations.RecoverFollowsDeviceFailures
  refine ⟨fun i s t h => recover_of_devError (ended_of_exec h),
    fun i s t u hc h => cleared_recover (ended_of_exec h) hc, fun s t u h hc hx => ?_⟩
  rcases hx with hx | hx
  · exact recover_of_start_ok (ended_of_exec hx) hc (.inl rfl)
  · exact recover_of_start_ok (ended_of_exec hx) hc (.inr rfl)

end Sys2Proof.Proofs
end

