-- ==== Sys2Proof/Proofs/Invariant.lean ====
section
/-! PROOF. Predicates of the banks that every step keeps: what a predicate must tell of itself and of every command's
procedure, and that every step keeps it then. -/

namespace Sys2Proof.Machine

variable {α β γ δ : Type}

/-- A predicate that reads the parameters, the devices' own reports and a view of the banks; it holds after a power loss,
and neither an issue or a completion, nor a lock, nor the setting of RECOVER makes it fail. -/
structure Viewed (w : Banks → β) (T : State → Prop) : Prop where
  congr {s t : State} : t.fixed = s.fixed → w t.banks = w s.banks → T s → T t
  restart {s t : State} : s.Restarted t → T s → T t
  issue (b : Banks) (latch : Latches) (busy : Bool) (err : ErrCode) :
    w { b with latch := latch, busy := busy, err := err } = w b
  lock (u : UnitId) (b : Banks) : w (b.exceptWait u) = w b
  recover {s : State} (u : UnitId) : T s → T (s.setRecover u true)

/-- The state that a procedure's early end leaves to the command's end. -/
def afterStop (i : Instr) (e : Stop) (t : State) : State :=
  match e with
  | .raised c => t.afterRaise i.unit (setsRecover i) c
  | _ => t

/-- The procedure keeps the predicate, but for what RECOVER makes up for, and but for faults. -/
def KeepsFor (T : State → Prop) (i : Instr) (p : Proc α) : Prop :=
  ∀ s, T s → Ends (fun _ t => T t) (fun e t => (∃ f, e = .fault f) ∨ T (afterStop i e t)) (p s)

section viewed
variable {w : Banks → β} {T : State → Prop} (hT : Viewed w T) {i : Instr} {s t : State}
include hT

theorem Viewed.follows (h : s.Follows w t) (hs : T s) : T t := hT.congr h.fixed h.view hs

theorem Viewed.complete (e : ErrCode) (hs : T s) : T (s.complete e) := hT.congr (s := s) rfl (hT.issue s.banks _ _ _) hs

theorem Viewed.accept (x : Word) (hs : T s) : T (s.accept x) := hT.congr (s := s) rfl (hT.issue s.banks _ _ _) hs

theorem Viewed.recordHost (h hid : HostId) (hs : T s) : T (s.recordHost h hid) := by
  rw [State.recordHost_eq]
  exact hT.congr (s := s) rfl rfl hs

theorem Viewed.afterRaise (u : UnitId) (mu : Bool) (e : ErrCode) (hs : T s) : T (s.afterRaise u mu e) := by
  unfold State.afterRaise
  split
  · exact hT.recover u hs
  · exact hs

theorem Viewed.afterStop (i : Instr) (e : Stop) (hs : T s) : T (afterStop i e s) := by
  cases e with
  | raised c => exact hT.afterRaise _ _ c hs
  | powerLost => exact hs
  | waiting => exact hs
  | fault f => exact hs

/-- An interruption is a fault or a power loss. -/
theorem Viewed.interrupted {e : Stop} (h : Interrupted s e t) (hs : T s) :
    (∃ f, e = .fault f) ∨ T (Machine.afterStop i e t) :=
  h.imp id fun ⟨_, _, hr⟩ => hT.afterStop i e (hT.restart hr hs)

theorem Viewed.early {C : Stop → Prop} {v : Banks → γ} (hv : ∀ a b, v a = v b → w a = w b) {e : Stop}
    (h : Early C v s e t) (hs : T s) : (∃ f, e = .fault f) ∨ T (Machine.afterStop i e t) := by
  rcases h with h | ⟨-, h⟩
  · exact hT.interrupted h hs
  · exact .inr (hT.afterStop i e (hT.follows (h.mono hv) hs))

/-- What keeps the view keeps the predicate. -/
theorem Viewed.keepsFor {C : Stop → Prop} {v : Banks → γ} {p : Proc α} (h : Within C v p)
    (hv : ∀ a b, v a = v b → w a = w b) : KeepsFor T i p :=
  fun s hs => (h.ends s).mono (fun _ _ k => hT.follows (k.mono hv) hs) fun _ _ k => hT.early hv k hs

/-- A command whose procedure keeps the predicate keeps it. -/
theorem Viewed.ended (hb : KeepsFor T i (bodyOf i)) (hend : Ended i s t) (hs : T s) : T t := by
  have hbody := hb s hs
  have keep {r r' : State} (h : r.Follows id r') (hr : T r) : T r' := hT.follows (h.see w) hr
  cases hend with
  | locked hf => exact hT.complete _ (keep hf hs)
  | restarted _ hr => exact hT.restart hr hs
  | completed he hf =>
    rw [he] at hbody
    exact hT.complete _ (keep hf hbody)
  | reported he hf =>
    rw [he] at hbody
    exact hT.complete _ (keep hf (hbody.resolve_left nofun))
  | waiting he =>
    rw [he] at hbody
    exact hbody.resolve_left nofun

/-- A predicate that every command's procedure keeps, every step keeps. -/
theorem Viewed.step (hb : ∀ i, KeepsFor T i (bodyOf i)) (hs : T s) (h : step s = .next t) : T t := by
  have keep {r : State} (hf : s.Follows id r) : T r := hT.follows (hf.see w) hs
  have wait {u : UnitId} {r : State} (hf : s.Follows (Banks.exceptWait u) r) : T r :=
    hT.follows (hf.mono fun _ _ => view_of w (hT.lock u)) hs
  cases stepped_of_step h with
  | granted _ hf _ => exact hT.complete _ (wait hf)
  | waits _ hf _ => exact wait hf
  | passed hf => exact keep hf
  | restarted hr => exact hT.restart hr hs
  | illegal _ hf hr => exact hT.complete _ (hT.follows (hr.see w) (hT.accept _ (keep hf)))
  | ran _ hf hend => exact hT.ended (hb _) hend (hT.recordHost _ _ (hT.accept _ (keep hf)))

end viewed

section keepsFor
variable {T : State → Prop} {i : Instr}

theorem KeepsFor.bind {p : Proc α} {f : α → Proc δ} (hp : KeepsFor T i p) (hf : ∀ a, KeepsFor T i (f a)) :
    KeepsFor T i (p >>= f) := fun s hs => (hp s hs).bind fun a t k => hf a t k

theorem keepsFor_pure (a : α) : KeepsFor T i (pure a : Proc α) := fun _ hs => hs

theorem keepsFor_ite {c : Prop} [Decidable c] {p q : Proc α} (hp : KeepsFor T i p) (hq : KeepsFor T i q) :
    KeepsFor T i (if c then p else q) := by
  split
  · exact hp
  · exact hq

end keepsFor

end Sys2Proof.Machine
end

