-- ==== Sys2Proof/Proofs/Busy.lean ====
section
/-! PROOF. BUSY stands for a waiting ACQUIRE_BUS, and a READY Mirror unit without RECOVER is SYNCED. -/

open Sys2Proof Sys2Proof.Machine

namespace Sys2Proof.Machine

/-! ### BUSY -/

theorem keptBy_busy (i : Instr) (b : Banks) : (keptBy i b).busy = b.busy := by cases i <;> rfl

theorem body_busy {i : Instr} {s t : State} (h : s.Follows (keptBy i) t) : t.status.busy = s.status.busy := by
  have hv := congrArg Banks.busy h.view
  rwa [keptBy_busy, keptBy_busy] at hv

/-- Only an ACQUIRE_BUS makes a command wait. -/
theorem keptBy_waiting (i : Instr) :
    (∃ u h, i = acquireOf u h) ∨ ∀ b, (keptBy i b).waiting = b.waiting := by
  cases i
  case mirrorAcquireBus h => exact .inl ⟨.mirror, h, rfl⟩
  case feeAcquireBus h => exact .inl ⟨.fee, h, rfl⟩
  all_goals exact .inr fun _ => rfl

/-- An early end of an ACQUIRE_BUS: a command waits where it ends so, and nothing waits after an error. -/
def WaitsOnly (s : State) (e : Stop) (t : State) : Prop :=
  Interrupted s e t ∨ (e = .waiting ∧ t.waiting.isSome = true) ∨ (∃ c, e = .raised c) ∧ t.waiting = none

theorem acquire_ends (u : UnitId) (h : HostId) {s : State} (hs : s.waiting = none) :
    Ends (fun _ t => t.waiting = none) (WaitsOnly s) (acquire u h s) := by
  rw [acquire_apply]
  split
  · exact (acquireFresh_ends u h s).mono (fun _ _ k => k.2) fun e t k => k.imp id fun ⟨he, _, hw⟩ =>
      .inl ⟨he, by rw [hw]; rfl⟩
  · split
    · exact .inr (.inr ⟨⟨_, rfl⟩, hs⟩)
    · refine (change_ends _ s).mono ?_ fun _ _ k => .inl k
      rintro - t ⟨s', hs', rfl⟩
      rw [State.waiting_setLock]
      exact (congrArg Banks.waiting hs'.view).trans hs

theorem acquireOf_ends (u : UnitId) (h : HostId) {s : State} (hs : s.waiting = none) :
    Ends (fun _ t => t.waiting = none) (WaitsOnly s) (bodyOf (acquireOf u h) s) := by
  have key : Ends (fun _ t => t.waiting = none) (WaitsOnly s) ((do checkState (·.started u); acquire u h) s) := by
    rw [checked_apply]
    split
    · exact acquire_ends u h hs
    · exact .inr (.inr ⟨⟨_, rfl⟩, hs⟩)
  cases u <;> exact key

section waiting
variable {i : Instr} {s t : State} (hs : s.waiting = none)
include hs

theorem waiting_of_keptBy (hk : ∀ b, (keptBy i b).waiting = b.waiting) (h : s.Follows (keptBy i) t) :
    t.waiting = none := by
  have hv := congrArg Banks.waiting h.view
  rw [hk, hk] at hv
  exact hv.trans hs

/-- A command that completes leaves nothing waiting. -/
theorem waiting_of_completed (hb : bodyOf i s = .ok () t) : t.waiting = none := by
  rcases keptBy_waiting i with ⟨u, h, rfl⟩ | hk
  · have ha := acquireOf_ends u h hs
    rwa [hb] at ha
  · exact waiting_of_keptBy hs hk (body_completed hb)

theorem waiting_of_raised {e : ErrCode} (hb : bodyOf i s = .error (.raised e) t) : t.waiting = none := by
  rcases keptBy_waiting i with ⟨u, h, rfl⟩ | hk
  · have ha := acquireOf_ends u h hs
    rw [hb] at ha
    rcases ha with ha | ⟨ha, -⟩ | ⟨-, ha⟩
    · exact absurd ha Interrupted.not_raised
    · cases ha
    · exact ha
  · exact waiting_of_keptBy hs hk (body_raised hb).2

theorem waiting_of_waiting (hb : bodyOf i s = .error .waiting t) : t.waiting.isSome = true := by
  obtain ⟨⟨u, h, rfl⟩, -⟩ := body_waiting hb
  have ha := acquireOf_ends u h hs
  rw [hb] at ha
  rcases ha with ha | ⟨-, ha⟩ | ⟨⟨c, ha⟩, -⟩
  · exact absurd ha Interrupted.not_waiting
  · exact ha
  · cases ha

end waiting

theorem busyLegal_of_banks {s t : State} (h : s.Follows id t) (hs : s.busyLegal) : t.busyLegal := by
  have hb : t.status.busy = s.status.busy := congrArg Banks.busy h.view
  have hw : t.waiting = s.waiting := congrArg Banks.waiting h.view
  unfold State.busyLegal
  rw [hb, hw]
  exact hs

theorem busyLegal_of_restarted {s t : State} (h : s.Restarted t) : t.busyLegal := by
  unfold State.busyLegal
  rw [h.status, h.waiting]
  rfl

theorem busyLegal_complete {s : State} (e : ErrCode) (hs : s.waiting = none) : (s.complete e).busyLegal := by
  unfold State.busyLegal
  rw [State.waiting_complete, hs]
  rfl

theorem waiting_follows {s t : State} (h : s.Follows id t) : t.waiting = s.waiting := congrArg Banks.waiting h.view

theorem waiting_afterRaise (s : State) (u : UnitId) (mu : Bool) (e : ErrCode) :
    (s.afterRaise u mu e).waiting = s.waiting := by
  unfold State.afterRaise
  split <;> simp

/-- A command that starts with BUSY = 1 and nothing waiting ends with BUSY as it should be. -/
theorem busyLegal_of_ended {i : Instr} {s t : State} (hend : Ended i s t) (hw : s.waiting = none)
    (hb : s.status.busy = true) : t.busyLegal := by
  cases hend with
  | locked h => exact busyLegal_complete _ ((waiting_follows h).trans hw)
  | completed hr h => exact busyLegal_complete _ ((waiting_follows h).trans (waiting_of_completed hw hr))
  | reported hr h =>
    exact busyLegal_complete _ ((waiting_follows h).trans ((waiting_afterRaise ..).trans (waiting_of_raised hw hr)))
  | restarted _ h => exact busyLegal_of_restarted h
  | waiting hr =>
    unfold State.busyLegal
    rw [waiting_of_waiting hw hr, body_busy (body_waiting hr).2, hb]

theorem step_keeps_busyLegal {s t : State} (hs : s.busyLegal) (h : step s = .next t) : t.busyLegal := by
  cases stepped_of_step h with
  | granted _ _ hw => exact busyLegal_complete _ hw
  | @waits u _ _ hw hf hw' =>
    have hbusy : t.status.busy = s.status.busy := by
      cases u
      case mirror => exact congrArg Banks.busy hf.view
      case fee => exact congrArg Banks.busy hf.view
    unfold State.busyLegal at *
    rw [hbusy, hs, hw, hw']
  | passed hf => exact busyLegal_of_banks hf hs
  | restarted hr => exact busyLegal_of_restarted hr
  | illegal hw hf hr => exact busyLegal_complete _ ((waiting_follows hr).trans ((waiting_follows hf).trans hw))
  | ran hw hf hend =>
    refine busyLegal_of_ended hend ?_ ?_
    · rw [State.waiting_recordHost]
      exact (waiting_follows hf).trans hw
    · rw [State.status_recordHost]
      rfl

/-! ### SYNCED -/

/-- What `mirrorReadyMeansSynced` reads. -/
def Banks.readiness (b : Banks) : DrvState × Bool × MirrorState := (b.m.drv, b.m.recover, b.m.state)

theorem synced_of_readiness {s t : State} (h : t.banks.readiness = s.banks.readiness) (hs : s.mirrorReadyMeansSynced) :
    t.mirrorReadyMeansSynced := by
  have hd : t.m.drv = s.m.drv := congrArg Prod.fst h
  have hr : t.m.recover = s.m.recover := congrArg (fun x => x.2.1) h
  have hst : t.m.state = s.m.state := congrArg (fun x => x.2.2) h
  unfold State.mirrorReadyMeansSynced
  rw [hd, hr, hst]
  exact hs

theorem synced_of_stopped {s : State} (h : s.drv .mirror = .stop) : s.mirrorReadyMeansSynced :=
  fun hr => by cases h.symm.trans hr

theorem synced_of_recover {s : State} (h : s.recover .mirror = true) : s.mirrorReadyMeansSynced :=
  fun _ hr => by cases h.symm.trans hr

theorem synced_viewed : Viewed Banks.readiness State.mirrorReadyMeansSynced where
  congr _ h hs := synced_of_readiness h hs
  restart h _ hr := by rw [h.m] at hr; cases hr
  issue _ _ _ _ := rfl
  lock u _ := by cases u <;> rfl
  recover u hs := by
    cases u
    · exact synced_of_recover rfl
    · exact hs

section keepsSynced
variable {i : Instr}

/-- A mutation ends SYNCED, or fails in the device, which sets RECOVER. -/
theorem threePhase_keepsSynced (hu : i.unit = .mirror) (hm : setsRecover i = true) {mutate : Nat → Proc Unit}
    (h : ∀ org, DeviceOnly (mutate org)) : KeepsFor State.mirrorReadyMeansSynced i (threePhase mutate) :=
  fun s hs => ((threePhase_reaches h).ends s).mono (fun _ _ k _ _ => k.2) fun e t k => by
    rcases k with k | ⟨he, -⟩
    · exact synced_viewed.interrupted k hs
    · cases he
      refine .inr ?_
      unfold afterStop
      rw [hu, hm]
      exact synced_of_recover rfl

theorem mirrorStart_keepsSynced : KeepsFor State.mirrorReadyMeansSynced i mirrorStartBody :=
  fun s hs => (startBody_ends mirrorStartTail_starts s).mono (fun _ _ k _ _ => k.2.2) fun e t k => by
    rcases k with k | ⟨-, rfl⟩ | ⟨-, hf⟩
    · exact synced_viewed.interrupted k hs
    · exact .inr (synced_viewed.afterStop i e hs)
    · exact .inr (synced_viewed.afterStop i e (synced_of_stopped (by rw [hf.drv_eq, State.drv_setDrv])))

/-- A command that sets DRV = STOP where it completes, and is refused otherwise. -/
theorem stopping_keepsSynced {p : Proc Unit} {Q : State → State → Prop} (hQ : ∀ s t, Q s t → t.drv .mirror = .stop)
    (hp : ∀ s, Ends (fun _ t => Q s t) (fun e t => Interrupted s e t ∨ (e = .raised .state ∧ t = s)) (p s)) :
    KeepsFor State.mirrorReadyMeansSynced i p :=
  fun s hs => (hp s).mono (fun _ t k => synced_of_stopped (hQ s t k)) fun e t k => by
    rcases k with k | ⟨-, rfl⟩
    · exact synced_viewed.interrupted k hs
    · exact .inr (synced_viewed.afterStop i e hs)

end keepsSynced

theorem bodyOf_keepsSynced (i : Instr) : KeepsFor State.mirrorReadyMeansSynced i (bodyOf i) := by
  have keep {α : Type} {p : Proc α} (h : Within Reported id p) : KeepsFor State.mirrorReadyMeansSynced i p :=
    synced_viewed.keepsFor h fun _ _ e => congrArg Banks.readiness e
  have check {c : State → Bool} := keep (within_checkState (reported (by decide)) c)
  have read := keep within_get
  have range {c : Bool} := keep (within_require (e := .range) (reported (by decide)) c)
  have align {c : Bool} := keep (within_require (e := .align) (reported (by decide)) c)
  cases i
  case mirrorStart h => exact mirrorStart_keepsSynced
  case mirrorStop h => exact stopping_keepsSynced (fun _ _ k => k.2) (stopBody_ends .mirror)
  case mirrorObjectInit h =>
    exact stopping_keepsSynced (fun _ _ k => congrArg (fun b : Banks => b.m.drv) k.view) mirrorObjectInit_ends
  case mirrorWrite h =>
    exact check.bind fun _ => read.bind fun _ => range.bind fun _ => align.bind fun _ =>
      keepsFor_ite (keepsFor_pure ()) (threePhase_keepsSynced rfl rfl fun _ => mirrorWriteAt_deviceOnly ..)
  case mirrorErase h =>
    exact check.bind fun _ => read.bind fun _ => range.bind fun _ => align.bind fun _ =>
      keepsFor_ite (keepsFor_pure ()) (threePhase_keepsSynced rfl rfl fun _ => devErase_deviceOnly ..)
  case mirrorMassErase h =>
    exact check.bind fun _ => read.bind fun _ => threePhase_keepsSynced rfl rfl fun _ => devErase_deviceOnly ..
  all_goals exact synced_viewed.keepsFor (bodyOf_within _) fun _ _ => view_of Banks.readiness fun _ => rfl

end Sys2Proof.Machine

namespace Sys2Proof.Proofs

/-- Settles O40: BUSY by the ways a step can go, SYNCED by the commands' procedures. -/
theorem stepKeepsBusyAndSyncedLegal : Obligations.StepKeepsBusyAndSyncedLegal := by
  unfold Obligations.StepKeepsBusyAndSyncedLegal
  exact fun s t h => ⟨fun hs => step_keeps_busyLegal hs h, fun hs => synced_viewed.step bodyOf_keepsSynced hs h⟩

end Sys2Proof.Proofs
end

