-- ==== Sys2Proof/Proofs/Slots.lean ====
section
/-! PROOF. F_SLOTS_USED never passes F_NUM_SLOTS: what a scan counts, what a collection copies, and that an append follows
room made for it (10_state.md R38; 43_fee_gc.md R251). -/

open Sys2Proof Sys2Proof.Machine

namespace Sys2Proof.Machine

/-! ### The geometry of the FEE bank -/

/-- The geometry registers and the cache of an FEE bank; the rest reset. -/
def FeeUnit.geometry (f : FeeUnit) : FeeUnit :=
  { FeeUnit.reset with
    cache := f.cache, arenaBytes := f.arenaBytes, slotSize := f.slotSize, numSlots := f.numSlots
    logicalSize := f.logicalSize }

theorem FeeUnit.numSlots_of_geometry {f g : FeeUnit} (h : f.geometry = g.geometry) : f.numSlots = g.numSlots :=
  (congrArg FeeUnit.numSlots h :)

theorem FeeUnit.logicalSize_of_geometry {f g : FeeUnit} (h : f.geometry = g.geometry) :
    f.logicalSize = g.logicalSize := (congrArg FeeUnit.logicalSize h :)

/-- What `slotsLegal` reads. -/
def Banks.slots (b : Banks) : FeeUnit × Word := (b.f.geometry, b.f.slotsUsed)

/-- A bank has a device's geometry exactly when its geometry registers are those of the device. -/
theorem FeeUnit.eq_withGeometry_iff (f : FeeUnit) (p : Params) (i : DevInfo) :
    f = f.withGeometry p i ↔ f.geometry = FeeUnit.reset.withGeometry p i := by
  cases f
  simp [FeeUnit.withGeometry, FeeUnit.geometry, FeeUnit.reset]

/-- The same, as a predicate of the geometry registers. -/
def State.geometryLegal (s : State) : Prop :=
  s.params.wf = true ∧ s.f.logicalSize.toNat = s.f.numSlots.toNat * s.params.payload
    ∧ (s.f.numSlots = 0
      ∨ (feeFits s.params s.devF.info = true ∧ s.f.geometry = FeeUnit.reset.withGeometry s.params s.devF.info))

theorem slotsLegal_iff (s : State) : s.slotsLegal ↔ s.geometryLegal ∧ s.f.slotsUsed.toNat ≤ s.f.numSlots.toNat := by
  unfold State.slotsLegal State.geometryLegal State.feeLaidOut
  rw [FeeUnit.eq_withGeometry_iff]
  tauto

theorem geometryLegal_congr {s t : State} (hfix : t.fixed = s.fixed) (hg : t.f.geometry = s.f.geometry)
    (hs : s.geometryLegal) : t.geometryLegal := by
  have hp : t.params = s.params := congrArg Prod.fst hfix
  have hi : t.devF.info = s.devF.info := congrArg (fun x => x.2.2) hfix
  have hn : t.f.numSlots = s.f.numSlots := FeeUnit.numSlots_of_geometry hg
  have hl : t.f.logicalSize = s.f.logicalSize := FeeUnit.logicalSize_of_geometry hg
  unfold State.geometryLegal
  rw [hp, hi, hn, hl, hg]
  exact hs

theorem slotsLegal_congr {s t : State} (hfix : t.fixed = s.fixed) (h : t.banks.slots = s.banks.slots)
    (hs : s.slotsLegal) : t.slotsLegal := by
  have hg : t.f.geometry = s.f.geometry := congrArg Prod.fst h
  have hu : t.f.slotsUsed = s.f.slotsUsed := congrArg Prod.snd h
  have hn : t.f.numSlots = s.f.numSlots := FeeUnit.numSlots_of_geometry hg
  rw [slotsLegal_iff] at *
  exact ⟨geometryLegal_congr hfix hg hs.1, by rw [hu, hn]; exact hs.2⟩

theorem slotsLegal_of_reset {s : State} (hw : s.params.wf = true) (hu : s.f.slotsUsed = 0)
    (hg : s.f.geometry = .reset) : s.slotsLegal := by
  have hn : s.f.numSlots = 0 := (congrArg FeeUnit.numSlots hg :)
  have hl : s.f.logicalSize = 0 := (congrArg FeeUnit.logicalSize hg :)
  refine ⟨hw, ?_, ?_, .inl hn⟩
  · rw [hu, hn]
  · rw [hl, hn]
    simp

theorem slots_viewed : Viewed Banks.slots State.slotsLegal where
  congr hfix h hs := slotsLegal_congr hfix h hs
  restart {s t} h hs := by
    have hp : t.params = s.params := congrArg Prod.fst h.fixed
    exact slotsLegal_of_reset (hp ▸ hs.1) (by rw [h.f]; rfl) (by rw [h.f]; rfl)
  issue _ _ _ _ := rfl
  lock u _ := by cases u <;> rfl
  recover {s} u hs := by cases u <;> exact slotsLegal_congr (s := s) rfl rfl hs

/-- What keeps all but the arenas' registers keeps the geometry and F_SLOTS_USED. -/
theorem slots_of_exceptArenas {a b : Banks} (h : a.exceptArenas = b.exceptArenas) : a.slots = b.slots :=
  view_of Banks.slots (fun _ => rfl) h

theorem geometry_of_exceptSlots {s t : State} (h : s.Follows Banks.exceptSlots t) : t.f.geometry = s.f.geometry :=
  congrArg (fun b : Banks => b.f.geometry) h.view

/-! ### Setting F_SLOTS_USED -/

section keeps
variable {i : Instr} {α : Type}

theorem keepsSlots_deviceOnly {p : Proc α} (h : DeviceOnly p) : KeepsFor State.slotsLegal i p :=
  slots_viewed.keepsFor h fun _ _ e => congrArg Banks.slots e

theorem keepsSlots_arenas {C : Stop → Prop} {p : Proc α} (h : Within C Banks.exceptArenas p) :
    KeepsFor State.slotsLegal i p := slots_viewed.keepsFor h fun _ _ => slots_of_exceptArenas

/-- A count that is in range keeps the slots legal, and is what F_SLOTS_USED holds then. -/
theorem setSlotsUsed_ends {s : State} (hs : s.slotsLegal) {n : Nat} (hn : n ≤ s.f.numSlots.toNat) :
    Ends (fun _ t => t.slotsLegal ∧ t.f.geometry = s.f.geometry ∧ t.f.slotsUsed.toNat = n)
      (fun e t => (∃ f, e = .fault f) ∨ (afterStop i e t).slotsLegal) (setSlotsUsed n s) := by
  refine (feeRegs_ends _ s).mono (fun _ t k => ?_) fun _ _ k => slots_viewed.interrupted k hs
  have hg : t.f.geometry = s.f.geometry := congrArg (fun b : Banks => b.f.geometry) k.view
  have hnum : t.f.numSlots = s.f.numSlots := FeeUnit.numSlots_of_geometry hg
  have hu : t.f.slotsUsed = BitVec.ofNat 32 n := congrArg (fun b : Banks => b.f.slotsUsed) k.view
  have hval : t.f.slotsUsed.toNat = n := by
    rw [hu, BitVec.toNat_ofNat]
    exact Nat.mod_eq_of_lt (by omega)
  rw [slotsLegal_iff] at *
  exact ⟨⟨geometryLegal_congr k.fixed hg hs.1, by rw [hval, hnum]; exact hn⟩, hg, hval⟩

end keeps

/-! ### What a scan counts and what a collection copies -/

theorem Reaches.pure {α : Type} {C : Stop → Prop} {v : Banks → Banks} {R : α → State → Prop} {a : α} (h : ∀ t, R a t) :
    Reaches C v R (Pure.pure a : Proc α) := ⟨fun s => ⟨.refl v s, h s⟩⟩

theorem Reaches.mono {α : Type} {C : Stop → Prop} {v : Banks → Banks} {R R' : α → State → Prop} {p : Proc α}
    (h : Reaches C v R p) (hR : ∀ a t, R a t → R' a t) : Reaches C v R' p :=
  ⟨fun s => (h.ends s).mono (fun a t k => ⟨k.1, hR a t k.2⟩) fun _ _ k => k⟩

/-- ArenaLoad counts no slot past those it scans. -/
theorem countUsed_le (a : Arena) (u n i : Nat) (hu : u ≤ i) :
    Reaches DeviceStop id (fun k _ => k ≤ i + n) (countUsed a u n i) := by
  induction n generalizing u i with
  | zero => exact .pure fun _ => hu
  | succ n ih =>
    refine (slotMark_deviceOnly a i).bind_reaches fun x => ?_
    have skip := (ih u (i + 1) (by omega)).mono (R' := fun k _ => k ≤ i + (n + 1)) fun _ _ k => by omega
    have count := (ih (i + 1) (i + 1) le_rfl).mono (R' := fun k _ => k ≤ i + (n + 1)) fun _ _ k => by omega
    cases x
    case unused => exact skip
    all_goals exact count

/-- A collection fills no more slots than there are keys that it does not omit. -/
theorem copyLive_le (src dst : Arena) (omitted : Option Nat) (j : Nat) (ks : List Nat) :
    Reaches DeviceStop id (fun k _ => k ≤ j + (ks.filter fun x => decide (some x ≠ omitted)).length)
      (copyLive src dst omitted j ks) := by
  induction ks generalizing j with
  | nil => exact .pure fun _ => by simp
  | cons x ks ih =>
    by_cases hx : some x = omitted
    · unfold copyLive
      rw [if_pos hx, List.filter_cons_of_neg (by simpa using hx)]
      exact ih j
    · unfold copyLive
      rw [if_neg hx, List.filter_cons_of_pos (by simpa using hx), List.length_cons]
      refine (lookup_deviceOnly src x).bind_reaches fun r => ?_
      cases r with
      | none => exact (ih j).mono fun _ _ k => by omega
      | some r =>
        exact (slotRecord_deviceOnly src r).bind_reaches fun _ => reaches_bind_get fun _ =>
          (devWrite_deviceOnly ..).bind_reaches fun _ => (ih (j + 1)).mono fun _ _ k => by omega

theorem payload_pos {s : State} (hs : s.geometryLegal) : 0 < s.params.payload := by
  have hw := hs.1
  simp only [Params.wf, decide_eq_true_eq] at hw
  omega

/-- There are as many chunks as slots. -/
theorem length_chunkKeys {s : State} (hs : s.geometryLegal) : s.chunkKeys.length = s.f.numSlots.toNat := by
  simp [State.chunkKeys, hs.2.1, Nat.mul_div_cancel _ (payload_pos hs)]

theorem chunkKeys_congr {s t : State} (hfix : t.fixed = s.fixed) (hg : t.f.geometry = s.f.geometry) :
    t.chunkKeys = s.chunkKeys := by
  have hp : t.params = s.params := congrArg Prod.fst hfix
  have hl : t.f.logicalSize = s.f.logicalSize := FeeUnit.logicalSize_of_geometry hg
  unfold State.chunkKeys
  rw [hp, hl]

/-- The chunk of an address of the emulated space is one that a collection visits. -/
theorem mem_chunkKeys {s : State} (hs : s.geometryLegal) {x : Nat} (hx : x < s.f.logicalSize.toNat) :
    x - x % s.params.payload ∈ s.chunkKeys := by
  have hl := hs.2.1
  have hdiv : x / s.params.payload < s.f.logicalSize.toNat / s.params.payload := by
    apply Nat.div_lt_div_of_lt_of_dvd _ hx
    rw [hl]
    exact Nat.dvd_mul_left _ _
  refine List.mem_map.2 ⟨x / s.params.payload, List.mem_range.2 hdiv, ?_⟩
  have := Nat.div_add_mod' x s.params.payload
  omega

/-- Omitting a key that is there leaves room for one slot. -/
theorem length_filter_omitted {ks : List Nat} {key : Nat} (h : key ∈ ks) :
    (ks.filter fun x => decide (some x ≠ some key)).length < ks.length :=
  List.length_filter_lt_length_iff_exists.2 ⟨key, h, by simp⟩

/-! ### Collections and appends -/

/-- An early end that keeps the slots legal, but for faults. -/
abbrev SlotsStop (i : Instr) (e : Stop) (t : State) : Prop := (∃ f, e = .fault f) ∨ (afterStop i e t).slotsLegal

section slots
variable {i : Instr} {s : State} {α β : Type}

/-- A part that changes only the arenas' registers, before the rest. -/
theorem Ends.after_arenas {C : Stop → Prop} {p : Proc α} {f : α → Proc β} {Q : β → State → Prop}
    (h : Within C Banks.exceptArenas p) (hs : s.slotsLegal)
    (hf : ∀ a t, s.Follows Banks.exceptArenas t → t.slotsLegal → Ends Q (SlotsStop i) (f a t)) :
    Ends Q (SlotsStop i) ((p >>= f) s) :=
  (h.ends s).bind' (fun _ _ k => slots_viewed.early (fun _ _ => slots_of_exceptArenas) k hs) fun a t k =>
    hf a t k (slots_viewed.follows (k.mono fun _ _ => slots_of_exceptArenas) hs)

/-- A part that leaves the banks and answers a value of which `R` holds, before the rest. -/
theorem Ends.after_deviceOnly {p : Proc α} {f : α → Proc β} {Q : β → State → Prop} {R : α → State → Prop}
    (h : Reaches DeviceStop id R p) (hs : s.slotsLegal)
    (hf : ∀ a t, s.Follows id t → t.slotsLegal → R a t → Ends Q (SlotsStop i) (f a t)) :
    Ends Q (SlotsStop i) ((p >>= f) s) :=
  (h.ends s).bind' (fun _ _ k => slots_viewed.early (fun _ _ e => congrArg Banks.slots e) k hs) fun a t ⟨k, hR⟩ =>
    hf a t k (slots_viewed.follows (k.see _) hs) hR

theorem DeviceOnly.arenas {p : Proc α} (h : DeviceOnly p) : Within DeviceStop Banks.exceptArenas p := h.see _

theorem geometry_of_exceptArenas {s t : State} (h : s.Follows Banks.exceptArenas t) : t.f.geometry = s.f.geometry :=
  congrArg (fun b : Banks => b.f.geometry) h.view

theorem slotsUsed_of_exceptArenas {s t : State} (h : s.Follows Banks.exceptArenas t) : t.f.slotsUsed = s.f.slotsUsed :=
  congrArg (fun b : Banks => b.f.slotsUsed) h.view

/-- A collection ends with the copied slots in use; with a key omitted there is room for one more. -/
theorem gc_ends (omitted : Option Nat) (hs : s.slotsLegal) :
    Ends (fun _ t => t.slotsLegal
        ∧ ∀ key ∈ s.chunkKeys, omitted = some key → t.f.slotsUsed.toNat < t.f.numSlots.toNat)
      (SlotsStop i) (gc omitted s) := by
  refine .read ?_
  refine .after_arenas (markArenaFrozen_within s.f.active) hs fun _ s1 h1 l1 => ?_
  refine .after_arenas (prepareDst_within s.f.active.other) l1 fun _ s2 h2 l2 => ?_
  refine .read ?_
  refine .after_deviceOnly (copyLive_le _ _ omitted 0 s2.chunkKeys) l2 fun j s3 h3 l3 hj => ?_
  refine .after_arenas (devSync_deviceOnly _).arenas l3 fun _ s4 h4 l4 => ?_
  refine .after_arenas (markArenaActive_within _) l4 fun _ s5 h5 l5 => ?_
  refine .after_arenas (arenaReinit_within _) l5 fun _ s6 h6 l6 => ?_
  refine .after_arenas (setActive_within (C := NoStop) _) l6 fun _ s7 h7 l7 => ?_
  have h27 := (((((h3.see Banks.exceptArenas).trans h4).trans h5).trans h6).trans h7)
  have h02 := h1.trans h2
  have hkeys : s2.chunkKeys = s.chunkKeys := chunkKeys_congr h02.fixed (geometry_of_exceptArenas h02)
  have hlen : s2.chunkKeys.length = s7.f.numSlots.toNat := by
    rw [length_chunkKeys ((slotsLegal_iff _).1 l2).1, FeeUnit.numSlots_of_geometry (geometry_of_exceptArenas h27)]
  have hle := List.length_filter_le (fun x => decide (some x ≠ omitted)) s2.chunkKeys
  refine (setSlotsUsed_ends l7 (n := j) (by omega)).bind fun _ s8 ⟨l8, hg8, hu8⟩ => ?_
  refine ((feeReg_within (C := NoStop) (v := Banks.exceptArenas) fun _ => rfl).ends s8).mono (fun _ t k => ?_)
    fun _ _ k => slots_viewed.early (fun _ _ => slots_of_exceptArenas) k l8
  refine ⟨slots_viewed.follows (k.mono fun _ _ => slots_of_exceptArenas) l8, fun key hkey ho => ?_⟩
  subst ho
  rw [slotsUsed_of_exceptArenas k, hu8, FeeUnit.numSlots_of_geometry ((geometry_of_exceptArenas k).trans hg8), ← hlen]
  have := length_filter_omitted (hkeys ▸ hkey)
  omega

/-- Room made for a chunk of the emulated space is a free slot. -/
theorem makeRoom_ends {key : Nat} (hs : s.slotsLegal) (hkey : key ∈ s.chunkKeys) :
    Ends (fun _ t => t.slotsLegal ∧ t.f.slotsUsed.toNat < t.f.numSlots.toNat) (SlotsStop i) (makeRoom key s) := by
  refine .read (.ite (fun _ => ?_) fun hne => ?_)
  · exact (gc_ends (some key) hs).mono (fun _ _ k => ⟨k.1, k.2 key hkey rfl⟩) fun _ _ k => k
  · have hle := ((slotsLegal_iff s).1 hs).2
    have hne' : s.f.slotsUsed.toNat ≠ s.f.numSlots.toNat := fun h => hne (BitVec.eq_of_toNat_eq h)
    exact ⟨hs, by omega⟩

/-- An append to a free slot. -/
theorem append_ends (key : Nat) (pl : List Byte) (hs : s.slotsLegal)
    (hroom : s.f.slotsUsed.toNat < s.f.numSlots.toNat) :
    Ends (fun _ t => t.slotsLegal) (SlotsStop i) (append key pl s) := by
  refine .read ?_
  refine .after_arenas (writeMarkWord_deviceOnly ..).arenas hs fun _ s1 h1 l1 => ?_
  refine .after_arenas (devWrite_deviceOnly ..).arenas l1 fun _ s2 h2 l2 => ?_
  refine .after_arenas (devSync_deviceOnly _).arenas l2 fun _ s3 h3 l3 => ?_
  refine .after_arenas (writeMarkWord_deviceOnly ..).arenas l3 fun _ s4 h4 l4 => ?_
  have hg := geometry_of_exceptArenas (((h1.trans h2).trans h3).trans h4)
  exact (setSlotsUsed_ends l4 (by rw [FeeUnit.numSlots_of_geometry hg]; exact hroom)).mono (fun _ _ k => k.1)
    fun _ _ k => k

theorem writeSpan_ends {sa lo : Nat} {nb : List Byte} (hs : s.slotsLegal) (hkey : sa ∈ s.chunkKeys) :
    Ends (fun _ t => t.slotsLegal) (SlotsStop i) (writeSpan sa lo nb s) := by
  refine .after_arenas (chunkPayload_deviceOnly sa).arenas hs fun cur s1 h1 l1 => ?_
  refine .ite (fun _ => l1) fun _ => ?_
  · rw [← chunkKeys_congr h1.fixed (geometry_of_exceptArenas h1)] at hkey
    exact (makeRoom_ends l1 hkey).bind fun _ t ⟨l2, hroom⟩ => append_ends _ _ l2 hroom

/-- A range within the emulated space, chunk by chunk. -/
theorem writeChunks_ends (n x : Nat) (nb : List Byte) (hs : s.slotsLegal)
    (hin : nb = [] ∨ x + nb.length ≤ s.f.logicalSize.toNat) :
    Ends (fun _ t => t.slotsLegal) (SlotsStop i) (writeChunks n x nb s) := by
  induction n generalizing s x nb with
  | zero => exact hs
  | succ n ih =>
    refine .ite (fun _ => hs) fun hne => .read ?_
    have hbound := hin.resolve_left hne
    have hpos := List.length_pos_iff.2 hne
    have hlegal := ((slotsLegal_iff s).1 hs).1
    have hkey := mem_chunkKeys hlegal (x := x) (by omega)
    have hspan := ((writeSpan_within (x - x % s.params.payload) (x % s.params.payload)
      (nb.take (s.params.payload - x % s.params.payload))).ends s).and (writeSpan_ends (i := i) hs hkey)
    refine hspan.bind' (fun _ _ k => k.2) fun _ t ⟨hf, ht⟩ => ih _ _ ht ?_
    have hsize : t.f.logicalSize = s.f.logicalSize := FeeUnit.logicalSize_of_geometry (geometry_of_exceptSlots hf)
    rw [hsize, List.drop_eq_nil_iff, List.length_drop]
    have hmod : x % s.params.payload < s.params.payload := Nat.mod_lt _ (payload_pos hlegal)
    have hle := Nat.mod_le x s.params.payload
    omega

end slots

/-! ### The commands of the FEE unit -/

section commands
variable {i : Instr}

theorem arenaLoad_keepsSlots (a : Arena) : KeepsFor State.slotsLegal i (arenaLoad a) := fun s hs => by
  refine .read (.after_deviceOnly (countUsed_le a 0 _ 0 le_rfl) hs fun u t hf ht hu => ?_)
  have hn : t.f.numSlots = s.f.numSlots := congrArg (fun b : Banks => b.f.numSlots) hf.view
  exact (setSlotsUsed_ends ht (by rw [hn]; omega)).mono (fun _ _ k => k.1) fun _ _ k => k

theorem adoptArena_keepsSlots (a : Arena) : KeepsFor State.slotsLegal i (adoptArena a) :=
  (keepsSlots_arenas (setActive_within (C := NoStop) a)).bind fun _ => arenaLoad_keepsSlots a

theorem gc_keepsSlots (omitted : Option Nat) : KeepsFor State.slotsLegal i (gc omitted) :=
  fun _ hs => (gc_ends omitted hs).mono (fun _ _ k => k.1) fun _ _ k => k

theorem format_keepsSlots : KeepsFor State.slotsLegal i format :=
  (keepsSlots_arenas (arenaReinit_within .a0)).bind fun _ => (keepsSlots_arenas (arenaReinit_within .a1)).bind fun _ =>
    (keepsSlots_arenas (markArenaActive_within .a0)).bind fun _ =>
      (keepsSlots_arenas (setActive_within (C := NoStop) .a0)).bind fun _ _ hs =>
        (setSlotsUsed_ends hs (Nat.zero_le _)).mono (fun _ _ k => k.1) fun _ _ k => k

theorem startCases_keepsSlots : KeepsFor State.slotsLegal i startCases :=
  (keepsSlots_deviceOnly (headerState_deviceOnly .a0)).bind fun s0 =>
    (keepsSlots_deviceOnly (headerState_deviceOnly .a1)).bind fun s1 =>
      (keepsSlots_arenas (setArenaState_within (C := NoStop) .a0 s0)).bind fun _ =>
        (keepsSlots_arenas (setArenaState_within (C := NoStop) .a1 s1)).bind fun _ => by
          cases startCase s0 s1 with
          | adopt a => exact adoptArena_keepsSlots a
          | resume a =>
            exact (keepsSlots_arenas (arenaReinit_within a.other)).bind fun _ => (adoptArena_keepsSlots a).bind fun _ =>
              gc_keepsSlots none
          | cold => exact format_keepsSlots

theorem le_roundup (x : Nat) {m : Nat} (hm : 0 < m) : x ≤ roundup x m := by
  have h1 := Nat.div_add_mod' (x + m - 1) m
  have h2 := Nat.mod_lt (x + m - 1) hm
  unfold roundup
  omega

theorem payload_le_slotBytes (w : MarkWidth) (p : Nat) : p ≤ slotBytes w p :=
  le_trans (Nat.le_add_left _ _) (le_roundup _ (lt_of_lt_of_le (by decide) (le_max_right _ 4)))

/-- A fit device's arenas are below 2^32 bytes (42_fee.md R214). -/
theorem arenaBytes_lt {p : Params} {d : DevInfo} (hfit : feeFits p d = true) :
    d.sectorNum / 2 * d.sectorSize < 2 ^ 32 := by
  simp only [feeFits, decide_eq_true_eq] at hfit
  obtain ⟨hss, hsn, -, -, hsize, -⟩ := hfit
  have hhalf : d.sectorNum / 2 < d.sectorNum := Nat.div_lt_self hsn (by decide)
  calc d.sectorNum / 2 * d.sectorSize < d.sectorNum * d.sectorSize := Nat.mul_lt_mul_of_pos_right hhalf hss
    _ = d.sectorSize * d.sectorNum := Nat.mul_comm _ _
    _ ≤ 2 ^ 32 := hsize

/-- The registers of a fit device's geometry hold the number of slots and the logical size whole. -/
theorem withGeometry_legal {p : Params} {d : DevInfo} (hw : p.wf = true) (hfit : feeFits p d = true) (f : FeeUnit) :
    (f.withGeometry p d).logicalSize.toNat = (f.withGeometry p d).numSlots.toNat * p.payload := by
  have hpos : 0 < p.payload := by
    simp only [Params.wf, decide_eq_true_eq] at hw
    omega
  let ns := (d.sectorNum / 2 * d.sectorSize - 32) / slotBytes p.widthF p.payload
  have hsize : ns * p.payload < 2 ^ 32 :=
    calc ns * p.payload ≤ ns * slotBytes p.widthF p.payload := Nat.mul_le_mul_left _ (payload_le_slotBytes _ _)
      _ ≤ d.sectorNum / 2 * d.sectorSize - 32 := Nat.div_mul_le_self _ _
      _ ≤ d.sectorNum / 2 * d.sectorSize := Nat.sub_le _ _
      _ < 2 ^ 32 := arenaBytes_lt hfit
  have hns : ns < 2 ^ 32 := lt_of_le_of_lt (Nat.le_mul_of_pos_right _ hpos) hsize
  show (BitVec.ofNat 32 (ns * p.payload)).toNat = (BitVec.ofNat 32 ns).toNat * p.payload
  rw [BitVec.toNat_ofNat, BitVec.toNat_ofNat, Nat.mod_eq_of_lt hsize, Nat.mod_eq_of_lt hns]

/-- Slots that were legal under no geometry, or under the device's, are legal under the device's. -/
theorem slotsLegal_of_geometry {s t : State} (hs : s.slotsLegal) (hfit : feeFits s.params s.devF.info = true)
    (hfix : t.fixed = s.fixed) (ht : t.f = s.f.withGeometry s.params s.devF.info) : t.slotsLegal := by
  have hp : t.params = s.params := congrArg Prod.fst hfix
  have hd : t.devF.info = s.devF.info := congrArg (fun x => x.2.2) hfix
  have hused : t.f.slotsUsed = s.f.slotsUsed := by rw [ht]; rfl
  have hlaid : t.feeLaidOut := ⟨hp ▸ hs.1, by rw [hp, hd]; exact hfit, by rw [ht, hp, hd]; rfl⟩
  refine ⟨hlaid.1, ?_, ?_, .inr hlaid⟩
  · rw [hused]
    obtain ⟨-, hle, -, h0 | ⟨-, -, hsame⟩⟩ := hs
    · rw [h0] at hle
      exact le_trans hle (Nat.zero_le _)
    · rw [ht, ← hsame]
      exact hle
  · rw [ht, hp]
    exact withGeometry_legal hs.1 hfit s.f

theorem feeGeometry_keepsSlots : KeepsFor State.slotsLegal i feeGeometry := fun s hs => by
  have hinfo : Ends (fun d t => d = s.devF.info ∧ t = s) (SlotsStop i) (devGetInfo .fee s) := ⟨rfl, rfl⟩
  refine hinfo.bind ?_
  rintro _ _ ⟨rfl, rfl⟩
  refine .read (.require (fun hfit => ?_) fun _ => .inr (slots_viewed.afterStop i _ hs))
  refine (feeRegs_ends _ _).mono (fun _ t k => ?_) fun _ _ k => slots_viewed.interrupted k hs
  rw [FeeUnit.geometryRegs_done] at k
  exact slotsLegal_of_geometry hs hfit k.fixed (congrArg Banks.f k.view)

theorem checkState_keepsSlots (c : State → Bool) : KeepsFor State.slotsLegal i (checkState c) :=
  slots_viewed.keepsFor (within_checkState (C := Reported) (v := id) (reported (by decide)) c) fun _ _ e =>
    congrArg Banks.slots e

theorem feeStart_keepsSlots : KeepsFor State.slotsLegal i feeStartBody := by
  have stop : KeepsFor State.slotsLegal i (changeDrv .fee .stop) :=
    slots_viewed.keepsFor (changeDrv_within .fee .stop) fun _ _ => view_of Banks.slots fun _ => rfl
  have ready : Within NoStop Banks.slots
      (feeRegs [fun f => { f with recover := false }, fun f => { f with drv := .ready }]) :=
    feeRegs_within (by simp [Banks.slots, FeeUnit.geometry])
  exact (checkState_keepsSlots _).bind fun _ => stop.bind fun _ => feeGeometry_keepsSlots.bind fun _ =>
    (keepsSlots_deviceOnly (devSync_deviceOnly _)).bind fun _ => startCases_keepsSlots.bind fun _ =>
      slots_viewed.keepsFor ready fun _ _ e => e

theorem feeObjectInit_keepsSlots (h : HostId) : KeepsFor State.slotsLegal i (bodyOf (.feeObjectInit h)) := fun s hs =>
  (feeObjectInit_ends s).mono (fun _ t k => by
    have hp : t.params = s.params := congrArg Prod.fst k.fixed
    have hf : t.f = s.f.objectInit := congrArg Banks.f k.view
    exact slotsLegal_of_reset (hp ▸ hs.1) (by rw [hf]; rfl) (by rw [hf]; rfl)) fun e t k => by
    rcases k with k | ⟨-, rfl⟩
    · exact slots_viewed.interrupted k hs
    · exact .inr (slots_viewed.afterStop i e hs)

theorem bufLoad_length (n : Nat) : Reaches DeviceStop id (fun bs _ => bs.length = n) (bufLoad n) :=
  ⟨fun s => ((bufLoad_deviceOnly n).ends s).and (Q' := fun bs _ => bs.length = n) (E' := fun _ _ => True) (by
    rw [bufLoad_apply]
    split
    · simp [Ends, State.bufBytes]
    · trivial) |>.mono (fun _ _ k => k) fun _ _ k => k.1⟩

/-- A range that passed the check lies in the emulated space. -/
theorem writeRange_ends {s : State} {x : Nat} {nb : List Byte} (hs : s.slotsLegal)
    (hin : x + nb.length ≤ s.f.logicalSize.toNat) :
    Ends (fun _ t => t.slotsLegal) (SlotsStop i) (writeRange x nb s) := writeChunks_ends _ x nb hs (.inr hin)

theorem feeWrite_keepsSlots : KeepsFor State.slotsLegal i feeWriteBody :=
  (checkState_keepsSlots _).bind fun _ s hs => by
    refine .read (.require (fun hc => .ite (fun _ => hs) fun _ => ?_) fun _ => .inr (slots_viewed.afterStop i _ hs))
    have hin : s.opAddr + s.opLen ≤ s.f.logicalSize.toNat := of_decide_eq_true ((Bool.and_eq_true _ _).mp hc).2
    refine .after_deviceOnly (bufLoad_length _) hs fun nb t hf ht hnb => writeRange_ends ht ?_
    have hl : t.f.logicalSize = s.f.logicalSize := congrArg (fun b : Banks => b.f.logicalSize) hf.view
    rw [hl, hnb]
    exact hin

theorem feeErase_keepsSlots : KeepsFor State.slotsLegal i feeEraseBody :=
  (checkState_keepsSlots _).bind fun _ s hs => by
    refine .read (.require (fun hc => .ite (fun _ => hs) fun _ => ?_) fun _ => .inr (slots_viewed.afterStop i _ hs))
    refine writeRange_ends hs ?_
    rw [length_fill]
    exact of_decide_eq_true hc

end commands

theorem bodyOf_keepsSlots (i : Instr) : KeepsFor State.slotsLegal i (bodyOf i) := by
  cases i
  case feeObjectInit h => exact feeObjectInit_keepsSlots h
  case feeStart h => exact feeStart_keepsSlots
  case feeWrite h => exact feeWrite_keepsSlots
  case feeErase h => exact feeErase_keepsSlots
  case feeMassErase h => exact (checkState_keepsSlots _).bind fun _ => format_keepsSlots
  all_goals exact slots_viewed.keepsFor (bodyOf_within _) fun _ _ => view_of Banks.slots fun _ => rfl

end Sys2Proof.Machine

namespace Sys2Proof.Proofs

/-- Settles O42: every command's procedure keeps the slots legal, so every step does. -/
theorem stepKeepsSlotCountLegal : Obligations.StepKeepsSlotCountLegal := by
  unfold Obligations.StepKeepsSlotCountLegal
  exact fun s t hs h => slots_viewed.step bodyOf_keepsSlots hs h

end Sys2Proof.Proofs
end

