-- ==== Sys2Proof/Proofs/Canonical.lean ====
section
/-! PROOF. Every step keeps every memory in its canonical form, and changes neither the parameters nor what a device
reports of itself. -/

open Sys2Proof Sys2Proof.Machine

namespace Sys2Proof.Machine

variable {α : Type}

/-! ### The canonical form, memory by memory -/

/-- Both devices' images and BUF are canonical. -/
def State.Canonical (s : State) : Prop := s.devM.canonical ∧ s.devF.canonical ∧ Memory.wf none s.buf = true

theorem memoryCanonical_iff (s : State) : s.memoryCanonical = true ↔ s.Canonical := by
  simp only [State.memoryCanonical, State.Canonical, Device.canonical, Bool.and_eq_true]
  tauto

theorem State.Canonical.of_eq {s t : State} (h : s.Canonical) (hm : t.devM = s.devM) (hf : t.devF = s.devF)
    (hb : t.buf = s.buf) : t.Canonical := by
  unfold State.Canonical
  rw [hm, hf, hb]
  exact h

theorem State.Canonical.dev {s : State} (h : s.Canonical) (u : UnitId) : (s.dev u).canonical := by
  cases u
  · exact h.1
  · exact h.2.1

theorem State.Canonical.setDev {s : State} (h : s.Canonical) (u : UnitId) {d : Device} (hd : d.canonical) :
    (s.setDev u d).Canonical := by
  cases u
  · exact ⟨hd, h.2.1, h.2.2⟩
  · exact ⟨h.1, hd, h.2.2⟩

theorem State.Canonical.setBuf {s : State} (h : s.Canonical) (i : Nat) (bs : List Byte) : (s.setBuf i bs).Canonical :=
  ⟨h.1, h.2.1, State.setBuf_wf h.2.2 i bs⟩

theorem State.Canonical.powerLoss {s : State} (h : s.Canonical) (c : PowerCut) : (s.powerLoss c).Canonical :=
  ⟨Device.afterPowerLoss_canonical h.1 _ _, Device.afterPowerLoss_canonical h.2.1 _ _, Memory.wf_nil none⟩

theorem State.Canonical.cutPower {s : State} (h : s.Canonical) (op : Option (UnitId × PendOp)) (c : PowerCut) :
    (s.cutPower op c).Canonical := by
  unfold State.cutPower
  split
  · next u o _ =>
    have hd : Device.canonical { s.dev u with pending := (s.dev u).pending ++ [o] } := h.dev u
    exact (h.setDev u hd).powerLoss c
  · exact h.powerLoss c

theorem State.Canonical.afterRaise {s : State} (h : s.Canonical) (u : UnitId) (mu : Bool) (e : ErrCode) :
    (s.afterRaise u mu e).Canonical := by
  unfold State.afterRaise
  split
  · exact h.of_eq (by simp) (by simp) (by simp)
  · exact h

/-! ### The outside world -/

theorem bufAccess_canonical {running : Bool} {h : HostId} {i : Nat} {a : Access} {s t : State} (hs : s.Canonical)
    (ht : bufAccess running h i a s = .ok t) : t.Canonical := by
  unfold bufAccess at ht
  split at ht
  · cases ht; exact hs
  · cases ht; exact hs
  · cases ht; exact hs.setBuf _ _
  · cases ht

theorem regAccess_canonical {s : State} (hs : s.Canonical) (r : Reg) (a : Access) : (regAccess r a s).Canonical := by
  cases a with
  | read z x => exact hs
  | write z x v => cases r <;> exact hs

theorem hostAccess_canonical {running : Bool} {h : HostId} {a : Access} {s t : State} (hs : s.Canonical)
    (ht : hostAccess running h a s = .ok t) : t.Canonical := by
  unfold hostAccess at ht
  split at ht
  · cases ht; exact hs
  · split at ht
    · split at ht
      · cases ht; exact regAccess_canonical hs _ a
      · cases ht
    · split at ht
      · split at ht
        · exact bufAccess_canonical hs ht
        · cases ht
      · cases ht
        cases a <;> exact hs

theorem hostEvent_canonical {running : Bool} {h : HostId} {a : Access} {s t : State} (hs : s.Canonical)
    (ht : s.hostEvent running h a = .ok t) : t.Canonical := by
  unfold State.hostEvent at ht
  split at ht
  · exact hostAccess_canonical hs ht
  · cases ht; exact hs

theorem takeEvents_canonical (op : Option (UnitId × PendOp)) (l : List Input) {s : State} (hs : s.Canonical) :
    (endState (takeEvents op l s)).Canonical := by
  induction l generalizing s with
  | nil => rw [takeEvents.eq_def]; exact hs
  | cons x rest ih =>
    rw [takeEvents.eq_def]
    cases x with
    | idle e => exact hs
    | dev d => exact hs
    | regStep => exact hs
    | busy e =>
      cases e with
      | access h a =>
        dsimp only
        cases he : s.hostEvent true h a with
        | error f => exact hs
        | ok s' => exact ih (hostEvent_canonical hs he)
      | powerLoss c =>
        dsimp only
        split
        · exact hs
        · exact State.Canonical.cutPower (s := { s with inputs := rest }) hs op c

/-! ### Every procedure keeps it -/

/-- The procedure keeps every memory canonical, however it ends. -/
structure KeepsCanonical (p : Proc α) : Prop where
  ends : Keeps State.Canonical p

theorem KeepsCanonical.bind {β : Type} {p : Proc α} {f : α → Proc β} (hp : KeepsCanonical p)
    (hf : ∀ a, KeepsCanonical (f a)) : KeepsCanonical (p >>= f) := ⟨keeps_bind hp.ends fun a => (hf a).ends⟩

/-- A procedure that first reads the state. -/
theorem canonical_bind_get {f : State → Proc α} (h : ∀ s, KeepsCanonical (f s)) : KeepsCanonical (get >>= f) :=
  ⟨keeps_bind keeps_get fun s => (h s).ends⟩

theorem canonical_pure (a : α) : KeepsCanonical (pure a : Proc α) := ⟨keeps_pure a⟩
theorem canonical_raise (e : ErrCode) : KeepsCanonical (raise e : Proc α) := ⟨keeps_raise e⟩
theorem canonical_throw (e : Stop) : KeepsCanonical (throw e : Proc α) := ⟨keeps_throw e⟩
theorem canonical_require (e : ErrCode) (c : Bool) : KeepsCanonical (require e c) := ⟨keeps_require e c⟩
theorem canonical_contract (f : Fault) (c : Bool) : KeepsCanonical (contract f c) := ⟨keeps_contract f c⟩

theorem canonical_modify {f : State → State} (h : ∀ s, s.Canonical → (f s).Canonical) :
    KeepsCanonical (modify f : Proc PUnit) := ⟨keeps_modify h⟩

theorem canonical_ite {c : Prop} [Decidable c] {p q : Proc α} (hp : KeepsCanonical p) (hq : KeepsCanonical q) :
    KeepsCanonical (if c then p else q) := ⟨keeps_ite hp.ends hq.ends⟩

theorem point_canonical (op : Option (UnitId × PendOp)) : KeepsCanonical (point op) :=
  ⟨fun s hs => takeEvents_canonical op s.inputs hs⟩

theorem change_canonical {f : State → State} (h : ∀ s, s.Canonical → (f s).Canonical) : KeepsCanonical (change f) :=
  ⟨keeps_change (point_canonical none).ends (fun _ hs => hs.of_eq (by simp) (by simp) (by simp)) h⟩

theorem answer_canonical : KeepsCanonical answer := ⟨fun s hs => by
  obtain ⟨d, i, n, h⟩ := answer_cases s
  rw [h]
  exact hs⟩

theorem mirrorRegs_canonical (gs : List (MirrorUnit → MirrorUnit)) : KeepsCanonical (mirrorRegs gs) := by
  induction gs with
  | nil => exact canonical_pure ()
  | cons g gs ih => exact KeepsCanonical.bind (change_canonical fun _ hs => id hs) fun _ => ih

theorem feeRegs_canonical (gs : List (FeeUnit → FeeUnit)) : KeepsCanonical (feeRegs gs) := by
  induction gs with
  | nil => exact canonical_pure ()
  | cons g gs ih => exact KeepsCanonical.bind (change_canonical fun _ hs => id hs) fun _ => ih

theorem infoRegs_canonical (gs : List (InfoRegs → InfoRegs)) : KeepsCanonical (infoRegs gs) := by
  induction gs with
  | nil => exact canonical_pure ()
  | cons g gs ih => exact KeepsCanonical.bind (change_canonical fun _ hs => id hs) fun _ => ih

theorem changeDrv_canonical (u : UnitId) (d : DrvState) : KeepsCanonical (changeDrv u d) :=
  change_canonical fun _ hs => hs.of_eq (by simp) (by simp) (by simp)

theorem devRead_canonical (u : UnitId) (a n : Nat) : KeepsCanonical (devRead u a n) :=
  canonical_bind_get fun _ => (canonical_contract _ _).bind fun _ => (point_canonical none).bind fun _ =>
    answer_canonical.bind fun
      | .ok => canonical_bind_get fun _ => canonical_pure _
      | .fail _ => canonical_raise _

theorem performOp_canonical (u : UnitId) (op : PendOp) (d : Draw) : KeepsCanonical (performOp u op d) := ⟨fun s hs => by
  rw [performOp_apply]
  cases d with
  | ok => exact hs.setDev u (Device.perform_canonical (hs.dev u) op)
  | fail t => exact hs.setDev u (Device.performFailed_canonical (hs.dev u) _ t op)⟩

theorem overwriteOp_canonical (u : UnitId) (op : PendOp) (d : Draw) : KeepsCanonical (overwriteOp u op d) :=
  ⟨fun s hs => by
    unfold overwriteOp
    rw [Proc.bind_ok (Proc.get_apply s)]
    generalize s.params.overwrite = o
    match o, d with
    | .fault, _ => exact hs
    | .and, _ => exact (performOp_canonical u op _).ends s hs
    | .fail, .fail t => exact (performOp_canonical u op _).ends s hs
    | .fail, .ok => exact (performOp_canonical u op (.fail (.free s.draws))).ends { s with draws := s.draws + 1 } hs⟩

theorem devWrite_canonical (u : UnitId) (a : Nat) (data : List Byte) : KeepsCanonical (devWrite u a data) :=
  canonical_bind_get fun _ => (canonical_contract _ _).bind fun _ => (point_canonical _).bind fun _ =>
    answer_canonical.bind fun _ => canonical_bind_get fun _ =>
      canonical_ite (overwriteOp_canonical u _ _) (performOp_canonical u _ _)

theorem devErase_canonical (u : UnitId) (a n : Nat) : KeepsCanonical (devErase u a n) :=
  canonical_bind_get fun _ => (canonical_contract _ _).bind fun _ => (point_canonical _).bind fun _ =>
    answer_canonical.bind fun _ => performOp_canonical u _ _

theorem devSync_canonical (u : UnitId) : KeepsCanonical (devSync u) :=
  (point_canonical none).bind fun _ => answer_canonical.bind fun
    | .ok => canonical_modify fun _ hs => hs.setDev u (Device.synced_canonical (hs.dev u))
    | .fail _ => canonical_raise _

theorem devGetInfo_canonical (u : UnitId) : KeepsCanonical (devGetInfo u) :=
  canonical_bind_get fun _ => canonical_pure _

theorem writeMarkWord_canonical (u : UnitId) (a v : Nat) : KeepsCanonical (writeMarkWord u a v) :=
  canonical_bind_get fun _ => (devWrite_canonical ..).bind fun _ => devSync_canonical u

theorem bufLoad_canonical (n : Nat) : KeepsCanonical (bufLoad n) :=
  canonical_bind_get fun _ => (canonical_contract _ _).bind fun _ => canonical_pure _

theorem bufStore_canonical (bs : List Byte) : KeepsCanonical (bufStore bs) :=
  canonical_bind_get fun _ => (canonical_contract _ _).bind fun _ => canonical_modify fun _ hs => hs.setBuf 0 bs

theorem reportInfo_canonical (ss sn wa : Word) (ident : List Byte) : KeepsCanonical (reportInfo ss sn wa ident) :=
  (infoRegs_canonical _).bind fun _ => (bufStore_canonical _).bind fun _ => infoRegs_canonical _

theorem guardRead_canonical {p : Proc Unit} (n : Nat) (h : KeepsCanonical p) : KeepsCanonical (guardRead n p) :=
  ⟨fun s hs => by
    have hp := h.ends s hs
    unfold guardRead
    split
    · next s' he =>
      rw [he] at hp
      exact State.Canonical.setBuf hp 0 _
    · exact hp⟩

theorem acquireFresh_canonical (u : UnitId) (h : HostId) : KeepsCanonical (acquireFresh u h) :=
  (point_canonical none).bind fun _ => answer_canonical.bind fun
    | .ok => change_canonical fun s hs => by
      have hd : Device.canonical { s.dev u with owned := true } := hs.dev u
      exact (hs.setDev u hd).of_eq (by simp) (by simp) (by simp)
    | .fail _ => KeepsCanonical.bind (canonical_modify fun _ hs => id hs) fun _ => canonical_throw _

theorem setLock_canonical {s : State} (hs : s.Canonical) (u : UnitId) (l : Lock) : (s.setLock u l).Canonical :=
  hs.of_eq (by simp) (by simp) (by simp)

theorem acquire_canonical (u : UnitId) (h : HostId) : KeepsCanonical (acquire u h) :=
  canonical_bind_get fun _ => canonical_ite (acquireFresh_canonical u h) (canonical_ite (canonical_raise _)
    (change_canonical fun _ hs => setLock_canonical hs u _))

theorem release_canonical (u : UnitId) : KeepsCanonical (release u) :=
  canonical_bind_get fun _ => canonical_ite (canonical_raise _) (canonical_ite
    (change_canonical fun s hs => by
      have hd : Device.canonical { s.dev u with owned := false } := hs.dev u
      exact (setLock_canonical hs u _).setDev u hd)
    (change_canonical fun _ hs => setLock_canonical hs u _))

/-! ### The FEE engine -/

theorem headerState_canonical (a : Arena) : KeepsCanonical (headerState a) :=
  canonical_bind_get fun _ => (devRead_canonical ..).bind fun _ => (devRead_canonical ..).bind fun _ =>
    (devRead_canonical ..).bind fun _ => canonical_pure _

theorem headerInit_canonical (a : Arena) : KeepsCanonical (headerInit a) :=
  canonical_bind_get fun _ => (devWrite_canonical ..).bind fun _ => devSync_canonical _

theorem setArenaState_canonical (a : Arena) (x : ArenaState) : KeepsCanonical (setArenaState a x) :=
  feeRegs_canonical _

theorem markArenaActive_canonical (a : Arena) : KeepsCanonical (markArenaActive a) :=
  canonical_bind_get fun _ => (writeMarkWord_canonical ..).bind fun _ => feeRegs_canonical _

theorem markArenaFrozen_canonical (a : Arena) : KeepsCanonical (markArenaFrozen a) :=
  canonical_bind_get fun _ => (writeMarkWord_canonical ..).bind fun _ => feeRegs_canonical _

theorem eraseBody_canonical (base eh ab : Nat) : KeepsCanonical (eraseBody base eh ab) :=
  canonical_ite ((devErase_canonical ..).bind fun _ => devSync_canonical _) (canonical_pure ())

theorem arenaReinit_canonical (a : Arena) : KeepsCanonical (arenaReinit a) :=
  canonical_bind_get fun _ => (devErase_canonical ..).bind fun _ => (devSync_canonical _).bind fun _ =>
    (eraseBody_canonical ..).bind fun _ => (headerInit_canonical a).bind fun _ => feeRegs_canonical _

theorem format_canonical : KeepsCanonical format :=
  (arenaReinit_canonical .a0).bind fun _ => (arenaReinit_canonical .a1).bind fun _ =>
    (markArenaActive_canonical .a0).bind fun _ => (feeRegs_canonical _).bind fun _ => feeRegs_canonical _

theorem slotMark_canonical (a : Arena) (i : Nat) : KeepsCanonical (slotMark a i) :=
  canonical_bind_get fun _ => (devRead_canonical ..).bind fun _ => (devRead_canonical ..).bind fun _ =>
    canonical_pure _

theorem slotKey_canonical (a : Arena) (i : Nat) : KeepsCanonical (slotKey a i) :=
  canonical_bind_get fun _ => (devRead_canonical ..).bind fun _ => canonical_pure _

theorem slotPayload_canonical (a : Arena) (i : Nat) : KeepsCanonical (slotPayload a i) :=
  canonical_bind_get fun _ => devRead_canonical ..

theorem slotRecord_canonical (a : Arena) (i : Nat) : KeepsCanonical (slotRecord a i) :=
  canonical_bind_get fun _ => devRead_canonical ..

theorem countUsed_canonical (a : Arena) (u n i : Nat) : KeepsCanonical (countUsed a u n i) := by
  induction n generalizing u i with
  | zero => exact canonical_pure u
  | succ n ih =>
    refine (slotMark_canonical a i).bind fun x => ?_
    cases x <;> exact ih _ _

theorem arenaLoad_canonical (a : Arena) : KeepsCanonical (arenaLoad a) :=
  canonical_bind_get fun _ => (countUsed_canonical ..).bind fun _ => feeRegs_canonical _

theorem slotMatches_canonical (a : Arena) (key i : Nat) : KeepsCanonical (slotMatches a key i) :=
  (slotMark_canonical a i).bind fun
    | .valid => (slotKey_canonical a i).bind fun _ => canonical_pure _
    | .unused => canonical_pure _
    | .dirty => canonical_pure _
    | .unknown => canonical_pure _

theorem lookupFrom_canonical (a : Arena) (key : Nat) (r : Option Nat) (n i : Nat) :
    KeepsCanonical (lookupFrom a key r n i) := by
  induction n generalizing r i with
  | zero => exact canonical_pure r
  | succ n ih => exact (slotMatches_canonical a key i).bind fun _ => canonical_ite (ih _ _) (ih _ _)

theorem lookup_canonical (a : Arena) (key : Nat) : KeepsCanonical (lookup a key) :=
  canonical_bind_get fun _ => lookupFrom_canonical ..

theorem append_canonical (key : Nat) (pl : List Byte) : KeepsCanonical (append key pl) :=
  canonical_bind_get fun _ => (writeMarkWord_canonical ..).bind fun _ => (devWrite_canonical ..).bind
    fun _ => (devSync_canonical _).bind fun _ => (writeMarkWord_canonical ..).bind fun _ =>
      feeRegs_canonical _

theorem blankArena_canonical (a : Arena) : KeepsCanonical (blankArena a) :=
  canonical_bind_get fun _ => (devRead_canonical ..).bind fun _ => canonical_pure _

theorem prepareDst_canonical (a : Arena) : KeepsCanonical (prepareDst a) :=
  (blankArena_canonical a).bind fun _ => canonical_ite
    (canonical_bind_get fun _ => (devRead_canonical ..).bind fun _ =>
      canonical_ite (headerInit_canonical a) (canonical_pure ()))
    (arenaReinit_canonical a)

theorem copyLive_canonical (src dst : Arena) (omitted : Option Nat) (j : Nat) (ks : List Nat) :
    KeepsCanonical (copyLive src dst omitted j ks) := by
  induction ks generalizing j with
  | nil => exact canonical_pure j
  | cons k ks ih =>
    refine canonical_ite (ih j) ((lookup_canonical src k).bind fun r => ?_)
    cases r with
    | none => exact ih j
    | some r =>
      exact (slotRecord_canonical src r).bind fun _ => canonical_bind_get fun _ =>
        (devWrite_canonical ..).bind fun _ => ih (j + 1)

theorem gc_canonical (omitted : Option Nat) : KeepsCanonical (gc omitted) :=
  canonical_bind_get fun s => (markArenaFrozen_canonical s.f.active).bind fun _ =>
    (prepareDst_canonical s.f.active.other).bind fun _ => canonical_bind_get fun _ =>
      (copyLive_canonical ..).bind fun _ => (devSync_canonical _).bind fun _ =>
        (markArenaActive_canonical _).bind fun _ => (arenaReinit_canonical _).bind fun _ =>
          (feeRegs_canonical _).bind fun _ => (feeRegs_canonical _).bind fun _ => feeRegs_canonical _

theorem chunkPayload_canonical (key : Nat) : KeepsCanonical (chunkPayload key) :=
  canonical_bind_get fun _ => (lookup_canonical ..).bind fun
    | some _ => slotPayload_canonical ..
    | none => canonical_bind_get fun _ => canonical_pure _

theorem makeRoom_canonical (key : Nat) : KeepsCanonical (makeRoom key) :=
  canonical_bind_get fun _ => canonical_ite (gc_canonical _) (canonical_pure ())

theorem writeSpan_canonical (sa lo : Nat) (nb : List Byte) : KeepsCanonical (writeSpan sa lo nb) :=
  (chunkPayload_canonical sa).bind fun _ => canonical_ite (canonical_pure ())
    ((makeRoom_canonical sa).bind fun _ => append_canonical sa _)

theorem writeChunks_canonical (n x : Nat) (nb : List Byte) : KeepsCanonical (writeChunks n x nb) := by
  induction n generalizing x nb with
  | zero => exact canonical_pure ()
  | succ n ih =>
    exact canonical_ite (canonical_pure ()) (canonical_bind_get fun _ => (writeSpan_canonical ..).bind fun _ => ih _ _)

theorem readSlot_canonical (a : Arena) (addr i : Nat) (out : List Byte) : KeepsCanonical (readSlot a addr i out) :=
  (slotMark_canonical a i).bind fun
    | .valid => (slotKey_canonical a i).bind fun _ => canonical_bind_get fun _ =>
        canonical_ite ((slotPayload_canonical a i).bind fun _ => canonical_pure _) (canonical_pure _)
    | .unused => canonical_pure _
    | .dirty => canonical_pure _
    | .unknown => canonical_pure _

theorem readSlots_canonical (a : Arena) (addr n i : Nat) (out : List Byte) :
    KeepsCanonical (readSlots a addr n i out) := by
  induction n generalizing i out with
  | zero => exact canonical_pure out
  | succ n ih => exact (readSlot_canonical a addr i out).bind fun _ => ih _ _

theorem readRange_canonical (addr n : Nat) : KeepsCanonical (readRange addr n) :=
  canonical_bind_get fun _ => readSlots_canonical ..

theorem feeGeometry_canonical : KeepsCanonical feeGeometry :=
  (devGetInfo_canonical .fee).bind fun _ => canonical_bind_get fun _ => (canonical_require _ _).bind fun _ =>
    feeRegs_canonical _

theorem adoptArena_canonical (a : Arena) : KeepsCanonical (adoptArena a) :=
  (feeRegs_canonical _).bind fun _ => arenaLoad_canonical a

theorem resumeGc_canonical (a : Arena) : KeepsCanonical (resumeGc a) :=
  (arenaReinit_canonical a.other).bind fun _ => (adoptArena_canonical a).bind fun _ => gc_canonical none

theorem startCases_canonical : KeepsCanonical startCases :=
  (headerState_canonical .a0).bind fun s0 => (headerState_canonical .a1).bind fun s1 =>
    (setArenaState_canonical .a0 s0).bind fun _ => (setArenaState_canonical .a1 s1).bind fun _ => by
      cases startCase s0 s1 with
      | adopt a => exact adoptArena_canonical a
      | resume a => exact resumeGc_canonical a
      | cold => exact format_canonical

/-! ### The Mirror engine -/

theorem setMirrorState_canonical (x : MirrorState) (off : Nat) : KeepsCanonical (setMirrorState x off) :=
  mirrorRegs_canonical _

theorem eraseHeader_canonical : KeepsCanonical eraseHeader :=
  canonical_bind_get fun _ => (devErase_canonical ..).bind fun _ => devSync_canonical _

theorem writeLogEntry_canonical (off : Nat) (x : LogMark) : KeepsCanonical (writeLogEntry off x) :=
  canonical_bind_get fun _ => (writeMarkWord_canonical ..).bind fun _ => setMirrorState_canonical ..

theorem markReset_canonical (x : LogMark) : KeepsCanonical (markReset x) :=
  eraseHeader_canonical.bind fun _ => writeLogEntry_canonical 0 x

theorem markAppend_canonical (x : LogMark) : KeepsCanonical (markAppend x) :=
  canonical_bind_get fun _ => canonical_ite (markReset_canonical x) (writeLogEntry_canonical _ x)

theorem readLogEntry_canonical (k : Nat) : KeepsCanonical (readLogEntry k) :=
  canonical_bind_get fun _ => devRead_canonical ..

theorem scanTail_canonical (r : MirrorState × Nat) (n k : Nat) : KeepsCanonical (scanTail r n k) := by
  induction n generalizing k with
  | zero => exact canonical_pure r
  | succ n ih =>
    exact (readLogEntry_canonical k).bind fun _ => canonical_bind_get fun _ => canonical_ite (ih _) (canonical_pure _)

theorem scanFrom_canonical (r : MirrorState × Nat) (n k : Nat) : KeepsCanonical (scanFrom r n k) := by
  induction n generalizing r k with
  | zero => exact canonical_pure r
  | succ n ih =>
    refine (readLogEntry_canonical k).bind fun bs => canonical_bind_get fun s => ?_
    dsimp only
    cases LogMark.decode s.params.widthM bs with
    | none => exact canonical_pure _
    | some x =>
      cases x with
      | unused => exact scanTail_canonical ..
      | dirtyA => exact ih _ _
      | dirtyB => exact ih _ _
      | synced => exact ih _ _

theorem copySectors_canonical (src dst n i : Nat) : KeepsCanonical (copySectors src dst n i) := by
  induction n generalizing i with
  | zero => exact canonical_pure ()
  | succ n ih =>
    exact canonical_bind_get fun _ => (devErase_canonical ..).bind fun _ => (devRead_canonical ..).bind
      fun _ => (devWrite_canonical ..).bind fun _ => ih _

theorem copyMirror_canonical (src dst : Nat) : KeepsCanonical (copyMirror src dst) :=
  canonical_bind_get fun _ => (copySectors_canonical ..).bind fun _ => devSync_canonical _

theorem copyBtoA_canonical : KeepsCanonical copyBtoA := canonical_bind_get fun _ => copyMirror_canonical ..
theorem copyAtoB_canonical : KeepsCanonical copyAtoB := canonical_bind_get fun _ => copyMirror_canonical ..

theorem recoverMirror_canonical : KeepsCanonical recoverMirror :=
  (canonical_bind_get fun _ => scanFrom_canonical ..).bind fun (st, sa) =>
    (setMirrorState_canonical st sa).bind fun _ =>
      match st with
      | .synced => canonical_pure ()
      | .dirtyA => copyBtoA_canonical.bind fun _ => markAppend_canonical .synced
      | .dirtyB => copyAtoB_canonical.bind fun _ => markAppend_canonical .synced
      | .invalid => copyAtoB_canonical.bind fun _ => markReset_canonical .synced

theorem mirrorGeometry_canonical : KeepsCanonical mirrorGeometry :=
  (devGetInfo_canonical .mirror).bind fun _ => canonical_bind_get fun _ => (canonical_require _ _).bind
    fun _ => mirrorRegs_canonical _

theorem threePhase_canonical {mutate : Nat → Proc Unit} (h : ∀ org, KeepsCanonical (mutate org)) :
    KeepsCanonical (threePhase mutate) :=
  (markAppend_canonical _).bind fun _ => canonical_bind_get fun _ => (h _).bind fun _ =>
    (devSync_canonical _).bind fun _ => (markAppend_canonical _).bind fun _ => canonical_bind_get fun _ =>
      (h _).bind fun _ => (devSync_canonical _).bind fun _ => markAppend_canonical _

/-! ### Every command and every step -/

theorem checked_canonical (c : State → Bool) {p : Proc α} (h : KeepsCanonical p) :
    KeepsCanonical (do checkState c; p) :=
  ⟨keeps_bind (keeps_checkState c) fun _ => h.ends⟩

theorem bodyOf_canonical (i : Instr) : KeepsCanonical (bodyOf i) := by
  cases i
  case mirrorInit h => exact canonical_pure ()
  case feeInit h => exact canonical_pure ()
  case mirrorObjectInit h => exact checked_canonical _ (canonical_bind_get fun _ => mirrorRegs_canonical _)
  case feeObjectInit h => exact checked_canonical _ (canonical_bind_get fun _ => feeRegs_canonical _)
  case mirrorStart h =>
    exact checked_canonical _ ((changeDrv_canonical ..).bind fun _ => mirrorGeometry_canonical.bind fun _ =>
      (devSync_canonical _).bind fun _ => recoverMirror_canonical.bind fun _ => mirrorRegs_canonical _)
  case feeStart h =>
    exact checked_canonical _ ((changeDrv_canonical ..).bind fun _ => feeGeometry_canonical.bind fun _ =>
      (devSync_canonical _).bind fun _ => startCases_canonical.bind fun _ => feeRegs_canonical _)
  case mirrorStop h => exact checked_canonical _ (changeDrv_canonical ..)
  case feeStop h => exact checked_canonical _ (changeDrv_canonical ..)
  case mirrorRead h =>
    exact checked_canonical _ (canonical_bind_get fun _ => (canonical_require _ _).bind fun _ =>
      canonical_ite (canonical_pure ()) (guardRead_canonical _ ((devRead_canonical ..).bind fun _ =>
        bufStore_canonical _)))
  case feeRead h =>
    exact checked_canonical _ (canonical_bind_get fun _ => (canonical_require _ _).bind fun _ =>
      canonical_ite (canonical_pure ()) (guardRead_canonical _ ((readRange_canonical ..).bind fun _ =>
        bufStore_canonical _)))
  case mirrorWrite h =>
    exact checked_canonical _ (canonical_bind_get fun _ => (canonical_require _ _).bind fun _ =>
      (canonical_require _ _).bind fun _ => canonical_ite (canonical_pure ())
        (threePhase_canonical fun _ => (bufLoad_canonical _).bind fun _ => devWrite_canonical ..))
  case feeWrite h =>
    exact checked_canonical _ (canonical_bind_get fun _ => (canonical_require _ _).bind fun _ =>
      canonical_ite (canonical_pure ()) ((bufLoad_canonical _).bind fun _ => writeChunks_canonical ..))
  case mirrorErase h =>
    exact checked_canonical _ (canonical_bind_get fun _ => (canonical_require _ _).bind fun _ =>
      (canonical_require _ _).bind fun _ => canonical_ite (canonical_pure ())
        (threePhase_canonical fun _ => devErase_canonical ..))
  case feeErase h =>
    exact checked_canonical _ (canonical_bind_get fun _ => (canonical_require _ _).bind fun _ =>
      canonical_ite (canonical_pure ()) (writeChunks_canonical ..))
  case mirrorMassErase h =>
    exact checked_canonical _ (canonical_bind_get fun _ => threePhase_canonical fun _ => devErase_canonical ..)
  case feeMassErase h => exact checked_canonical _ format_canonical
  case mirrorSync h => exact checked_canonical _ (devSync_canonical _)
  case feeSync h => exact checked_canonical _ (devSync_canonical _)
  case mirrorGetInfo h =>
    exact checked_canonical _ ((devGetInfo_canonical _).bind fun _ => canonical_bind_get fun _ =>
      reportInfo_canonical ..)
  case feeGetInfo h =>
    exact checked_canonical _ ((devGetInfo_canonical _).bind fun _ => canonical_bind_get fun _ =>
      reportInfo_canonical ..)
  case mirrorAcquireBus h => exact checked_canonical _ (acquire_canonical ..)
  case feeAcquireBus h => exact checked_canonical _ (acquire_canonical ..)
  case mirrorReleaseBus h => exact checked_canonical _ (release_canonical _)
  case feeReleaseBus h => exact checked_canonical _ (release_canonical _)

theorem finish_canonical {e : ErrCode} {s t : State} (hs : s.Canonical) (h : finish e s = .next t) : t.Canonical :=
  finish_keeps (point_canonical none).ends (fun _ _ hs => hs) hs h

/-- A command's procedure that ended in a canonical state ends the command in one. -/
theorem conclude_canonical {u : UnitId} {mu : Bool} {r : EStateM.Result Stop State Unit} {t : State}
    (hr : (endState r).Canonical) (h : conclude u mu r = .next t) : t.Canonical := by
  rcases conclude_cases u mu r with ⟨a, s, rfl, hf⟩ | ⟨e, s, rfl, hf⟩ | ⟨s, rfl | rfl, hf⟩ | ⟨f, s, -, hf⟩
  all_goals rw [hf] at h
  · exact finish_canonical hr h
  · exact finish_canonical (State.Canonical.afterRaise hr u mu e) h
  · cases h; exact hr
  · cases h; exact hr
  · cases h

theorem exec_canonical {i : Instr} {s t : State} (hs : s.Canonical) (h : exec i s = .next t) : t.Canonical := by
  rw [exec_eq_runCommand] at h
  unfold runCommand at h
  split at h
  · exact finish_canonical hs h
  · exact conclude_canonical ((bodyOf_canonical i).ends s hs) h

theorem recordHost_canonical {s : State} (hs : s.Canonical) (h hid : HostId) : (s.recordHost h hid).Canonical :=
  hs.of_eq (by simp) (by simp) (by simp)

theorem fetchAccess_canonical {h : HostId} {a : Access} {s t : State} (hs : s.Canonical)
    (ht : (fetchAccess h a s).outcome = .next t) : t.Canonical := by
  unfold fetchAccess at ht
  split at ht
  · unfold acceptCommand at ht
    split at ht
    · next w _ _ i _ => exact exec_canonical (recordHost_canonical (s := s.accept _) hs h _) ht
    · next w _ _ _ => exact finish_canonical (s := s.accept _) hs ht
  · split at ht
    · next he =>
      cases ht
      exact hostEvent_canonical hs he
    · cases ht

theorem fetchEvent_canonical {e : Event} {s t : State} (hs : s.Canonical)
    (ht : (fetchEvent e s).outcome = .next t) : t.Canonical := by
  cases e with
  | access h a => exact fetchAccess_canonical hs ht
  | powerLoss c => cases ht; exact hs.powerLoss c

theorem step_canonical {s t : State} (hs : s.Canonical) (h : step s = .next t) : t.Canonical := by
  rw [step_eq_outcome] at h
  unfold fetch at h
  split at h
  · exact conclude_canonical ((acquireFresh_canonical _ _).ends s hs) h
  · split at h
    · cases h; exact hs
    · cases h; exact hs
    · cases h; exact hs
    · next e rest _ => exact fetchEvent_canonical (s := { s with inputs := rest }) hs h
    · next e rest _ => exact fetchEvent_canonical (s := { s with inputs := rest }) hs h

/-! ### The parameters and the devices' reports -/

/-- That the parameters and the devices' reports are these. -/
theorem fixed_viewed (x : Params × DevInfo × DevInfo) : Viewed (fun _ => ()) (fun s => s.fixed = x) where
  congr h _ hs := h.trans hs
  restart h hs := h.fixed.trans hs
  issue _ _ _ _ := rfl
  lock _ _ := rfl
  recover u hs := by cases u <;> exact hs

theorem step_fixed {s t : State} (h : step s = .next t) : t.fixed = s.fixed :=
  (fixed_viewed s.fixed).step (fun i => (fixed_viewed s.fixed).keepsFor (bodyOf_within i) fun _ _ _ => rfl) rfl h

end Sys2Proof.Machine

namespace Sys2Proof.Proofs

/-- Settles O38: the outside world and every procedure keep the memories canonical, so every step does. -/
theorem stepKeepsMemoryCanonical : Obligations.StepKeepsMemoryCanonical := by
  unfold Obligations.StepKeepsMemoryCanonical
  intro s t hs h
  rw [memoryCanonical_iff] at *
  exact step_canonical hs h

/-- Settles O43: what `State.fixed` lists is in every command's frame. -/
theorem stepKeepsParametersAndDevices : Obligations.StepKeepsParametersAndDevices := by
  unfold Obligations.StepKeepsParametersAndDevices
  intro s t h
  have hfix := step_fixed h
  simp only [State.fixed, Prod.mk.injEq] at hfix
  exact hfix

end Sys2Proof.Proofs
end

