-- ==== Sys2Proof/Proofs/Torn.lean ====
section
/-! PROOF. Torn and failed device operations, bit by bit: which settled images there are, and which of them atomic units
leave. -/

open Sys2Proof Sys2Proof.Machine

namespace Sys2Proof.Machine

/-! ### What a spliced memory reads as -/

theorem Memory.get?_filter (m : Memory) (p : Nat → Bool) (x : Nat) :
    Memory.get? (m.filter fun c => p c.1) x = if p x then m.get? x else none := by
  induction m with
  | nil => simp [Memory.get?]
  | cons c m ih =>
    obtain ⟨k, v⟩ := c
    by_cases hk : k = x
    · subst hk
      cases hp : p k <;> simp [Memory.get?, hp, ih]
    · cases hp : p k <;> simp [Memory.get?, hp, ih, hk]

theorem Memory.get?_append (m o : Memory) (x : Nat) : Memory.get? (m ++ o) x = (m.get? x).or (o.get? x) := by
  induction m with
  | nil => rfl
  | cons c m ih =>
    obtain ⟨k, v⟩ := c
    by_cases hk : k = x <;> simp [Memory.get?, ih, hk]

/-- A spliced memory reads as the inner one inside the range, and as the outer one elsewhere. -/
theorem Memory.byteAt_splice (m o : Memory) (a n x : Nat) :
    (m.splice o a n).byteAt x = if a ≤ x ∧ x < a + n then m.byteAt x else o.byteAt x := by
  have below := Memory.get?_filter o (fun y => decide (y < a)) x
  have inside := Memory.get?_filter m (fun y => decide (a ≤ y ∧ y < a + n)) x
  have above := Memory.get?_filter o (fun y => decide (a + n ≤ y)) x
  simp only [decide_eq_true_eq] at below inside above
  unfold Memory.byteAt Memory.splice
  rw [Memory.get?_append, Memory.get?_append, below, inside, above]
  by_cases h1 : x < a
  · have h2 : ¬(a ≤ x ∧ x < a + n) := by omega
    have h3 : ¬a + n ≤ x := by omega
    rw [if_pos h1, if_neg h2, if_neg h3, if_neg h2, Option.or_none, Option.or_none]
  · by_cases h2 : a ≤ x ∧ x < a + n
    · have h3 : ¬a + n ≤ x := by omega
      rw [if_neg h1, if_pos h2, if_neg h3, if_pos h2, Option.none_or, Option.or_none]
    · have h3 : a + n ≤ x := by omega
      rw [if_neg h1, if_neg h2, if_pos h3, if_neg h2, Option.or_none, Option.none_or]

/-! ### One operation on one bit -/

/-- The operation covers the byte. -/
def PendOp.Covers (op : PendOp) (x : Nat) : Prop := op.addr ≤ x ∧ x < op.addr + op.len

theorem PendOp.bitAfter_of_not_covers {op : PendOp} {x : Nat} (h : ¬op.Covers x) (b : Nat) (v : Bool) :
    op.bitAfter x b v = v := by cases op <;> exact if_neg h

/-- An operation leaves a bit as it was, or it covers it and gives it a value of its own. -/
theorem PendOp.bitAfter_cases (op : PendOp) (x b : Nat) :
    (∀ v, op.bitAfter x b v = v) ∨ op.Covers x ∧ ∃ c, ∀ v, op.bitAfter x b v = c := by
  by_cases h : op.Covers x
  · cases op with
    | write a d =>
      have hbit : ∀ v, (PendOp.write a d).bitAfter x b v = (v && ((d[x - a]?).getD erasedByte).getLsbD b) :=
        fun v => if_pos h
      cases hd : ((d[x - a]?).getD erasedByte).getLsbD b with
      | true => exact .inl fun v => by rw [hbit, hd, Bool.and_true]
      | false => exact .inr ⟨h, false, fun v => by rw [hbit, hd, Bool.and_false]⟩
    | erase a n => exact .inr ⟨h, true, fun v => if_pos h⟩
  · exact .inl fun v => PendOp.bitAfter_of_not_covers h b v

theorem not_covers_of_not_overlaps {o op : PendOp} {x : Nat} (h : o.overlaps op = false) (hx : op.Covers x) :
    ¬o.Covers x := by
  simp only [PendOp.overlaps, decide_eq_false_iff_not] at h
  unfold PendOp.Covers at *
  omega

/-! ### All operations on one bit -/

/-- Every operation is taken whole. -/
def takeAll (_ _ _ : Nat) : Bool := true

theorem tornBit_append (took : Nat → Nat → Nat → Bool) (x b k : Nat) (ops ops' : List PendOp) (v : Bool) :
    tornBit took x b k (ops ++ ops') v = tornBit took x b (k + ops.length) ops' (tornBit took x b k ops v) := by
  induction ops generalizing k v with
  | nil => rfl
  | cons op ops ih =>
    simp only [List.cons_append, tornBit, List.length_cons, ih]
    rw [show k + 1 + ops.length = k + (ops.length + 1) by omega]

theorem tornBit_of_not_covers (took : Nat → Nat → Nat → Bool) {x : Nat} (b k : Nat) {ops : List PendOp}
    (h : ∀ o ∈ ops, ¬o.Covers x) (v : Bool) : tornBit took x b k ops v = v := by
  induction ops generalizing k v with
  | nil => rfl
  | cons op ops ih =>
    simp only [tornBit, PendOp.bitAfter_of_not_covers (h op List.mem_cons_self), ite_self]
    exact ih (k + 1) (fun o ho => h o (List.mem_cons_of_mem _ ho)) v

/-- Taking the first `n` operations is taking all of the list cut there. -/
theorem tornBit_take {took : Nat → Nat → Nat → Bool} {x b n : Nat} (h : ∀ j, took j x b = decide (j < n)) (k : Nat)
    (ops : List PendOp) (v : Bool) : tornBit took x b k ops v = tornBit takeAll x b k (ops.take (n - k)) v := by
  induction ops generalizing k v with
  | nil => simp [tornBit]
  | cons op ops ih =>
    simp only [tornBit, ih, h]
    by_cases hk : k < n
    · obtain ⟨j, hj⟩ : ∃ j, n - k = j + 1 := ⟨n - k - 1, by omega⟩
      rw [hj, List.take_succ_cons, if_pos (by simpa using hk)]
      simp only [tornBit, takeAll, if_true]
      rw [show n - (k + 1) = j by omega]
    · rw [show n - k = 0 by omega, show n - (k + 1) = 0 by omega, if_neg (by simpa using hk)]
      rfl

/-- Operations that land whole, bit by bit. -/
theorem bit_foldl_apply (x : Nat) {b : Nat} (hb : b < 8) (ops : List PendOp) (k : Nat) {m : Memory}
    (h : m.wf (some erasedByte) = true) :
    ((ops.foldl (fun m o => o.apply m) m).byteAt x).getLsbD b = tornBit takeAll x b k ops ((m.byteAt x).getLsbD b) := by
  have hff : (0xFF : Byte).getLsbD b = true := by
    rw [show (0xFF : Byte) = BitVec.allOnes 8 from rfl, BitVec.getLsbD_allOnes, decide_eq_true hb]
  induction ops generalizing k m with
  | nil => rfl
  | cons op ops ih =>
    have hop : ((op.apply m).byteAt x).getLsbD b = op.bitAfter x b ((m.byteAt x).getLsbD b) :=
      (PendOp.bit_land h op _ x hb).trans (if_pos hff)
    rw [List.foldl_cons, ih (k + 1) (m := op.apply m) (wf_land h op _), hop]
    rfl

/-- A torn bit is the old one, or the one that the operations up to one that covers it gave it (20_memory.md R67). -/
theorem tornBit_history (took : Nat → Nat → Nat → Bool) (x b : Nat) (ops : List PendOp) (v : Bool) :
    tornBit took x b 0 ops v = v
      ∨ ∃ k op, ops[k]? = some op ∧ op.Covers x
        ∧ tornBit took x b 0 ops v = tornBit takeAll x b 0 (ops.take (k + 1)) v := by
  induction ops using List.reverseRecOn with
  | nil => exact .inl rfl
  | append_singleton ops op ih =>
    have hstep : tornBit took x b 0 (ops ++ [op]) v =
        if took (0 + ops.length) x b then op.bitAfter x b (tornBit took x b 0 ops v) else tornBit took x b 0 ops v :=
      tornBit_append ..
    have before (he : tornBit took x b 0 (ops ++ [op]) v = tornBit took x b 0 ops v) :
        tornBit took x b 0 (ops ++ [op]) v = v ∨ ∃ k o, (ops ++ [op])[k]? = some o ∧ o.Covers x
          ∧ tornBit took x b 0 (ops ++ [op]) v = tornBit takeAll x b 0 ((ops ++ [op]).take (k + 1)) v := by
      rw [he]
      refine ih.imp id ?_
      rintro ⟨k, o, hk, hc, hv⟩
      have hlt : k < ops.length := (List.getElem?_eq_some_iff.1 hk).1
      refine ⟨k, o, ?_, hc, ?_⟩
      · rw [List.getElem?_append_left hlt, hk]
      · rw [hv, List.take_append_of_le_length hlt]
    rcases PendOp.bitAfter_cases op x b with hid | ⟨hc, c, hconst⟩
    · exact before (by rw [hstep, hid, ite_self])
    · cases ht : took (0 + ops.length) x b with
      | false => exact before (by rw [hstep, ht]; rfl)
      | true =>
        refine .inr ⟨ops.length, op, by simp, hc, ?_⟩
        rw [hstep, ht, if_pos rfl, hconst, List.take_of_length_le (by simp), tornBit_append]
        simp only [tornBit, takeAll, if_true, hconst]

/-! ### The settled images that the model draws -/

theorem getLsbD_wholeMask (m : Byte) {b : Nat} (hb : b < 8) : (wholeMask m).getLsbD b = m.getLsbD 0 := by
  unfold wholeMask
  cases m.getLsbD 0
  · simp
  · rw [if_pos rfl, show (0xFF : Byte) = BitVec.allOnes 8 from rfl, BitVec.getLsbD_allOnes, decide_eq_true hb]

/-- The operations that a bit takes under a draw. -/
def TearRule.took (r : TearRule) (t : Torn) (pending : List PendOp) (k x b : Nat) : Bool :=
  match pending[k]? with
  | some op => (tearMask r t pending k op x).getLsbD b
  | none => false

theorem TearRule.took_of_get {r : TearRule} {t : Torn} {pending : List PendOp} {k : Nat} {op : PendOp}
    (h : pending[k]? = some op) (x b : Nat) :
    r.took t pending k x b = (tearMask r t pending k op x).getLsbD b := by
  unfold TearRule.took
  rw [h]

/-- A draw settles the image that its own tear masks describe. -/
theorem settle_tornAs (r : TearRule) (t : Torn) (pending : List PendOp) {dur : Memory}
    (h : dur.wf (some erasedByte) = true) : tornAs (r.took t pending) dur pending (settle r t dur pending) :=
  fun x b hb => settleFrom_bit r t pending _ x hb pending 0 h fun j op hj _ _ => by
    rw [Nat.zero_add]
    exact TearRule.took_of_get hj x b

/-- The other operations of PENDING, by place. -/
theorem all_eraseIdx_iff {pending : List PendOp} {k : Nat} {p : PendOp → Bool} :
    (pending.eraseIdx k).all p = true ↔ ∀ j o, pending[j]? = some o → j ≠ k → p o = true := by
  rw [List.all_eq_true]
  constructor
  · intro h j o hj hne
    exact h o (List.mem_eraseIdx_iff_getElem?.2 ⟨j, hne, hj⟩)
  · intro h o ho
    obtain ⟨j, hne, hj⟩ := List.mem_eraseIdx_iff_getElem?.1 ho
    exact h j o hj hne

/-- A write that lands whole or not at all (20_memory.md R70). -/
def TearRule.AtomicMark (r : TearRule) (pending : List PendOp) (k a : Nat) (d : List Byte) : Prop :=
  r.atomic = true ∧ d.length = r.width ∧ a % r.width = 0
    ∧ ∀ j o, pending[j]? = some o → j ≠ k → o.overlaps (.write a d) = false

theorem atomicMark_iff (r : TearRule) (pending : List PendOp) (k a : Nat) (d : List Byte) :
    (r.atomic && d.length == r.width && a % r.width == 0
      && (pending.eraseIdx k).all (fun o => !o.overlaps (.write a d))) = true ↔ r.AtomicMark pending k a d := by
  simp only [Bool.and_eq_true, beq_iff_eq, all_eraseIdx_iff, Bool.not_eq_true', TearRule.AtomicMark, and_assoc]

theorem tearMask_atomic {r : TearRule} {pending : List PendOp} {k a : Nat} {d : List Byte} (t : Torn)
    (h : r.AtomicMark pending k a d) (x : Nat) : tearMask r t pending k (.write a d) x = wholeMask (t.mask k a) :=
  congrFun (if_pos ((atomicMark_iff ..).2 h)) x

theorem tearMask_plain {r : TearRule} {pending : List PendOp} {k a : Nat} {d : List Byte} (t : Torn)
    (h : ¬r.AtomicMark pending k a d) (x : Nat) : tearMask r t pending k (.write a d) x = t.mask k x :=
  congrFun (if_neg (mt (atomicMark_iff ..).1 h)) x

theorem tearMask_erase_bit {r : TearRule} (hr : r.granule = .bit) (t : Torn) (pending : List PendOp) (k a n x : Nat) :
    tearMask r t pending k (.erase a n) x = t.mask k x := by
  unfold tearMask
  rw [hr]

theorem tearMask_erase_sector {r : TearRule} (hr : r.granule = .sector) (t : Torn) (pending : List PendOp)
    (k a n x : Nat) :
    tearMask r t pending k (.erase a n) x = wholeMask (t.mask k (x / r.sectorSize * r.sectorSize)) := by
  unfold tearMask
  rw [hr]

/-- What a draw takes keeps atomic units whole. -/
theorem took_allows (r : TearRule) (t : Torn) (pending : List PendOp) : r.allows pending (r.took t pending) := by
  refine ⟨fun k a d hk hat hlen hal hover x y b c _ _ _ _ hb hc => ?_,
    fun k a n hk hg x y b c _ _ _ _ hxy hb hc => ?_⟩
  · have hu : r.AtomicMark pending k a d := ⟨hat, hlen, hal, hover⟩
    rw [TearRule.took_of_get hk, TearRule.took_of_get hk, tearMask_atomic t hu, tearMask_atomic t hu,
      getLsbD_wholeMask _ hb, getLsbD_wholeMask _ hc]
  · rw [TearRule.took_of_get hk, TearRule.took_of_get hk, tearMask_erase_sector hg, tearMask_erase_sector hg,
      getLsbD_wholeMask _ hb, getLsbD_wholeMask _ hc, hxy]

/-! ### A draw for given bits -/

/-- The byte of eight given bits. -/
def byteOf (f : Nat → Bool) : Byte := BitVec.ofFnLE fun i : Fin 8 => f i

theorem getLsbD_byteOf (f : Nat → Bool) {b : Nat} (hb : b < 8) : (byteOf f).getLsbD b = f b := by
  unfold byteOf
  rw [BitVec.getLsbD_ofFnLE, dif_pos hb]

/-- The address by which a draw's bits for a byte are looked up: its sector's, for an erase by sectors. -/
def TearRule.drawAddr (r : TearRule) (op : PendOp) (x : Nat) : Nat :=
  match op, r.granule with
  | .erase _ _, .sector => x / r.sectorSize * r.sectorSize
  | _, _ => x

/-- The cells of a draw for one operation. -/
def TearRule.opCells (r : TearRule) (took : Nat → Nat → Nat → Bool) (c : PendOp × Nat) : List (Nat × Nat × Byte) :=
  (List.range c.1.len).map fun j =>
    (c.2, r.drawAddr c.1 (c.1.addr + j), byteOf (took c.2 (c.1.addr + j)))

/-- A draw that takes given bits. -/
def TearRule.drawing (r : TearRule) (pending : List PendOp) (took : Nat → Nat → Nat → Bool) : Torn :=
  .listed (pending.zipIdx.flatMap (r.opCells took)) 0

theorem mem_drawing_cells {r : TearRule} {pending : List PendOp} {took : Nat → Nat → Nat → Bool}
    {c : Nat × Nat × Byte} :
    c ∈ pending.zipIdx.flatMap (r.opCells took) ↔
      ∃ op x, pending[c.1]? = some op ∧ op.Covers x ∧ c.2.1 = r.drawAddr op x ∧ c.2.2 = byteOf (took c.1 x) := by
  simp only [List.mem_flatMap, TearRule.opCells, List.mem_map, List.mem_range, Prod.exists,
    List.mk_mem_zipIdx_iff_getElem?]
  constructor
  · rintro ⟨op, k, hk, j, hj, rfl⟩
    exact ⟨op, op.addr + j, hk, ⟨by omega, by omega⟩, rfl, rfl⟩
  · rintro ⟨op, x, hk, ⟨h1, h2⟩, ha, hv⟩
    refine ⟨op, c.1, hk, x - op.addr, by omega, ?_⟩
    rw [show op.addr + (x - op.addr) = x by omega, ← ha, ← hv]

/-- The bits that the draw gives a covered byte are those asked for some covered byte with the same address in the
draw. -/
theorem mask_drawing {r : TearRule} {pending : List PendOp} (took : Nat → Nat → Nat → Bool) {k x : Nat} {op : PendOp}
    (hk : pending[k]? = some op) (hx : op.Covers x) :
    ∃ y, op.Covers y ∧ r.drawAddr op y = r.drawAddr op x
      ∧ (r.drawing pending took).mask k (r.drawAddr op x) = byteOf (took k y) := by
  unfold TearRule.drawing Torn.mask
  dsimp only
  split
  · next c hc =>
    obtain ⟨op', y, hk', hy, ha, hv⟩ := mem_drawing_cells.1 (List.mem_of_find?_eq_some hc)
    have hp := List.find?_some hc
    simp only [Bool.and_eq_true, beq_iff_eq] at hp
    rw [hp.1] at hk' hv
    rw [hk] at hk'
    cases hk'
    exact ⟨y, hy, by rw [← ha, hp.2], hv⟩
  · next hc =>
    have hno := List.find?_eq_none.1 hc (k, r.drawAddr op x, byteOf (took k x))
      (mem_drawing_cells.2 ⟨op, x, hk, hx, rfl, rfl⟩)
    simp at hno

/-- The draw takes what it is asked for, where that keeps atomic units whole. -/
theorem took_drawing {r : TearRule} {pending : List PendOp} {took : Nat → Nat → Nat → Bool}
    (h : r.allows pending took) {k x b : Nat} {op : PendOp} (hk : pending[k]? = some op) (hx : op.Covers x)
    (hb : b < 8) : took k x b = (tearMask r (r.drawing pending took) pending k op x).getLsbD b := by
  cases op with
  | write a d =>
    have hlen : x < a + d.length := hx.2
    by_cases hu : r.AtomicMark pending k a d
    · obtain ⟨hat, hw, hal, hover⟩ := hu
      have ha : (PendOp.write a d).Covers a := ⟨le_rfl, lt_of_le_of_lt hx.1 hlen⟩
      obtain ⟨y, -, hy, hm⟩ := mask_drawing (r := r) took hk ha
      have hya : y = a := hy
      subst hya
      rw [tearMask_atomic _ ⟨hat, hw, hal, hover⟩, getLsbD_wholeMask _ hb]
      rw [show (r.drawing pending took).mask k y = byteOf (took k y) from hm, getLsbD_byteOf _ (by decide)]
      exact h.1 k y d hk hat hw hal hover x y b 0 hx.1 hx.2 ha.1 ha.2 hb (by decide)
    · obtain ⟨y, -, hy, hm⟩ := mask_drawing (r := r) took hk hx
      have hya : y = x := hy
      subst hya
      rw [tearMask_plain _ hu, show (r.drawing pending took).mask k y = byteOf (took k y) from hm, getLsbD_byteOf _ hb]
  | erase a n =>
    obtain ⟨y, hcy, hy, hm⟩ := mask_drawing (r := r) took hk hx
    cases hg : r.granule with
    | bit =>
      simp only [TearRule.drawAddr, hg] at hy hm
      rw [tearMask_erase_bit hg, hm, getLsbD_byteOf _ hb, hy]
    | sector =>
      simp only [TearRule.drawAddr, hg] at hy hm
      have hsec : x / r.sectorSize = y / r.sectorSize := by
        rcases Nat.eq_zero_or_pos r.sectorSize with h0 | h0
        · rw [h0, Nat.div_zero, Nat.div_zero]
        · exact Nat.eq_of_mul_eq_mul_right h0 hy.symm
      rw [tearMask_erase_sector hg, getLsbD_wholeMask _ hb, hm, getLsbD_byteOf _ (by decide)]
      exact h.2 k a n hk hg x y b 0 hx.1 hx.2 hcy.1 hcy.2 hsec hb (by decide)

/-- Every image that keeps atomic units whole is drawn. -/
theorem exists_tornAs {r : TearRule} {pending : List PendOp} {took : Nat → Nat → Nat → Bool}
    (h : r.allows pending took) {dur : Memory} (hd : dur.wf (some erasedByte) = true) :
    ∃ t : Torn, tornAs took dur pending (settle r t dur pending) := by
  refine ⟨r.drawing pending took, fun x b hb => settleFrom_bit r _ pending took x hb pending 0 hd ?_⟩
  intro j op hj h1 h2
  rw [Nat.zero_add]
  exact took_drawing h hj ⟨h1, h2⟩ hb

/-! ### One pending operation -/

theorem byte_ext {x y : Byte} (h : ∀ b, b < 8 → x.getLsbD b = y.getLsbD b) : x = y := BitVec.eq_of_getLsbD_eq h

theorem getElem?_singleton_eq {op o : PendOp} {k : Nat} (h : [op][k]? = some o) : k = 0 ∧ op = o := by
  rw [List.getElem?_singleton] at h
  split at h
  · next hk => exact ⟨hk, Option.some.inj h⟩
  · cases h

theorem allows_write {r : TearRule} {a : Nat} {d : List Byte} {took : Nat → Nat → Nat → Bool}
    (h : r.atomic = true → d.length = r.width → a % r.width = 0 →
      ∀ x y b c, a ≤ x → x < a + d.length → a ≤ y → y < a + d.length → b < 8 → c < 8 → took 0 x b = took 0 y c) :
    r.allows [.write a d] took := by
  refine ⟨fun k a' d' hk hat hlen hal _ => ?_, fun k a' n hk => ?_⟩
  · obtain ⟨rfl, hop⟩ := getElem?_singleton_eq hk
    cases hop
    exact h hat hlen hal
  · obtain ⟨rfl, hop⟩ := getElem?_singleton_eq hk
    cases hop

theorem allows_erase {r : TearRule} {a n : Nat} {took : Nat → Nat → Nat → Bool}
    (h : r.granule = .sector → ∀ x y b c, a ≤ x → x < a + n → a ≤ y → y < a + n →
      x / r.sectorSize = y / r.sectorSize → b < 8 → c < 8 → took 0 x b = took 0 y c) :
    r.allows [.erase a n] took := by
  refine ⟨fun k a' d' hk => ?_, fun k a' n' hk hg => ?_⟩
  · obtain ⟨rfl, hop⟩ := getElem?_singleton_eq hk
    cases hop
  · obtain ⟨rfl, hop⟩ := getElem?_singleton_eq hk
    cases hop
    exact h hg

/-- One torn write, byte by byte. -/
theorem tornAs_write {took : Nat → Nat → Nat → Bool} {dur image : Memory} {a : Nat} {d : List Byte}
    (h : tornAs took dur [.write a d] image) {k : Nat} (hk : k < d.length) :
    image.byteAt (a + k) = dur.byteAt (a + k) &&& (d[k] ||| ~~~ byteOf (took 0 (a + k))) := by
  refine byte_ext fun b hb => ?_
  rw [h _ _ hb]
  have hc : a ≤ a + k ∧ a + k < a + d.length := ⟨by omega, by omega⟩
  simp only [tornBit, PendOp.bitAfter, if_pos hc, BitVec.getLsbD_and, BitVec.getLsbD_or, BitVec.getLsbD_not, hb,
    getLsbD_byteOf, Nat.add_sub_cancel_left, List.getElem?_eq_getElem hk, Option.getD_some, decide_true, Bool.true_and]
  cases took 0 (a + k) b <;> simp

/-- One torn erase, byte by byte. -/
theorem tornAs_erase {took : Nat → Nat → Nat → Bool} {dur image : Memory} {a n : Nat}
    (h : tornAs took dur [.erase a n] image) {x : Nat} (hx : a ≤ x ∧ x < a + n) :
    image.byteAt x = dur.byteAt x ||| byteOf (took 0 x) := by
  refine byte_ext fun b hb => ?_
  rw [h _ _ hb]
  simp only [tornBit, PendOp.bitAfter, if_pos hx, BitVec.getLsbD_or, hb, getLsbD_byteOf]
  cases took 0 x b <;> simp

theorem byteOf_false : byteOf (fun _ => false) = 0 := byte_ext fun b hb => by rw [getLsbD_byteOf _ hb]; simp

theorem byteOf_true : byteOf (fun _ => true) = erasedByte :=
  byte_ext fun b hb => by
    rw [getLsbD_byteOf _ hb, show erasedByte = BitVec.allOnes 8 from rfl, BitVec.getLsbD_allOnes, decide_eq_true hb]

theorem byteOf_getLsbD (x : Byte) : byteOf x.getLsbD = x := byte_ext fun _ hb => getLsbD_byteOf _ hb

/-- All ones, or nothing. -/
theorem byteOf_const (c : Bool) : byteOf (fun _ => c) = if c then erasedByte else 0 := by
  cases c
  · exact byteOf_false
  · exact byteOf_true

theorem or_erasedByte (x : Byte) : x ||| erasedByte = erasedByte := by
  rw [show erasedByte = BitVec.allOnes 8 from rfl, BitVec.or_allOnes]

/-- A byte that a write covers, taken whole or not at all. -/
theorem write_whole (x y : Byte) (c : Bool) :
    x &&& (y ||| ~~~ (if c then erasedByte else 0)) = if c then x &&& y else x := by
  cases c
  · show x &&& (y ||| BitVec.allOnes 8) = x
    rw [BitVec.or_allOnes, BitVec.and_allOnes]
  · simp

/-- A byte that an erase covers, taken whole or not at all. -/
theorem erase_whole (x : Byte) (c : Bool) : (x ||| if c then erasedByte else 0) = if c then erasedByte else x := by
  cases c
  · simp
  · exact or_erasedByte x

/-- The bits of an operation that stands alone over a byte (20_memory.md R70). -/
theorem tornBit_alone (took : Nat → Nat → Nat → Bool) {x : Nat} (b : Nat) {before after : List PendOp} {op : PendOp}
    (h : ∀ o ∈ before ++ after, ¬o.Covers x) (v : Bool) :
    tornBit took x b 0 (before ++ op :: after) v = if took before.length x b then op.bitAfter x b v else v := by
  have hb : ∀ o ∈ before, ¬o.Covers x := fun o ho => h o (List.mem_append_left _ ho)
  have ha : ∀ o ∈ after, ¬o.Covers x := fun o ho => h o (List.mem_append_right _ ho)
  rw [tornBit_append, tornBit_of_not_covers took b 0 hb, Nat.zero_add]
  simp only [tornBit]
  exact tornBit_of_not_covers took b _ ha _

theorem wholeMask_eq (m : Byte) : wholeMask m = if m.getLsbD 0 then erasedByte else 0 := rfl

/-- A byte of a settled mark unit over which no other operation lies (20_memory.md R70). -/
theorem byteAt_settle_mark {r : TearRule} (t : Torn) {dur : Memory} {before after : List PendOp} {a : Nat}
    {data : List Byte} (hd : dur.wf (some erasedByte) = true) (hat : r.atomic = true) (hlen : data.length = r.width)
    (hal : a % r.width = 0) (hover : ∀ o ∈ before ++ after, o.overlaps (.write a data) = false) {k : Nat}
    (hk : k < data.length) :
    (settle r t dur (before ++ .write a data :: after)).byteAt (a + k) =
      if (t.mask before.length a).getLsbD 0 then dur.byteAt (a + k) &&& data[k] else dur.byteAt (a + k) := by
  have herase : (before ++ .write a data :: after).eraseIdx before.length = before ++ after := by
    rw [List.eraseIdx_append_of_length_le le_rfl, Nat.sub_self, List.eraseIdx_cons_zero]
  have hothers := (all_eraseIdx_iff (p := fun o => !o.overlaps (.write a data))).1 (by
    rw [herase, List.all_eq_true]
    exact fun o ho => by rw [hover o ho]; rfl)
  have hunit : r.AtomicMark (before ++ .write a data :: after) before.length a data :=
    ⟨hat, hlen, hal, fun j o hj hne => by simpa using hothers j o hj hne⟩
  have hplace : (before ++ .write a data :: after)[before.length]? = some (.write a data) := by simp
  have hc : (PendOp.write a data).Covers (a + k) := ⟨Nat.le_add_right a k, Nat.add_lt_add_left hk a⟩
  refine byte_ext fun b hb => ?_
  rw [settle_tornAs r t _ hd _ b hb,
    tornBit_alone _ b (fun o ho => not_covers_of_not_overlaps (hover o ho) hc), TearRule.took_of_get hplace,
    tearMask_atomic t hunit, getLsbD_wholeMask _ hb]
  have hbit (v : Bool) : (PendOp.write a data).bitAfter (a + k) b v = (v && data[k].getLsbD b) := by
    refine (if_pos hc).trans ?_
    rw [Nat.add_sub_cancel_left, List.getElem?_eq_getElem hk, Option.getD_some]
  rw [hbit]
  split
  · rw [BitVec.getLsbD_and]
  · rfl

/-- A byte of a settled erase by sectors (20_memory.md R85). -/
theorem byteAt_settle_sector {r : TearRule} (t : Torn) {dur : Memory} {a n : Nat}
    (hd : dur.wf (some erasedByte) = true) (hg : r.granule = .sector) {x : Nat} (hx : a ≤ x ∧ x < a + n) :
    (settle r t dur [.erase a n]).byteAt x =
      if (t.mask 0 (x / r.sectorSize * r.sectorSize)).getLsbD 0 then erasedByte else dur.byteAt x := by
  have htook : r.took t [.erase a n] 0 x =
      (wholeMask (t.mask 0 (x / r.sectorSize * r.sectorSize))).getLsbD := funext fun b => by
    rw [TearRule.took_of_get (op := .erase a n) rfl, tearMask_erase_sector hg]
  rw [tornAs_erase (settle_tornAs r t _ hd) hx, htook, byteOf_getLsbD, wholeMask_eq, erase_whole]

end Sys2Proof.Machine

namespace Sys2Proof.Proofs

/-- Settles O49: a settled bit's history, read off the operations that its draw took. -/
theorem tornBitsComeFromTheirHistory : Obligations.TornBitsComeFromTheirHistory := by
  unfold Obligations.TornBitsComeFromTheirHistory
  intro r t dur pending x b hd v
  by_cases hb : b < 8
  · have hv : v = tornBit (r.took t pending) x b 0 pending ((dur.byteAt x).getLsbD b) :=
      settle_tornAs r t pending hd x b hb
    rcases tornBit_history (r.took t pending) x b pending ((dur.byteAt x).getLsbD b) with h | ⟨k, op, hk, hc, h⟩
    · exact .inl (hv.trans h)
    · exact .inr ⟨k, op, hk, hc.1, hc.2, by rw [hv, h, bit_foldl_apply x hb _ 0 hd]⟩
  · left
    show BitVec.getLsbD _ b = BitVec.getLsbD _ b
    rw [BitVec.getLsbD_of_ge _ _ (by omega), BitVec.getLsbD_of_ge _ _ (by omega)]

/-- Settles O50: a draw for any choice of bits that keeps atomic units whole, and the choices of its single writes and
erases. -/
theorem anyTearOfAWriteIsDrawn : Obligations.AnyTearOfAWriteIsDrawn := by
  unfold Obligations.AnyTearOfAWriteIsDrawn
  refine ⟨fun r dur pending hd => ⟨fun took h => exists_tornAs h hd, fun t => ⟨_, took_allows r t pending,
    settle_tornAs r t pending hd⟩⟩, ?_, ?_, ?_, ?_, ?_⟩
  · intro r dur pending pick hd hw he
    have hallows : r.allows pending (fun k x b => decide (k < pick x b)) := by
      refine ⟨fun k a d hk hat hlen hal _ => ?_, fun k a n hk hg => ?_⟩
      · rcases hw with hw | hw
        · rw [hat] at hw; cases hw
        · exact absurd ⟨hlen, hal⟩ (hw a d (List.mem_of_getElem? hk))
      · rcases he with he | he
        · rw [hg] at he; cases he
        · exact absurd (List.mem_of_getElem? hk) (he a n)
    obtain ⟨t, ht⟩ := exists_tornAs hallows hd
    refine ⟨t, fun x b hb => ?_⟩
    rw [ht x b hb, bit_foldl_apply x hb _ 0 hd]
    exact tornBit_take (fun _ => rfl) 0 pending _
  · intro r dur a data pick hd hna
    have hallows : r.allows [.write a data] (fun _ x => (pick (x - a)).getLsbD) :=
      allows_write fun h1 h2 h3 => absurd ⟨h1, h2, h3⟩ hna
    obtain ⟨t, ht⟩ := exists_tornAs hallows hd
    refine ⟨t, fun k hk => ?_⟩
    rw [tornAs_write ht hk, byteOf_getLsbD, Nat.add_sub_cancel_left]
  · intro r dur a data lands hd
    have hallows : r.allows [.write a data] (fun _ _ _ => lands) := allows_write fun _ _ _ _ _ _ _ _ _ _ _ _ _ => rfl
    obtain ⟨t, ht⟩ := exists_tornAs hallows hd
    exact ⟨t, fun k hk => by rw [tornAs_write ht hk, byteOf_const, write_whole]⟩
  · intro r dur a n pick hd hg
    have hallows : r.allows [.erase a n] (fun _ x => (pick (x - a)).getLsbD) :=
      allows_erase fun h => by rw [hg] at h; cases h
    obtain ⟨t, ht⟩ := exists_tornAs hallows hd
    refine ⟨t, fun k hk => ?_⟩
    rw [tornAs_erase ht (by omega), byteOf_getLsbD, Nat.add_sub_cancel_left]
  · intro r dur a n lands hd hg hss
    have hallows : r.allows [.erase a n] (fun _ x _ => lands (x / r.sectorSize)) :=
      allows_erase fun _ x y b c _ _ _ _ hxy _ _ => by rw [hxy]
    obtain ⟨t, ht⟩ := exists_tornAs hallows hd
    exact ⟨t, fun k hk => by rw [tornAs_erase ht (by omega), byteOf_const, erase_whole]⟩

/-- Settles O51: an atomic unit's bits all follow one bit of the draw. -/
theorem atomicUnitsTearWhole : Obligations.AtomicUnitsTearWhole := by
  unfold Obligations.AtomicUnitsTearWhole
  refine ⟨?_, ?_⟩
  · intro r t dur before after a data hd hat hlen hal hover m
    cases hc : (t.mask before.length a).getLsbD 0 with
    | false => exact .inl fun k hk => (byteAt_settle_mark t hd hat hlen hal hover hk).trans (by rw [hc]; rfl)
    | true => exact .inr fun k hk => (byteAt_settle_mark t hd hat hlen hal hover hk).trans (by rw [hc]; rfl)
  · intro r t dur a n q hd hg hss _ _ hlo hhi m
    have hbyte (k : Nat) (hk : k < r.sectorSize) : m.byteAt (q * r.sectorSize + k) =
        if (t.mask 0 (q * r.sectorSize)).getLsbD 0 then erasedByte else dur.byteAt (q * r.sectorSize + k) := by
      have hdiv : (q * r.sectorSize + k) / r.sectorSize = q := by
        rw [Nat.mul_comm, Nat.mul_add_div hss, Nat.div_eq_of_lt hk, Nat.add_zero]
      have hend : (q + 1) * r.sectorSize = q * r.sectorSize + r.sectorSize := Nat.succ_mul ..
      exact (byteAt_settle_sector t hd hg ⟨by omega, by omega⟩).trans (by rw [hdiv])
    cases hc : (t.mask 0 (q * r.sectorSize)).getLsbD 0 with
    | false => exact .inl fun k hk => (hbyte k hk).trans (by rw [hc]; rfl)
    | true => exact .inr fun k hk => (hbyte k hk).trans (by rw [hc]; rfl)

/-- Settles O52: what a splice reads as. -/
theorem failedOperationStaysPending : Obligations.FailedOperationStaysPending := by
  unfold Obligations.FailedOperationStaysPending
  exact fun r t d op _ _ => ⟨rfl, rfl, fun x => Memory.byteAt_splice ..⟩

end Sys2Proof.Proofs
end

