-- ==== Sys2Proof/Proofs/Acquire.lean ====
section
/-! PROOF. ACQUIRE_BUS while the device withholds its ownership, and when it grants it. -/

open Sys2Proof Sys2Proof.Machine

namespace Sys2Proof.Machine

variable {s : State} {rest : List Input}

/-- A device's answer at the head of the schedule is what comes next. -/
theorem answer_of_dev {d : Draw} (hi : s.inputs = .dev d :: rest) : answer s = .ok d { s with inputs := rest } := by
  unfold answer
  rw [hi]

theorem point_of_dev {d : Draw} (hi : s.inputs = .dev d :: rest) (op : Option (UnitId × PendOp)) :
    point op s = .ok () s := point_of_no_event op fun e r he => by rw [hi] at he; cases he

/-- The device goes on withholding its ownership (20_memory.md R72). -/
theorem acquireFresh_withheld {t : Torn} (u : UnitId) (h : HostId) (hi : s.inputs = .dev (.fail t) :: rest) :
    acquireFresh u h s = .error .waiting { s with inputs := rest, waiting := some (u, h) } := by
  unfold acquireFresh
  rw [Proc.bind_ok (point_of_dev hi none), Proc.bind_ok (answer_of_dev hi)]
  rfl

/-- The device grants its ownership (44_dispatch_and_lock.md R280). -/
theorem acquireFresh_granted (u : UnitId) (h : HostId) (hi : s.inputs = .dev .ok :: rest)
    (hq : State.uneventful { s with inputs := rest } = true) :
    acquireFresh u h s = .ok () { (s.setDev u { s.dev u with owned := true }).setLock u ⟨1, h⟩ with
      inputs := rest, waiting := none } := by
  unfold acquireFresh
  rw [Proc.bind_ok (point_of_dev hi none), Proc.bind_ok (answer_of_dev hi)]
  refine (change_uneventful hq _).trans ?_
  cases u <;> rfl

theorem finish_uneventful (hq : s.uneventful = true) (e : ErrCode) : finish e s = .next (s.complete e) := by
  unfold finish
  rw [point_uneventful hq]

/-- An ACQUIRE_BUS that the lock and DRV let run takes the lock. -/
theorem exec_acquireOf {u : UnitId} {h : HostId} (hs : s.startable u h) :
    exec (acquireOf u h) s = conclude u false (acquire u h s) := by
  have hexec : exec (acquireOf u h) s = runCommand u h false (do checkState (·.started u); acquire u h) s := by
    cases u <;> rfl
  have hstarted : s.started u = true := by
    unfold State.started
    rcases hs.2 with hd | hd <;> rw [hd] <;> rfl
  rw [hexec]
  unfold runCommand
  rw [if_neg (by rw [hs.1]; decide), checked_apply, if_pos hstarted]

/-- A step of a waiting ACQUIRE_BUS goes on with it. -/
theorem step_of_waiting {u : UnitId} {h : HostId} (hw : s.waiting = some (u, h)) :
    step s = conclude u false (acquireFresh u h s) := by
  unfold step fetch
  rw [hw]
  rfl

end Sys2Proof.Machine

namespace Sys2Proof.Proofs

/-- Settles O11: what DevAcquire does with the device's answer, under a new ACQUIRE_BUS and under a waiting one. -/
theorem acquireWaitsForTheDevice : Obligations.AcquireWaitsForTheDevice := by
  unfold Obligations.AcquireWaitsForTheDevice
  refine ⟨fun u h s t rest hs hfree hi => ?_, fun u h s t rest hw hi => ?_, fun u h s rest hw hi hq => ?_⟩
  · rw [exec_acquireOf hs, acquire_apply, if_pos hfree, acquireFresh_withheld u h hi]
    rfl
  · rw [step_of_waiting hw, acquireFresh_withheld u h hi, ← hw]
    rfl
  · rw [step_of_waiting hw, acquireFresh_granted u h hi hq]
    refine finish_uneventful (uneventful_of_eq hq ?_) .ok
    rfl

end Sys2Proof.Proofs
end

