-- ==== Sys2Proof/Proofs/Lawful.lean ====
section
/-! PROOF. Procedures that break neither the device contract nor BUF's bounds, and ask no device to set a 0 bit: a logic
of such ends, in which the bytes that stay erased are followed, and its rules for the shared operations. -/

open Sys2Proof Sys2Proof.Machine

namespace Sys2Proof.Machine

variable {α β γ δ : Type} {c o : Prop} {u : UnitId}

/-! ### Faults that the engine would be to blame for -/

/-- The faults in question: those of assumption 15 where `c` asks for them, and an overwrite (20_memory.md R84) where
`o` does. -/
def Breach (c o : Prop) : Fault → Prop
  | .deviceContract => c
  | .bufferBounds => c
  | .overwrite => o
  | .hostBusError _ => False
  | .hostBufWrite _ => False

/-- An early end with none of these faults. -/
structure Lawful (c o : Prop) (e : Stop) (t : State) : Prop where
  noBreach : ∀ f, e = .fault f → ¬Breach c o f

theorem lawful_raised (e : ErrCode) (t : State) : Lawful c o (.raised e) t := ⟨nofun⟩
theorem lawful_powerLost (t : State) : Lawful c o .powerLost t := ⟨nofun⟩
theorem lawful_waiting (t : State) : Lawful c o .waiting t := ⟨nofun⟩

theorem lawful_fault {f : Fault} (h : ¬Breach c o f) (t : State) : Lawful c o (.fault f) t :=
  ⟨fun f' hf => by cases hf; exact h⟩

/-! ### What stays erased -/

/-- The device's image is canonical and these bytes of it are erased, where `o` asks for it. -/
def Erased (o : Prop) (u : UnitId) (S : Set Nat) (s : State) : Prop :=
  o → Memory.wf (some erasedByte) (s.dev u).cur = true ∧ ∀ x ∈ S, (s.dev u).cur.byteAt x = erasedByte

/-- `t` comes after `s`: a view of the banks is as it was, and so are the device's erased bytes outside `D`. -/
structure State.Leaves (u : UnitId) (v : Banks → β) (D : Set Nat) (s t : State) : Prop where
  follows : s.Follows v t
  canonical : Memory.wf (some erasedByte) (s.dev u).cur = true → Memory.wf (some erasedByte) (t.dev u).cur = true
  erased : Memory.wf (some erasedByte) (s.dev u).cur = true → ∀ x, x ∉ D → (s.dev u).cur.byteAt x = erasedByte →
    (t.dev u).cur.byteAt x = erasedByte

section leaves
variable {v : Banks → β} {w : Banks → γ} {D D' S S' : Set Nat} {s t r : State}

theorem State.Leaves.of_cur (h : s.Follows v t) (hc : (t.dev u).cur = (s.dev u).cur) : s.Leaves u v D t :=
  ⟨h, fun k => by rw [hc]; exact k, fun _ x _ k => by rw [hc]; exact k⟩

theorem State.Leaves.trans (h : s.Leaves u v D t) (k : t.Leaves u v D r) : s.Leaves u v D r :=
  ⟨h.follows.trans k.follows, k.canonical ∘ h.canonical,
    fun hs x hx hb => k.erased (h.canonical hs) x hx (h.erased hs x hx hb)⟩

theorem State.Leaves.mono (h : s.Leaves u v D t) (hv : ∀ a b, v a = v b → w a = w b) (hD : D ⊆ D') :
    s.Leaves u w D' t :=
  ⟨h.follows.mono hv, h.canonical, fun hs x hx => h.erased hs x fun hd => hx (hD hd)⟩

theorem Erased.mono (h : Erased o u S s) (hS : S' ⊆ S) : Erased o u S' s :=
  fun ho => ⟨(h ho).1, fun x hx => (h ho).2 x (hS hx)⟩

theorem Erased.union (h : Erased o u S s) (h' : Erased o u S' s) : Erased o u (S ∪ S') s :=
  fun ho => ⟨(h ho).1, fun x hx => hx.elim ((h ho).2 x) ((h' ho).2 x)⟩

/-- Erased bytes outside what is touched stay erased. -/
theorem Erased.leaves (h : Erased o u S s) (k : s.Leaves u v D t) (hS : ∀ x ∈ S, x ∉ D) : Erased o u S t :=
  fun ho => ⟨k.canonical (h ho).1, fun x hx => k.erased (h ho).1 x (hS x hx) ((h ho).2 x hx)⟩

/-- That the image is canonical, and no more. -/
theorem Erased.canonical (h : Erased o u S s) (k : s.Leaves u v D t) : Erased o u ∅ t :=
  fun ho => ⟨k.canonical (h ho).1, nofun⟩

end leaves

/-! ### The logic -/

/-- The procedure ends lawfully; where it ends well, it leaves what `Leaves` says, and `R` holds. -/
def Does (c o : Prop) (u : UnitId) (v : Banks → β) (D : Set Nat) (R : α → State → Prop) (p : Proc α) (s : State) :
    Prop :=
  Ends (fun a t => s.Leaves u v D t ∧ R a t) (Lawful c o) (p s)

section does
variable {v : Banks → β} {w : Banks → γ} {D D' : Set Nat} {R R' : α → State → Prop} {T : δ → State → Prop} {p : Proc α}
  {f : α → Proc δ} {s : State}

theorem Does.mono (h : Does c o u v D R p s) (hv : ∀ a b, v a = v b → w a = w b) (hD : D ⊆ D')
    (hR : ∀ a t, s.Leaves u v D t → R a t → R' a t) : Does c o u w D' R' p s :=
  Ends.mono h (fun a t ⟨k, hr⟩ => ⟨k.mono hv hD, hR a t k hr⟩) fun _ _ k => k

/-- The answer is described anew. -/
theorem Does.imp (h : Does c o u v D R p s) (hR : ∀ a t, s.Leaves u v D t → R a t → R' a t) :
    Does c o u v D R' p s := h.mono (fun _ _ e => e) subset_rfl hR

theorem Does.bind (h : Does c o u v D R p s)
    (hf : ∀ a t, s.Leaves u v D t → R a t → Does c o u v D T (f a) t) : Does c o u v D T (p >>= f) s :=
  Ends.bind h fun a t ⟨k, hr⟩ => Ends.mono (hf a t k hr) (fun _ _ ⟨k', hr'⟩ => ⟨k.trans k', hr'⟩) fun _ _ e => e

/-- A first part that leaves all of the banks and all erased bytes. -/
theorem Does.bind_still (h : Does c o u id ∅ R p s)
    (hf : ∀ a t, s.Leaves u id ∅ t → R a t → Does c o u v D T (f a) t) : Does c o u v D T (p >>= f) s :=
  Ends.bind h fun a t ⟨k, hr⟩ => Ends.mono (hf a t k hr) (fun _ _ ⟨k', hr'⟩ =>
    ⟨(k.mono (fun _ _ e => congrArg v e) (Set.empty_subset D)).trans k', hr'⟩) fun _ _ e => e

theorem does_read {f : State → Proc δ} (h : Does c o u v D T (f s) s) : Does c o u v D T (get >>= f) s := h

theorem does_pure {a : α} (h : R a s) : Does c o u v D R (pure a : Proc α) s :=
  ⟨.of_cur (.refl v s) rfl, h⟩

theorem does_raise (e : ErrCode) : Does c o u v D R (raise e : Proc α) s := lawful_raised e s

theorem does_ite {q : Proc α} {b : Prop} [Decidable b] (hp : b → Does c o u v D R p s)
    (hq : ¬b → Does c o u v D R q s) : Does c o u v D R (if b then p else q) s := Ends.ite hp hq

theorem does_contract {f : Fault} {b : Bool} (h : Breach c o f → b = true) :
    Does c o u v D (fun _ t => t = s) (contract f b) s := by
  unfold Does
  rw [contract_apply]
  split
  · exact ⟨.of_cur (.refl v s) rfl, rfl⟩
  · next hb => exact lawful_fault (fun hf => hb (h hf)) s

/-- A command goes on only in the states that its check lets through (44_dispatch_and_lock.md R274). -/
theorem checkState_lawful {Q : δ → State → Prop} {q : State → Bool} {f : Unit → Proc δ}
    (h : q s = true → Ends Q (Lawful c o) (f () s)) : Ends Q (Lawful c o) ((checkState q >>= f) s) := by
  rw [Proc.bind_apply, checkState_apply]
  by_cases hq : q s = true
  · rw [if_pos hq]
    exact h hq
  · rw [if_neg hq]
    exact lawful_raised _ s

end does

/-! ### The points -/

/-- A host's own faults are not the engine's. -/
theorem hostEvent_error {s : State} {running : Bool} {h : HostId} {a : Access} {f : Fault}
    (he : s.hostEvent running h a = .error f) : ¬Breach c o f := by
  unfold State.hostEvent at he
  split at he
  · unfold hostAccess at he
    split at he
    · cases he
    · split at he
      · split at he <;> cases he
        exact id
      · split at he
        · split at he
          · unfold bufAccess at he
            split at he <;> cases he
            exact id
          · cases he
            exact id
        · cases he
  · cases he

theorem hostEvent_dev {s t : State} {running : Bool} {h : HostId} {a : Access} (he : s.hostEvent running h a = .ok t)
    (u : UnitId) : t.dev u = s.dev u := by
  rw [(hostEvent_frame he).1]
  cases u <;> rfl

theorem overwriteFault_congr {s t : State} (hp : t.params = s.params) (hd : ∀ u, t.dev u = s.dev u)
    (op : Option (UnitId × PendOp)) : t.overwriteFault op = s.overwriteFault op := by
  unfold State.overwriteFault
  rw [hp]
  split
  · rw [hd]
  · rfl

theorem takeEvents_lawful (op : Option (UnitId × PendOp)) (l : List Input) (s : State)
    (ho : o → s.overwriteFault op = false) :
    Ends (fun _ t => ∀ u, t.dev u = s.dev u) (Lawful c o) (takeEvents op l s) := by
  induction l generalizing s with
  | nil => rw [takeEvents.eq_def]; exact fun u => by cases u <;> rfl
  | cons x rest ih =>
    rw [takeEvents.eq_def]
    cases x with
    | idle e => exact fun u => by cases u <;> rfl
    | dev d => exact fun u => by cases u <;> rfl
    | regStep => exact fun u => by cases u <;> rfl
    | busy e =>
      cases e with
      | access h a =>
        dsimp only
        cases he : s.hostEvent true h a with
        | error f => exact lawful_fault (hostEvent_error he) { s with inputs := rest }
        | ok s' =>
          have hdev := hostEvent_dev he
          have hpar : s'.params = s.params := by rw [(hostEvent_frame he).1]
          exact (ih s' fun h => (overwriteFault_congr hpar hdev op).trans (ho h)).mono
            (fun _ t k u => (k u).trans (hdev u)) fun _ _ k => k
      | powerLoss cut =>
        dsimp only
        split
        · next hcut =>
          refine lawful_fault (fun h => ?_) _
          rw [ho h, Bool.and_false] at hcut
          cases hcut
        · exact lawful_powerLost _

/-- A point touches no device. -/
theorem point_does {s : State} (op : Option (UnitId × PendOp)) (ho : o → s.overwriteFault op = false) :
    Does c o u id ∅ (fun _ t => ∀ u, t.dev u = s.dev u) (point op) s := by
  have h := (takeEvents_lawful (c := c) op s.inputs s ho).and (point_ends id op s)
  exact h.mono (fun _ t ⟨k, hf⟩ => ⟨.of_cur hf (by rw [k u]), k⟩) fun _ _ k => k.1

theorem point_none_does (s : State) :
    Does c o u id ∅ (fun _ t => ∀ u, t.dev u = s.dev u) (point none) s := point_does none fun _ => rfl

theorem answer_does (s : State) : Does c o u id ∅ (fun _ t => ∀ u, t.dev u = s.dev u) answer s := by
  have h := answer_within.ends s
  unfold Does
  obtain ⟨d, i, n, he⟩ := answer_cases s
  rw [he] at h ⊢
  exact ⟨.of_cur h (by cases u <;> rfl), fun u => by cases u <;> rfl⟩

/-! ### Register changes -/

theorem change_lawful {g : State → State} (hg : ∀ (s : State) (u : UnitId), (g s).dev u = s.dev u) (s : State) :
    Ends (fun _ t => ∀ u, t.dev u = s.dev u) (Lawful c o) (change g s) := by
  have hp := takeEvents_lawful (c := c) (o := o) none s.inputs s fun _ => rfl
  rw [change_apply]
  unfold point
  cases hq : takeEvents none s.inputs s with
  | error e t =>
    rw [hq] at hp
    exact hp
  | ok a t =>
    rw [hq] at hp
    exact fun u => (hg _ u).trans ((by cases u <;> simp [State.dev] : t.dropRegStep.dev u = t.dev u).trans (hp u))

/-- A register change raises no such fault, whatever it changes. -/
theorem change_ends_lawful (g : State → State) (s : State) : Ends (fun _ _ => True) (Lawful c o) (change g s) :=
  Ends.bind (point_none_does (u := .mirror) s) fun _ _ _ => trivial

theorem feeRegs_lawful (gs : List (FeeUnit → FeeUnit)) (s : State) :
    Ends (fun _ t => ∀ u, t.dev u = s.dev u) (Lawful c o) (feeRegs gs s) := by
  induction gs generalizing s with
  | nil => exact fun _ => rfl
  | cons g gs ih =>
    refine (change_lawful (fun s u => by cases u <;> rfl) s).bind fun _ t k => ?_
    exact (ih t).mono (fun _ _ k' u => (k' u).trans (k u)) fun _ _ e => e

theorem mirrorRegs_lawful (gs : List (MirrorUnit → MirrorUnit)) (s : State) :
    Ends (fun _ t => ∀ u, t.dev u = s.dev u) (Lawful c o) (mirrorRegs gs s) := by
  induction gs generalizing s with
  | nil => exact fun _ => rfl
  | cons g gs ih =>
    refine (change_lawful (fun s u => by cases u <;> rfl) s).bind fun _ t k => ?_
    exact (ih t).mono (fun _ _ k' u => (k' u).trans (k u)) fun _ _ e => e

theorem infoRegs_lawful (gs : List (InfoRegs → InfoRegs)) (s : State) :
    Ends (fun _ t => ∀ u, t.dev u = s.dev u) (Lawful c o) (infoRegs gs s) := by
  induction gs generalizing s with
  | nil => exact fun _ => rfl
  | cons g gs ih =>
    refine (change_lawful (fun s u => by cases u <;> rfl) s).bind fun _ t k => ?_
    exact (ih t).mono (fun _ _ k' u => (k' u).trans (k u)) fun _ _ e => e

theorem infoRegs_does (gs : List (InfoRegs → InfoRegs)) (s : State) :
    Does c o u id ∅ (fun _ _ => True) (infoRegs gs) s :=
  ((infoRegs_lawful gs s).and ((infoRegs_within gs).ends s)).mono
    (fun _ _ ⟨k, hf⟩ => ⟨.of_cur hf (by rw [k u]), trivial⟩) fun _ _ k => k.1

/-- FEE registers take their values, and a view that does not tell is as it was. -/
theorem feeRegs_does {v : Banks → β} {gs : List (FeeUnit → FeeUnit)}
    (h : ∀ b : Banks, v { b with f := gs.foldl (fun f g => g f) b.f } = v b) (s : State) :
    Does c o u v ∅ (fun _ t => t.f = gs.foldl (fun f g => g f) s.f) (feeRegs gs) s :=
  ((feeRegs_lawful gs s).and (feeRegs_ends gs s)).mono
    (fun _ _ ⟨k, hf⟩ => ⟨.of_cur ((setF_follows (h s.banks)).trans (hf.see v)) (by rw [k u]), congrArg Banks.f hf.view⟩)
    fun _ _ k => k.1

/-- As `feeRegs_does`, for the Mirror bank. -/
theorem mirrorRegs_does {v : Banks → β} {gs : List (MirrorUnit → MirrorUnit)}
    (h : ∀ b : Banks, v { b with m := gs.foldl (fun m g => g m) b.m } = v b) (s : State) :
    Does c o u v ∅ (fun _ t => t.m = gs.foldl (fun m g => g m) s.m) (mirrorRegs gs) s :=
  ((mirrorRegs_lawful gs s).and (mirrorRegs_ends gs s)).mono
    (fun _ _ ⟨k, hf⟩ => ⟨.of_cur ((setM_follows (h s.banks)).trans (hf.see v)) (by rw [k u]), congrArg Banks.m hf.view⟩)
    fun _ _ k => k.1

/-! ### The device primitives -/

/-- A read within the device returns its bytes. -/
theorem devRead_does {a n : Nat} {s : State} (hr : c → a + n ≤ (s.dev u).bytes) :
    Does c o u id ∅ (fun bs _ => bs = (s.dev u).cur.bytesAt a n) (devRead u a n) s := by
  refine does_read (.bind (does_contract fun hc => decide_eq_true (hr hc)) ?_)
  rintro - _ - rfl
  refine (point_none_does _).bind fun _ t1 k1 h1 => (answer_does t1).bind fun d t2 k2 h2 => ?_
  cases d with
  | ok => exact does_read (does_pure (by rw [h2, h1]))
  | fail t => exact does_raise .dev

theorem State.Leaves.setDev {v : Banks → β} {D : Set Nat} {s : State} {d : Device} (hi : d.info = (s.dev u).info)
    (hc : Memory.wf (some erasedByte) (s.dev u).cur = true → Memory.wf (some erasedByte) d.cur = true)
    (he : Memory.wf (some erasedByte) (s.dev u).cur = true → ∀ x, x ∉ D → (s.dev u).cur.byteAt x = erasedByte →
      d.cur.byteAt x = erasedByte) : s.Leaves u v D (s.setDev u d) :=
  ⟨.setDev hi, by rw [State.dev_setDev]; exact hc, by rw [State.dev_setDev]; exact he⟩

/-- The bytes that an operation may take from being erased. -/
def PendOp.dirties : PendOp → Set Nat
  | .write a d => Set.Ico a (a + d.length)
  | .erase _ _ => ∅

theorem byteAt_apply_erase {m : Memory} (h : m.wf (some erasedByte) = true) (a n x : Nat) :
    ((PendOp.erase a n).apply m).byteAt x = if a ≤ x ∧ x < a + n then erasedByte else m.byteAt x :=
  (byteAt_landErase h (fun _ => erasedByte) a n x).trans (by rw [or_erasedByte])

theorem apply_keeps_erased {m : Memory} (h : m.wf (some erasedByte) = true) (op : PendOp) {x : Nat}
    (hx : x ∉ op.dirties) (hb : m.byteAt x = erasedByte) : (op.apply m).byteAt x = erasedByte := by
  cases op with
  | write a d => exact (byteAt_landWrite h _ a d x).trans ((if_neg hx).trans hb)
  | erase a n => rw [byteAt_apply_erase h, hb, ite_self]

theorem performOp_does (op : PendOp) (d : Draw) (s : State) :
    Does c o u id op.dirties (fun _ t => (t.dev u).cur = op.apply (s.dev u).cur) (performOp u op d) s := by
  unfold Does
  rw [performOp_apply]
  cases d with
  | ok =>
    refine ⟨.setDev rfl (fun h => wf_land h op _) fun h x hx => apply_keeps_erased h op hx, ?_⟩
    exact congrArg Device.cur (State.dev_setDev s u _)
  | fail t => exact lawful_raised _ _

theorem overwriteOp_does (op : PendOp) (d : Draw) (s : State) (ho : ¬o) :
    Does c o u id op.dirties (fun _ t => (t.dev u).cur = op.apply (s.dev u).cur) (overwriteOp u op d) s := by
  unfold overwriteOp
  refine does_read ?_
  generalize s.params.overwrite = rule
  match rule, d with
  | .fault, _ => exact lawful_fault (f := .overwrite) ho s
  | .and, _ => exact performOp_does op _ s
  | .fail, .fail t => exact performOp_does op _ s
  | .fail, .ok =>
    have hs : s.Leaves u id op.dirties { s with draws := s.draws + 1 } :=
      .of_cur (.of_eq rfl rfl rfl) (by cases u <;> rfl)
    refine Ends.mono (performOp_does op (.fail (.free s.draws)) _) (fun _ t ⟨k, hk⟩ => ⟨hs.trans k, hk.trans ?_⟩)
      fun _ _ e => e
    cases u <;> rfl

/-- A write that keeps the contract and sets no 0 bit. -/
theorem devWrite_does {a : Nat} {data : List Byte} {s : State} (hw : c → (s.dev u).writable a data.length = true)
    (ho : o → (s.dev u).overwrites a data = false) :
    Does c o u id (Set.Ico a (a + data.length)) (fun _ t => (t.dev u).cur = (PendOp.write a data).apply (s.dev u).cur)
      (devWrite u a data) s := by
  have hpoint : o → s.overwriteFault (some (u, .write a data)) = false := fun h => by
    show (_ && _) = false
    rw [ho h, Bool.and_false]
  refine does_read (.bind_still (R := fun _ t => t = s) (does_contract fun hc => hw hc) fun _ t0 _ h0 => ?_)
  rw [h0]
  refine (point_does _ hpoint).bind_still fun _ t1 k1 h1 => (answer_does t1).bind_still fun d t2 k2 h2 => ?_
  have hdev : t2.dev u = s.dev u := (h2 u).trans (h1 u)
  refine does_read (does_ite (fun hov => ?_) fun _ => ?_)
  · have hno : ¬o := fun h => by
      rw [hdev, ho h] at hov
      cases hov
    exact (overwriteOp_does (.write a data) d t2 hno).imp fun _ _ _ h => by rw [h, hdev]
  · exact (performOp_does (.write a data) d t2).imp fun _ _ _ h => by rw [h, hdev]

/-- An erase that keeps the contract erases its range. -/
theorem devErase_does {a n : Nat} {s : State} (hw : c → (s.dev u).erasable a n = true) (hs : Erased o u ∅ s) :
    Does c o u id ∅ (fun _ t => Erased o u (Set.Ico a (a + n)) t) (devErase u a n) s := by
  refine does_read (.bind (does_contract fun hc => hw hc) ?_)
  rintro - _ - rfl
  refine (point_does _ fun _ => rfl).bind fun _ t1 k1 h1 => (answer_does t1).bind fun d t2 k2 h2 => ?_
  refine (performOp_does (.erase a n) d t2).imp fun _ t k h ho => ?_
  have hcan := ((hs.canonical k1).canonical k2 ho).1
  exact ⟨k.canonical hcan, fun x hx => by rw [h, byteAt_apply_erase hcan]; exact if_pos hx⟩

theorem devSync_does (s : State) : Does c o u id ∅ (fun _ _ => True) (devSync u) s := by
  refine (point_none_does s).bind fun _ t1 _ _ => (answer_does t1).bind fun d t2 _ _ => ?_
  cases d with
  | ok => exact ⟨.setDev rfl id fun _ _ _ h => h, trivial⟩
  | fail t => exact does_raise .dev

theorem devGetInfo_does (s : State) : Does c o u id ∅ (fun i t => i = (s.dev u).info ∧ t = s) (devGetInfo u) s :=
  does_read (does_pure ⟨rfl, rfl⟩)

/-! ### BUF -/

theorem bufLoad_does {n : Nat} {s : State} (hn : c → n ≤ s.params.bufBytes) :
    Does c o u id ∅ (fun bs _ => bs.length = n) (bufLoad n) s := by
  refine does_read (.bind (does_contract fun hc => decide_eq_true (hn hc)) fun _ t _ _ => does_pure ?_)
  simp [State.bufBytes]

theorem bufStore_does {bs : List Byte} {s : State} (hn : c → bs.length ≤ s.params.bufBytes) :
    Does c o u id ∅ (fun _ _ => True) (bufStore bs) s := by
  refine does_read (.bind (does_contract fun hc => decide_eq_true (hn hc)) fun _ t _ _ => ?_)
  exact ⟨.of_cur (.of_eq rfl rfl rfl) (by cases u <;> rfl), trivial⟩

theorem reportInfo_does (ss sn wa : Word) {ident : List Byte} {s : State} (hn : c → ident.length ≤ s.params.bufBytes) :
    Does c o u id ∅ (fun _ _ => True) (reportInfo ss sn wa ident) s := by
  refine (infoRegs_does _ s).bind fun _ t k _ => .bind (bufStore_does fun hc => ?_) fun _ t' _ _ => infoRegs_does _ t'
  rw [show t.params = s.params from congrArg Prod.fst k.follows.fixed]
  exact hn hc

theorem guardRead_lawful {p : Proc Unit} {s : State} (n : Nat) (h : Ends (fun _ _ => True) (Lawful c o) (p s)) :
    Ends (fun _ _ => True) (Lawful c o) (guardRead n p s) := by
  unfold guardRead
  split
  · exact lawful_raised _ _
  · exact h

/-! ### The bus lock -/

theorem acquire_lawful (h : HostId) (s : State) : Ends (fun _ _ => True) (Lawful c o) (acquire u h s) := by
  rw [acquire_apply]
  split
  · refine Ends.bind (point_none_does (u := u) s) fun _ t1 _ => Ends.bind (answer_does (u := u) t1) fun d t2 _ => ?_
    cases d with
    | ok => exact change_ends_lawful _ t2
    | fail t => exact lawful_waiting _
  · split
    · exact lawful_raised _ _
    · exact change_ends_lawful _ s

theorem release_lawful (s : State) : Ends (fun _ _ => True) (Lawful c o) (release u s) := by
  rw [release_apply]
  split
  · exact lawful_raised _ s
  · split <;> exact change_ends_lawful _ s

/-! ### From a procedure to its command -/

theorem finish_lawful {f : Fault} (hf : Breach c o f) (e : ErrCode) (s : State) : finish e s ≠ .fault f := by
  have hp := point_none_does (c := c) (o := o) (u := .mirror) s
  unfold Does at hp
  rcases finish_cases e s with ⟨t, -, h⟩ | ⟨f', t, hq, h⟩ | ⟨x, t, -, -, h⟩ <;> rw [h]
  · nofun
  · rw [hq] at hp
    rintro ⟨⟩
    exact hp.noBreach f rfl hf
  · nofun

/-- A command whose procedure ends lawfully raises no such fault. -/
theorem exec_lawful {i : Instr} {s : State} {f : Fault} (hb : Ends (fun _ _ => True) (Lawful c o) (bodyOf i s))
    (hf : Breach c o f) : exec i s ≠ .fault f := by
  rw [exec_eq_runCommand]
  unfold runCommand
  split
  · exact finish_lawful hf _ s
  · rcases conclude_cases i.unit (setsRecover i) (bodyOf i s) with
      ⟨a, t, -, h⟩ | ⟨e, t, -, h⟩ | ⟨t, -, h⟩ | ⟨f', t, hq, h⟩ <;> rw [h]
    · exact finish_lawful hf _ t
    · exact finish_lawful hf _ _
    · nofun
    · rw [hq] at hb
      rintro ⟨⟩
      exact hb.noBreach f rfl hf

end Sys2Proof.Machine
end

