-- ==== Sys2Proof/Proofs/FeeLayout.lean ====
section
/-! PROOF. The layout of a fit FEE device: where arenas and slots lie, that they lie within the device, and their
alignment (30_encoding.md R115 to R118; 42_fee.md R214). -/

open Sys2Proof Sys2Proof.Machine

namespace Sys2Proof.Machine

/-! ### The numbers of the layout -/

/-- F_ARENA_BYTES of a device. -/
def arenaSpan (d : DevInfo) : Nat := d.sectorNum / 2 * d.sectorSize

/-- F_SLOT_SIZE. -/
def slotSpan (p : Params) : Nat := slotBytes p.widthF p.payload

/-- F_NUM_SLOTS of a device. -/
def slotCount (p : Params) (d : DevInfo) : Nat := (arenaSpan d - 32) / slotSpan p

/-- Where an arena begins. -/
def arenaAt (d : DevInfo) (a : Arena) : Nat := a.index * arenaSpan d

/-- Where a slot begins. -/
def slotAt (p : Params) (d : DevInfo) (a : Arena) (i : Nat) : Nat := arenaAt d a + 32 + i * slotSpan p

/-- The addresses of the chunks. -/
def chunkAddrs (p : Params) (d : DevInfo) : List Nat := (List.range (slotCount p d)).map (· * p.payload)

@[simp] theorem length_chunkAddrs (p : Params) (d : DevInfo) : (chunkAddrs p d).length = slotCount p d := by
  simp [chunkAddrs]

/-- The parameters are legal, and the device fits them (00_scope.md R7; 42_fee.md R214). -/
structure FeeFit (p : Params) (d : DevInfo) : Prop where
  wf : p.wf = true
  fits : feeFits p d = true

theorem dvd_roundup (x m : Nat) : m ∣ roundup x m := Dvd.intro_left _ rfl

theorem roundup_le {x m k : Nat} (hm : 0 < m) (h : x ≤ k * m) : roundup x m ≤ k * m := by
  unfold roundup
  refine Nat.mul_le_mul_right m (Nat.le_of_lt_succ ((Nat.div_lt_iff_lt_mul hm).2 ?_))
  have := Nat.succ_mul k m
  omega

theorem width_dvd_four_or (w : MarkWidth) : w.bytes ∣ max w.bytes 4 := by cases w <;> decide
theorem width_dvd_32 (w : MarkWidth) : w.bytes ∣ 32 := by cases w <;> decide
theorem width_dvd_mark0 (w : MarkWidth) : w.bytes ∣ headerMark0 w := by cases w <;> decide
theorem width_dvd_mark1 (w : MarkWidth) : w.bytes ∣ headerMark1 w := by cases w <;> decide
theorem width_pos (w : MarkWidth) : 0 < w.bytes := by cases w <;> decide

/-- Both marks of a header lie in its first 32 bytes (30_encoding.md R115). -/
theorem headerMark_le (w : MarkWidth) : headerMark0 w + w.bytes ≤ 32 ∧ headerMark1 w + w.bytes ≤ 32 := by
  cases w <;> decide

/-- The two marks of a slot come before its key (30_encoding.md R117). -/
theorem marks_le_key (w : MarkWidth) : 2 * w.bytes ≤ slotKeyOffset w := by cases w <;> decide

theorem width_dvd_slotSpan (p : Params) : p.widthF.bytes ∣ slotSpan p :=
  (width_dvd_four_or p.widthF).trans (dvd_roundup _ _)

/-- A slot holds its marks, its key and its payload. -/
theorem payload_le_slotSpan (p : Params) : slotPayloadOffset p.widthF + p.payload ≤ slotSpan p :=
  le_roundup _ (lt_of_lt_of_le (by decide) (le_max_right _ 4))

theorem slotAt_succ (p : Params) (d : DevInfo) (a : Arena) (i : Nat) :
    slotAt p d a (i + 1) = slotAt p d a i + slotSpan p := by
  unfold slotAt
  rw [Nat.succ_mul]
  omega

theorem arenaAt_le_slotAt (p : Params) (d : DevInfo) (a : Arena) (i : Nat) : arenaAt d a + 32 ≤ slotAt p d a i :=
  Nat.le_add_right _ _

/-- Both arenas lie in the device. -/
theorem arena_le_device (d : DevInfo) (a : Arena) : arenaAt d a + arenaSpan d ≤ d.sectorSize * d.sectorNum := by
  have hindex : a.index + 1 ≤ 2 := by cases a <;> decide
  calc arenaAt d a + arenaSpan d = (a.index + 1) * arenaSpan d := (Nat.succ_mul ..).symm
    _ ≤ 2 * (d.sectorNum / 2 * d.sectorSize) := Nat.mul_le_mul_right _ hindex
    _ = d.sectorSize * (d.sectorNum / 2 * 2) := by ring
    _ ≤ d.sectorSize * d.sectorNum := Nat.mul_le_mul_left _ (Nat.div_mul_le_self _ _)

theorem sector_dvd_arenaAt (d : DevInfo) (a : Arena) : d.sectorSize ∣ arenaAt d a := (Nat.dvd_mul_left _ _).mul_left _

namespace FeeFit

variable {p : Params} {d : DevInfo} (h : FeeFit p d)
include h

theorem payload_pos : 0 < p.payload := by
  have hw := h.wf
  simp only [Params.wf, decide_eq_true_eq] at hw
  omega

/-- The checks of a device, one by one. -/
theorem checks : 1 ≤ d.sectorSize ∧ 1 ≤ d.sectorNum ∧ 1 ≤ d.writeAlign ∧ d.sectorSize % d.writeAlign = 0
    ∧ d.sectorSize * d.sectorNum ≤ 2 ^ 32 ∧ p.widthF.bytes % d.writeAlign = 0 ∧ 2 ≤ d.sectorNum
    ∧ 32 + slotSpan p ≤ arenaSpan d ∧ d.ident.length ≤ p.bufBytes := of_decide_eq_true h.fits

theorem sectorSize_pos : 0 < d.sectorSize := h.checks.1

theorem ident_le : d.ident.length ≤ p.bufBytes := by
  obtain ⟨-, -, -, -, -, -, -, -, hid⟩ := h.checks
  exact hid

/-- A slot, and the header before it, fit in an arena. -/
theorem slot_le_arena : 32 + slotSpan p ≤ arenaSpan d := by
  obtain ⟨-, -, -, -, -, -, -, hslot, -⟩ := h.checks
  exact hslot

theorem align_dvd_sector : d.writeAlign ∣ d.sectorSize := by
  obtain ⟨-, -, -, hsec, -⟩ := h.checks
  exact Nat.dvd_of_mod_eq_zero hsec

theorem align_dvd_width : d.writeAlign ∣ p.widthF.bytes := by
  obtain ⟨-, -, -, -, -, hw, -⟩ := h.checks
  exact Nat.dvd_of_mod_eq_zero hw

theorem arenaSpan_lt : arenaSpan d < 2 ^ 32 := arenaBytes_lt h.fits

theorem slots_le_arena : 32 + slotCount p d * slotSpan p ≤ arenaSpan d := by
  have hdiv : slotCount p d * slotSpan p ≤ arenaSpan d - 32 := Nat.div_mul_le_self _ _
  have := h.slot_le_arena
  omega

/-- A slot lies in its arena. -/
theorem slot_end_le {i : Nat} (hi : i < slotCount p d) (a : Arena) :
    slotAt p d a i + slotSpan p ≤ arenaAt d a + arenaSpan d := by
  have hmul : (i + 1) * slotSpan p ≤ slotCount p d * slotSpan p := Nat.mul_le_mul_right _ hi
  rw [Nat.succ_mul] at hmul
  have := h.slots_le_arena
  unfold slotAt
  omega

theorem slotSpan_lt : slotSpan p < 2 ^ 32 := by
  have := h.slot_le_arena
  have := h.arenaSpan_lt
  omega

theorem chunks_le_arena : slotCount p d * p.payload ≤ arenaSpan d := by
  have hle : p.payload ≤ slotSpan p := payload_le_slotBytes _ _
  have := Nat.mul_le_mul_left (slotCount p d) hle
  have := h.slots_le_arena
  omega

theorem slotCount_lt : slotCount p d < 2 ^ 32 :=
  lt_of_le_of_lt ((Nat.le_mul_of_pos_right _ h.payload_pos).trans h.chunks_le_arena) h.arenaSpan_lt

/-! Alignment (20_memory.md R64, R65). -/

theorem align_dvd_arenaAt (a : Arena) : d.writeAlign ∣ arenaAt d a :=
  (h.align_dvd_sector.mul_left _).mul_left _

theorem align_dvd_slotAt (a : Arena) (i : Nat) : d.writeAlign ∣ slotAt p d a i :=
  ((h.align_dvd_arenaAt a).add (h.align_dvd_width.trans (width_dvd_32 _))).add
    ((h.align_dvd_width.trans (width_dvd_slotSpan p)).mul_left i)

/-- The sectors of a header lie in its arena (42_fee.md R205). -/
theorem header_sectors_le : roundup 32 d.sectorSize ≤ arenaSpan d :=
  roundup_le h.sectorSize_pos (by have := h.slot_le_arena; unfold arenaSpan at this; omega)

end FeeFit

/-! ### The layout of a state -/

/-- The FEE registers and cache are those of the device, which has these parameters and this report. -/
structure FeeAt (p : Params) (d : DevInfo) (s : State) : Prop where
  fit : FeeFit p d
  params : s.params = p
  info : s.devF.info = d
  geometry : s.f.geometry = FeeUnit.reset.withGeometry p d

theorem feeAt_of_laidOut {s : State} (h : s.feeLaidOut) : FeeAt s.params s.devF.info s :=
  ⟨⟨h.1, h.2.1⟩, rfl, rfl, (FeeUnit.eq_withGeometry_iff ..).1 h.2.2⟩

namespace FeeAt

variable {p : Params} {d : DevInfo} {s t : State} {D : Set Nat}

theorem congr (h : FeeAt p d s) (hfix : t.fixed = s.fixed) (hg : t.f.geometry = s.f.geometry) : FeeAt p d t :=
  ⟨h.fit, (congrArg Prod.fst hfix).trans h.params, (congrArg (fun x => x.2.2) hfix).trans h.info, hg.trans h.geometry⟩

theorem still (h : FeeAt p d s) (k : s.Leaves .fee id D t) : FeeAt p d t :=
  h.congr k.follows.fixed (congrArg (fun b : Banks => b.f.geometry) k.follows.view)

theorem arenas (h : FeeAt p d s) (k : s.Leaves .fee Banks.exceptArenas D t) : FeeAt p d t :=
  h.congr k.follows.fixed (geometry_of_exceptArenas k.follows)

theorem slots (h : FeeAt p d s) (k : s.Leaves .fee Banks.exceptSlots D t) : FeeAt p d t :=
  h.congr k.follows.fixed (geometry_of_exceptSlots k.follows)

variable (h : FeeAt p d s)
include h

theorem widthF : s.params.widthF = p.widthF := by rw [h.params]

theorem arenaBytes : s.f.arenaBytes.toNat = arenaSpan d := by
  have hg : s.f.arenaBytes = BitVec.ofNat 32 (arenaSpan d) := congrArg FeeUnit.arenaBytes h.geometry
  rw [hg, BitVec.toNat_ofNat, Nat.mod_eq_of_lt h.fit.arenaSpan_lt]

theorem slotSize : s.f.slotSize.toNat = slotSpan p := by
  have hg : s.f.slotSize = BitVec.ofNat 32 (slotSpan p) := congrArg FeeUnit.slotSize h.geometry
  rw [hg, BitVec.toNat_ofNat, Nat.mod_eq_of_lt h.fit.slotSpan_lt]

theorem numSlots : s.f.numSlots.toNat = slotCount p d := by
  have hg : s.f.numSlots = BitVec.ofNat 32 (slotCount p d) := congrArg FeeUnit.numSlots h.geometry
  rw [hg, BitVec.toNat_ofNat, Nat.mod_eq_of_lt h.fit.slotCount_lt]

theorem logicalSize : s.f.logicalSize.toNat = slotCount p d * p.payload := by
  have hg : s.f.logicalSize = BitVec.ofNat 32 (slotCount p d * p.payload) := congrArg FeeUnit.logicalSize h.geometry
  rw [hg, BitVec.toNat_ofNat, Nat.mod_eq_of_lt (lt_of_le_of_lt h.fit.chunks_le_arena h.fit.arenaSpan_lt)]

theorem sectorSize : s.f.cache.sectorSize = d.sectorSize :=
  congrArg (fun f : FeeUnit => f.cache.sectorSize) h.geometry

theorem arenaBase (a : Arena) : s.f.arenaBase a = arenaAt d a := by
  unfold FeeUnit.arenaBase arenaAt
  rw [h.arenaBytes]

theorem slotBase (a : Arena) (i : Nat) : s.f.slotBase a i = slotAt p d a i := by
  unfold FeeUnit.slotBase slotAt
  rw [h.arenaBase, h.slotSize]

theorem chunkKeys : s.chunkKeys = chunkAddrs p d := by
  unfold State.chunkKeys chunkAddrs
  rw [h.logicalSize, h.params, Nat.mul_div_cancel _ h.fit.payload_pos]

/-- What lies in an arena can be read. -/
theorem readable (a : Arena) {x n : Nat} (hx : x + n ≤ arenaAt d a + arenaSpan d) :
    x + n ≤ (s.dev .fee).bytes := by
  have hd := arena_le_device d a
  unfold Device.bytes
  rw [show (s.dev .fee).info = d from h.info]
  omega

/-- What lies aligned in an arena can be written. -/
theorem writable (a : Arena) {x n : Nat} (hx : x + n ≤ arenaAt d a + arenaSpan d) (hax : d.writeAlign ∣ x)
    (han : d.writeAlign ∣ n) : (s.dev .fee).writable x n = true := by
  unfold Device.writable
  rw [show (s.dev .fee).info = d from h.info]
  exact decide_eq_true ⟨Nat.mod_eq_zero_of_dvd hax, Nat.mod_eq_zero_of_dvd han, h.readable a hx⟩

/-- Whole sectors of an arena can be erased. -/
theorem erasable (a : Arena) {x n : Nat} (hx : x + n ≤ arenaAt d a + arenaSpan d) (hax : d.sectorSize ∣ x)
    (han : d.sectorSize ∣ n) : (s.dev .fee).erasable x n = true := by
  unfold Device.erasable
  rw [show (s.dev .fee).info = d from h.info]
  exact decide_eq_true ⟨Nat.mod_eq_zero_of_dvd hax, Nat.mod_eq_zero_of_dvd han, h.readable a hx⟩

end FeeAt

/-! ### Images -/

@[simp] theorem length_headerImage (p : Params) : (headerImage p).length = 32 := by simp [headerImage]

theorem length_recordImage (p : Params) (key : Nat) {pl : List Byte} (h : pl.length = p.payload) :
    (recordImage p (slotSpan p) key pl).length = slotSpan p := by
  have hkey := marks_le_key p.widthF
  have hspan := payload_le_slotSpan p
  unfold slotPayloadOffset at hspan
  simp only [recordImage, FeeMark.encode, List.length_append, length_leBytes, length_fill, h, slotPayloadOffset]
  omega

theorem leBytes_zero (n : Nat) : leBytes n 0 = List.replicate n 0 := by
  induction n with
  | zero => rfl
  | succ n ih => rw [leBytes, Nat.zero_div, ih, List.replicate_succ]; rfl

/-- A DIRTY record begins with a zero mark (30_encoding.md R114). -/
theorem recordImage_mark (p : Params) (size key : Nat) (pl : List Byte) {k : Nat} (hk : k < p.widthF.bytes) :
    (recordImage p size key pl)[k]? = some 0 := by
  unfold recordImage FeeMark.encode
  simp only [List.append_assoc, FeeMark.word0, leBytes_zero]
  rw [List.getElem?_append_left (by simpa using hk), List.getElem?_replicate, if_pos hk]

/-! ### Erased ranges -/

theorem byteAt_of_bytesAt_fill {m : Memory} {a n x : Nat} (h : m.bytesAt a n = fill erasedByte n) (hlo : a ≤ x)
    (hhi : x < a + n) : m.byteAt x = erasedByte := by
  have hget := congrArg (fun l => l[x - a]?) h
  simp only [Memory.bytesAt, fill, List.getElem?_map, List.getElem?_replicate] at hget
  rw [List.getElem?_range (by omega), if_pos (by omega), Option.map_some, Nat.add_sub_cancel' hlo] at hget
  exact Option.some.inj hget

theorem drop_bytesAt (m : Memory) (a n k : Nat) : (m.bytesAt a n).drop k = m.bytesAt (a + k) (n - k) := by
  refine List.ext_getElem (by simp) fun i h1 h2 => ?_
  simp [Memory.bytesAt, Nat.add_assoc]

/-! ### Writes that set no 0 bit (20_memory.md R84) -/

/-- A write sets no 0 bit where each of its bytes is 0 or goes to an erased byte. -/
theorem overwrites_eq_false {d : Device} {a : Nat} {data : List Byte}
    (h : ∀ k, (hk : k < data.length) → data[k] = 0 ∨ d.cur.byteAt (a + k) = erasedByte) :
    d.overwrites a data = false := by
  unfold Device.overwrites
  rw [List.any_eq_false]
  intro x hx
  obtain ⟨k, hk, rfl⟩ := List.mem_iff_getElem.1 hx
  simp only [List.length_zip, length_bytesAt, Nat.min_self] at hk
  simp only [List.getElem_zip, Memory.bytesAt, List.getElem_map, List.getElem_range]
  rcases h k hk with h0 | h0
  · rw [h0]
    simp
  · rw [h0]
    simp [erasedByte]

theorem overwrites_zero (d : Device) (a n : Nat) : d.overwrites a (leBytes n 0) = false :=
  overwrites_eq_false fun k hk => .inl (by simp [leBytes_zero])

/-- Nothing is overwritten where the bytes are erased. -/
theorem Erased.overwrites {o : Prop} {u : UnitId} {s : State} {a : Nat} {data : List Byte}
    (h : Erased o u (Set.Ico a (a + data.length)) s) (ho : o) : (s.dev u).overwrites a data = false :=
  overwrites_eq_false fun k hk => .inr ((h ho).2 _ ⟨by omega, by omega⟩)

end Sys2Proof.Machine
end

