-- ==== Sys2Proof/Proofs/FeeReads.lean ====
section
/-! PROOF. The FEE engine's reading procedures: on a fit device they keep the contract, change nothing, and answer slots
of the arena. -/

open Sys2Proof Sys2Proof.Machine

namespace Sys2Proof.Machine

variable {c o : Prop} {p : Params} {d : DevInfo} {s : State}

theorem headerState_does (h : FeeAt p d s) (a : Arena) :
    Does c o .fee id ∅ (fun _ _ => True) (headerState a) s := by
  have hmark := headerMark_le p.widthF
  have hspan := h.fit.slot_le_arena
  refine does_read ?_
  simp only [h.arenaBase, h.widthF]
  refine (devRead_does fun _ => h.readable a (by omega)).bind fun _ t1 k1 _ => ?_
  refine (devRead_does fun _ => (h.still k1).readable a (by omega)).bind fun _ t2 k2 _ => ?_
  exact (devRead_does fun _ => ((h.still k1).still k2).readable a (by omega)).bind fun _ _ _ _ => does_pure trivial

/-! ### One slot -/

section slot
variable {i : Nat} (h : FeeAt p d s) (hi : i < slotCount p d)
include h hi

/-- A read within a slot keeps the contract. -/
theorem FeeAt.slot_readable (a : Arena) {off n : Nat} (hn : off + n ≤ slotSpan p) :
    slotAt p d a i + off + n ≤ (s.dev .fee).bytes :=
  h.readable a (by have := h.fit.slot_end_le hi a; omega)

theorem slotMark_does (a : Arena) : Does c o .fee id ∅ (fun _ _ => True) (slotMark a i) s := by
  have hkey := marks_le_key p.widthF
  have hpay := payload_le_slotSpan p
  unfold slotPayloadOffset at hpay
  refine does_read ?_
  simp only [h.slotBase, h.widthF]
  refine (devRead_does fun _ => h.slot_readable hi a (off := 0) (by omega)).bind fun _ t1 k1 _ => ?_
  exact (devRead_does fun _ => (h.still k1).slot_readable hi a (by omega)).bind fun _ _ _ _ => does_pure trivial

theorem slotKey_does (a : Arena) : Does c o .fee id ∅ (fun _ _ => True) (slotKey a i) s := by
  have hpay := payload_le_slotSpan p
  unfold slotPayloadOffset at hpay
  refine does_read ?_
  simp only [h.slotBase, h.widthF]
  exact (devRead_does fun _ => h.slot_readable hi a (by omega)).bind fun _ _ _ _ => does_pure trivial

theorem slotPayload_does (a : Arena) :
    Does c o .fee id ∅ (fun bs _ => bs.length = p.payload) (slotPayload a i) s := by
  refine does_read ?_
  simp only [h.slotBase, h.params]
  exact (devRead_does fun _ => h.slot_readable hi a (payload_le_slotSpan p)).imp fun bs _ _ hbs => by
    rw [hbs, length_bytesAt]

theorem slotRecord_does (a : Arena) :
    Does c o .fee id ∅ (fun bs _ => bs.length = slotSpan p) (slotRecord a i) s := by
  refine does_read ?_
  simp only [h.slotBase, h.slotSize]
  exact (devRead_does fun _ => h.slot_readable hi a (off := 0) (by omega)).imp fun bs _ _ hbs => by
    rw [hbs, length_bytesAt]

theorem slotMatches_does (a : Arena) (key : Nat) :
    Does c o .fee id ∅ (fun _ _ => True) (slotMatches a key i) s := by
  refine (slotMark_does h hi a).bind fun x t k _ => ?_
  cases x with
  | valid => exact (slotKey_does (h.still k) hi a).bind fun _ _ _ _ => does_pure trivial
  | unused => exact does_pure trivial
  | dirty => exact does_pure trivial
  | unknown => exact does_pure trivial

/-- A slot adds to the output of a read, and does not change its length. -/
theorem readSlot_does (a : Arena) (addr : Nat) (out : List Byte) :
    Does c o .fee id ∅ (fun bs _ => bs.length = out.length) (readSlot a addr i out) s := by
  refine (slotMark_does h hi a).bind fun x t k _ => ?_
  cases x with
  | valid =>
    refine (slotKey_does (h.still k) hi a).bind fun key t' k' _ => ?_
    refine does_read (does_ite (fun _ => ?_) fun _ => does_pure rfl)
    exact (slotPayload_does ((h.still k).still k') hi a).bind fun _ _ _ _ => does_pure (by simp [overlay])
  | unused => exact does_pure rfl
  | dirty => exact does_pure rfl
  | unknown => exact does_pure rfl

end slot

/-! ### Scans -/

theorem countUsed_does (h : FeeAt p d s) (a : Arena) (u n i : Nat) (hu : u ≤ i) (hi : i + n ≤ slotCount p d) :
    Does c o .fee id ∅ (fun k _ => k ≤ slotCount p d) (countUsed a u n i) s := by
  induction n generalizing s u i with
  | zero => exact does_pure (by omega)
  | succ n ih =>
    refine (slotMark_does h (by omega) a).bind fun x t k _ => ?_
    cases x with
    | unused => exact ih (h.still k) u (i + 1) (by omega) (by omega)
    | dirty => exact ih (h.still k) (i + 1) (i + 1) le_rfl (by omega)
    | valid => exact ih (h.still k) (i + 1) (i + 1) le_rfl (by omega)
    | unknown => exact ih (h.still k) (i + 1) (i + 1) le_rfl (by omega)

/-- A scan for a key answers a slot that it visited. -/
theorem lookupFrom_does (h : FeeAt p d s) (a : Arena) (key : Nat) (r : Option Nat) (n i : Nat)
    (hi : i + n ≤ slotCount p d) (hr : ∀ j, r = some j → j < slotCount p d) :
    Does c o .fee id ∅ (fun x _ => ∀ j, x = some j → j < slotCount p d) (lookupFrom a key r n i) s := by
  induction n generalizing s r i with
  | zero => exact does_pure hr
  | succ n ih =>
    refine (slotMatches_does h (by omega) a key).bind fun _ t k _ => does_ite (fun _ => ?_) fun _ => ?_
    · exact ih (h.still k) (some i) (i + 1) (by omega) fun j hj => by cases hj; omega
    · exact ih (h.still k) r (i + 1) (by omega) hr

theorem lookup_does (h : FeeAt p d s) (hu : s.f.slotsUsed.toNat ≤ slotCount p d) (a : Arena) (key : Nat) :
    Does c o .fee id ∅ (fun x _ => ∀ j, x = some j → j < slotCount p d) (lookup a key) s :=
  does_read (lookupFrom_does h a key none _ 0 (by omega) nofun)

/-- The slots in use are those of the bank, which a read leaves alone. -/
theorem slotsUsed_still {t : State} {D : Set Nat} (k : s.Leaves .fee id D t) : t.f.slotsUsed = s.f.slotsUsed :=
  congrArg (fun b : Banks => b.f.slotsUsed) k.follows.view

theorem chunkPayload_does (h : FeeAt p d s) (hu : s.f.slotsUsed.toNat ≤ slotCount p d) (key : Nat) :
    Does c o .fee id ∅ (fun bs _ => bs.length = p.payload) (chunkPayload key) s := by
  refine does_read ((lookup_does h hu _ key).bind fun x t k hx => ?_)
  cases x with
  | some j => exact slotPayload_does (h.still k) (hx j rfl) _
  | none => exact does_read (does_pure (by rw [length_fill, (h.still k).params]))

theorem readSlots_does (h : FeeAt p d s) (a : Arena) (addr n i : Nat) (out : List Byte) (hi : i + n ≤ slotCount p d) :
    Does c o .fee id ∅ (fun bs _ => bs.length = out.length) (readSlots a addr n i out) s := by
  induction n generalizing s i out with
  | zero => exact does_pure rfl
  | succ n ih =>
    refine (readSlot_does h (by omega) a addr out).bind fun out' t k hout => ?_
    exact (ih (h.still k) (i + 1) out' (by omega)).imp fun _ _ _ hbs => hbs.trans hout

theorem readRange_does (h : FeeAt p d s) (hu : s.f.slotsUsed.toNat ≤ slotCount p d) (addr n : Nat) :
    Does c o .fee id ∅ (fun bs _ => bs.length = n) (readRange addr n) s :=
  does_read ((readSlots_does h _ addr _ 0 _ (by omega)).imp fun _ _ _ hbs => hbs.trans (length_fill _ n))

/-- A blank arena is erased after its header (43_fee_gc.md R250). -/
theorem blankArena_does (h : FeeAt p d s) (a : Arena) (hs : Erased o .fee ∅ s) :
    Does c o .fee id ∅ (fun b t => b = true → Erased o .fee (Set.Ico (arenaAt d a + 32) (arenaAt d a + arenaSpan d)) t)
      (blankArena a) s := by
  refine does_read ?_
  simp only [h.arenaBase, h.arenaBytes]
  refine (devRead_does fun _ => h.readable a le_rfl).bind fun img t k himg => does_pure fun hb => ?_
  simp only [Bool.and_eq_true, beq_iff_eq] at hb
  obtain ⟨-, hdrop⟩ := hb
  rw [himg, drop_bytesAt] at hdrop
  have hkept : Erased o .fee (Set.Ico (arenaAt d a + 32) (arenaAt d a + arenaSpan d)) s :=
    fun ho => ⟨(hs ho).1, fun x ⟨hlo, hhi⟩ => byteAt_of_bytesAt_fill hdrop hlo (by omega)⟩
  exact hkept.leaves k fun x _ hx => hx

end Sys2Proof.Machine
end

