-- ==== Sys2Proof/Proofs/FeeWrites.lean ====
section
/-! PROOF. The FEE engine's writing procedures: on a fit device they keep the contract, and where the bytes above the
used slots are erased they set no 0 bit and leave them so (20_memory.md R84; 42_fee.md R201). -/

open Sys2Proof Sys2Proof.Machine

namespace Sys2Proof.Machine

variable {c o : Prop} {p : Params} {d : DevInfo} {s : State}

section shapes
variable {α β : Type} {u : UnitId} {v : Banks → β} {D D' : Set Nat} {R : α → State → Prop} {q : Proc α}

/-- What leaves the whole of the banks leaves every view of them. -/
theorem Does.see (h : Does c o u id D R q s) (v : Banks → β) : Does c o u v D R q s :=
  h.mono (fun _ _ e => congrArg v e) subset_rfl fun _ _ _ r => r

theorem Does.widen (h : Does c o u v D R q s) (hD : D ⊆ D') : Does c o u v D' R q s :=
  h.mono (fun _ _ e => e) hD fun _ _ _ r => r

/-- What touches nothing keeps all that was erased. -/
theorem Erased.untouched {S : Set Nat} {t : State} (h : Erased o u S s) (k : s.Leaves u v ∅ t) : Erased o u S t :=
  h.leaves k fun _ _ => id

/-- An erased stretch beside the bytes touched. -/
theorem Erased.beside {lo hi lo' hi' : Nat} {t : State} (h : Erased o u (Set.Ico lo hi) s)
    (k : s.Leaves u v (Set.Ico lo' hi') t) (hd : hi ≤ lo' ∨ hi' ≤ lo) : Erased o u (Set.Ico lo hi) t :=
  h.leaves k fun x ⟨h1, h2⟩ ⟨h3, h4⟩ => by omega

end shapes

/-! ### Marks and headers -/

/-- A zero mark word within an arena. -/
theorem writeMarkWord_does (h : FeeAt p d s) (a : Arena) {x : Nat}
    (hx : x + p.widthF.bytes ≤ arenaAt d a + arenaSpan d) (hal : d.writeAlign ∣ x) :
    Does c o .fee id (Set.Ico x (x + p.widthF.bytes)) (fun _ _ => True) (writeMarkWord .fee x 0) s := by
  refine does_read ?_
  rw [show s.markWidth .fee = p.widthF from h.widthF]
  have hw := devWrite_does (c := c) (o := o) (u := .fee) (a := x) (data := leBytes p.widthF.bytes 0) (s := s)
    (fun _ => by rw [length_leBytes]; exact h.writable a hx hal h.fit.align_dvd_width) fun _ => overwrites_zero ..
  rw [length_leBytes] at hw
  exact hw.bind fun _ t _ _ => (devSync_does t).widen (Set.empty_subset _)

theorem setArenaState_does (a : Arena) (x : ArenaState) (s : State) :
    Does c o .fee Banks.exceptArenas ∅ (fun _ _ => True) (setArenaState a x) s :=
  (feeRegs_does (fun _ => by cases a <;> rfl) s).imp fun _ _ _ _ => trivial

/-- The bytes of an arena's header. -/
abbrev headerRange (d : DevInfo) (a : Arena) : Set Nat := Set.Ico (arenaAt d a) (arenaAt d a + 32)

/-- A mark within a header. -/
theorem headerMark_does (h : FeeAt p d s) (a : Arena) {off : Nat} (hoff : off + p.widthF.bytes ≤ 32)
    (hal : p.widthF.bytes ∣ off) :
    Does c o .fee id (headerRange d a) (fun _ _ => True) (writeMarkWord .fee (arenaAt d a + off) 0) s := by
  have hspan := h.fit.slot_le_arena
  have halign := (h.fit.align_dvd_arenaAt a).add (h.fit.align_dvd_width.trans hal)
  refine (writeMarkWord_does h a (by omega) halign).widen ?_
  rintro x ⟨h1, h2⟩
  exact ⟨by omega, by omega⟩

theorem markArenaActive_does (h : FeeAt p d s) (a : Arena) :
    Does c o .fee Banks.exceptArenas (headerRange d a) (fun _ _ => True) (markArenaActive a) s := by
  refine does_read ?_
  simp only [h.arenaBase, h.widthF]
  exact ((headerMark_does h a (headerMark_le _).1 (width_dvd_mark0 _)).see _).bind fun _ t _ _ =>
    (setArenaState_does a .active t).widen (Set.empty_subset _)

theorem markArenaFrozen_does (h : FeeAt p d s) (a : Arena) :
    Does c o .fee Banks.exceptArenas (headerRange d a) (fun _ _ => True) (markArenaFrozen a) s := by
  refine does_read ?_
  simp only [h.arenaBase, h.widthF]
  exact ((headerMark_does h a (headerMark_le _).2 (width_dvd_mark1 _)).see _).bind fun _ t _ _ =>
    (setArenaState_does a .frozen t).widen (Set.empty_subset _)

/-- The header image goes to erased bytes. -/
theorem headerInit_does (h : FeeAt p d s) (a : Arena) (hs : Erased o .fee (headerRange d a) s) :
    Does c o .fee id (headerRange d a) (fun _ _ => True) (headerInit a) s := by
  have hspan := h.fit.slot_le_arena
  refine does_read ?_
  simp only [h.arenaBase, h.params]
  have hw := devWrite_does (c := c) (o := o) (u := .fee) (a := arenaAt d a) (data := headerImage p) (s := s)
    (fun _ => by
      rw [length_headerImage]
      exact h.writable a (by omega) (h.fit.align_dvd_arenaAt a) (h.fit.align_dvd_width.trans (width_dvd_32 _)))
    (Erased.overwrites (by rw [length_headerImage]; exact hs))
  rw [length_headerImage] at hw
  exact hw.bind fun _ t _ _ => (devSync_does t).widen (Set.empty_subset _)

/-! ### Erasing an arena -/

/-- The bytes of an arena after its header. -/
abbrev slotRange (d : DevInfo) (a : Arena) : Set Nat := Set.Ico (arenaAt d a + 32) (arenaAt d a + arenaSpan d)

/-- The sectors after the header's complete the erase of the arena. -/
theorem eraseBody_does (h : FeeAt p d s) (a : Arena) {eh : Nat} (hle : eh ≤ arenaSpan d) (hal : d.sectorSize ∣ eh)
    (hs : Erased o .fee (Set.Ico (arenaAt d a) (arenaAt d a + eh)) s) :
    Does c o .fee id ∅ (fun _ t => Erased o .fee (Set.Ico (arenaAt d a) (arenaAt d a + arenaSpan d)) t)
      (eraseBody (arenaAt d a) eh (arenaSpan d)) s := by
  refine does_ite (fun hlt => ?_) fun hge => does_pure (hs.mono fun x ⟨h1, h2⟩ => ⟨h1, by omega⟩)
  have herase : (s.dev .fee).erasable (arenaAt d a + eh) (arenaSpan d - eh) = true :=
    h.erasable a (by omega) ((sector_dvd_arenaAt d a).add hal) (Nat.dvd_sub (Nat.dvd_mul_left _ _) hal)
  refine (devErase_does (fun _ => herase) (hs.mono (Set.empty_subset _))).bind fun _ t k he => ?_
  refine (devSync_does t).imp fun _ t' k' _ => ?_
  refine (((hs.untouched k).union he).untouched k').mono fun x ⟨h1, h2⟩ => ?_
  by_cases hx : x < arenaAt d a + eh
  · exact .inl ⟨h1, hx⟩
  · exact .inr ⟨by omega, by omega⟩

/-- A reset arena is erased after its header (42_fee.md R205). -/
theorem arenaReinit_does (h : FeeAt p d s) (a : Arena) (hs : Erased o .fee ∅ s) :
    Does c o .fee Banks.exceptArenas (headerRange d a) (fun _ t => Erased o .fee (slotRange d a) t)
      (arenaReinit a) s := by
  have hle := h.fit.header_sectors_le
  have h32 := le_roundup 32 h.fit.sectorSize_pos
  have hspan := h.fit.slot_le_arena
  refine does_read ?_
  simp only [h.arenaBase, h.arenaBytes, h.sectorSize]
  have herase : (s.dev .fee).erasable (arenaAt d a) (roundup 32 d.sectorSize) = true :=
    h.erasable a (by omega) (sector_dvd_arenaAt d a) (dvd_roundup _ _)
  refine (devErase_does (fun _ => herase) hs).bind_still fun _ t1 k1 he1 => ?_
  have h1 := h.still k1
  refine (devSync_does t1).bind_still fun _ t2 k2 _ => ?_
  have h2 := h1.still k2
  refine (eraseBody_does h2 a hle (dvd_roundup _ _) (he1.untouched k2)).bind_still fun _ t3 k3 he3 => ?_
  have h3 := h2.still k3
  refine ((headerInit_does h3 a (he3.mono ?_)).see _).bind fun _ t4 k4 _ => ?_
  · rintro x ⟨hx1, hx2⟩
    exact ⟨hx1, by omega⟩
  · refine (((setArenaState_does a .unused t4).widen (Set.empty_subset _)).imp fun _ t5 k5 _ => ?_)
    have he : Erased o .fee (slotRange d a) t3 := he3.mono fun x ⟨hx1, hx2⟩ => ⟨by omega, hx2⟩
    exact (he.beside k4 (.inr le_rfl)).beside k5 (.inr le_rfl)

/-- The destination of a collection is erased after its header (43_fee_gc.md R250). -/
theorem prepareDst_does (h : FeeAt p d s) (a : Arena) (hs : Erased o .fee ∅ s) :
    Does c o .fee Banks.exceptArenas (headerRange d a) (fun _ t => Erased o .fee (slotRange d a) t)
      (prepareDst a) s := by
  have hspan := h.fit.slot_le_arena
  refine (blankArena_does h a hs).bind_still fun b t k hb => does_ite (fun hbt => ?_) fun _ => ?_
  · have ht := h.still k
    have he := hb hbt
    refine does_read ?_
    simp only [ht.arenaBase]
    refine (devRead_does fun _ => ht.readable a (by omega)).bind_still fun bs t' k' hbs => ?_
    have he' := he.untouched k'
    refine does_ite (fun hff => ?_) fun _ => does_pure he'
    have hhdr : Erased o .fee (headerRange d a) t :=
      fun ho => ⟨(he ho).1, fun x ⟨hlo, hhi⟩ => byteAt_of_bytesAt_fill (hbs.symm.trans hff) hlo hhi⟩
    have hinit := headerInit_does (c := c) (ht.still k') a (hhdr.untouched k')
    exact (hinit.see _).imp fun _ _ k'' _ => he'.beside k'' (.inr le_rfl)
  · exact arenaReinit_does (h.still k) a (hs.canonical k)

/-! ### Collections -/

/-- The bytes of an arena from slot n on. -/
abbrev freeRange (p : Params) (d : DevInfo) (a : Arena) (n : Nat) : Set Nat :=
  Set.Ico (slotAt p d a n) (arenaAt d a + arenaSpan d)

theorem slotAt_zero (p : Params) (d : DevInfo) (a : Arena) : slotAt p d a 0 = arenaAt d a + 32 := by simp [slotAt]

/-- A whole record goes to an erased slot, and leaves those above it erased. -/
theorem copyRecord_does (h : FeeAt p d s) (a : Arena) {j : Nat} (hj : j < slotCount p d) {bs : List Byte}
    (hlen : bs.length = slotSpan p) (he : Erased o .fee (freeRange p d a j) s) :
    Does c o .fee id Set.univ (fun _ t => Erased o .fee (freeRange p d a (j + 1)) t)
      (devWrite .fee (slotAt p d a j) bs) s := by
  have hend := h.fit.slot_end_le hj a
  have hw := devWrite_does (c := c) (o := o) (u := .fee) (a := slotAt p d a j) (data := bs) (s := s)
    (fun _ => by
      rw [hlen]
      exact h.writable a hend (h.fit.align_dvd_slotAt a j) (h.fit.align_dvd_width.trans (width_dvd_slotSpan p)))
    (Erased.overwrites (he.mono (by rw [hlen]; exact fun x ⟨h1, h2⟩ => ⟨h1, by omega⟩)))
  have hnext := slotAt_succ p d a j
  refine (hw.imp fun _ t k _ => ?_).widen (Set.subset_univ _)
  have hrest : Erased o .fee (freeRange p d a (j + 1)) s := he.mono fun x ⟨h1, h2⟩ => ⟨by omega, h2⟩
  exact hrest.beside k (.inr (by omega))

/-- A collection fills free slots of the destination, one for a key at most. -/
theorem copyLive_does (h : FeeAt p d s) (hu : s.f.slotsUsed.toNat ≤ slotCount p d) (src dst : Arena)
    (omitted : Option Nat) (j : Nat) (ks : List Nat)
    (hj : j + (ks.filter fun x => decide (some x ≠ omitted)).length ≤ slotCount p d)
    (he : Erased o .fee (freeRange p d dst j) s) :
    Does c o .fee id Set.univ
      (fun n t => n ≤ j + (ks.filter fun x => decide (some x ≠ omitted)).length
        ∧ Erased o .fee (freeRange p d dst n) t) (copyLive src dst omitted j ks) s := by
  induction ks generalizing s j with
  | nil => exact does_pure ⟨by simp, he⟩
  | cons x ks ih =>
    unfold copyLive
    by_cases hx : some x = omitted
    · rw [List.filter_cons_of_neg (by simpa using hx)] at hj ⊢
      rw [if_pos hx]
      exact ih h hu j hj he
    · rw [List.filter_cons_of_pos (by simpa using hx), List.length_cons] at hj ⊢
      rw [if_neg hx]
      refine (lookup_does h hu src x).bind_still fun r t k hr => ?_
      have ht := h.still k
      have hut : t.f.slotsUsed.toNat ≤ slotCount p d := by rw [slotsUsed_still k]; exact hu
      cases r with
      | none => exact (ih ht hut j (by omega) (he.untouched k)).imp fun n _ _ hn => ⟨by omega, hn.2⟩
      | some r =>
        refine (slotRecord_does ht (hr r rfl) src).bind_still fun bs t1 k1 hbs => does_read ?_
        have h1 := ht.still k1
        rw [h1.slotBase]
        refine (copyRecord_does h1 dst (by omega) hbs ((he.untouched k).untouched k1)).bind fun _ t2 k2 he2 => ?_
        have hu2 : t2.f.slotsUsed.toNat ≤ slotCount p d := by
          rw [slotsUsed_still k2, slotsUsed_still k1]
          exact hut
        exact (ih (h1.still k2) hu2 (j + 1) (by omega) he2).imp fun n _ _ hn => ⟨by omega, hn.2⟩

/-- The FEE unit on its device, with the bytes above the used slots erased (42_fee.md R201). -/
structure FeeOpen (o : Prop) (p : Params) (d : DevInfo) (s : State) : Prop where
  laid : FeeAt p d s
  used : s.f.slotsUsed.toNat ≤ slotCount p d
  free : Erased o .fee (freeRange p d s.f.active s.f.slotsUsed.toNat) s

/-- The other arena's header is no part of an arena's slots. -/
theorem other_header_beside {fit : FeeFit p d} (a : Arena) (n : Nat) :
    arenaAt d a.other + arenaSpan d ≤ arenaAt d a ∨ arenaAt d a + 32 ≤ slotAt p d a.other n := by
  have := fit.slot_le_arena
  cases a with
  | a0 =>
    right
    show 0 * arenaSpan d + 32 ≤ 1 * arenaSpan d + 32 + n * slotSpan p
    omega
  | a1 =>
    left
    show 0 * arenaSpan d + arenaSpan d ≤ 1 * arenaSpan d
    omega

theorem setSlotsUsed_does (n : Nat) (s : State) :
    Does c o .fee Banks.exceptSlots ∅ (fun _ t => t.f = { s.f with slotsUsed := BitVec.ofNat 32 n })
      (setSlotsUsed n) s :=
  feeRegs_does (fun _ => rfl) s

theorem setActive_does (a : Arena) (s : State) :
    Does c o .fee Banks.exceptArenas ∅ (fun _ t => t.f = { s.f with active := a }) (setActive a) s :=
  feeRegs_does (fun _ => rfl) s

theorem bumpGcCount_does (s : State) :
    Does c o .fee Banks.exceptSlots ∅ (fun _ t => t.f = { s.f with gcCount := s.f.gcCount + 1 })
      (feeRegs [fun f => { f with gcCount := f.gcCount + 1 }]) s :=
  feeRegs_does (fun _ => rfl) s

/-- A collection ends open; with a key omitted there is room for one more slot (43_fee_gc.md R241). -/
theorem gc_lawful (h : FeeAt p d s) (hu : s.f.slotsUsed.toNat ≤ slotCount p d) (hs : Erased o .fee ∅ s)
    (omitted : Option Nat) :
    Ends (fun _ t => FeeOpen o p d t
        ∧ ∀ key ∈ chunkAddrs p d, omitted = some key → t.f.slotsUsed.toNat < slotCount p d)
      (Lawful c o) (gc omitted s) := by
  refine .read ?_
  refine Ends.bind (markArenaFrozen_does h s.f.active) fun _ s1 ⟨k1, _⟩ => ?_
  have h1 := h.arenas k1
  refine Ends.bind (prepareDst_does h1 s.f.active.other (hs.canonical k1)) fun _ s2 ⟨k2, he2⟩ => ?_
  have h2 := h1.arenas k2
  have hu2 : s2.f.slotsUsed.toNat ≤ slotCount p d := by
    rw [slotsUsed_of_exceptArenas k2.follows, slotsUsed_of_exceptArenas k1.follows]
    exact hu
  have hlen := List.length_filter_le (fun x => decide (some x ≠ omitted)) (chunkAddrs p d)
  rw [length_chunkAddrs] at hlen
  refine .read ?_
  rw [h2.chunkKeys]
  refine Ends.bind (copyLive_does h2 hu2 s.f.active s.f.active.other omitted 0 _ (by omega)
    (by rw [freeRange, slotAt_zero]; exact he2)) fun j s3 ⟨k3, hj, he3⟩ => ?_
  have h3 := h2.still k3
  refine Ends.bind (devSync_does (u := .fee) s3) fun _ s4 ⟨k4, _⟩ => ?_
  have h4 := h3.still k4
  have he4 := he3.untouched k4
  refine Ends.bind (markArenaActive_does h4 s.f.active.other) fun _ s5 ⟨k5, _⟩ => ?_
  have h5 := h4.arenas k5
  have he5 := he4.beside k5 (.inr (arenaAt_le_slotAt ..))
  refine Ends.bind (arenaReinit_does h5 s.f.active (he5.mono (Set.empty_subset _))) fun _ s6 ⟨k6, _⟩ => ?_
  have h6 := h5.arenas k6
  have he6 := he5.beside k6 (other_header_beside (fit := h.fit) s.f.active j)
  refine Ends.bind (setActive_does s.f.active.other s6) fun _ s7 ⟨k7, hf7⟩ => ?_
  refine Ends.bind (setSlotsUsed_does j s7) fun _ s8 ⟨k8, hf8⟩ => ?_
  refine Ends.mono (bumpGcCount_does s8) (fun _ t ⟨k9, hf9⟩ => ?_) fun _ _ e => e
  have hfilter : j ≤ (List.filter (fun x => decide (some x ≠ omitted)) (chunkAddrs p d)).length := by omega
  have hactive : t.f.active = s.f.active.other := by rw [hf9, hf8, hf7]
  have hused : t.f.slotsUsed.toNat = j := by
    rw [hf9, hf8, BitVec.toNat_ofNat]
    exact Nat.mod_eq_of_lt (lt_of_le_of_lt (hfilter.trans hlen) h.fit.slotCount_lt)
  refine ⟨⟨((h6.arenas k7).slots k8).slots k9, by omega, ?_⟩, fun key hkey ho => ?_⟩
  · rw [hactive, hused]
    exact ((he6.untouched k7).untouched k8).untouched k9
  · subst ho
    have hroom := length_filter_omitted hkey
    rw [length_chunkAddrs] at hroom
    omega

/-! ### Appends -/

/-- Room made for a chunk of the emulated space is a free slot. -/
theorem makeRoom_lawful (h : FeeOpen o p d s) {key : Nat} (hkey : key ∈ chunkAddrs p d) :
    Ends (fun _ t => FeeOpen o p d t ∧ t.f.slotsUsed.toNat < slotCount p d) (Lawful c o) (makeRoom key s) := by
  refine .read (.ite (fun _ => ?_) fun hne => ?_)
  · exact (gc_lawful h.laid h.used (h.free.mono (Set.empty_subset _)) (some key)).mono
      (fun _ _ k => ⟨k.1, k.2 key hkey rfl⟩) fun _ _ e => e
  · have hne' : s.f.slotsUsed.toNat ≠ slotCount p d := fun heq =>
      hne (BitVec.eq_of_toNat_eq (heq.trans h.laid.numSlots.symm))
    exact ⟨h, lt_of_le_of_ne h.used hne'⟩

/-- A DIRTY record over its own zero mark and erased bytes sets no 0 bit (42_fee.md R210). -/
theorem recordImage_no_overwrite {dev : Device} {b : Nat} (key : Nat) {pl : List Byte}
    (hpl : pl.length = p.payload)
    (he : ∀ x, b + p.widthF.bytes ≤ x → x < b + slotSpan p → dev.cur.byteAt x = erasedByte) :
    dev.overwrites b (recordImage p (slotSpan p) key pl) = false := by
  refine overwrites_eq_false fun k hk => ?_
  rw [length_recordImage p key hpl] at hk
  by_cases hmark : k < p.widthF.bytes
  · refine .inl (Option.some.inj ?_)
    rw [← List.getElem?_eq_getElem]
    exact recordImage_mark p _ key pl hmark
  · exact .inr (he _ (by omega) (by omega))

/-- An append to a free slot leaves those above it erased (42_fee.md R210). -/
theorem append_lawful (h : FeeOpen o p d s) (hroom : s.f.slotsUsed.toNat < slotCount p d) (key : Nat) {pl : List Byte}
    (hpl : pl.length = p.payload) : Ends (fun _ t => FeeOpen o p d t) (Lawful c o) (append key pl s) := by
  obtain ⟨hlaid, -, hfree⟩ := h
  generalize ha : s.f.active = a at hfree
  generalize hi : s.f.slotsUsed.toNat = i at hfree hroom
  have hend := hlaid.fit.slot_end_le hroom a
  have hnext := slotAt_succ p d a i
  have hkeyo := marks_le_key p.widthF
  have hspan := payload_le_slotSpan p
  unfold slotPayloadOffset at hspan
  have hal := hlaid.fit.align_dvd_slotAt a i
  refine .read ?_
  rw [ha, hi, hlaid.slotBase, hlaid.params, hlaid.slotSize]
  refine Ends.bind (writeMarkWord_does hlaid a (x := slotAt p d a i) (by omega) hal) fun _ s1 ⟨k1, _⟩ => ?_
  have h1 := hlaid.still k1
  have hrest : Erased o .fee (Set.Ico (slotAt p d a i + p.widthF.bytes) (arenaAt d a + arenaSpan d)) s1 :=
    Erased.beside (hfree.mono fun x ⟨h1, h2⟩ => ⟨by omega, h2⟩) k1 (.inr le_rfl)
  have hw := devWrite_does (c := c) (o := o) (u := .fee) (a := slotAt p d a i)
    (data := recordImage p (slotSpan p) key pl) (s := s1)
    (fun _ => by
      rw [length_recordImage p key hpl]
      exact h1.writable a hend hal (h1.fit.align_dvd_width.trans (width_dvd_slotSpan p)))
    (fun ho => recordImage_no_overwrite key hpl fun x hlo hhi => (hrest ho).2 x ⟨hlo, by omega⟩)
  rw [length_recordImage p key hpl] at hw
  refine Ends.bind hw fun _ s2 ⟨k2, _⟩ => ?_
  have h2 := h1.still k2
  have hfree2 : Erased o .fee (freeRange p d a (i + 1)) s2 :=
    Erased.beside (hrest.mono fun x ⟨h1, h2⟩ => ⟨by omega, h2⟩) k2 (.inr (by omega))
  refine Ends.bind (devSync_does (u := .fee) s2) fun _ s3 ⟨k3, _⟩ => ?_
  have h3 := h2.still k3
  refine Ends.bind (writeMarkWord_does h3 a (x := slotAt p d a i + p.widthF.bytes) (by omega)
    (hal.add h3.fit.align_dvd_width)) fun _ s4 ⟨k4, _⟩ => ?_
  have hfree4 := (hfree2.untouched k3).beside k4 (.inr (by omega))
  refine Ends.mono (setSlotsUsed_does (i + 1) s4) (fun _ t ⟨k5, hf5⟩ => ?_) fun _ _ e => e
  have hbank : s4.f = s.f := congrArg Banks.f
    (k4.follows.view.trans (k3.follows.view.trans (k2.follows.view.trans k1.follows.view)))
  have hactive : t.f.active = a := by rw [hf5, hbank, ← ha]
  have hused : t.f.slotsUsed.toNat = i + 1 := by
    rw [hf5, BitVec.toNat_ofNat]
    exact Nat.mod_eq_of_lt (lt_of_le_of_lt hroom hlaid.fit.slotCount_lt)
  refine ⟨(h3.still k4).slots k5, by omega, ?_⟩
  rw [hactive, hused]
  exact hfree4.untouched k5

/-! ### Ranges of the emulated space -/

theorem length_mergePayload {cur nb : List Byte} {lo : Nat} (h : lo + nb.length ≤ cur.length) :
    (mergePayload cur lo nb).length = cur.length := by
  simp only [mergePayload, List.length_append, List.length_take, List.length_drop]
  omega

/-- What leaves the banks and the bytes leaves the unit open. -/
theorem FeeOpen.still {t : State} (h : FeeOpen o p d s) (k : s.Leaves .fee id ∅ t) : FeeOpen o p d t := by
  have hbank : t.f = s.f := congrArg Banks.f k.follows.view
  refine ⟨h.laid.still k, hbank ▸ h.used, ?_⟩
  rw [hbank]
  exact h.free.untouched k

theorem writeSpan_lawful (h : FeeOpen o p d s) {sa lo : Nat} {nb : List Byte} (hkey : sa ∈ chunkAddrs p d)
    (hlen : lo + nb.length ≤ p.payload) :
    Ends (fun _ t => FeeOpen o p d t) (Lawful c o) (writeSpan sa lo nb s) := by
  refine Ends.bind (chunkPayload_does h.laid h.used sa) fun cur s1 ⟨k1, hcur⟩ => ?_
  have h1 := h.still k1
  refine .ite (fun _ => h1) fun _ => Ends.bind (makeRoom_lawful h1 hkey) fun _ s2 ⟨h2, hroom⟩ => ?_
  exact append_lawful h2 hroom sa ((length_mergePayload (by omega)).trans hcur)

/-- The chunk of an address of the emulated space is one of its chunks. -/
theorem mem_chunkAddrs {x : Nat} (hx : x < slotCount p d * p.payload) : x - x % p.payload ∈ chunkAddrs p d := by
  have hdiv : x / p.payload < slotCount p d := Nat.div_lt_of_lt_mul (by rwa [Nat.mul_comm])
  refine List.mem_map.2 ⟨x / p.payload, List.mem_range.2 hdiv, ?_⟩
  have := Nat.div_add_mod' x p.payload
  omega

/-- A range within the emulated space, chunk by chunk (42_fee.md R212). -/
theorem writeChunks_lawful (n x : Nat) (nb : List Byte) (h : FeeOpen o p d s)
    (hin : nb = [] ∨ x + nb.length ≤ slotCount p d * p.payload) :
    Ends (fun _ t => FeeOpen o p d t) (Lawful c o) (writeChunks n x nb s) := by
  induction n generalizing s x nb with
  | zero => exact h
  | succ n ih =>
    refine .ite (fun _ => h) fun hne => .read ?_
    have hbound := hin.resolve_left hne
    have hpos := List.length_pos_iff.2 hne
    have hmod := Nat.mod_lt x h.laid.fit.payload_pos
    have hle := Nat.mod_le x p.payload
    rw [h.laid.params]
    refine Ends.bind (writeSpan_lawful h (mem_chunkAddrs (by omega)) ?_) fun _ t ht => ih _ _ ht ?_
    · rw [List.length_take]
      omega
    · rw [List.drop_eq_nil_iff, List.length_drop]
      omega

end Sys2Proof.Machine
end

