-- ==== Sys2Proof/Proofs/FeeCommands.lean ====
section
/-! PROOF. The commands of the FEE unit: on a unit whose content is sound when it serves, none breaks the device
contract or sets a 0 bit (20_memory.md R63 to R65, R84; 42_fee.md R214 to R229). -/

open Sys2Proof Sys2Proof.Machine

namespace Sys2Proof.Machine

variable {c o : Prop} {p : Params} {d : DevInfo} {s : State}

/-! ### Start -/

/-- The unit on its device, with no more slots in use than there are. -/
structure FeeCounted (o : Prop) (p : Params) (d : DevInfo) (s : State) : Prop where
  laid : FeeAt p d s
  used : s.f.slotsUsed.toNat ≤ slotCount p d
  canonical : Erased o .fee ∅ s

theorem adoptArena_lawful (h : FeeAt p d s) (hs : Erased o .fee ∅ s) (a : Arena) :
    Ends (fun _ t => FeeCounted o p d t) (Lawful c o) (adoptArena a s) := by
  refine Ends.bind (setActive_does a s) fun _ s1 ⟨k1, _⟩ => .read ?_
  have h1 := h.arenas k1
  rw [h1.numSlots]
  refine Ends.bind (countUsed_does h1 a 0 _ 0 le_rfl (by omega)) fun n s2 ⟨k2, hn⟩ => ?_
  refine Ends.mono (setSlotsUsed_does n s2) (fun _ t ⟨k3, hf⟩ => ?_) fun _ _ e => e
  refine ⟨(h1.still k2).slots k3, ?_, ((hs.canonical k1).canonical k2).canonical k3⟩
  rw [hf, BitVec.toNat_ofNat, Nat.mod_eq_of_lt (lt_of_le_of_lt hn h.fit.slotCount_lt)]
  exact hn

/-- Format() needs nothing of the content (42_fee.md R206). -/
theorem format_lawful (h : FeeAt p d s) (hs : Erased o .fee ∅ s) :
    Ends (fun _ _ => True) (Lawful c o) (format s) := by
  refine Ends.bind (arenaReinit_does h .a0 hs) fun _ s1 ⟨k1, _⟩ => ?_
  have h1 := h.arenas k1
  refine Ends.bind (arenaReinit_does h1 .a1 (hs.canonical k1)) fun _ s2 ⟨k2, _⟩ => ?_
  refine Ends.bind (markArenaActive_does (h1.arenas k2) .a0) fun _ s3 _ => ?_
  refine Ends.bind (setActive_does .a0 s3) fun _ s4 _ => ?_
  exact Ends.mono (setSlotsUsed_does 0 s4) (fun _ _ _ => trivial) fun _ _ e => e

theorem resumeGc_lawful (h : FeeAt p d s) (hs : Erased o .fee ∅ s) (a : Arena) :
    Ends (fun _ _ => True) (Lawful c o) (resumeGc a s) := by
  refine Ends.bind (arenaReinit_does h a.other hs) fun _ s1 ⟨k1, _⟩ => ?_
  refine Ends.bind (adoptArena_lawful (h.arenas k1) (hs.canonical k1) a) fun _ s2 h2 => ?_
  exact (gc_lawful h2.laid h2.used h2.canonical none).mono (fun _ _ _ => trivial) fun _ _ e => e

theorem startCases_lawful (h : FeeAt p d s) (hs : Erased o .fee ∅ s) :
    Ends (fun _ _ => True) (Lawful c o) (startCases s) := by
  refine Ends.bind (headerState_does h .a0) fun x0 s1 ⟨k1, _⟩ => ?_
  have h1 := h.still k1
  refine Ends.bind (headerState_does h1 .a1) fun x1 s2 ⟨k2, _⟩ => ?_
  refine Ends.bind (setArenaState_does .a0 x0 s2) fun _ s3 ⟨k3, _⟩ => ?_
  refine Ends.bind (setArenaState_does .a1 x1 s3) fun _ s4 ⟨k4, _⟩ => ?_
  have h4 := ((h1.still k2).arenas k3).arenas k4
  have hs4 := (((hs.canonical k1).canonical k2).canonical k3).canonical k4
  cases startCase x0 x1 with
  | adopt a => exact (adoptArena_lawful h4 hs4 a).mono (fun _ _ _ => trivial) fun _ _ e => e
  | resume a => exact resumeGc_lawful h4 hs4 a
  | cold => exact format_lawful h4 hs4

/-- A geometry that was set is that of a fit device (42_fee.md R214). -/
theorem feeGeometry_lawful (hw : s.params.wf = true) (hs : Erased o .fee ∅ s) :
    Ends (fun _ t => FeeAt s.params s.devF.info t ∧ Erased o .fee ∅ t) (Lawful c o) (feeGeometry s) := by
  refine Ends.bind (devGetInfo_does (u := .fee) s) fun d s1 ⟨_, hd, hs1⟩ => ?_
  subst hd hs1
  refine .read (.require (fun hfit => ?_) fun _ => lawful_raised _ _)
  have hregs := feeRegs_does (c := c) (o := o) (u := .fee) (v := Banks.exceptBank .fee)
    (gs := (s1.f.withGeometry s1.params s1.devF.info).geometryRegs) (fun _ => rfl) s1
  refine Ends.mono hregs (fun _ t ⟨k, hf⟩ => ?_) fun _ _ e => e
  rw [FeeUnit.geometryRegs_done] at hf
  refine ⟨⟨⟨hw, hfit⟩, ?_, ?_, ?_⟩, hs.canonical k⟩
  · exact congrArg Prod.fst k.follows.fixed
  · exact congrArg (fun x => x.2.2) k.follows.fixed
  · rw [hf]
    rfl

/-- DRV takes a value, and nothing else does. -/
theorem changeDrv_does {u : UnitId} (w : UnitId) (x : DrvState) (s : State) :
    Does c o u (Banks.exceptDrv w) ∅ (fun _ _ => True) (changeDrv w x) s := by
  have hdev : Ends (fun _ t => ∀ u, t.dev u = s.dev u) (Lawful c o) (changeDrv w x s) :=
    change_lawful (fun s u => by cases w <;> cases u <;> rfl) s
  exact (hdev.and ((changeDrv_within w x).ends s)).mono (fun _ _ ⟨k, hf⟩ => ⟨.of_cur hf (by rw [k u]), trivial⟩)
    fun _ _ k => k.1

theorem feeStart_lawful (hw : s.params.wf = true) (hs : Erased o .fee ∅ s) :
    Ends (fun _ _ => True) (Lawful c o) (feeStartBody s) := by
  refine checkState_lawful fun _ => ?_
  refine Ends.bind (changeDrv_does (u := .fee) .fee .stop s) fun _ s1 ⟨k1, _⟩ => ?_
  have hp : s1.params = s.params := congrArg Prod.fst k1.follows.fixed
  refine Ends.bind (feeGeometry_lawful (hp ▸ hw) (hs.canonical k1)) fun _ s2 ⟨h2, hs2⟩ => ?_
  refine Ends.bind (devSync_does (u := .fee) s2) fun _ s3 ⟨k3, _⟩ => ?_
  refine Ends.bind (startCases_lawful (h2.still k3) (hs2.canonical k3)) fun _ s4 _ => ?_
  exact (feeRegs_lawful _ s4).mono (fun _ _ _ => trivial) fun _ _ e => e

/-! ### The commands that serve -/

theorem feeServes_iff : s.feeServes = true ↔ s.f.drv = .ready ∧ s.f.recover = false := by
  simp [State.feeServes]

theorem ready_fee_iff : s.isReady .fee = true ↔ s.f.drv = .ready := by
  simp [State.isReady, State.drv]

/-- What the commands of the unit need of it. -/
structure FeeServing (c o : Prop) (s : State) : Prop where
  wf : s.params.wf = true
  laid : c → s.f.drv = .ready → s.feeLaidOut
  content : s.f.drv = .ready → s.f.recover = false → FeeOpen o s.params s.devF.info s
  canonical : Erased o .fee ∅ s

/-- A range of the emulated space is written whole. -/
theorem writeRange_lawful {x : Nat} {nb : List Byte} (hopen : FeeOpen o p d s)
    (hin : x + nb.length ≤ s.f.logicalSize.toNat) : Ends (fun _ _ => True) (Lawful c o) (writeRange x nb s) := by
  rw [hopen.laid.logicalSize] at hin
  exact (writeChunks_lawful _ x nb hopen (.inr hin)).mono (fun _ _ _ => trivial) fun _ _ e => e

section serving
variable (h : FeeServing c o s)
include h

theorem feeRead_lawful : Ends (fun _ _ => True) (Lawful c o) (feeReadBody s) := by
  refine checkState_lawful fun hserves => .read (.require (fun hrange => ?_) fun _ => lawful_raised _ _)
  obtain ⟨hdrv, hrec⟩ := feeServes_iff.1 hserves
  have hopen := h.content hdrv hrec
  have hlen : s.opLen ≤ s.params.bufBytes := of_decide_eq_true ((Bool.and_eq_true _ _).mp hrange).1
  refine .ite (fun _ => trivial) fun _ => guardRead_lawful _ ?_
  refine Ends.bind (readRange_does hopen.laid hopen.used s.opAddr s.opLen) fun bs s1 ⟨k1, hbs⟩ => ?_
  refine Ends.mono (bufStore_does (u := .fee) fun _ => ?_) (fun _ _ _ => trivial) fun _ _ e => e
  rw [hbs, (hopen.laid.still k1).params]
  exact hlen

theorem feeWrite_lawful : Ends (fun _ _ => True) (Lawful c o) (feeWriteBody s) := by
  refine checkState_lawful fun hserves => .read (.require (fun hrange => ?_) fun _ => lawful_raised _ _)
  obtain ⟨hdrv, hrec⟩ := feeServes_iff.1 hserves
  have hopen := h.content hdrv hrec
  obtain ⟨hlen, hin⟩ := (Bool.and_eq_true _ _).mp hrange
  refine .ite (fun _ => trivial) fun _ => ?_
  refine Ends.bind (bufLoad_does (u := .fee) fun _ => of_decide_eq_true hlen) fun nb s1 ⟨k1, hnb⟩ => ?_
  have hbank : s1.f = s.f := congrArg Banks.f k1.follows.view
  exact writeRange_lawful (hopen.still k1) (by rw [hnb, hbank]; exact of_decide_eq_true hin)

theorem feeErase_lawful : Ends (fun _ _ => True) (Lawful c o) (feeEraseBody s) := by
  refine checkState_lawful fun hserves => .read (.require (fun hrange => ?_) fun _ => lawful_raised _ _)
  obtain ⟨hdrv, hrec⟩ := feeServes_iff.1 hserves
  refine .ite (fun _ => trivial) fun _ => writeRange_lawful (h.content hdrv hrec) ?_
  rw [length_fill]
  exact of_decide_eq_true hrange

theorem feeGetInfo_lawful : Ends (fun _ _ => True) (Lawful c o) (feeGetInfoBody s) := by
  refine checkState_lawful fun hready => ?_
  refine Ends.bind (devGetInfo_does (u := .fee) s) fun d s1 ⟨_, hd, hs1⟩ => .read ?_
  subst hd hs1
  refine Ends.mono (reportInfo_does (u := .fee) _ _ _ fun hc => ?_) (fun _ _ _ => trivial) fun _ _ e => e
  exact (feeAt_of_laidOut (h.laid hc (ready_fee_iff.1 hready))).fit.ident_le

/-- No FEE command breaks the contract or sets a 0 bit where the unit's content is as it must be. -/
theorem feeBody_lawful {i : Instr} (hi : i.unit = .fee) : Ends (fun _ _ => True) (Lawful c o) (bodyOf i s) := by
  cases i
  case feeInit => trivial
  case feeObjectInit =>
    exact checkState_lawful fun _ => .read ((feeRegs_lawful _ s).mono (fun _ _ _ => trivial) fun _ _ e => e)
  case feeStart => exact feeStart_lawful h.wf h.canonical
  case feeStop => exact checkState_lawful fun _ => change_ends_lawful _ s
  case feeRead => exact feeRead_lawful h
  case feeWrite => exact feeWrite_lawful h
  case feeErase => exact feeErase_lawful h
  case feeMassErase =>
    refine checkState_lawful fun hserves => ?_
    obtain ⟨hdrv, hrec⟩ := feeServes_iff.1 hserves
    exact format_lawful (h.content hdrv hrec).laid h.canonical
  case feeSync =>
    exact checkState_lawful fun _ => Ends.mono (devSync_does (u := .fee) s) (fun _ _ _ => trivial) fun _ _ e => e
  case feeGetInfo => exact feeGetInfo_lawful h
  case feeAcquireBus => exact checkState_lawful fun _ => acquire_lawful _ s
  case feeReleaseBus => exact checkState_lawful fun _ => release_lawful s
  all_goals cases hi

end serving

/-! ### Sound content -/

theorem canonical_cur (h : s.memoryCanonical = true) (u : UnitId) :
    Memory.wf (some erasedByte) (s.dev u).cur = true := (((memoryCanonical_iff s).1 h).dev u).1

/-- Sound content is open: the bytes above the used slots are erased. -/
theorem feeOpen_of_sound (h : s.feeSound) : FeeOpen o s.params s.devF.info s := by
  obtain ⟨hcan, hlaid, hused, -, habove⟩ := h
  have hat := feeAt_of_laidOut hlaid
  refine ⟨hat, hat.numSlots ▸ hused, fun _ => ⟨canonical_cur hcan .fee, fun x ⟨hlo, hhi⟩ => habove x ?_ ?_⟩⟩
  · rw [hat.slotBase]
    exact hlo
  · rw [hat.arenaBase, hat.arenaBytes]
    exact hhi

end Sys2Proof.Machine

namespace Sys2Proof.Proofs

/-- Settles O46: every device write of a FEE command puts 0s, or goes to bytes that an erase or the sound content left
erased. -/
theorem feeNeverOverwrites : Obligations.FeeNeverOverwrites := by
  unfold Obligations.FeeNeverOverwrites
  intro i s hi hcan hw hsound
  have hserving : FeeServing False True s :=
    ⟨hw, False.elim, fun hdrv hrec => feeOpen_of_sound (hsound hdrv hrec), fun _ => ⟨canonical_cur hcan .fee, nofun⟩⟩
  exact exec_lawful (feeBody_lawful hserving hi) (f := .overwrite) trivial

end Sys2Proof.Proofs
end

