-- ==== Sys2Proof/Proofs/MirrorLayout.lean ====
section
/-! PROOF. The layout of a fit Mirror device: the header log and the two copies, that they lie within the device, and
their alignment (30_encoding.md R112; 41_mirror.md R170). -/

open Sys2Proof Sys2Proof.Machine

namespace Sys2Proof.Machine

/-! ### The numbers of the layout -/

/-- M_HDR_BYTES of a device with this many header sectors; it is M_A_ORG also. -/
def headerSpan (d : DevInfo) (h : Nat) : Nat := h * d.sectorSize

/-- M_SECTORS. -/
def copySectorCount (d : DevInfo) (h : Nat) : Nat := (d.sectorNum - h) / 2

/-- M_SIZE. -/
def copySpan (d : DevInfo) (h : Nat) : Nat := copySectorCount d h * d.sectorSize

/-- M_B_ORG. -/
def copyBAt (d : DevInfo) (h : Nat) : Nat := (h + copySectorCount d h) * d.sectorSize

/-- The entries of the header log. -/
def logCount (p : Params) (d : DevInfo) (h : Nat) : Nat := headerSpan d h / p.widthM.bytes

/-- The origins of the two copies. -/
def IsOrigin (d : DevInfo) (h org : Nat) : Prop := org = headerSpan d h ∨ org = copyBAt d h

/-- The device fits the unit with this many header sectors (41_mirror.md R170). -/
structure MirrorFit (p : Params) (d : DevInfo) (h : Nat) : Prop where
  fits : mirrorFits p d h = true

theorem copyBAt_eq (d : DevInfo) (h : Nat) : copyBAt d h = headerSpan d h + copySpan d h := Nat.add_mul ..

namespace MirrorFit

variable {p : Params} {d : DevInfo} {h : Nat} (hfit : MirrorFit p d h)
include hfit

/-- The checks, one by one. -/
theorem checks : 1 ≤ d.sectorSize ∧ 1 ≤ d.sectorNum ∧ 1 ≤ d.writeAlign ∧ d.sectorSize % d.writeAlign = 0
    ∧ d.sectorSize * d.sectorNum ≤ 2 ^ 32 ∧ p.widthM.bytes % d.writeAlign = 0 ∧ 1 ≤ h ∧ h < d.sectorNum
    ∧ 1 ≤ (d.sectorNum - h) / 2 ∧ 1 ≤ h * d.sectorSize / p.widthM.bytes ∧ d.ident.length ≤ p.bufBytes :=
  of_decide_eq_true hfit.fits

theorem sectorSize_pos : 0 < d.sectorSize := hfit.checks.1

theorem align_dvd_sector : d.writeAlign ∣ d.sectorSize := by
  obtain ⟨-, -, -, hsec, -⟩ := hfit.checks
  exact Nat.dvd_of_mod_eq_zero hsec

theorem align_dvd_width : d.writeAlign ∣ p.widthM.bytes := by
  obtain ⟨-, -, -, -, -, hw, -⟩ := hfit.checks
  exact Nat.dvd_of_mod_eq_zero hw

theorem logCount_pos : 0 < logCount p d h := by
  obtain ⟨-, -, -, -, -, -, -, -, -, hlog, -⟩ := hfit.checks
  exact hlog

theorem ident_le : d.ident.length ≤ p.bufBytes := by
  obtain ⟨-, -, -, -, -, -, -, -, -, -, hid⟩ := hfit.checks
  exact hid

/-- The header span and the two copies lie in the device. -/
theorem copies_le_device : copyBAt d h + copySpan d h ≤ d.sectorSize * d.sectorNum := by
  obtain ⟨-, -, -, -, -, -, -, hlt, -⟩ := hfit.checks
  have hsectors : h + copySectorCount d h + copySectorCount d h ≤ d.sectorNum := by
    unfold copySectorCount
    omega
  calc copyBAt d h + copySpan d h = (h + copySectorCount d h + copySectorCount d h) * d.sectorSize :=
        (Nat.add_mul ..).symm
    _ ≤ d.sectorNum * d.sectorSize := Nat.mul_le_mul_right _ hsectors
    _ = d.sectorSize * d.sectorNum := Nat.mul_comm _ _

theorem device_le : d.sectorSize * d.sectorNum ≤ 2 ^ 32 := by
  obtain ⟨-, -, -, -, hsize, -⟩ := hfit.checks
  exact hsize

theorem sectorCount_pos : 0 < copySectorCount d h := by
  obtain ⟨-, -, -, -, -, -, -, -, hms, -⟩ := hfit.checks
  exact hms

theorem copySpan_pos : 0 < copySpan d h := Nat.mul_pos hfit.sectorCount_pos hfit.sectorSize_pos

theorem copyBAt_lt : copyBAt d h < 2 ^ 32 := by
  have := hfit.copies_le_device
  have := hfit.device_le
  have := hfit.copySpan_pos
  omega

theorem headerSpan_lt : headerSpan d h < 2 ^ 32 :=
  lt_of_le_of_lt (Nat.le_add_right _ _) (copyBAt_eq d h ▸ hfit.copyBAt_lt)

theorem copySpan_lt : copySpan d h < 2 ^ 32 :=
  lt_of_le_of_lt (Nat.le_add_left _ _) (copyBAt_eq d h ▸ hfit.copyBAt_lt)

theorem sectorCount_lt : copySectorCount d h < 2 ^ 32 :=
  lt_of_le_of_lt (Nat.le_mul_of_pos_right _ hfit.sectorSize_pos) hfit.copySpan_lt

/-- Each copy lies in the device. -/
theorem copy_le_device {org : Nat} (ho : IsOrigin d h org) : org + copySpan d h ≤ d.sectorSize * d.sectorNum := by
  have := hfit.copies_le_device
  have := copyBAt_eq d h
  rcases ho with rfl | rfl <;> omega

end MirrorFit

/-- A log entry lies in the header span (30_encoding.md R112). -/
theorem entry_le_header {p : Params} {d : DevInfo} {h k : Nat} (hk : k < logCount p d h) :
    k * p.widthM.bytes + p.widthM.bytes ≤ headerSpan d h :=
  calc k * p.widthM.bytes + p.widthM.bytes = (k + 1) * p.widthM.bytes := (Nat.succ_mul ..).symm
    _ ≤ logCount p d h * p.widthM.bytes := Nat.mul_le_mul_right _ hk
    _ ≤ headerSpan d h := Nat.div_mul_le_self _ _

theorem sector_dvd_origin {d : DevInfo} {h org : Nat} (ho : IsOrigin d h org) : d.sectorSize ∣ org := by
  rcases ho with rfl | rfl <;> exact Nat.dvd_mul_left _ _

/-! ### The layout of a state -/

/-- The geometry registers and the cache of a Mirror bank; the rest reset. -/
def MirrorUnit.geometry (m : MirrorUnit) : MirrorUnit :=
  { MirrorUnit.reset with
    cache := m.cache, hdrBytes := m.hdrBytes, sectors := m.sectors, size := m.size, aOrg := m.aOrg, bOrg := m.bOrg }

/-- A bank has a device's geometry exactly when its geometry registers are those of the device. -/
theorem MirrorUnit.eq_withGeometry_iff (m : MirrorUnit) (d : DevInfo) (h : Nat) :
    m = m.withGeometry d h ↔ m.geometry = MirrorUnit.reset.withGeometry d h := by
  cases m
  simp [MirrorUnit.withGeometry, MirrorUnit.geometry, MirrorUnit.reset]

/-- The Mirror registers and cache are those of the device, which has these parameters and this report. -/
structure MirrorAt (p : Params) (d : DevInfo) (h : Nat) (s : State) : Prop where
  fit : MirrorFit p d h
  params : s.params = p
  info : s.devM.info = d
  geometry : s.m.geometry = MirrorUnit.reset.withGeometry d h

/-- M_STATE_ADDR names an entry of the log (10_state.md R33). -/
def LogAt (p : Params) (d : DevInfo) (h : Nat) (m : MirrorUnit) : Prop :=
  ∃ k, k < logCount p d h ∧ m.stateAddr.toNat = k * p.widthM.bytes

theorem mirrorAt_of_laidOut {s : State} (hs : s.mirrorLaidOut) : ∃ h, MirrorAt s.params s.devM.info h s := by
  obtain ⟨h, hfit, hgeo⟩ := hs
  exact ⟨h, ⟨hfit⟩, rfl, rfl, (MirrorUnit.eq_withGeometry_iff ..).1 hgeo⟩

namespace MirrorAt

variable {p : Params} {d : DevInfo} {h : Nat} {s t : State} {D : Set Nat} {u : UnitId}

/-- What keeps all but the mark keeps the layout. -/
theorem marked (hs : MirrorAt p d h s) (k : s.Follows Banks.exceptMark t) : MirrorAt p d h t :=
  ⟨hs.fit, (congrArg Prod.fst k.fixed).trans hs.params, (congrArg (fun x => x.2.1) k.fixed).trans hs.info,
    (congrArg (fun b : Banks => b.m.geometry) k.view : t.m.geometry = s.m.geometry).trans hs.geometry⟩

theorem still (hs : MirrorAt p d h s) (k : s.Follows id t) : MirrorAt p d h t := hs.marked (k.see _)

variable (hs : MirrorAt p d h s)
include hs

theorem cache : s.m.cache = ⟨d.sectorSize, d.sectorNum, d.writeAlign⟩ :=
  (congrArg MirrorUnit.cache hs.geometry : _)

theorem hdrBytes : s.m.hdrBytes.toNat = headerSpan d h := by
  have hg : s.m.hdrBytes = BitVec.ofNat 32 (headerSpan d h) := congrArg MirrorUnit.hdrBytes hs.geometry
  rw [hg, BitVec.toNat_ofNat, Nat.mod_eq_of_lt hs.fit.headerSpan_lt]

theorem sectors : s.m.sectors.toNat = copySectorCount d h := by
  have hg : s.m.sectors = BitVec.ofNat 32 (copySectorCount d h) := congrArg MirrorUnit.sectors hs.geometry
  rw [hg, BitVec.toNat_ofNat, Nat.mod_eq_of_lt hs.fit.sectorCount_lt]

theorem size : s.m.size.toNat = copySpan d h := by
  have hg : s.m.size = BitVec.ofNat 32 (copySpan d h) := congrArg MirrorUnit.size hs.geometry
  rw [hg, BitVec.toNat_ofNat, Nat.mod_eq_of_lt hs.fit.copySpan_lt]

theorem aOrg : s.m.aOrg.toNat = headerSpan d h := by
  have hg : s.m.aOrg = BitVec.ofNat 32 (headerSpan d h) := congrArg MirrorUnit.aOrg hs.geometry
  rw [hg, BitVec.toNat_ofNat, Nat.mod_eq_of_lt hs.fit.headerSpan_lt]

theorem bOrg : s.m.bOrg.toNat = copyBAt d h := by
  have hg : s.m.bOrg = BitVec.ofNat 32 (copyBAt d h) := congrArg MirrorUnit.bOrg hs.geometry
  rw [hg, BitVec.toNat_ofNat, Nat.mod_eq_of_lt hs.fit.copyBAt_lt]

theorem logEntries : s.logEntries = logCount p d h := by
  unfold State.logEntries logCount
  rw [hs.hdrBytes, hs.params]

theorem sectorSize : s.m.cache.sectorSize = d.sectorSize := by rw [hs.cache]

theorem writeAlign : s.m.cache.writeAlign = d.writeAlign := by rw [hs.cache]

theorem logAt (hp : s.logPlaced) : LogAt p d h s.m := by
  obtain ⟨hmod, hlt⟩ := hp
  unfold State.logPosition at hlt
  rw [hs.logEntries, hs.params] at hlt
  rw [hs.params] at hmod
  refine ⟨_, hlt, ?_⟩
  have := Nat.div_add_mod' s.m.stateAddr.toNat p.widthM.bytes
  omega

/-! Device operations within the layout. -/

theorem readable {x n : Nat} (hx : x + n ≤ d.sectorSize * d.sectorNum) : x + n ≤ (s.dev .mirror).bytes := by
  unfold Device.bytes
  rw [show (s.dev .mirror).info = d from hs.info]
  exact hx

theorem writable {x n : Nat} (hx : x + n ≤ d.sectorSize * d.sectorNum) (hax : d.writeAlign ∣ x)
    (han : d.writeAlign ∣ n) : (s.dev .mirror).writable x n = true := by
  unfold Device.writable
  rw [show (s.dev .mirror).info = d from hs.info]
  exact decide_eq_true ⟨Nat.mod_eq_zero_of_dvd hax, Nat.mod_eq_zero_of_dvd han, hs.readable hx⟩

theorem erasable {x n : Nat} (hx : x + n ≤ d.sectorSize * d.sectorNum) (hax : d.sectorSize ∣ x)
    (han : d.sectorSize ∣ n) : (s.dev .mirror).erasable x n = true := by
  unfold Device.erasable
  rw [show (s.dev .mirror).info = d from hs.info]
  exact decide_eq_true ⟨Nat.mod_eq_zero_of_dvd hax, Nat.mod_eq_zero_of_dvd han, hs.readable hx⟩

/-- A log entry lies in the device. -/
theorem entry_le_device {k : Nat} (hk : k < logCount p d h) :
    k * p.widthM.bytes + p.widthM.bytes ≤ d.sectorSize * d.sectorNum :=
  ((entry_le_header hk).trans (Nat.le_add_right _ _)).trans (hs.fit.copy_le_device (.inl rfl))

theorem header_le_device : headerSpan d h ≤ d.sectorSize * d.sectorNum :=
  (Nat.le_add_right _ _).trans (hs.fit.copy_le_device (.inl rfl))

end MirrorAt

end Sys2Proof.Machine
end

