-- ==== Sys2Proof/Proofs/MirrorCommands.lean ====
section
/-! PROOF. The commands of the Mirror unit keep the device contract and BUF's bounds (20_memory.md R63 to R65, R74;
41_mirror.md R162 to R180), as those of the FEE unit do. -/

open Sys2Proof Sys2Proof.Machine

namespace Sys2Proof.Machine

variable {c : Prop} {α β : Type} {p : Params} {d : DevInfo} {h : Nat} {s : State}

/-- A lawful Mirror procedure: it keeps a view of the banks, and may write anywhere in the device, over 0 bits too. -/
abbrev MirrorDoes (c : Prop) (v : Banks → β) (R : α → State → Prop) (q : Proc α) (s : State) : Prop :=
  Does c False .mirror v Set.univ R q s

theorem mirrorDoes_of {D : Set Nat} {R : α → State → Prop} {q : Proc α} (k : Does c False .mirror id D R q s)
    (v : Banks → β) : MirrorDoes c v R q s := (k.see v).widen (Set.subset_univ _)

theorem erased_of_false {S : Set Nat} : Erased False .mirror S s := nofun

/-! ### The log -/

theorem LogAt.still {t : State} (hp : LogAt p d h s.m) (k : s.Follows id t) : LogAt p d h t.m := by
  rw [show t.m = s.m from congrArg Banks.m k.view]
  exact hp

/-- An offset of an entry fits M_STATE_ADDR. -/
theorem logAt_ofNat (hfit : MirrorFit p d h) {k : Nat} (hk : k < logCount p d h) {m : MirrorUnit}
    (hm : m.stateAddr = BitVec.ofNat 32 (k * p.widthM.bytes)) : LogAt p d h m := by
  refine ⟨k, hk, ?_⟩
  rw [hm, BitVec.toNat_ofNat, Nat.mod_eq_of_lt]
  exact lt_of_le_of_lt ((Nat.le_add_right _ _).trans (entry_le_header hk)) hfit.headerSpan_lt

theorem setMirrorState_does (x : MirrorState) (off : Nat) (s : State) :
    MirrorDoes c Banks.exceptMark (fun _ t => t.m.stateAddr = BitVec.ofNat 32 off) (setMirrorState x off) s := by
  have hregs := mirrorRegs_does (c := c) (o := False) (u := .mirror) (v := Banks.exceptMark)
    (gs := [fun m => { m with state := x }, fun m => { m with stateAddr := BitVec.ofNat 32 off }]) (fun _ => rfl) s
  exact (hregs.imp fun _ t _ ht => by rw [ht]; rfl).widen (Set.subset_univ _)

theorem logMark_does (hs : MirrorAt p d h s) {k : Nat} (hk : k < logCount p d h) (v : Nat) :
    MirrorDoes c Banks.exceptMark (fun _ t => MirrorAt p d h t) (writeMarkWord .mirror (k * p.widthM.bytes) v) s := by
  refine does_read ?_
  rw [show s.markWidth .mirror = p.widthM from congrArg Params.widthM hs.params]
  have hw := devWrite_does (c := c) (o := False) (u := .mirror) (a := k * p.widthM.bytes)
    (data := leBytes p.widthM.bytes v) (s := s)
    (fun _ => by
      rw [length_leBytes]
      exact hs.writable (hs.entry_le_device hk) (hs.fit.align_dvd_width.mul_left k) hs.fit.align_dvd_width)
    False.elim
  refine (mirrorDoes_of hw _).bind fun _ t k _ => ?_
  have ht := hs.marked k.follows
  exact (mirrorDoes_of (devSync_does t) _).imp fun _ _ k' _ => ht.marked k'.follows

theorem writeLogEntry_does (hs : MirrorAt p d h s) {k : Nat} (hk : k < logCount p d h) (x : LogMark) :
    MirrorDoes c Banks.exceptMark (fun _ t => LogAt p d h t.m) (writeLogEntry (k * p.widthM.bytes) x) s :=
  does_read ((logMark_does hs hk _).bind fun _ t _ ht => (setMirrorState_does _ _ t).imp fun _ _ _ hm =>
    logAt_ofNat ht.fit hk hm)

theorem eraseHeader_does (hs : MirrorAt p d h s) :
    MirrorDoes c Banks.exceptMark (fun _ t => MirrorAt p d h t) eraseHeader s := by
  refine does_read ?_
  rw [hs.hdrBytes]
  have herase : (s.dev .mirror).erasable 0 (headerSpan d h) = true :=
    hs.erasable (by rw [Nat.zero_add]; exact hs.header_le_device) (Nat.dvd_zero _) (Nat.dvd_mul_left _ _)
  refine (mirrorDoes_of (devErase_does (fun _ => herase) erased_of_false) _).bind fun _ t k _ => ?_
  have ht := hs.marked k.follows
  exact (mirrorDoes_of (devSync_does t) _).imp fun _ _ k' _ => ht.marked k'.follows

theorem markReset_does (hs : MirrorAt p d h s) (x : LogMark) :
    MirrorDoes c Banks.exceptMark (fun _ t => LogAt p d h t.m) (markReset x) s :=
  (eraseHeader_does hs).bind fun _ t _ ht => by
    have hw := writeLogEntry_does (c := c) ht ht.fit.logCount_pos x
    rwa [Nat.zero_mul] at hw

/-- The cursor after entry k is entry k + 1. -/
theorem logCursor_eq (hs : MirrorAt p d h s) {k : Nat} (hk : s.m.stateAddr.toNat = k * p.widthM.bytes) :
    s.logCursor = (k + 1) * p.widthM.bytes := by
  unfold State.logCursor
  rw [hk, hs.params, Nat.succ_mul]

theorem logFull_iff (hs : MirrorAt p d h s) {k : Nat} (hk : s.m.stateAddr.toNat = k * p.widthM.bytes) :
    s.logFull = true ↔ logCount p d h ≤ k + 1 := by
  unfold State.logFull
  rw [hs.logEntries, logCursor_eq hs hk, hs.params, Nat.mul_div_cancel _ (width_pos _), decide_eq_true_iff]

/-- A mark goes to the next entry of the log, or to the first (41_mirror.md R162). -/
theorem markAppend_does (hs : MirrorAt p d h s) (hp : LogAt p d h s.m) (x : LogMark) :
    MirrorDoes c Banks.exceptMark (fun _ t => LogAt p d h t.m) (markAppend x) s := by
  obtain ⟨k, -, hk⟩ := hp
  refine does_read (does_ite (fun _ => markReset_does hs x) fun hroom => ?_)
  rw [logFull_iff hs hk] at hroom
  rw [logCursor_eq hs hk]
  exact writeLogEntry_does hs (by omega) x

/-! ### Scans -/

/-- A scan's answer names an entry. -/
def ScanAt (p : Params) (d : DevInfo) (h : Nat) (r : MirrorState × Nat) : Prop :=
  ∃ k, k < logCount p d h ∧ r.2 = k * p.widthM.bytes

theorem readLogEntry_does (hs : MirrorAt p d h s) {k : Nat} (hk : k < logCount p d h) :
    MirrorDoes c id (fun _ t => MirrorAt p d h t) (readLogEntry k) s := by
  refine does_read ?_
  simp only [hs.params]
  exact (mirrorDoes_of (devRead_does fun _ => hs.readable (hs.entry_le_device hk)) id).imp fun _ _ k' _ =>
    hs.still k'.follows

theorem scanAt_zero (hs : MirrorAt p d h s) (x : MirrorState) : ScanAt p d h (x, 0) :=
  ⟨0, hs.fit.logCount_pos, (Nat.zero_mul _).symm⟩

theorem scanTail_does (hs : MirrorAt p d h s) {r : MirrorState × Nat} (hr : ScanAt p d h r) (n k : Nat)
    (hk : k + n ≤ logCount p d h) : MirrorDoes c id (fun r _ => ScanAt p d h r) (scanTail r n k) s := by
  induction n generalizing s k with
  | zero => exact does_pure hr
  | succ n ih =>
    refine (readLogEntry_does hs (by omega)).bind fun bs t _ ht => does_read (does_ite (fun _ => ?_) fun _ => ?_)
    · exact ih ht (k + 1) (by omega)
    · exact does_pure (scanAt_zero ht _)

theorem scanFrom_does (hs : MirrorAt p d h s) {r : MirrorState × Nat} (hr : ScanAt p d h r) (n k : Nat)
    (hk : k + n ≤ logCount p d h) : MirrorDoes c id (fun r _ => ScanAt p d h r) (scanFrom r n k) s := by
  induction n generalizing s r k with
  | zero => exact does_pure hr
  | succ n ih =>
    refine (readLogEntry_does hs (by omega)).bind fun bs t _ ht => does_read ?_
    rw [ht.params]
    have hnext (x : MirrorState) : ScanAt p d h (x, k * p.widthM.bytes) := ⟨k, by omega, rfl⟩
    dsimp only
    cases LogMark.decode p.widthM bs with
    | none => exact does_pure (scanAt_zero ht _)
    | some x =>
      cases x with
      | unused => exact scanTail_does ht hr n (k + 1) (by omega)
      | dirtyA => exact ih ht (hnext _) (k + 1) (by omega)
      | dirtyB => exact ih ht (hnext _) (k + 1) (by omega)
      | synced => exact ih ht (hnext _) (k + 1) (by omega)

theorem scan_does (hs : MirrorAt p d h s) : MirrorDoes c id (fun r _ => ScanAt p d h r) scan s :=
  does_read (scanFrom_does hs (scanAt_zero hs _) _ 0 (by rw [hs.logEntries]; omega))

/-! ### Copies -/

/-- A sector of a copy lies in the device. -/
theorem sector_le_device (hfit : MirrorFit p d h) {org i : Nat} (ho : IsOrigin d h org) (hi : i < copySectorCount d h) :
    org + i * d.sectorSize + d.sectorSize ≤ d.sectorSize * d.sectorNum := by
  have hcopy := hfit.copy_le_device ho
  have hmul : (i + 1) * d.sectorSize ≤ copySpan d h := Nat.mul_le_mul_right _ hi
  rw [Nat.succ_mul] at hmul
  omega

theorem copySectors_does (hs : MirrorAt p d h s) {src dst : Nat} (hsrc : IsOrigin d h src) (hdst : IsOrigin d h dst)
    (n i : Nat) (hi : i + n ≤ copySectorCount d h) :
    MirrorDoes c id (fun _ t => MirrorAt p d h t) (copySectors src dst n i) s := by
  induction n generalizing s i with
  | zero => exact does_pure hs
  | succ n ih =>
    have hsector : d.sectorSize ∣ dst + i * d.sectorSize := (sector_dvd_origin hdst).add (Nat.dvd_mul_left _ _)
    have hsrc' := sector_le_device hs.fit hsrc (i := i) (by omega)
    have hdst' := sector_le_device hs.fit hdst (i := i) (by omega)
    refine does_read ?_
    simp only [hs.sectorSize]
    have herase := devErase_does (c := c) (fun _ => hs.erasable hdst' hsector dvd_rfl) erased_of_false
    refine (mirrorDoes_of herase id).bind fun _ t1 k1 _ => ?_
    have h1 := hs.still k1.follows
    refine (mirrorDoes_of (devRead_does fun _ => h1.readable hsrc') id).bind fun bs t2 k2 hbs => ?_
    have h2 := h1.still k2.follows
    have hlen : bs.length = d.sectorSize := by rw [hbs, length_bytesAt]
    have hw := devWrite_does (c := c) (o := False) (u := .mirror) (a := dst + i * d.sectorSize) (data := bs) (s := t2)
      (fun _ => by
        rw [hlen]
        exact h2.writable hdst' (hs.fit.align_dvd_sector.trans hsector) hs.fit.align_dvd_sector)
      False.elim
    exact (mirrorDoes_of hw id).bind fun _ t3 k3 _ => ih (h2.still k3.follows) (i + 1) (by omega)

theorem copyMirror_does (hs : MirrorAt p d h s) {src dst : Nat} (hsrc : IsOrigin d h src) (hdst : IsOrigin d h dst) :
    MirrorDoes c id (fun _ _ => True) (copyMirror src dst) s := by
  refine does_read ?_
  have hcopy := copySectors_does (c := c) hs hsrc hdst s.m.sectors.toNat 0 (by rw [hs.sectors]; omega)
  exact hcopy.bind fun _ t _ _ => mirrorDoes_of (devSync_does t) id

theorem copyBtoA_does (hs : MirrorAt p d h s) : MirrorDoes c id (fun _ _ => True) copyBtoA s :=
  does_read (by rw [hs.aOrg, hs.bOrg]; exact copyMirror_does hs (.inr rfl) (.inl rfl))

theorem copyAtoB_does (hs : MirrorAt p d h s) : MirrorDoes c id (fun _ _ => True) copyAtoB s :=
  does_read (by rw [hs.aOrg, hs.bOrg]; exact copyMirror_does hs (.inl rfl) (.inr rfl))

/-- Recovery keeps the contract, whatever the log said (41_mirror.md R166). -/
theorem recoverMirror_lawful (hs : MirrorAt p d h s) : Ends (fun _ _ => True) (Lawful c False) (recoverMirror s) := by
  refine Ends.bind (scan_does hs) fun (x, off) s1 ⟨k1, k, hk, hoff⟩ => ?_
  dsimp only at hoff ⊢
  have h1 := hs.still k1.follows
  refine Ends.bind (setMirrorState_does x off s1) fun _ s2 ⟨k2, hm⟩ => ?_
  have h2 := h1.marked k2.follows
  have hp2 : LogAt p d h s2.m := logAt_ofNat hs.fit hk (hoff ▸ hm)
  have done {q : Proc Unit} {t : State} {R : Unit → State → Prop} (hq : MirrorDoes c Banks.exceptMark R q t) :
      Ends (fun _ _ => True) (Lawful c False) (q t) := Ends.mono hq (fun _ _ _ => trivial) fun _ _ e => e
  cases x with
  | synced => trivial
  | dirtyA =>
    exact Ends.bind (copyBtoA_does h2) fun _ s3 ⟨k3, _⟩ =>
      done (markAppend_does (h2.still k3.follows) (hp2.still k3.follows) .synced)
  | dirtyB =>
    exact Ends.bind (copyAtoB_does h2) fun _ s3 ⟨k3, _⟩ =>
      done (markAppend_does (h2.still k3.follows) (hp2.still k3.follows) .synced)
  | invalid =>
    exact Ends.bind (copyAtoB_does h2) fun _ s3 ⟨k3, _⟩ => done (markReset_does (h2.still k3.follows) .synced)

/-! ### Bodies -/

/-- The three phases keep the contract where the mutation of each copy does (41_mirror.md R176 to R178). -/
theorem threePhase_lawful {mutate : Nat → Proc Unit} (hs : MirrorAt p d h s) (hp : LogAt p d h s.m)
    (hm : ∀ org, IsOrigin d h org → ∀ t, s.Follows Banks.exceptMark t →
      MirrorDoes c id (fun _ _ => True) (mutate org) t) :
    Ends (fun _ _ => True) (Lawful c False) (threePhase mutate s) := by
  refine Ends.bind (markAppend_does hs hp .dirtyA) fun _ s1 ⟨k1, hp1⟩ => .read ?_
  have f1 := k1.follows
  rw [(hs.marked f1).aOrg]
  refine Ends.bind (hm _ (.inl rfl) s1 f1) fun _ s2 ⟨k2, _⟩ => ?_
  refine Ends.bind (devSync_does (u := .mirror) s2) fun _ s3 ⟨k3, _⟩ => ?_
  have f13 := k2.follows.trans k3.follows
  have f3 := f1.trans (f13.see _)
  refine Ends.bind (markAppend_does (hs.marked f3) (hp1.still f13) .dirtyB) fun _ s4 ⟨k4, hp4⟩ => .read ?_
  have f4 := f3.trans k4.follows
  rw [(hs.marked f4).bOrg]
  refine Ends.bind (hm _ (.inr rfl) s4 f4) fun _ s5 ⟨k5, _⟩ => ?_
  refine Ends.bind (devSync_does (u := .mirror) s5) fun _ s6 ⟨k6, _⟩ => ?_
  have f46 := k5.follows.trans k6.follows
  refine Ends.mono (markAppend_does (hs.marked (f4.trans (f46.see _))) (hp4.still f46) .synced) (fun _ _ _ => trivial)
    fun _ _ e => e

/-- The write of a range in one copy. -/
theorem mirrorWriteAt_does (hs : MirrorAt p d h s) {addr n org : Nat} (ho : IsOrigin d h org) (hbuf : n ≤ p.bufBytes)
    (hin : addr + n ≤ copySpan d h) (hal : d.writeAlign ∣ addr) (hn : d.writeAlign ∣ n) :
    MirrorDoes c id (fun _ _ => True) (mirrorWriteAt addr n org) s := by
  have hcopy := hs.fit.copy_le_device ho
  have horg := hs.fit.align_dvd_sector.trans (sector_dvd_origin ho)
  have hload := bufLoad_does (c := c) (o := False) (u := .mirror) (n := n) (s := s) fun _ => by
    rw [hs.params]
    exact hbuf
  refine (mirrorDoes_of hload id).bind fun bs t k hbs => ?_
  have ht := hs.still k.follows
  have hw := devWrite_does (c := c) (o := False) (u := .mirror) (a := org + addr) (data := bs) (s := t)
    (fun _ => by
      rw [hbs]
      exact ht.writable (by omega) (horg.add hal) hn)
    False.elim
  exact (mirrorDoes_of hw id).imp fun _ _ _ _ => trivial

/-- The erase of a range in one copy. -/
theorem mirrorEraseAt_does (hs : MirrorAt p d h s) {addr n org : Nat} (ho : IsOrigin d h org)
    (hin : addr + n ≤ copySpan d h) (hal : d.sectorSize ∣ addr) (hn : d.sectorSize ∣ n) :
    MirrorDoes c id (fun _ _ => True) (devErase .mirror (org + addr) n) s := by
  have hcopy := hs.fit.copy_le_device ho
  have herase := devErase_does (c := c)
    (fun _ => hs.erasable (x := org + addr) (n := n) (by omega) ((sector_dvd_origin ho).add hal) hn) erased_of_false
  exact (mirrorDoes_of herase id).imp fun _ _ _ _ => trivial

/-- A geometry that was set is that of a fit device (41_mirror.md R170). -/
theorem mirrorGeometry_lawful (s : State) :
    Ends (fun _ t => ∃ h, MirrorAt s.params s.devM.info h t) (Lawful c False) (mirrorGeometry s) := by
  refine Ends.bind (devGetInfo_does (u := .mirror) s) fun d s1 ⟨_, hd, hs1⟩ => ?_
  subst hd hs1
  refine .read (.require (fun hfit => ?_) fun _ => lawful_raised _ _)
  have hregs := mirrorRegs_does (c := c) (o := False) (u := .mirror) (v := Banks.exceptBank .mirror)
    (gs := (s1.m.withGeometry s1.devM.info s1.opCfg).geometryRegs) (fun _ => rfl) s1
  refine Ends.mono hregs (fun _ t ⟨k, hm⟩ => ⟨s1.opCfg, ⟨hfit⟩, ?_, ?_, ?_⟩) fun _ _ e => e
  · exact congrArg Prod.fst k.follows.fixed
  · exact congrArg (fun x => x.2.1) k.follows.fixed
  · rw [hm, MirrorUnit.geometryRegs_done]
    rfl

theorem mirrorStart_lawful (s : State) : Ends (fun _ _ => True) (Lawful c False) (mirrorStartBody s) := by
  refine checkState_lawful fun _ => ?_
  refine Ends.bind (changeDrv_does (u := .mirror) .mirror .stop s) fun _ s1 _ => ?_
  refine Ends.bind (mirrorGeometry_lawful s1) fun _ s2 ⟨h, h2⟩ => ?_
  refine Ends.bind (devSync_does (u := .mirror) s2) fun _ s3 ⟨k3, _⟩ => ?_
  refine Ends.bind (recoverMirror_lawful (h2.still k3.follows)) fun _ s4 _ => ?_
  exact (mirrorRegs_lawful _ s4).mono (fun _ _ _ => trivial) fun _ _ e => e

theorem mirrorServes_drv (hs : s.mirrorServes = true) : s.m.drv = .ready := by
  simp only [State.mirrorServes, Bool.and_eq_true, beq_iff_eq] at hs
  obtain ⟨⟨hdrv, -⟩, -⟩ := hs
  exact hdrv

/-- What the commands of a READY unit need of it. -/
def MirrorServing (s : State) : Prop := s.m.drv = .ready → s.mirrorLaidOut ∧ s.logPlaced

section serving
variable (hserving : MirrorServing s)
include hserving

/-- The layout of a READY unit. -/
theorem MirrorServing.layout (hd : s.m.drv = .ready) :
    ∃ h, MirrorAt s.params s.devM.info h s ∧ LogAt s.params s.devM.info h s.m := by
  obtain ⟨hlaid, hplaced⟩ := hserving hd
  obtain ⟨h, hat⟩ := mirrorAt_of_laidOut hlaid
  exact ⟨h, hat, hat.logAt hplaced⟩

theorem mirrorRead_lawful : Ends (fun _ _ => True) (Lawful c False) (mirrorReadBody s) := by
  refine checkState_lawful fun hserves => .read (.require (fun hrange => ?_) fun _ => lawful_raised _ _)
  obtain ⟨h, hat, -⟩ := hserving.layout (mirrorServes_drv hserves)
  obtain ⟨hbuf, hin⟩ := (Bool.and_eq_true _ _).mp hrange
  have hbuf : s.opLen ≤ s.params.bufBytes := of_decide_eq_true hbuf
  have hin : s.opAddr + s.opLen ≤ s.m.size.toNat := of_decide_eq_true hin
  refine .ite (fun _ => trivial) fun _ => guardRead_lawful _ ?_
  rw [hat.size] at hin
  rw [hat.aOrg]
  have hcopy := hat.fit.copy_le_device (.inl rfl)
  refine Ends.bind (devRead_does (u := .mirror) fun _ => hat.readable (by omega)) fun bs s1 ⟨k1, hbs⟩ => ?_
  refine Ends.mono (bufStore_does (u := .mirror) fun _ => ?_) (fun _ _ _ => trivial) fun _ _ e => e
  rw [hbs, length_bytesAt, (hat.still k1.follows).params]
  exact hbuf

theorem mirrorWrite_lawful : Ends (fun _ _ => True) (Lawful c False) (mirrorWriteBody s) := by
  refine checkState_lawful fun hserves => .read (.require (fun hrange => ?_) fun _ => lawful_raised _ _)
  obtain ⟨h, hat, hlog⟩ := hserving.layout (mirrorServes_drv hserves)
  obtain ⟨hbuf, hin⟩ := (Bool.and_eq_true _ _).mp hrange
  have hin : s.opAddr + s.opLen ≤ s.m.size.toNat := of_decide_eq_true hin
  refine .require (fun hal => .ite (fun _ => trivial) fun _ => ?_) fun _ => lawful_raised _ _
  obtain ⟨haddr, hlen⟩ := of_decide_eq_true hal
  rw [hat.writeAlign] at haddr hlen
  rw [hat.size] at hin
  exact threePhase_lawful hat hlog fun org ho t k =>
    mirrorWriteAt_does (hat.marked k) ho (of_decide_eq_true hbuf) hin (Nat.dvd_of_mod_eq_zero haddr)
      (Nat.dvd_of_mod_eq_zero hlen)

theorem mirrorErase_lawful : Ends (fun _ _ => True) (Lawful c False) (mirrorEraseBody s) := by
  refine checkState_lawful fun hserves => .read (.require (fun hrange => ?_) fun _ => lawful_raised _ _)
  obtain ⟨h, hat, hlog⟩ := hserving.layout (mirrorServes_drv hserves)
  have hin : s.opAddr + s.opLen ≤ s.m.size.toNat := of_decide_eq_true hrange
  refine .require (fun hal => .ite (fun _ => trivial) fun _ => ?_) fun _ => lawful_raised _ _
  obtain ⟨haddr, hlen⟩ := of_decide_eq_true hal
  rw [hat.sectorSize] at haddr hlen
  rw [hat.size] at hin
  exact threePhase_lawful hat hlog fun org ho t k =>
    mirrorEraseAt_does (hat.marked k) ho hin (Nat.dvd_of_mod_eq_zero haddr) (Nat.dvd_of_mod_eq_zero hlen)

theorem mirrorMassErase_lawful : Ends (fun _ _ => True) (Lawful c False) (mirrorMassEraseBody s) := by
  refine checkState_lawful fun hserves => .read ?_
  obtain ⟨h, hat, hlog⟩ := hserving.layout (mirrorServes_drv hserves)
  rw [hat.size]
  exact threePhase_lawful hat hlog fun org ho t k =>
    mirrorEraseAt_does (addr := 0) (hat.marked k) ho (Nat.zero_add _).le (Nat.dvd_zero _) (Nat.dvd_mul_left _ _)

theorem mirrorGetInfo_lawful : Ends (fun _ _ => True) (Lawful c False) (mirrorGetInfoBody s) := by
  refine checkState_lawful fun hready => ?_
  obtain ⟨h, hat, -⟩ := hserving.layout (by simpa [State.isReady, State.drv] using hready)
  refine Ends.bind (devGetInfo_does (u := .mirror) s) fun d s1 ⟨_, hd, hs1⟩ => .read ?_
  subst hd hs1
  exact Ends.mono (reportInfo_does (u := .mirror) _ _ _ fun _ => hat.fit.ident_le) (fun _ _ _ => trivial) fun _ _ e => e

/-- No Mirror command breaks the contract or passes BUF's end. -/
theorem mirrorBody_lawful {i : Instr} (hi : i.unit = .mirror) :
    Ends (fun _ _ => True) (Lawful c False) (bodyOf i s) := by
  cases i
  case mirrorInit => trivial
  case mirrorObjectInit =>
    exact checkState_lawful fun _ => .read ((mirrorRegs_lawful _ s).mono (fun _ _ _ => trivial) fun _ _ e => e)
  case mirrorStart => exact mirrorStart_lawful s
  case mirrorStop => exact checkState_lawful fun _ => change_ends_lawful _ s
  case mirrorRead => exact mirrorRead_lawful hserving
  case mirrorWrite => exact mirrorWrite_lawful hserving
  case mirrorErase => exact mirrorErase_lawful hserving
  case mirrorMassErase => exact mirrorMassErase_lawful hserving
  case mirrorSync =>
    exact checkState_lawful fun _ => Ends.mono (devSync_does (u := .mirror) s) (fun _ _ _ => trivial) fun _ _ e => e
  case mirrorGetInfo => exact mirrorGetInfo_lawful hserving
  case mirrorAcquireBus => exact checkState_lawful fun _ => acquire_lawful _ s
  case mirrorReleaseBus => exact checkState_lawful fun _ => release_lawful s
  all_goals cases hi

end serving

/-! ### Every command -/

/-- A READY FEE unit that is laid out with legal slots keeps the contract, whatever its device holds. -/
theorem feeServing_of_laidOut (hready : s.readyLaidOut) (hslots : s.slotsLegal) : FeeServing c False s := by
  obtain ⟨hw, -, hfee⟩ := hready
  obtain ⟨-, hused, -⟩ := hslots
  refine ⟨hw, fun _ => hfee, fun hdrv _ => ?_, nofun⟩
  have hat := feeAt_of_laidOut (hfee hdrv)
  exact ⟨hat, hat.numSlots ▸ hused, nofun⟩

theorem body_lawful (i : Instr) (hready : s.readyLaidOut) (hslots : s.slotsLegal) :
    Ends (fun _ _ => True) (Lawful c False) (bodyOf i s) := by
  obtain ⟨-, hmirror, -⟩ := id hready
  cases hu : i.unit with
  | mirror => exact mirrorBody_lawful hmirror hu
  | fee => exact feeBody_lawful (feeServing_of_laidOut hready hslots) hu

end Sys2Proof.Machine

namespace Sys2Proof.Proofs

/-- Settles O45: every device operation of a command lies within the layout of its unit, and every use of BUF within the
length that the command checked. -/
theorem commandsMeetTheDeviceContract : Obligations.CommandsMeetTheDeviceContract := by
  unfold Obligations.CommandsMeetTheDeviceContract
  intro i s hready hslots
  have hbody := body_lawful (c := True) i hready hslots
  exact ⟨exec_lawful hbody (f := .deviceContract) trivial, exec_lawful hbody (f := .bufferBounds) trivial⟩

end Sys2Proof.Proofs
end

