-- ==== Sys2Proof/Proofs/Overwrite.lean ====
section
/-! PROOF. A MIRROR.WRITE that asks mirror_a to set a 0 bit: it marks DIRTY_A, and its first write ends as DEV_OVERWRITE
says (20_memory.md R84; 70_reset_and_hazards.md R356). -/

open Sys2Proof Sys2Proof.Machine

namespace Sys2Proof.Machine

variable {p : Params} {d : DevInfo} {h : Nat} {s : State}

/-! ### Overwrites -/

/-- One bit that a write would set makes it an overwrite. -/
theorem overwrites_eq_true {dev : Device} {a k : Nat} {data : List Byte} (hk : k < data.length)
    (hbit : data[k] &&& ~~~ dev.cur.byteAt (a + k) ≠ 0) : dev.overwrites a data = true := by
  have hlen : k < ((dev.cur.bytesAt a data.length).zip data).length := by simpa using hk
  refine List.any_eq_true.2 ⟨((dev.cur.bytesAt a data.length).zip data)[k], List.getElem_mem hlen, ?_⟩
  simpa [Memory.bytesAt] using hbit

/-- An overwrite where nothing outside interferes: what is left is DEV_OVERWRITE's to say. -/
theorem devWrite_overwrite {a : Nat} {data : List Byte} {u : UnitId} (hs : s.undisturbed = true)
    (hw : (s.dev u).writable a data.length = true) (ho : (s.dev u).overwrites a data = true) :
    devWrite u a data s = overwriteOp u (.write a data) .ok s := by
  rw [devWrite_apply, if_pos hw, point_undisturbed hs]
  simp only [answer_undisturbed hs, ho, if_true]

theorem overwriteOp_fault {u : UnitId} (op : PendOp) (d : Draw) (hp : s.params.overwrite = .fault) :
    overwriteOp u op d s = .error (.fault .overwrite) s := by
  unfold overwriteOp
  rw [Proc.bind_ok (Proc.get_apply s), hp]
  rfl

/-- The state after an overwrite that DEV_OVERWRITE = fail makes a device failure. -/
def State.overwriteFailed (s : State) (u : UnitId) (op : PendOp) : State :=
  { s with draws := s.draws + 1 }.setDev u ((s.dev u).performFailed (s.tearRule u) (.free s.draws) op)

theorem overwriteOp_fail {u : UnitId} (op : PendOp) (hp : s.params.overwrite = .fail) :
    overwriteOp u op .ok s = .error (.raised .dev) (s.overwriteFailed u op) := by
  unfold overwriteOp
  rw [Proc.bind_ok (Proc.get_apply s), hp]
  cases u <;> rfl

/-- A failed operation changes no byte outside its range (20_memory.md R69). -/
theorem byteAt_performFailed {dev : Device} (r : TearRule) (t : Torn) {op : PendOp} {x : Nat} (hx : ¬op.Covers x) :
    (dev.performFailed r t op).cur.byteAt x = dev.cur.byteAt x :=
  (Memory.byteAt_splice ..).trans (if_neg hx)

/-! ### What an append to the log changes -/

/-- `t` differs from `s` in the mark, and in the Mirror device's bytes below `n`, DUR and PENDING. -/
structure State.LogMoved (n : Nat) (s t : State) : Prop where
  follows : s.Follows Banks.exceptMark t
  rest : t = { s with m := t.m, devM := t.devM }
  canonical : s.devM.cur.wf (some erasedByte) = true → t.devM.cur.wf (some erasedByte) = true
  beyond : s.devM.cur.wf (some erasedByte) = true → ∀ x, n ≤ x → t.devM.cur.byteAt x = s.devM.cur.byteAt x

theorem State.LogMoved.trans {n : Nat} {t r : State} (hst : s.LogMoved n t) (htr : t.LogMoved n r) :
    s.LogMoved n r where
  follows := hst.follows.trans htr.follows
  rest := htr.rest.trans (congrArg (fun x : State => { x with m := r.m, devM := r.devM }) hst.rest)
  canonical := htr.canonical ∘ hst.canonical
  beyond hs x hx := (htr.beyond (hst.canonical hs) x hx).trans (hst.beyond hs x hx)

theorem State.LogMoved.undisturbed {n : Nat} {t : State} (k : s.LogMoved n t) (hs : s.undisturbed = true) :
    t.undisturbed = true :=
  undisturbed_of_eq hs (by rw [k.rest]) (by rw [k.rest])

theorem State.LogMoved.bufByte {n : Nat} {t : State} (k : s.LogMoved n t) (i : Nat) : t.bufByte i = s.bufByte i := by
  rw [k.rest]
  rfl

/-- A byte that an operation does not cover is as it was. -/
theorem byteAt_apply_of_not_covers {m : Memory} (hm : m.wf (some erasedByte) = true) {op : PendOp} {x : Nat}
    (hx : ¬op.Covers x) : (op.apply m).byteAt x = m.byteAt x := by
  cases op with
  | write a data => exact (byteAt_landWrite hm _ a data x).trans (if_neg hx)
  | erase a n => exact (byteAt_apply_erase hm a n x).trans (if_neg hx)

/-- An operation below `n`, synced. -/
theorem logMoved_synced {n : Nat} {op : PendOp} (hop : op.addr + op.len ≤ n) :
    s.LogMoved n (s.setDev .mirror ((s.dev .mirror).perform op).synced) where
  follows := .setDev rfl
  rest := rfl
  canonical hs := wf_land hs op _
  beyond hs x hx := byteAt_apply_of_not_covers hs fun hc => by
    have := hc.2
    omega

theorem logMoved_setM {n : Nat} {m : MirrorUnit}
    (hm : Banks.exceptMark { s.banks with m := m } = Banks.exceptMark s.banks) : s.LogMoved n { s with m := m } where
  follows := setM_follows hm
  rest := rfl
  canonical := id
  beyond _ _ _ := rfl

/-! ### The append of a mark -/

/-- The bytes of a log entry are erased. -/
def EntryErased (p : Params) (m : Memory) (k : Nat) : Prop :=
  ∀ x, k * p.widthM.bytes ≤ x → x < k * p.widthM.bytes + p.widthM.bytes → m.byteAt x = erasedByte

theorem writeLogEntry_undisturbed (hs : MirrorAt p d h s) (hu : s.undisturbed = true) {k : Nat}
    (hk : k < logCount p d h) (he : EntryErased p s.devM.cur k) (x : LogMark) :
    ∃ t, writeLogEntry (k * p.widthM.bytes) x s = .ok () t ∧ s.LogMoved (headerSpan d h) t
      ∧ t.m.state = x.mirrorState := by
  have hwidth : s.markWidth .mirror = p.widthM := congrArg Params.widthM hs.params
  have hwrite := writeMarkWord_undisturbed hu (u := .mirror) (a := k * p.widthM.bytes) (v := x.pattern p.widthM)
    (by
      rw [hwidth]
      exact hs.writable (hs.entry_le_device hk) (hs.fit.align_dvd_width.mul_left k) hs.fit.align_dvd_width)
    (overwrites_eq_false fun j hj => .inr (he _ (Nat.le_add_right _ _) (by
      rw [length_leBytes, hwidth] at hj
      omega)))
  have hmoved : s.LogMoved (headerSpan d h) _ :=
    logMoved_synced (op := .write (k * p.widthM.bytes) (leBytes (s.markWidth .mirror).bytes (x.pattern p.widthM))) (by
      show _ + List.length _ ≤ _
      rw [length_leBytes, hwidth]
      exact entry_le_header hk)
  refine ⟨_, ?_, hmoved.trans (logMoved_setM (m := { s.m with
    state := x.mirrorState, stateAddr := BitVec.ofNat 32 (k * p.widthM.bytes) }) rfl), rfl⟩
  unfold writeLogEntry
  rw [Proc.bind_ok (Proc.get_apply s), hs.params, Proc.bind_ok hwrite]
  exact mirrorRegs_uneventful (undisturbed_uneventful (hmoved.undisturbed hu)) _

theorem eraseHeader_undisturbed (hs : MirrorAt p d h s) (hu : s.undisturbed = true)
    (hcan : s.devM.cur.wf (some erasedByte) = true) :
    ∃ t, eraseHeader s = .ok () t ∧ s.LogMoved (headerSpan d h) t
      ∧ ∀ x, x < headerSpan d h → t.devM.cur.byteAt x = erasedByte := by
  have herase : (s.dev .mirror).erasable 0 (headerSpan d h) = true :=
    hs.erasable (by rw [Nat.zero_add]; exact hs.header_le_device) (Nat.dvd_zero _) (Nat.dvd_mul_left _ _)
  refine ⟨_, ?_, logMoved_synced (op := .erase 0 (headerSpan d h)) (Nat.zero_add _).le, fun x hx => ?_⟩
  · unfold eraseHeader
    rw [Proc.bind_ok (Proc.get_apply s), hs.hdrBytes, Proc.bind_ok (devErase_undisturbed hu herase),
      devSync_undisturbed (undisturbed_of_eq hu (State.inputs_setDev ..) (State.tail_setDev ..))]
    rfl
  · exact (byteAt_apply_erase hcan 0 _ x).trans (if_pos ⟨Nat.zero_le x, by omega⟩)

/-- An append to a log that is ready sets no 0 bit and changes nothing but the log and the mark (41_mirror.md R162). -/
theorem markAppend_undisturbed (hs : MirrorAt p d h s) (hu : s.undisturbed = true)
    (hcan : s.devM.cur.wf (some erasedByte) = true) {k : Nat} (hk : s.m.stateAddr.toNat = k * p.widthM.bytes)
    (hfree : ∀ j, k < j → j < logCount p d h → EntryErased p s.devM.cur j) (x : LogMark) :
    ∃ t, markAppend x s = .ok () t ∧ s.LogMoved (headerSpan d h) t ∧ t.m.state = x.mirrorState := by
  unfold markAppend
  rw [Proc.bind_ok (Proc.get_apply s)]
  by_cases hfull : s.logFull = true
  · obtain ⟨t1, he, hm1, herased⟩ := eraseHeader_undisturbed hs hu hcan
    have hentry := entry_le_header hs.fit.logCount_pos
    obtain ⟨t, hw, hm, hstate⟩ := writeLogEntry_undisturbed (hs.marked hm1.follows) (hm1.undisturbed hu)
      hs.fit.logCount_pos (fun y _ hy => herased y (by omega)) x
    rw [Nat.zero_mul] at hw
    refine ⟨t, ?_, hm1.trans hm, hstate⟩
    rw [if_pos hfull, Proc.bind_ok he, hw]
  · rw [if_neg hfull, logCursor_eq hs hk]
    rw [logFull_iff hs hk] at hfull
    exact writeLogEntry_undisturbed hs hu (by omega) (hfree (k + 1) (by omega) (by omega)) x

/-- Where a log that is ready stands, and what is erased after it. -/
theorem logReady_entries (hs : MirrorAt p d h s) (hready : s.logReady) :
    ∃ k, s.m.stateAddr.toNat = k * p.widthM.bytes
      ∧ ∀ j, k < j → j < logCount p d h → EntryErased p s.devM.cur j := by
  obtain ⟨hplaced, hfree⟩ := hready
  obtain ⟨k, -, hk⟩ := hs.logAt hplaced
  have hpos : s.logPosition = k := by
    unfold State.logPosition
    rw [hk, hs.params, Nat.mul_div_cancel _ (width_pos _)]
  rw [hpos, hs.logEntries] at hfree
  refine ⟨k, hk, fun j hkj hj x hlo hhi => ?_⟩
  have hentry := hfree j hkj hj
  unfold State.logEntryAt at hentry
  rw [hs.params] at hentry
  exact byteAt_of_bytesAt_fill hentry hlo hhi

/-! ### The command -/

theorem mirrorServes_of_serves {hid : HostId} (hs : s.serves .mirror hid) : s.mirrorServes = true := by
  obtain ⟨-, hdrv, hrec, hstate⟩ := hs
  have hdrv : s.m.drv = .ready := hdrv
  have hrec : s.m.recover = false := hrec
  simp [State.mirrorServes, hdrv, hrec, hstate rfl]

/-- A WRITE whose operands pass is its three phases (41_mirror.md R176). -/
theorem mirrorWriteBody_of_serves {hid : HostId} (hs : s.serves .mirror hid) (hbuf : s.opLen ≤ s.params.bufBytes)
    (hin : s.opAddr + s.opLen ≤ s.m.size.toNat) (haddr : s.opAddr % s.m.cache.writeAlign = 0)
    (hlen : s.opLen % s.m.cache.writeAlign = 0) (hpos : 1 ≤ s.opLen) :
    mirrorWriteBody s = threePhase (mirrorWriteAt s.opAddr s.opLen) s := by
  have hrange : (s.fitsBuf && s.mirrorInRange) = true :=
    Bool.and_eq_true_iff.2 ⟨decide_eq_true hbuf, decide_eq_true hin⟩
  have halign : s.opAligned s.m.cache.writeAlign = true := decide_eq_true ⟨haddr, hlen⟩
  unfold mirrorWriteBody
  rw [checked_apply, if_pos (mirrorServes_of_serves hs), Proc.bind_ok (Proc.get_apply s), Proc.bind_apply,
    require_apply, if_pos hrange]
  dsimp only
  rw [Proc.bind_apply, require_apply, if_pos halign]
  exact congrFun (if_neg (by omega)) s

/-- The three phases end where the mutation of mirror_a does (41_mirror.md R176). -/
theorem threePhase_error {mutate : Nat → Proc Unit} {t t' : State} {e : Stop} (hmark : markAppend .dirtyA s = .ok () t)
    (hmutate : mutate t.m.aOrg.toNat t = .error e t') : threePhase mutate s = .error e t' := by
  unfold threePhase
  rw [Proc.bind_ok hmark, Proc.bind_ok (Proc.get_apply t), Proc.bind_error hmutate]

/-- The operation on mirror_a that a WRITE asks for. -/
def State.writeA (s : State) : PendOp := .write (s.m.aOrg.toNat + s.opAddr) (s.bufBytes 0 s.opLen)

/-- A WRITE that would set a 0 bit in mirror_a ends, with DIRTY_A marked, as DEV_OVERWRITE says. -/
theorem mirrorWriteBody_overwrite {hid : HostId} (hs : s.serves .mirror hid) (hu : s.undisturbed = true)
    (hsound : s.mirrorSound) (hpos : 1 ≤ s.opLen) (hbuf : s.opLen ≤ s.params.bufBytes)
    (hin : s.opAddr + s.opLen ≤ s.m.size.toNat) (haddr : s.opAddr % s.m.cache.writeAlign = 0)
    (hlen : s.opLen % s.m.cache.writeAlign = 0)
    (hbit : ∃ k, k < s.opLen ∧ s.bufByte k &&& ~~~ s.devM.cur.byteAt (s.m.aOrg.toNat + s.opAddr + k) ≠ 0) :
    ∃ t, s.LogMoved s.m.aOrg.toNat t ∧ t.m.state = .dirtyA
      ∧ ∀ e t', overwriteOp .mirror s.writeA .ok t = .error e t' → mirrorWriteBody s = .error e t' := by
  obtain ⟨hcan, hlaid, hready⟩ := hsound
  have hcur := canonical_cur hcan .mirror
  obtain ⟨h, hat⟩ := mirrorAt_of_laidOut hlaid
  obtain ⟨k, hk, hfree⟩ := logReady_entries hat hready
  obtain ⟨t, hmark, hmoved, hstate⟩ := markAppend_undisturbed hat hu hcur hk hfree .dirtyA
  have ht := hat.marked hmoved.follows
  refine ⟨t, by rw [hat.aOrg]; exact hmoved, hstate, fun e t' hover => ?_⟩
  rw [mirrorWriteBody_of_serves hs hbuf hin haddr hlen hpos]
  refine threePhase_error hmark ?_
  have hload : bufLoad s.opLen t = .ok (s.bufBytes 0 s.opLen) t := by
    rw [bufLoad_apply, if_pos (by rw [ht.params]; exact hbuf)]
    simp only [State.bufBytes, hmoved.bufByte]
  have hdata : (s.bufBytes 0 s.opLen).length = s.opLen := by simp [State.bufBytes]
  have hcopy := hat.fit.copy_le_device (.inl rfl)
  rw [hat.size] at hin
  rw [hat.writeAlign] at haddr hlen
  have hwritable : (t.dev .mirror).writable (s.m.aOrg.toNat + s.opAddr) (s.bufBytes 0 s.opLen).length = true := by
    rw [hdata, hat.aOrg]
    exact ht.writable (by omega)
      ((hat.fit.align_dvd_sector.trans (sector_dvd_origin (.inl rfl))).add (Nat.dvd_of_mod_eq_zero haddr))
      (Nat.dvd_of_mod_eq_zero hlen)
  have hoverwrites : (t.dev .mirror).overwrites (s.m.aOrg.toNat + s.opAddr) (s.bufBytes 0 s.opLen) = true := by
    obtain ⟨j, hj, hne⟩ := hbit
    refine overwrites_eq_true (k := j) (by omega) ?_
    rw [show (t.dev .mirror).cur.byteAt _ = _ from hmoved.beyond hcur _ (by rw [hat.aOrg]; omega)]
    simpa [State.bufBytes] using hne
  unfold mirrorWriteAt
  rw [Proc.bind_ok hload, ht.aOrg, ← hat.aOrg, devWrite_overwrite (hmoved.undisturbed hu) hwritable hoverwrites]
  exact hover

/-- A failed write to mirror_a leaves every byte of mirror_b. -/
theorem byteAt_overwriteFailed {t : State} (hlaid : s.mirrorLaidOut) (hcan : s.memoryCanonical = true)
    (hmoved : s.LogMoved s.m.aOrg.toNat t) (hin : s.opAddr + s.opLen ≤ s.m.size.toNat) {x : Nat}
    (hx : s.m.bOrg.toNat ≤ x) : (t.overwriteFailed .mirror s.writeA).devM.cur.byteAt x = s.devM.cur.byteAt x := by
  obtain ⟨h, hat⟩ := mirrorAt_of_laidOut hlaid
  have hb := copyBAt_eq s.devM.info h
  rw [← hat.bOrg, ← hat.aOrg, ← hat.size] at hb
  have hbefore : ¬s.writeA.Covers x := fun hc => by
    have hend : x < s.m.aOrg.toNat + s.opAddr + (s.bufBytes 0 s.opLen).length := hc.2
    simp only [State.bufBytes, List.length_map, List.length_range] at hend
    omega
  calc (t.overwriteFailed .mirror s.writeA).devM.cur.byteAt x = t.devM.cur.byteAt x := byteAt_performFailed _ _ hbefore
    _ = s.devM.cur.byteAt x := hmoved.beyond (canonical_cur hcan .mirror) x (by omega)

end Sys2Proof.Machine

namespace Sys2Proof.Proofs

/-- Settles O22: the append of DIRTY_A goes to erased bytes, and the write to mirror_a is the overwrite. -/
theorem mirrorOverwriteFollowsTheParameter : Obligations.MirrorOverwriteFollowsTheParameter := by
  unfold Obligations.MirrorOverwriteFollowsTheParameter
  intro hid s hs hu hsound hpos hbuf hin haddr hlen hbit
  obtain ⟨t, hmoved, hstate, hend⟩ := mirrorWriteBody_overwrite hs hu hsound hpos hbuf hin haddr hlen hbit
  have hparams : t.params = s.params := congrArg Prod.fst hmoved.follows.fixed
  obtain ⟨hadmits, -⟩ := id hs
  obtain ⟨hcan, hlaid, -⟩ := id hsound
  have hexec : exec (.mirrorWrite hid) s = conclude .mirror true (mirrorWriteBody s) :=
    if_neg (by rw [hadmits]; decide)
  refine ⟨fun hrule => ?_, fun hrule => ?_⟩
  · rw [hexec, hend _ _ (overwriteOp_fault _ _ (hparams ▸ hrule))]
    rfl
  · have hover := overwriteOp_fail (s := t) (u := .mirror) s.writeA (hparams ▸ hrule)
    have hcalm : ((t.overwriteFailed .mirror s.writeA).setRecover .mirror true).undisturbed = true :=
      undisturbed_of_eq (hmoved.undisturbed hu) rfl rfl
    refine ⟨((t.overwriteFailed .mirror s.writeA).setRecover .mirror true).complete .dev, ?_, rfl, rfl, hstate, ?_⟩
    · rw [hexec, hend _ _ hover]
      exact finish_undisturbed hcalm .dev
    · exact fun x hlo _ => byteAt_overwriteFailed hlaid hcan hmoved hin hlo

end Sys2Proof.Proofs
end

