-- ==== Sys2Proof/Proofs/Encoding.lean ====
section
/-! PROOF. Command words: which fields decode to which command, a word read back from its fields, and the table of words
under its mask (30_encoding.md R100 to R104). -/

open Sys2Proof Sys2Proof.Machine

namespace Sys2Proof

/-! ### What decodes -/

/-- MIRROR's column of the table names each command once. -/
theorem mirrorCommand_eq_some_iff {op : BitVec 4} {h : HostId} {i : Instr} :
    mirrorCommand op h = some i ↔ i.unit = .mirror ∧ i.op = op ∧ i.hid = h := by
  constructor
  · intro hc
    unfold mirrorCommand at hc
    split at hc <;> cases hc
    all_goals exact ⟨rfl, BitVec.eq_of_toNat_eq (Eq.symm ‹_›), rfl⟩
  · rintro ⟨hu, rfl, rfl⟩
    cases i <;> cases hu <;> rfl

/-- FEE's column of the table names each command once. -/
theorem feeCommand_eq_some_iff {op : BitVec 4} {h : HostId} {i : Instr} :
    feeCommand op h = some i ↔ i.unit = .fee ∧ i.op = op ∧ i.hid = h := by
  constructor
  · intro hc
    unfold feeCommand at hc
    split at hc <;> cases hc
    all_goals exact ⟨rfl, BitVec.eq_of_toNat_eq (Eq.symm ‹_›), rfl⟩
  · rintro ⟨hu, rfl, rfl⟩
    cases i <;> cases hu <;> rfl

theorem elim_error_eq_ok_iff {o : Option Instr} {e : DecodeError} {i : Instr} :
    o.elim (.error e) .ok = (.ok i : Except DecodeError Instr) ↔ o = some i := by
  cases o <;> simp

/-- A word decodes to a command exactly when its fields are the command's and its reserved bits are 0. -/
theorem decode_eq_ok_iff {w : Word} {i : Instr} :
    decode w = .ok i ↔
      opField w = i.op ∧ unitField w = i.unit ∧ hidField w = i.hid ∧ reservedClear w = true := by
  unfold decode
  by_cases hr : reservedClear w = true
  · rw [if_pos hr]
    cases unitField w with
    | mirror =>
      rw [elim_error_eq_ok_iff, mirrorCommand_eq_some_iff]
      grind
    | fee =>
      rw [elim_error_eq_ok_iff, feeCommand_eq_some_iff]
      grind
  · simp [hr]

/-! ### A word is its fields -/

theorem bit_unitField (w : Word) : (unitField w).bit = w.extractLsb' 4 1 := by
  have hbit : w.extractLsb' 4 1 = BitVec.ofBool (w.getLsbD 4) := by
    ext k hk
    obtain rfl : k = 0 := by omega
    simp
  rw [hbit, unitField]
  cases w.getLsbD 4 <;> rfl

/-- A word whose reserved bits are 0 is its fields side by side. -/
theorem append_fields {w : Word} (hr : reservedClear w = true) :
    (0 : BitVec 20) ++ hidField w ++ (0 : BitVec 3) ++ (unitField w).bit ++ opField w = w := by
  simp only [reservedClear, Bool.and_eq_true, beq_iff_eq] at hr
  obtain ⟨hlow, hhigh⟩ := hr
  calc (0 : BitVec 20) ++ hidField w ++ (0 : BitVec 3) ++ (unitField w).bit ++ opField w
      = w.extractLsb' 12 20 ++ w.extractLsb' 8 4 ++ w.extractLsb' 5 3 ++ w.extractLsb' 4 1 ++ w.extractLsb' 0 4 := by
        rw [hlow, hhigh, bit_unitField]
        rfl
    _ = w.extractLsb' 0 32 := by simp only [BitVec.extractLsb'_append_extractLsb'_eq_extractLsb']
    _ = w := BitVec.extractLsb'_eq_self

/-- The fields of every command's word are the command's. -/
theorem fields_encode (i : Instr) : Laws.Fields.Statement i := by
  cases hu : i.unit with
  | mirror => exact Laws.Fields.of_mirror hu
  | fee => exact Laws.Fields.of_fee hu

theorem decode_encode (i : Instr) : decode (encode i) = .ok i := decode_eq_ok_iff.2 (fields_encode i)

theorem encode_of_decode {w : Word} {i : Instr} (h : decode w = .ok i) : encode i = w := by
  obtain ⟨hop, hunit, hhid, hr⟩ := decode_eq_ok_iff.1 h
  have hw := append_fields hr
  rw [hop, hunit, hhid] at hw
  exact hw

/-! ### The table under its mask -/

/-- The mask that clears HID (30_encoding.md R104). -/
def tableMask : Word := 0xFFFFF0FF

/-- The word of a command's row in the table, its HID 0 (30_encoding.md R104). -/
def Instr.tableWord (i : Instr) : Word := (0 : BitVec 27) ++ i.unit.bit ++ i.op

theorem getLsbD_tableMask {k : Nat} (hk : k < 32) : tableMask.getLsbD k = !decide (8 ≤ k ∧ k < 12) := by
  revert k
  decide

theorem getLsbD_hidField_shifted (w : Word) {k : Nat} (hk : k < 32) :
    ((hidField w).setWidth 32 <<< 8).getLsbD k = (decide (8 ≤ k ∧ k < 12) && w.getLsbD k) := by
  unfold hidField
  grind

/-- A word is what the mask leaves of it, and its HID at bits [11:8]. -/
theorem masked_add_hid (w : Word) : (w &&& tableMask) + (hidField w).setWidth 32 <<< 8 = w := by
  have hdisjoint : (w &&& tableMask) &&& (hidField w).setWidth 32 <<< 8 = 0 := by
    refine BitVec.eq_of_getLsbD_eq fun k hk => ?_
    rw [BitVec.getLsbD_and, BitVec.getLsbD_and, getLsbD_tableMask hk, getLsbD_hidField_shifted w hk]
    cases decide (8 ≤ k ∧ k < 12) <;> simp
  rw [BitVec.add_eq_or_of_and_eq_zero _ _ hdisjoint]
  refine BitVec.eq_of_getLsbD_eq fun k hk => ?_
  rw [BitVec.getLsbD_or, BitVec.getLsbD_and, getLsbD_tableMask hk, getLsbD_hidField_shifted w hk]
  cases decide (8 ≤ k ∧ k < 12) <;> simp

theorem encode_masked (i : Instr) : encode i &&& tableMask = i.tableWord := by
  refine BitVec.eq_of_getLsbD_eq fun k hk => ?_
  unfold encode Instr.tableWord
  rw [BitVec.getLsbD_and, getLsbD_tableMask hk]
  simp only [BitVec.getLsbD_append, BitVec.ofNat_eq_ofNat, BitVec.getLsbD_zero]
  grind

/-- A command's word is its row's word with its HID added. -/
theorem tableWord_add_hid (i : Instr) : i.tableWord + i.hid.setWidth 32 <<< 8 = encode i := by
  obtain ⟨-, -, hhid, -⟩ := fields_encode i
  rw [← encode_masked, ← hhid]
  exact masked_add_hid (encode i)

/-- A row's word with an HID added decodes to the row's command of that host. -/
theorem decode_row {i : Instr} {h : HostId} {row : Word} (hhid : i.hid = h) (hrow : i.tableWord = row) :
    decode (row + h.setWidth 32 <<< 8) = .ok i := by
  rw [← hhid, ← hrow, tableWord_add_hid, decode_encode]

/-- The 24 commands of one host, in the order of the table. -/
def commandsOf (h : HostId) : List Instr :=
  [.mirrorInit h, .mirrorObjectInit h, .mirrorStart h, .mirrorStop h, .mirrorRead h, .mirrorWrite h, .mirrorErase h,
    .mirrorMassErase h, .mirrorSync h, .mirrorGetInfo h, .mirrorAcquireBus h, .mirrorReleaseBus h,
    .feeInit h, .feeObjectInit h, .feeStart h, .feeStop h, .feeRead h, .feeWrite h, .feeErase h,
    .feeMassErase h, .feeSync h, .feeGetInfo h, .feeAcquireBus h, .feeReleaseBus h]

theorem mem_commandsOf_iff {h : HostId} {i : Instr} : i ∈ commandsOf h ↔ i.hid = h := by
  constructor
  · revert i
    simp [commandsOf, Instr.hid]
  · rintro rfl
    cases i <;> simp [commandsOf, Instr.hid]

theorem map_tableWord_commandsOf (h : HostId) :
    (commandsOf h).map Instr.tableWord =
      [0x00, 0x01, 0x02, 0x03, 0x04, 0x05, 0x06, 0x07, 0x08, 0x09, 0x0A, 0x0B,
        0x10, 0x11, 0x12, 0x13, 0x14, 0x15, 0x16, 0x17, 0x18, 0x19, 0x1A, 0x1B] := by
  simp [commandsOf, Instr.tableWord, Instr.unit, Instr.op, UnitId.bit]

/-- The words that decode are those that the mask takes to the row of a command. -/
theorem decodes_iff_masked_mem (w : Word) :
    (∃ i, decode w = .ok i) ↔ w &&& tableMask ∈ (commandsOf (hidField w)).map Instr.tableWord := by
  constructor
  · rintro ⟨i, hi⟩
    obtain ⟨-, -, hhid, -⟩ := decode_eq_ok_iff.1 hi
    exact List.mem_map.2 ⟨i, mem_commandsOf_iff.2 hhid.symm, by rw [← encode_masked, encode_of_decode hi]⟩
  · intro hw
    obtain ⟨i, hi, hrow⟩ := List.mem_map.1 hw
    have hdecode := decode_row (mem_commandsOf_iff.1 hi) hrow
    rw [masked_add_hid] at hdecode
    exact ⟨i, hdecode⟩

end Sys2Proof

namespace Sys2Proof.Proofs

/-- Settles O1: `decode` compares exactly the fields that `encode` puts side by side. -/
theorem decodeAndEncodeAgree : Obligations.DecodeAndEncodeAgree := by
  unfold Obligations.DecodeAndEncodeAgree
  intro w i
  constructor
  · exact encode_of_decode
  · rintro rfl
    exact decode_encode i

/-- Settles O2: every command's word is its row with HID added, and the mask takes HID away again. -/
theorem validWordsAreTheTable : Obligations.ValidWordsAreTheTable := by
  unfold Obligations.ValidWordsAreTheTable
  refine ⟨fun h => ?_, fun w => ?_⟩
  · and_intros <;> exact decode_row rfl (by simp [Instr.tableWord, Instr.unit, Instr.op, UnitId.bit])
  · rw [← map_tableWord_commandsOf (hidField w)]
    exact decodes_iff_masked_mem w

end Sys2Proof.Proofs
end

