-- ==== Sys2Proof/Proofs/ZeroLength.lean ====
section
/-! PROOF. READ, WRITE and ERASE of no byte: their checks pass and their procedures do nothing. -/

open Sys2Proof Sys2Proof.Machine

namespace Sys2Proof.Machine

variable {s : State} {h : HostId}

/-! ### Checks that pass -/

/-- A procedure that reads the state behind its state check. -/
theorem checked_get_apply {c : State → Bool} (hc : c s = true) (f : State → Proc Unit) :
    (do checkState c; let t ← get; f t : Proc Unit) s = f s s := by
  rw [checked_apply, if_pos hc]
  exact Proc.bind_ok (Proc.get_apply s) f

theorem required_apply (e : ErrCode) {c : Bool} (hc : c = true) (p : Proc Unit) (s : State) :
    (do require e c; p : Proc Unit) s = p s := by
  rw [Proc.bind_apply, require_apply, if_pos hc]

theorem feeServes_of_serves (hs : s.serves .fee h) : s.feeServes = true := by
  obtain ⟨-, hdrv, hrec, -⟩ := hs
  exact feeServes_iff.2 ⟨hdrv, hrec⟩

/-- A command that its lock admits and whose procedure changes nothing completes with OK. -/
theorem exec_of_idle_body {i : Instr} (hq : s.uneventful = true) (hs : s.admits i.unit i.hid)
    (hbody : bodyOf i s = .ok () s) : exec i s = .next (s.complete .ok) := by
  rw [exec_eq_runCommand, runCommand, if_neg (by rw [hs]; decide), hbody]
  exact finish_uneventful hq .ok

/-! ### Operands of no byte -/

section noBytes
variable (hn : s.opLen = 0)
include hn

theorem fitsBuf_of_no_bytes : s.fitsBuf = true := decide_eq_true (hn ▸ Nat.zero_le _)

theorem mirrorInRange_of_no_bytes (ha : s.opAddr ≤ s.m.size.toNat) : s.mirrorInRange = true :=
  decide_eq_true (by rw [hn]; exact ha)

theorem feeInRange_of_no_bytes (ha : s.opAddr ≤ s.f.logicalSize.toNat) : s.feeInRange = true :=
  decide_eq_true (by rw [hn]; exact ha)

theorem fitsBuf_and_of_no_bytes {c : Bool} (hc : c = true) : (s.fitsBuf && c) = true :=
  Bool.and_eq_true_iff.2 ⟨fitsBuf_of_no_bytes hn, hc⟩

theorem opAligned_of_no_bytes {k : Nat} (ha : s.opAddr % k = 0) : s.opAligned k = true :=
  decide_eq_true ⟨ha, by rw [hn, Nat.zero_mod]⟩

/-- A procedure that has something to do only for some bytes does nothing for none. -/
theorem unless_no_bytes (p : Proc Unit) : (if s.opLen = 0 then pure () else p : Proc Unit) s = .ok () s := by
  rw [if_pos hn]
  rfl

theorem mirrorReadBody_no_bytes (hs : s.mirrorServes = true) (ha : s.opAddr ≤ s.m.size.toNat) :
    mirrorReadBody s = .ok () s := by
  have hrange := fitsBuf_and_of_no_bytes hn (mirrorInRange_of_no_bytes hn ha)
  exact (checked_get_apply hs _).trans ((required_apply _ hrange _ s).trans (unless_no_bytes hn _))

theorem mirrorWriteBody_no_bytes (hs : s.mirrorServes = true) (ha : s.opAddr ≤ s.m.size.toNat)
    (hal : s.opAddr % s.m.cache.writeAlign = 0) : mirrorWriteBody s = .ok () s := by
  have hrange := fitsBuf_and_of_no_bytes hn (mirrorInRange_of_no_bytes hn ha)
  exact (checked_get_apply hs _).trans ((required_apply _ hrange _ s).trans
    ((required_apply _ (opAligned_of_no_bytes hn hal) _ s).trans (unless_no_bytes hn _)))

theorem mirrorEraseBody_no_bytes (hs : s.mirrorServes = true) (ha : s.opAddr ≤ s.m.size.toNat)
    (hal : s.opAddr % s.m.cache.sectorSize = 0) : mirrorEraseBody s = .ok () s :=
  (checked_get_apply hs _).trans ((required_apply _ (mirrorInRange_of_no_bytes hn ha) _ s).trans
    ((required_apply _ (opAligned_of_no_bytes hn hal) _ s).trans (unless_no_bytes hn _)))

theorem feeReadBody_no_bytes (hs : s.feeServes = true) (ha : s.opAddr ≤ s.f.logicalSize.toNat) :
    feeReadBody s = .ok () s := by
  have hrange := fitsBuf_and_of_no_bytes hn (feeInRange_of_no_bytes hn ha)
  exact (checked_get_apply hs _).trans ((required_apply _ hrange _ s).trans (unless_no_bytes hn _))

theorem feeWriteBody_no_bytes (hs : s.feeServes = true) (ha : s.opAddr ≤ s.f.logicalSize.toNat) :
    feeWriteBody s = .ok () s := by
  have hrange := fitsBuf_and_of_no_bytes hn (feeInRange_of_no_bytes hn ha)
  exact (checked_get_apply hs _).trans ((required_apply _ hrange _ s).trans (unless_no_bytes hn _))

theorem feeEraseBody_no_bytes (hs : s.feeServes = true) (ha : s.opAddr ≤ s.f.logicalSize.toNat) :
    feeEraseBody s = .ok () s :=
  (checked_get_apply hs _).trans
    ((required_apply _ (feeInRange_of_no_bytes hn ha) _ s).trans (unless_no_bytes hn _))

end noBytes

end Sys2Proof.Machine

namespace Sys2Proof.Proofs

/-- Settles O19: each of the six procedures passes its checks and then has nothing to do. -/
theorem zeroLengthHasNoEffect : Obligations.ZeroLengthHasNoEffect := by
  unfold Obligations.ZeroLengthHasNoEffect
  intro h s hq hn
  refine ⟨fun hs ha => ?_, fun hs ha => ?_⟩
  · obtain ⟨hlock, -⟩ := id hs
    have hserves := mirrorServes_of_serves hs
    exact ⟨exec_of_idle_body hq hlock (mirrorReadBody_no_bytes hn hserves ha),
      fun hal => exec_of_idle_body hq hlock (mirrorWriteBody_no_bytes hn hserves ha hal),
      fun hal => exec_of_idle_body hq hlock (mirrorEraseBody_no_bytes hn hserves ha hal)⟩
  · obtain ⟨hlock, -⟩ := id hs
    have hserves := feeServes_of_serves hs
    exact ⟨exec_of_idle_body hq hlock (feeReadBody_no_bytes hn hserves ha),
      exec_of_idle_body hq hlock (feeWriteBody_no_bytes hn hserves ha),
      exec_of_idle_body hq hlock (feeEraseBody_no_bytes hn hserves ha)⟩

end Sys2Proof.Proofs
end

