-- ==== Sys2Proof/Proofs/Codec.lean ====
section
/-! PROOF. The mark codec: every pattern of a table has its low bits cleared and its other bits set, as many more as the
state is later, so that order among states is inclusion of bits and no two states share a pattern
(40_codec.md R140 to R148). -/

open Sys2Proof Sys2Proof.Machine

namespace Sys2Proof.Machine

/-! ### Values whose low bits are cleared -/

/-- The `k`-bit value in which exactly the low `c` bits are 0. -/
def topBits (k c : Nat) : Nat := 2 ^ k - 2 ^ c

theorem testBit_topBits {k c : Nat} (h : c ≤ k) (i : Nat) : (topBits k c).testBit i = decide (c ≤ i ∧ i < k) := by
  have hshift : topBits k c = (2 ^ (k - c) - 1) <<< c := by
    rw [topBits, Nat.shiftLeft_eq, Nat.sub_mul, ← pow_add, Nat.sub_add_cancel h, one_mul]
  rw [hshift, Nat.testBit_shiftLeft, Nat.testBit_two_pow_sub_one, ← Bool.decide_and]
  exact decide_eq_decide.2 (by omega)

/-- Clearing the low bits of a value sets no bit exactly when no fewer of them are cleared than before. -/
theorem topBits_and_eq_iff {k c d : Nat} (hc : c ≤ k) (hd : d ≤ k) :
    topBits k d &&& topBits k c = topBits k d ↔ c ≤ d := by
  constructor
  · intro h
    by_contra hlt
    have hbit := congrArg (·.testBit d) h
    simp only [Nat.testBit_and, testBit_topBits hc, testBit_topBits hd, ← Bool.decide_and, decide_eq_decide] at hbit
    omega
  · intro hle
    refine Nat.eq_of_testBit_eq fun i => ?_
    rw [Nat.testBit_and, testBit_topBits hc, testBit_topBits hd, ← Bool.decide_and]
    exact decide_eq_decide.2 (by omega)

/-- All ones, shifted up inside `k` bits. -/
theorem shiftLeft_ones_mod {k c : Nat} (h : c ≤ k) : ((2 ^ k - 1) <<< c) % 2 ^ k = topBits k c := by
  refine Nat.eq_of_testBit_eq fun i => ?_
  rw [Nat.testBit_mod_two_pow, Nat.testBit_shiftLeft, Nat.testBit_two_pow_sub_one, testBit_topBits h,
    ← Bool.decide_and, ← Bool.decide_and]
  exact decide_eq_decide.2 (by omega)

/-! ### Words and their bytes -/

/-- The erased word is not the cleared one, so a table's words tell its states apart. -/
theorem ones_ne_zero (w : MarkWidth) : ones w ≠ 0 :=
  Nat.sub_ne_zero_of_lt (Nat.one_lt_two_pow (Nat.mul_ne_zero (by decide) (width_pos w).ne'))

theorem leBytes_leVal (bs : List Byte) : leBytes bs.length (leVal bs) = bs := by
  induction bs with
  | nil => rfl
  | cons b bs ih =>
    have hlow : BitVec.ofNat 8 (b.toNat + 256 * leVal bs) = b := by
      apply BitVec.eq_of_toNat_eq
      rw [BitVec.toNat_ofNat, Nat.add_mul_mod_self_left, Nat.mod_eq_of_lt b.isLt]
    have hhigh : (b.toNat + 256 * leVal bs) / 256 = leVal bs := by
      have := b.isLt
      omega
    rw [List.length_cons, leVal, leBytes, hlow, hhigh, ih]

/-- On strings of a fixed length, `le_val` and `le_bytes` are inverse (00_scope.md R11). -/
theorem leVal_eq_iff {w : MarkWidth} {bs : List Byte} {v : Nat} (hlen : bs.length = w.bytes)
    (hv : v < 2 ^ (8 * w.bytes)) : leVal bs = v ↔ bs = leBytes w.bytes v := by
  constructor
  · rintro rfl
    rw [← hlen, leBytes_leVal]
  · rintro rfl
    exact leVal_leBytes _ _ (by rwa [pow_mul] at hv)

/-! ### The Mirror table (30_encoding.md R113) -/

/-- How many low bits a state's pattern clears. -/
def LogMark.cleared (w : MarkWidth) : LogMark → Nat
  | .unused => 0
  | .dirtyA => 4 * w.bytes
  | .dirtyB => 6 * w.bytes
  | .synced => 8 * w.bytes

theorem LogMark.cleared_le (w : MarkWidth) (x : LogMark) : x.cleared w ≤ 8 * w.bytes := by
  cases x <;> simp only [LogMark.cleared] <;> omega

theorem LogMark.cleared_le_iff (w : MarkWidth) (x y : LogMark) : x.cleared w ≤ y.cleared w ↔ x.index ≤ y.index := by
  have hw := width_pos w
  cases x <;> cases y <;> simp only [LogMark.cleared, LogMark.index] <;> omega

theorem LogMark.pattern_eq_topBits (w : MarkWidth) (x : LogMark) :
    x.pattern w = topBits (8 * w.bytes) (x.cleared w) := by
  cases x with
  | unused => rfl
  | dirtyA => exact shiftLeft_ones_mod (LogMark.cleared_le w .dirtyA)
  | dirtyB => exact shiftLeft_ones_mod (LogMark.cleared_le w .dirtyB)
  | synced => exact (Nat.sub_self _).symm

theorem LogMark.pattern_lt (w : MarkWidth) (x : LogMark) : x.pattern w < 2 ^ (8 * w.bytes) := by
  rw [LogMark.pattern_eq_topBits]
  exact Nat.sub_lt (Nat.two_pow_pos _) (Nat.two_pow_pos _)

/-- A move of a Mirror mark is a pure write exactly when it goes to no earlier state (40_codec.md R144). -/
theorem LogMark.pattern_and_eq_iff (w : MarkWidth) (x y : LogMark) :
    y.pattern w &&& x.pattern w = y.pattern w ↔ x.index ≤ y.index := by
  rw [LogMark.pattern_eq_topBits, LogMark.pattern_eq_topBits,
    topBits_and_eq_iff (LogMark.cleared_le w x) (LogMark.cleared_le w y), LogMark.cleared_le_iff]

theorem LogMark.index_injective : Function.Injective LogMark.index := by
  intro x y h
  cases x <;> cases y <;> cases h <;> rfl

/-- States that include each other's bits are neither earlier nor later than each other. -/
theorem LogMark.pattern_inj {w : MarkWidth} {x y : LogMark} : x.pattern w = y.pattern w ↔ x = y := by
  refine ⟨fun h => LogMark.index_injective (le_antisymm ?_ ?_), congrArg _⟩
  · exact (LogMark.pattern_and_eq_iff w x y).1 (by rw [h, Nat.and_self])
  · exact (LogMark.pattern_and_eq_iff w y x).1 (by rw [h, Nat.and_self])

theorem LogMark.ofValue_eq_some_iff {w : MarkWidth} {v : Nat} {x : LogMark} :
    LogMark.ofValue w v = some x ↔ v = x.pattern w := by
  constructor
  · intro h
    unfold LogMark.ofValue at h
    split_ifs at h <;> cases h <;> assumption
  · rintro rfl
    cases x <;> simp [LogMark.ofValue, LogMark.pattern_inj]

/-- Decoding is exact (40_codec.md R142). -/
theorem LogMark.decode_eq_some_iff {w : MarkWidth} {x : LogMark} {bs : List Byte} (hlen : bs.length = w.bytes) :
    LogMark.decode w bs = some x ↔ bs = x.encode w :=
  LogMark.ofValue_eq_some_iff.trans (leVal_eq_iff hlen (x.pattern_lt w))

/-! ### The FEE tables (30_encoding.md R114) -/

/-- An FEE mark clears one word more at each state. -/
theorem FeeMark.pattern_eq_topBits (w : MarkWidth) (x : FeeMark) :
    x.pattern w = topBits (16 * w.bytes) (x.index * (8 * w.bytes)) := by
  have hsq : 2 ^ (16 * w.bytes) = 2 ^ (8 * w.bytes) * 2 ^ (8 * w.bytes) := by
    rw [← pow_add]
    congr 1
    omega
  have hpos := Nat.two_pow_pos (8 * w.bytes)
  have hle := Nat.le_mul_of_pos_left (2 ^ (8 * w.bytes)) hpos
  cases x <;> simp only [FeeMark.pattern, FeeMark.word0, FeeMark.word1, FeeMark.index, ones, topBits, hsq,
    Nat.sub_mul, Nat.zero_mul, Nat.one_mul, pow_zero]
  case unused => omega
  case first => rfl
  case second => rw [Nat.two_mul, pow_add, Nat.sub_self]

theorem FeeMark.index_mul_le (x : FeeMark) (w : MarkWidth) : x.index * (8 * w.bytes) ≤ 16 * w.bytes := by
  cases x <;> simp only [FeeMark.index] <;> omega

/-- A move of an FEE mark is a pure write exactly when it goes to no earlier state (40_codec.md R144). -/
theorem FeeMark.pattern_and_eq_iff (w : MarkWidth) (x y : FeeMark) :
    y.pattern w &&& x.pattern w = y.pattern w ↔ x.index ≤ y.index := by
  rw [FeeMark.pattern_eq_topBits, FeeMark.pattern_eq_topBits, topBits_and_eq_iff (x.index_mul_le w) (y.index_mul_le w)]
  exact Nat.mul_le_mul_right_iff (Nat.mul_pos (by decide) (width_pos w))

theorem FeeMark.word0_lt (w : MarkWidth) (x : FeeMark) : x.word0 w < 2 ^ (8 * w.bytes) := by
  cases x
  case unused => exact Nat.sub_lt (Nat.two_pow_pos _) Nat.one_pos
  all_goals exact Nat.two_pow_pos _

theorem FeeMark.word1_lt (w : MarkWidth) (x : FeeMark) : x.word1 w < 2 ^ (8 * w.bytes) := by
  cases x
  case second => exact Nat.two_pow_pos _
  all_goals exact Nat.sub_lt (Nat.two_pow_pos _) Nat.one_pos

theorem FeeMark.decode_eq_some_iff {w : MarkWidth} {v0 v1 : Nat} {x : FeeMark} :
    FeeMark.decode w v0 v1 = some x ↔ v0 = x.word0 w ∧ v1 = x.word1 w := by
  constructor
  · intro h
    unfold FeeMark.decode at h
    split_ifs at h <;> cases h <;> assumption
  · rintro ⟨rfl, rfl⟩
    have hne := ones_ne_zero w
    cases x <;> simp [FeeMark.decode, FeeMark.word0, FeeMark.word1, hne.symm]

/-- Decoding is exact, word by word (40_codec.md R142). -/
theorem FeeMark.decode_leVal_eq_some_iff {w : MarkWidth} {x : FeeMark} {b0 b1 : List Byte} (h0 : b0.length = w.bytes)
    (h1 : b1.length = w.bytes) : FeeMark.decode w (leVal b0) (leVal b1) = some x ↔ b0 ++ b1 = x.encode w := by
  rw [FeeMark.decode_eq_some_iff, leVal_eq_iff h0 (x.word0_lt w), leVal_eq_iff h1 (x.word1_lt w), FeeMark.encode]
  constructor
  · rintro ⟨hb0, hb1⟩
    rw [← hb0, ← hb1]
  · exact fun h => List.append_inj h (by rw [h0, length_leBytes])

end Sys2Proof.Machine

namespace Sys2Proof.Proofs

/-- Settles O59: each table's patterns are nested runs of set bits, so decoding is exact and later states only clear
bits. -/
theorem markCodecMeetsItsContract : Obligations.MarkCodecMeetsItsContract := by
  unfold Obligations.MarkCodecMeetsItsContract
  refine ⟨fun w x bs => LogMark.decode_eq_some_iff, fun w x b0 b1 => FeeMark.decode_leVal_eq_some_iff,
    fun w => ⟨rfl, ?_⟩, LogMark.pattern_and_eq_iff, FeeMark.pattern_and_eq_iff⟩
  rw [FeeMark.pattern_eq_topBits, FeeMark.index, Nat.zero_mul, topBits, pow_zero]

end Sys2Proof.Proofs
end

