-- ==== Sys2Proof/Proofs/Ready.lean ====
section
/-! PROOF. A READY unit has its device's geometry, and M_STATE_ADDR of a READY Mirror unit names a log entry: START sets
both up, every mark keeps to the log, and what else touches the geometry leaves DRV = STOP (10_state.md R33;
41_mirror.md R170; 42_fee.md R214). -/

open Sys2Proof Sys2Proof.Machine

namespace Sys2Proof.Machine

variable {c : Prop} {p : Params} {d : DevInfo} {h : Nat} {s t : State} {i : Instr}

/-! ### The Mirror unit -/

/-- A layout found on the device is the unit's own. -/
theorem MirrorAt.laidOut (hs : MirrorAt p d h s) : s.mirrorLaidOut := by
  refine ⟨h, ?_, (MirrorUnit.eq_withGeometry_iff ..).2 ?_⟩
  · rw [hs.params, hs.info]
    exact hs.fit.fits
  · rw [hs.info]
    exact hs.geometry

theorem MirrorAt.logPlaced (hs : MirrorAt p d h s) (hp : LogAt p d h s.m) : s.logPlaced := by
  obtain ⟨k, hk, haddr⟩ := hp
  unfold State.logPlaced State.logPosition
  rw [hs.logEntries, hs.params, haddr, Nat.mul_mod_left, Nat.mul_div_cancel _ (width_pos _)]
  exact ⟨rfl, hk⟩

/-- The Mirror bank lies on its device, whatever DRV is. -/
def State.mirrorPlaced (s : State) : Prop :=
  ∃ h, MirrorAt s.params s.devM.info h s ∧ LogAt s.params s.devM.info h s.m

theorem State.mirrorPlaced.serving (hs : s.mirrorPlaced) : MirrorServing s := by
  obtain ⟨h, hat, hlog⟩ := hs
  exact fun _ => ⟨hat.laidOut, hat.logPlaced hlog⟩

theorem mirrorPlaced_of_at (hs : MirrorAt p d h s) (hp : LogAt p d h s.m) : s.mirrorPlaced := by
  obtain ⟨fit, rfl, rfl, hgeo⟩ := hs
  exact ⟨h, ⟨fit, rfl, rfl, hgeo⟩, hp⟩

/-- What the layout of a Mirror bank reads of it. -/
def MirrorUnit.placement (m : MirrorUnit) : MirrorUnit × Word := (m.geometry, m.stateAddr)

theorem mirrorPlaced_congr (hfix : t.fixed = s.fixed) (hm : t.m.placement = s.m.placement) (hs : s.mirrorPlaced) :
    t.mirrorPlaced := by
  obtain ⟨h, hat, hlog⟩ := hs
  have hgeo : t.m.geometry = s.m.geometry := congrArg Prod.fst hm
  have haddr : t.m.stateAddr = s.m.stateAddr := congrArg Prod.snd hm
  refine mirrorPlaced_of_at (p := s.params) (d := s.devM.info) (h := h) ⟨hat.fit, ?_, ?_, hgeo.trans hat.geometry⟩ ?_
  · exact congrArg Prod.fst hfix
  · exact congrArg (fun x => x.2.1) hfix
  · unfold LogAt
    rw [haddr]
    exact hlog

/-- What `MirrorServing` reads of the banks. -/
def Banks.mirrorServing (b : Banks) : DrvState × MirrorUnit × Word := (b.m.drv, b.m.placement)

theorem mirrorServing_congr (hfix : t.fixed = s.fixed) (hv : t.banks.mirrorServing = s.banks.mirrorServing)
    (hs : MirrorServing s) : MirrorServing t := by
  intro hready
  have hdrv : t.m.drv = s.m.drv := congrArg Prod.fst hv
  have hplaced : s.mirrorPlaced := hs.layout (hdrv ▸ hready)
  exact (mirrorPlaced_congr hfix (congrArg Prod.snd hv) hplaced).serving hready

theorem mirrorServing_of_stop (hs : s.drv .mirror = .stop) : MirrorServing s := fun hr => by cases hs.symm.trans hr

theorem mirrorServing_viewed : Viewed Banks.mirrorServing MirrorServing where
  congr hfix hv hs := mirrorServing_congr hfix hv hs
  restart h _ hr := by rw [h.m] at hr; cases hr
  issue _ _ _ _ := rfl
  lock u _ := by cases u <;> rfl
  recover {s} u hs := by cases u <;> exact mirrorServing_congr (s := s) rfl rfl hs

theorem keepsServing_deviceOnly {α : Type} {q : Proc α} (hq : DeviceOnly q) : KeepsFor MirrorServing i q :=
  mirrorServing_viewed.keepsFor hq fun _ _ e => congrArg Banks.mirrorServing e

/-- An early end that keeps a READY Mirror unit on its device, but for faults. -/
abbrev ServingStop (i : Instr) (e : Stop) (t : State) : Prop := (∃ f, e = .fault f) ∨ MirrorServing (afterStop i e t)

/-- A mark that names an entry of the log. -/
theorem setMirrorState_keepsServing (hs : MirrorServing s) (x : MirrorState) {off : Nat}
    (hoff : s.m.drv = .ready → ∃ h k, MirrorAt s.params s.devM.info h s ∧ k < logCount s.params s.devM.info h
      ∧ off = k * s.params.widthM.bytes) :
    Ends (fun _ t => MirrorServing t) (ServingStop i) (setMirrorState x off s) := by
  refine (mirrorRegs_ends _ s).mono (fun _ t k => ?_) fun _ _ k => mirrorServing_viewed.interrupted k hs
  refine mirrorServing_viewed.follows (k.see _) fun hready => ?_
  obtain ⟨h, j, hat, hj, rfl⟩ := hoff hready
  let m : MirrorUnit := { s.m with state := x, stateAddr := BitVec.ofNat 32 (j * s.params.widthM.bytes) }
  exact (mirrorPlaced_of_at (s := s.setM m) ⟨hat.fit, rfl, rfl, hat.geometry⟩
    (logAt_ofNat hat.fit hj rfl)).serving hready

theorem writeLogEntry_keepsServing (hs : MirrorServing s) (x : LogMark) {off : Nat}
    (hoff : s.m.drv = .ready → ∃ h k, MirrorAt s.params s.devM.info h s ∧ k < logCount s.params s.devM.info h
      ∧ off = k * s.params.widthM.bytes) :
    Ends (fun _ t => MirrorServing t) (ServingStop i) (writeLogEntry off x s) := by
  have hwrite := writeMarkWord_deviceOnly .mirror off (x.pattern s.params.widthM)
  refine .read (Ends.bind' ((hwrite.ends s).and (keepsServing_deviceOnly hwrite s hs)) (fun _ _ k => k.2) ?_)
  rintro - t ⟨hf, ht⟩
  have hm : t.m = s.m := congrArg Banks.m hf.view
  have hp : t.params = s.params := congrArg Prod.fst hf.fixed
  have hd : t.devM.info = s.devM.info := congrArg (fun x => x.2.1) hf.fixed
  refine setMirrorState_keepsServing ht _ fun hready => ?_
  obtain ⟨h, k, hat, hk, ho⟩ := hoff (hm ▸ hready)
  rw [hp, hd]
  exact ⟨h, k, hat.still hf, hk, ho⟩

/-- A mark goes to an entry of the log, wherever it stands (41_mirror.md R162). -/
theorem markAppend_keepsServing (x : LogMark) : KeepsFor MirrorServing i (markAppend x) := fun s hs => by
  refine .read (.ite (fun _ => ?_) fun hroom => writeLogEntry_keepsServing hs x fun hready => ?_)
  · refine (keepsServing_deviceOnly eraseHeader_deviceOnly s hs).bind fun _ t ht => ?_
    refine writeLogEntry_keepsServing ht x fun hready => ?_
    obtain ⟨h, hat, -⟩ := ht.layout hready
    exact ⟨h, 0, hat, hat.fit.logCount_pos, (Nat.zero_mul _).symm⟩
  · obtain ⟨h, hat, k, -, hk⟩ := hs.layout hready
    rw [logFull_iff hat hk] at hroom
    exact ⟨h, k + 1, hat, by omega, logCursor_eq hat hk⟩

theorem threePhase_keepsServing {mutate : Nat → Proc Unit} (hm : ∀ org, DeviceOnly (mutate org)) :
    KeepsFor MirrorServing i (threePhase mutate) := by
  have read := keepsServing_deviceOnly (i := i) (within_get : DeviceOnly (get : Proc State))
  have sync := keepsServing_deviceOnly (i := i) (devSync_deviceOnly .mirror)
  exact (markAppend_keepsServing .dirtyA).bind fun _ => read.bind fun _ => (keepsServing_deviceOnly (hm _)).bind
    fun _ => sync.bind fun _ => (markAppend_keepsServing .dirtyB).bind fun _ => read.bind fun _ =>
      (keepsServing_deviceOnly (hm _)).bind fun _ => sync.bind fun _ => markAppend_keepsServing .synced

/-- Recovery leaves M_STATE_ADDR on a log entry, whatever the log said (41_mirror.md R166). -/
theorem recoverMirror_does (hs : MirrorAt p d h s) :
    MirrorDoes c Banks.exceptMark (fun _ t => LogAt p d h t.m) recoverMirror s := by
  refine ((scan_does hs).see _).bind fun (x, off) s1 k1 ⟨k, hk, hoff⟩ => ?_
  have h1 := hs.marked k1.follows
  refine (setMirrorState_does x off s1).bind fun _ s2 k2 hm => ?_
  have h2 := h1.marked k2.follows
  have hp2 : LogAt p d h s2.m := logAt_ofNat hs.fit hk (hm.trans (congrArg _ hoff))
  have append {q : Proc Unit} (hq : MirrorDoes c id (fun _ _ => True) q s2) :
      MirrorDoes c Banks.exceptMark (fun _ t => LogAt p d h t.m) (do q; markAppend .synced) s2 :=
    Ends.bind hq fun _ t ⟨k, _⟩ =>
      Ends.mono (markAppend_does (h2.still k.follows) (hp2.still k.follows) .synced)
        (fun _ _ ⟨k', hl⟩ => ⟨(k.mono (fun _ _ e => congrArg _ e) subset_rfl).trans k', hl⟩) fun _ _ e => e
  cases x with
  | synced => exact does_pure hp2
  | dirtyA => exact append (copyBtoA_does h2)
  | dirtyB => exact append (copyAtoB_does h2)
  | invalid =>
    exact ((copyAtoB_does h2).see _).bind fun _ s3 k3 _ => markReset_does (h2.marked k3.follows) .synced

/-- START, from its geometry step on, leaves the unit on its device where it completes. -/
theorem mirrorStartTail_placed (s : State) :
    Ends (fun _ t => t.mirrorPlaced) (Lawful False False) (mirrorStartTail s) := by
  refine Ends.bind (mirrorGeometry_lawful s) fun _ s1 ⟨h, h1⟩ => ?_
  refine Ends.bind (devSync_does (u := .mirror) s1) fun _ s2 ⟨k2, _⟩ => ?_
  have h2 := h1.still k2.follows
  refine Ends.bind (recoverMirror_does h2) fun _ s3 ⟨k3, hlog⟩ => ?_
  have hplaced := mirrorPlaced_of_at (h2.marked k3.follows) hlog
  have hregs := mirrorRegs_does (c := False) (o := False) (u := .mirror) (v := Banks.exceptBank .mirror)
    (gs := [fun m => { m with recover := false }, fun m => { m with drv := .ready }]) (fun _ => rfl) s3
  exact Ends.mono hregs (fun _ t ⟨k4, hm⟩ => mirrorPlaced_congr k4.follows.fixed (by rw [hm]; rfl) hplaced)
    fun _ _ e => e

theorem mirrorStart_keepsServing : KeepsFor MirrorServing i mirrorStartBody := fun s hs => by
  have hstarts : Starts .mirror State.mirrorPlaced mirrorStartTail := fun s =>
    ((mirrorStartTail_starts s).and (mirrorStartTail_placed s)).mono
      (fun _ _ ⟨⟨hf, hrec, _⟩, hp⟩ => ⟨hf, hrec, hp⟩) fun _ _ k => k.1
  refine (startBody_ends hstarts s).mono (fun _ t ⟨_, _, hp⟩ => hp.serving) fun e t k => ?_
  rcases k with k | ⟨-, rfl⟩ | ⟨-, hf⟩
  · exact mirrorServing_viewed.interrupted k hs
  · exact .inr (mirrorServing_viewed.afterStop i e hs)
  · exact .inr (mirrorServing_viewed.afterStop i e (mirrorServing_of_stop (by rw [hf.drv_eq, State.drv_setDrv])))

/-- A command that sets DRV = STOP where it completes, and is refused otherwise, keeps what only a READY unit must
meet. -/
theorem stopping_keepsServing {q : Proc Unit} {Q : State → State → Prop} (hQ : ∀ s t, Q s t → t.drv .mirror = .stop)
    (hq : ∀ s, Ends (fun _ t => Q s t) (fun e t => Interrupted s e t ∨ (e = .raised .state ∧ t = s)) (q s)) :
    KeepsFor MirrorServing i q :=
  fun s hs => (hq s).mono (fun _ t k => mirrorServing_of_stop (hQ s t k)) fun e t k => by
    rcases k with k | ⟨-, rfl⟩
    · exact mirrorServing_viewed.interrupted k hs
    · exact .inr (mirrorServing_viewed.afterStop i e hs)

theorem bodyOf_keepsServing (i : Instr) : KeepsFor MirrorServing i (bodyOf i) := by
  have keep {α : Type} {q : Proc α} (hq : Within Reported id q) : KeepsFor MirrorServing i q :=
    mirrorServing_viewed.keepsFor hq fun _ _ e => congrArg Banks.mirrorServing e
  have check {g : State → Bool} := keep (within_checkState (reported (by decide)) g)
  have read := keep within_get
  have range {b : Bool} := keep (within_require (e := .range) (reported (by decide)) b)
  have align {b : Bool} := keep (within_require (e := .align) (reported (by decide)) b)
  cases i
  case mirrorStart hid => exact mirrorStart_keepsServing
  case mirrorStop hid => exact stopping_keepsServing (fun _ _ k => k.2) (stopBody_ends .mirror)
  case mirrorObjectInit hid =>
    exact stopping_keepsServing (fun _ _ k => congrArg (fun b : Banks => b.m.drv) k.view) mirrorObjectInit_ends
  case mirrorWrite hid =>
    exact check.bind fun _ => read.bind fun _ => range.bind fun _ => align.bind fun _ =>
      keepsFor_ite (keepsFor_pure ()) (threePhase_keepsServing fun _ => mirrorWriteAt_deviceOnly ..)
  case mirrorErase hid =>
    exact check.bind fun _ => read.bind fun _ => range.bind fun _ => align.bind fun _ =>
      keepsFor_ite (keepsFor_pure ()) (threePhase_keepsServing fun _ => devErase_deviceOnly ..)
  case mirrorMassErase hid =>
    exact check.bind fun _ => read.bind fun _ => threePhase_keepsServing fun _ => devErase_deviceOnly ..
  all_goals exact mirrorServing_viewed.keepsFor (bodyOf_within _) fun _ _ => view_of Banks.mirrorServing fun _ => rfl

/-! ### The FEE unit -/

/-- The parameters are legal, and a READY FEE unit has its device's geometry. -/
def State.feeReady (s : State) : Prop := s.params.wf = true ∧ (s.f.drv = .ready → s.feeLaidOut)

/-- What `feeReady` reads of the banks. -/
def Banks.feeReady (b : Banks) : DrvState × FeeUnit := (b.f.drv, b.f.geometry)

theorem feeAt_laidOut {p : Params} {d : DevInfo} (hs : FeeAt p d s) : s.feeLaidOut := by
  obtain ⟨⟨hw, hfit⟩, rfl, rfl, hgeo⟩ := hs
  exact ⟨hw, hfit, (FeeUnit.eq_withGeometry_iff ..).2 hgeo⟩

theorem feeReady_congr (hfix : t.fixed = s.fixed) (hv : t.banks.feeReady = s.banks.feeReady) (hs : s.feeReady) :
    t.feeReady := by
  have hp : t.params = s.params := congrArg Prod.fst hfix
  refine ⟨hp ▸ hs.1, fun hready => ?_⟩
  have hdrv : t.f.drv = s.f.drv := congrArg Prod.fst hv
  exact feeAt_laidOut ((feeAt_of_laidOut (hs.2 (hdrv ▸ hready))).congr hfix (congrArg Prod.snd hv))

theorem feeReady_of_stop (hw : s.params.wf = true) (hs : s.drv .fee = .stop) : s.feeReady :=
  ⟨hw, fun hr => by cases hs.symm.trans hr⟩

theorem feeReady_viewed : Viewed Banks.feeReady State.feeReady where
  congr hfix hv hs := feeReady_congr hfix hv hs
  restart {s t} h hs := by
    have hp : t.params = s.params := congrArg Prod.fst h.fixed
    refine ⟨hp ▸ hs.1, fun hr => ?_⟩
    rw [h.f] at hr
    cases hr
  issue _ _ _ _ := rfl
  lock u _ := by cases u <;> rfl
  recover {s} u hs := by cases u <;> exact feeReady_congr (s := s) rfl rfl hs

theorem erased_false {u : UnitId} {S : Set Nat} : Erased False u S s := nofun

/-- START, from its geometry step on, leaves the unit on its device where it completes. -/
theorem feeStartTail_laidOut (hw : s.params.wf = true) :
    Ends (fun _ t => t.feeLaidOut) (fun _ _ => True) (feeStartTail s) := by
  have any {e : Stop} {t : State} (_ : Lawful False False e t) : True := trivial
  refine Ends.bind' (feeGeometry_lawful (c := False) hw erased_false) (fun _ _ => any) fun _ s1 ⟨h1, _⟩ => ?_
  refine Ends.bind' (devSync_does (c := False) (o := False) (u := .fee) s1) (fun _ _ => any) fun _ s2 ⟨k2, _⟩ => ?_
  refine Ends.bind' (startCases_within.ends s2) (fun _ _ _ => trivial) fun _ s3 k3 => ?_
  refine (feeRegs_ends _ s3).mono (fun _ t k4 => ?_) fun _ _ _ => trivial
  have h3 := (h1.still k2).congr k3.fixed (geometry_of_exceptSlots k3)
  exact feeAt_laidOut (h3.congr k4.fixed (congrArg (fun b : Banks => b.f.geometry) k4.view))

theorem feeStart_keepsReady : KeepsFor State.feeReady i feeStartBody := fun s hs => by
  have hstarts : Starts .fee (fun t => t.params.wf = true → t.feeLaidOut) feeStartTail := fun s => by
    by_cases hw : s.params.wf = true
    · exact ((feeStartTail_starts s).and (feeStartTail_laidOut hw)).mono
        (fun _ _ ⟨⟨hf, hrec, _⟩, hl⟩ => ⟨hf, hrec, fun _ => hl⟩) fun _ _ k => k.1
    · refine (feeStartTail_starts s).mono (fun _ t ⟨hf, hrec, _⟩ => ⟨hf, hrec, fun ht => absurd ?_ hw⟩) fun _ _ k => k
      rwa [show t.params = s.params from congrArg Prod.fst hf.fixed] at ht
  refine (startBody_ends hstarts s).mono (fun _ t ⟨hf, _, hl⟩ => ?_) fun e t k => ?_
  · have hw : t.params.wf = true := by
      rw [show t.params = s.params from congrArg Prod.fst hf.fixed]
      exact hs.1
    exact ⟨hw, fun _ => hl hw⟩
  rcases k with k | ⟨-, rfl⟩ | ⟨-, hf⟩
  · exact feeReady_viewed.interrupted k hs
  · exact .inr (feeReady_viewed.afterStop i e hs)
  · refine .inr (feeReady_viewed.afterStop i e (feeReady_of_stop ?_ (by rw [hf.drv_eq, State.drv_setDrv])))
    rw [show t.params = s.params from congrArg Prod.fst hf.fixed]
    exact hs.1

/-- As `stopping_keepsServing`, for the FEE unit. -/
theorem stopping_keepsFeeReady {q : Proc Unit} {Q : State → State → Prop}
    (hQ : ∀ s t, Q s t → t.fixed = s.fixed ∧ t.drv .fee = .stop)
    (hq : ∀ s, Ends (fun _ t => Q s t) (fun e t => Interrupted s e t ∨ (e = .raised .state ∧ t = s)) (q s)) :
    KeepsFor State.feeReady i q :=
  fun s hs => (hq s).mono (fun _ t k => by
    obtain ⟨hfix, hstop⟩ := hQ s t k
    have hp : t.params = s.params := congrArg Prod.fst hfix
    exact feeReady_of_stop (hp ▸ hs.1) hstop) fun e t k => by
    rcases k with k | ⟨-, rfl⟩
    · exact feeReady_viewed.interrupted k hs
    · exact .inr (feeReady_viewed.afterStop i e hs)

theorem bodyOf_keepsFeeReady (i : Instr) : KeepsFor State.feeReady i (bodyOf i) := by
  cases i
  case feeStart hid => exact feeStart_keepsReady
  case feeStop hid => exact stopping_keepsFeeReady (fun _ _ k => ⟨k.1.fixed, k.2⟩) (stopBody_ends .fee)
  case feeObjectInit hid =>
    exact stopping_keepsFeeReady (fun _ _ k => ⟨k.fixed, congrArg (fun b : Banks => b.f.drv) k.view⟩)
      feeObjectInit_ends
  all_goals exact feeReady_viewed.keepsFor (bodyOf_within _) fun _ _ => view_of Banks.feeReady fun _ => rfl

end Sys2Proof.Machine

namespace Sys2Proof.Proofs

/-- Settles O41: each unit's half is kept by every command's procedure, so by every step. -/
theorem stepKeepsReadyUnitsLaidOut : Obligations.StepKeepsReadyUnitsLaidOut := by
  unfold Obligations.StepKeepsReadyUnitsLaidOut
  rintro s t ⟨hw, hmirror, hfee⟩ hstep
  have hserving : MirrorServing t := mirrorServing_viewed.step bodyOf_keepsServing hmirror hstep
  have hready : t.feeReady := feeReady_viewed.step bodyOf_keepsFeeReady ⟨hw, hfee⟩ hstep
  exact ⟨hready.1, hserving, hready.2⟩

end Sys2Proof.Proofs
end

