-- ==== Sys2Proof/Proofs/Life.lean ====
section
/-! PROOF. The commands that move no data: what INIT, OBJECT_INIT, STOP, SYNC and GET_INFO leave, and MIRROR.READ
(41_mirror.md R171 to R175, R179, R180; 42_fee.md R217 to R220, R225, R226). -/

open Sys2Proof Sys2Proof.Machine

namespace Sys2Proof.Machine

variable {s t : State} {u : UnitId} {hid : HostId} {rest : List Input}

/-! ### A command that its lock admits -/

/-- A command whose procedure ends well completes with OK. -/
theorem exec_of_body_ok {i : Instr} (hs : s.admits i.unit i.hid) (hbody : bodyOf i s = .ok () t)
    (hq : t.uneventful = true) : exec i s = .next (t.complete .ok) := by
  rw [exec_eq_runCommand, runCommand, if_neg (by rw [hs]; decide), hbody]
  exact finish_uneventful hq .ok

/-- A command whose procedure raises completes with the error; RECOVER is set where the table says so. -/
theorem exec_of_body_raised {i : Instr} {e : ErrCode} (hs : s.admits i.unit i.hid)
    (hbody : bodyOf i s = .error (.raised e) t) (hm : setsRecover i = false) (hq : t.uneventful = true) :
    exec i s = .next (t.complete e) := by
  rw [exec_eq_runCommand, runCommand, if_neg (by rw [hs]; decide), hbody, hm]
  exact finish_uneventful hq e

theorem started_of_startable (hs : s.startable u hid) : s.started u = true := by
  obtain ⟨-, hdrv⟩ := hs
  unfold State.started
  rcases hdrv with h | h <;> rw [h] <;> rfl

theorem isReady_of_drv (hs : s.drv u = .ready) : s.isReady u = true := by
  unfold State.isReady
  rw [hs]
  rfl

/-! ### INIT and STOP -/

theorem exec_initOf (hq : s.uneventful = true) (hs : s.admits u hid) : exec (initOf u hid) s = .next (s.complete .ok) := by
  cases u <;> exact exec_of_idle_body hq hs rfl

theorem exec_stopOf (hq : s.uneventful = true) (hs : s.startable u hid) :
    exec (stopOf u hid) s = .next ((s.setDrv u .stop).complete .ok) := by
  have hbody : (do checkState (·.started u); changeDrv u .stop : Proc Unit) s = .ok () (s.setDrv u .stop) := by
    rw [checked_apply, if_pos (started_of_startable hs)]
    exact change_uneventful hq _
  obtain ⟨hadmits, -⟩ := hs
  cases u <;> exact exec_of_body_ok hadmits hbody (uneventful_of_eq hq rfl)

/-! ### OBJECT_INIT -/

theorem exec_mirrorObjectInit (hq : s.uneventful = true) (hs : s.admits .mirror hid)
    (hr : stateRequirement (.mirrorObjectInit hid) s) :
    exec (.mirrorObjectInit hid) s = .next (State.complete { s with m := s.m.objectInit } .ok) := by
  obtain ⟨hdrv, hcount⟩ := hr
  have hinit : s.initable .mirror = true := by
    rcases hdrv with h | h <;> simp [State.initable, State.drv, State.lock, h, hcount]
  refine exec_of_body_ok hs ?_ (uneventful_of_eq hq rfl)
  show (do checkState (·.initable .mirror); let t ← get; mirrorRegs t.m.objectInit.initRegs : Proc Unit) s = _
  rw [checked_get_apply hinit, mirrorRegs_uneventful hq, MirrorUnit.initRegs_done]

theorem exec_feeObjectInit (hq : s.uneventful = true) (hs : s.admits .fee hid)
    (hr : stateRequirement (.feeObjectInit hid) s) :
    exec (.feeObjectInit hid) s = .next (State.complete { s with f := s.f.objectInit } .ok) := by
  obtain ⟨hdrv, hcount⟩ := hr
  have hinit : s.initable .fee = true := by
    rcases hdrv with h | h <;> simp [State.initable, State.drv, State.lock, h, hcount]
  refine exec_of_body_ok hs ?_ (uneventful_of_eq hq rfl)
  show (do checkState (·.initable .fee); let t ← get; feeRegs t.f.objectInit.initRegs : Proc Unit) s = _
  rw [checked_get_apply hinit, feeRegs_uneventful hq, FeeUnit.initRegs_done]

/-! ### SYNC -/

theorem bodyOf_syncOf (hs : s.drv u = .ready) : bodyOf (syncOf u hid) s = devSync u s := by
  have hchecked : (do checkState (·.isReady u); devSync u : Proc Unit) s = devSync u s := by
    rw [checked_apply, if_pos (isReady_of_drv hs)]
  cases u <;> exact hchecked

theorem devSync_of_fail {torn : Torn} (hi : s.inputs = .dev (.fail torn) :: rest) :
    devSync u s = .error (.raised .dev) { s with inputs := rest } := by
  rw [devSync_apply, point_of_dev hi]
  simp only [answer_of_dev hi]

/-! ### GET_INFO -/

/-- The report of GET_INFO, where the identification fits BUF. -/
theorem reportInfo_uneventful (hq : s.uneventful = true) (ss sn wa : Word) {ident : List Byte}
    (hfit : ident.length ≤ s.params.bufBytes) :
    reportInfo ss sn wa ident s =
      .ok () { s.setBuf 0 ident with info := ⟨ss, sn, wa, BitVec.ofNat 32 ident.length⟩ } := by
  have hregs := infoRegs_uneventful hq [fun i => { i with sectorSize := ss }, fun i => { i with sectorNum := sn },
    fun i => { i with writeAlign := wa }]
  let t : State := { s with info := ⟨ss, sn, wa, s.info.idLen⟩ }
  have hstore := (bufStore_apply ident t).trans (if_pos hfit)
  have hlast : (t.setBuf 0 ident).uneventful = true := uneventful_of_eq hq rfl
  exact (Proc.bind_ok hregs _).trans ((Proc.bind_ok hstore _).trans (infoRegs_uneventful hlast _))

theorem exec_mirrorGetInfo (hq : s.uneventful = true) (hs : s.admits .mirror hid) (hdrv : s.m.drv = .ready)
    (hfit : s.devM.info.ident.length ≤ s.params.bufBytes) :
    exec (.mirrorGetInfo hid) s = .next (State.complete { s.setBuf 0 s.devM.info.ident with
      info := ⟨BitVec.ofNat 32 s.devM.info.sectorSize, s.m.sectors, BitVec.ofNat 32 s.devM.info.writeAlign,
        BitVec.ofNat 32 s.devM.info.ident.length⟩ } .ok) := by
  refine exec_of_body_ok hs ?_ (uneventful_of_eq hq rfl)
  have hready : s.isReady .mirror = true := isReady_of_drv hdrv
  show mirrorGetInfoBody s = _
  unfold mirrorGetInfoBody
  rw [checked_apply, if_pos hready]
  exact reportInfo_uneventful hq _ _ _ hfit

theorem exec_feeGetInfo (hq : s.uneventful = true) (hs : s.admits .fee hid) (hdrv : s.f.drv = .ready)
    (hfit : s.devF.info.ident.length ≤ s.params.bufBytes) :
    exec (.feeGetInfo hid) s = .next (State.complete { s.setBuf 0 s.devF.info.ident with
      info := ⟨BitVec.ofNat 32 s.params.payload, s.f.numSlots, 1, BitVec.ofNat 32 s.devF.info.ident.length⟩ } .ok) := by
  refine exec_of_body_ok hs ?_ (uneventful_of_eq hq rfl)
  have hready : s.isReady .fee = true := isReady_of_drv hdrv
  show feeGetInfoBody s = _
  unfold feeGetInfoBody
  rw [checked_apply, if_pos hready]
  exact reportInfo_uneventful hq _ _ _ hfit

/-! ### MIRROR.READ -/

/-- A device part that ends well is not scrambled. -/
theorem guardRead_ok {n : Nat} {p : Proc Unit} (h : p s = .ok () t) : guardRead n p s = .ok () t := by
  unfold guardRead
  rw [h]

theorem mirrorReadBody_of_serves (hs : s.serves .mirror hid) (hu : s.undisturbed = true) (hl : s.mirrorLaidOut)
    (hbuf : s.opLen ≤ s.params.bufBytes) (hin : s.opAddr + s.opLen ≤ s.m.size.toNat) (hpos : s.opLen ≠ 0) :
    mirrorReadBody s = .ok () (s.setBuf 0 (s.devM.cur.bytesAt (s.m.aOrg.toNat + s.opAddr) s.opLen)) := by
  obtain ⟨h, hat⟩ := mirrorAt_of_laidOut hl
  have hrange : (s.fitsBuf && s.mirrorInRange) = true :=
    Bool.and_eq_true_iff.2 ⟨decide_eq_true hbuf, decide_eq_true hin⟩
  have hreadable : (s.dev .mirror).readable (s.m.aOrg.toNat + s.opAddr) s.opLen = true := by
    have hcopy := hat.fit.copy_le_device (.inl rfl)
    rw [hat.size] at hin
    refine decide_eq_true (hat.readable ?_)
    rw [hat.aOrg]
    omega
  unfold mirrorReadBody
  rw [checked_get_apply (mirrorServes_of_serves hs), required_apply _ hrange, if_neg hpos]
  refine guardRead_ok ?_
  rw [Proc.bind_ok (devRead_undisturbed hu hreadable), bufStore_apply, if_pos]
  · rfl
  · rw [length_bytesAt]
    exact hbuf

end Sys2Proof.Machine

namespace Sys2Proof.Proofs

/-- Settles O6: INIT's procedure is empty, STOP's is one register change. -/
theorem initAndStopChangeOnlyTheDriverState : Obligations.InitAndStopChangeOnlyTheDriverState := by
  unfold Obligations.InitAndStopChangeOnlyTheDriverState
  exact fun u h s hq => ⟨exec_initOf hq, exec_stopOf hq⟩

/-- Settles O7: the register changes of OBJECT_INIT, done to the end. -/
theorem objectInitClearsTheUnit : Obligations.ObjectInitClearsTheUnit := by
  unfold Obligations.ObjectInitClearsTheUnit
  exact ⟨fun h s hs hq hr => exec_mirrorObjectInit hq hs hr, fun h s hs hq hr => exec_feeObjectInit hq hs hr⟩

/-- Settles O8: SYNC is DevSync behind its state check. -/
theorem syncMakesTheDeviceDurable : Obligations.SyncMakesTheDeviceDurable := by
  unfold Obligations.SyncMakesTheDeviceDurable
  refine ⟨fun u h s hs hdrv hu => ?_, fun u h s torn rest hs hdrv hi hq => ?_⟩
  · have hbody := (bodyOf_syncOf (hid := h) hdrv).trans (devSync_undisturbed hu u)
    have hq : (s.setDev u (s.dev u).synced).uneventful = true :=
      uneventful_of_eq (undisturbed_uneventful hu) (State.inputs_setDev ..)
    cases u <;> exact exec_of_body_ok hs hbody hq
  · have hbody := (bodyOf_syncOf (hid := h) hdrv).trans (devSync_of_fail hi)
    cases u <;> exact exec_of_body_raised hs hbody rfl hq

/-- Settles O9: the register changes of the report and its store to BUF, done to the end. -/
theorem getInfoReportsTheUnit : Obligations.GetInfoReportsTheUnit := by
  unfold Obligations.GetInfoReportsTheUnit
  exact fun h s hq => ⟨exec_mirrorGetInfo hq, exec_feeGetInfo hq⟩

/-- Settles O20: a READ of no byte does nothing; any other is one DevRead in mirror_a and a store to BUF. -/
theorem mirrorReadReturnsMirrorA : Obligations.MirrorReadReturnsMirrorA := by
  unfold Obligations.MirrorReadReturnsMirrorA
  intro h s hs hu hl hbuf hin
  obtain ⟨hadmits, -⟩ := id hs
  have hq := undisturbed_uneventful hu
  by_cases hn : s.opLen = 0
  · have hbody : bodyOf (.mirrorRead h) s = .ok () s :=
      mirrorReadBody_no_bytes hn (mirrorServes_of_serves hs) (by omega)
    rw [exec_of_idle_body (i := .mirrorRead h) hq hadmits hbody, hn]
    rfl
  · exact exec_of_body_ok hadmits (mirrorReadBody_of_serves hs hu hl hbuf hin hn) (uneventful_of_eq hq rfl)

end Sys2Proof.Proofs
end

