-- ==== Sys2Proof/Proofs/Wrap.lean ====
section
/-! PROOF. A cut where DIRTY_B wraps the log: the erase of the header may take the DIRTY_A entry and leave an older SYNCED
one, while mirror_a is new and mirror_b old. START then adopts the two different copies (41_mirror.md R162, R166, R183;
20_memory.md R67). -/

open Sys2Proof Sys2Proof.Machine

namespace Sys2Proof.Machine

/-- The command ends in a next state that passes a check. -/
def endsIn (i : Instr) (s : State) (check : State → Bool) : Bool :=
  match exec i s with
  | .next t => check t
  | _ => false

theorem exists_of_endsIn {i : Instr} {s : State} {check : State → Bool} (h : endsIn i s check = true) :
    ∃ t, exec i s = .next t ∧ check t = true := by
  unfold endsIn at h
  split at h
  · exact ⟨_, ‹_›, h⟩
  · cases h

end Sys2Proof.Machine

namespace Sys2Proof.Proofs

/-- Three sectors of two log entries each: the header and the two copies. -/
def wrapInfo : DevInfo := ⟨8, 3, 4, []⟩

/-- A log whose first entry of two says SYNCED, and two copies of zeros. -/
def wrapImage : Memory := Memory.putBytes (some erasedByte) [] 0 (LogMark.synced.encode .w4 ++ fill erasedByte 4 ++ fill 0 16)

/-- The settled unit on that device. -/
def wrapUnit : State :=
  { State.reset with
    m := { MirrorUnit.reset.withGeometry wrapInfo 1 with drv := .ready, state := .synced }
    devM := ⟨wrapInfo, wrapImage, wrapImage, [], false⟩
    tail := .allOk }

/-- Of the header's erase, the cut lets the bits of entry 1 land, and no other. -/
def wrapCut : PowerCut := ⟨true, .listed ((List.range 4).map fun x => (0, 4 + x, 0xFF)) 0, .listed [] 0⟩

/-- A MASS_ERASE that takes entry 1 for DIRTY_A and erases mirror_a, and is cut in the erase of the header. -/
def wrapErase : State := { wrapUnit with inputs := [.dev .ok, .dev .ok, .dev .ok, .dev .ok, .busy (.powerLoss wrapCut)] }

/-- What the cut leaves: the log as it was, mirror_a erased and mirror_b as it was. -/
def wrapTorn : Memory :=
  Memory.putBytes (some erasedByte) [] 0 (LogMark.synced.encode .w4 ++ fill erasedByte 12 ++ fill 0 8)

/-- The unit stopped on that device, with a START on one header sector. -/
def wrapRestart : State :=
  { wrapUnit with
    m := { MirrorUnit.reset with drv := .stop }
    devM := ⟨wrapInfo, wrapTorn, wrapTorn, [], false⟩
    latch := ⟨0, 0, 0, 1⟩ }

theorem wrapErase_settled : wrapErase.mirrorSettled 0 := by
  have hadmits : wrapErase.lockedOut .mirror 0 = false := by decide
  have hserves : wrapErase.serves .mirror 0 := ⟨hadmits, rfl, rfl, fun _ => rfl⟩
  have hfree : ∀ k, k < wrapErase.logEntries → wrapErase.logPosition < k →
      wrapErase.logEntryAt k = fill erasedByte wrapErase.params.widthM.bytes := by decide +kernel
  have hready : wrapErase.logReady := ⟨⟨by decide +kernel, by decide +kernel⟩, fun k hlo hhi => hfree k hhi hlo⟩
  have hlaid : wrapErase.mirrorLaidOut := ⟨1, by decide +kernel, by decide +kernel⟩
  have hfirst : wrapErase.logEntryAt 0 = LogMark.synced.encode wrapErase.params.widthM := by decide +kernel
  have hlog : wrapErase.logEndsWith (wrapErase.logPosition + 1) .synced := by
    refine ⟨by decide +kernel, by decide +kernel, fun k hk => ?_, hfirst, fun k hlo hhi => hfree k hhi hlo⟩
    obtain rfl : k = 0 := Nat.lt_one_iff.1 hk
    exact ⟨.synced, nofun, hfirst⟩
  exact ⟨hserves, ⟨by decide +kernel, hlaid, hready⟩, rfl, rfl, hlog, by decide +kernel⟩

/-- The cut MASS_ERASE ends with the torn device. -/
theorem wrapErase_torn : ∃ t, exec (.mirrorMassErase 0) wrapErase = .next t ∧ t.devM = wrapRestart.devM := by
  obtain ⟨t, ht, hdev⟩ := exists_of_endsIn
    (by decide +kernel : endsIn (.mirrorMassErase 0) wrapErase (fun t => decide (t.devM = wrapRestart.devM)) = true)
  exact ⟨t, ht, of_decide_eq_true hdev⟩

/-- START on the torn device completes, with copies that differ. -/
theorem wrapRestart_adopts : ∃ y, exec (.mirrorStart 0) wrapRestart = .next y
    ∧ y.m.drv = .ready ∧ y.status.err = .ok ∧ y.mirrorA ≠ y.mirrorB := by
  obtain ⟨y, hy, hends⟩ := exists_of_endsIn (by decide +kernel : endsIn (.mirrorStart 0) wrapRestart
    (fun y => decide (y.m.drv = .ready ∧ y.status.err = .ok ∧ y.mirrorA ≠ y.mirrorB)) = true)
  exact ⟨y, hy, of_decide_eq_true hends⟩

/-- Refutes O28: the erase of a full header is cut after DIRTY_A's entry is gone, and the older SYNCED is adopted. -/
theorem not_mirrorWriteIsAtomicAcrossAWrap : ¬ Obligations.MirrorWriteIsAtomicAcrossAWrap := by
  unfold Obligations.MirrorWriteIsAtomicAcrossAWrap
  intro hatomic
  obtain ⟨t, ht, hdev⟩ := wrapErase_torn
  obtain ⟨y, hy, hdrv, herr, hdiffer⟩ := wrapRestart_adopts
  have hclaim := hatomic wrapErase (.mirrorMassErase 0) 0 0 _ _ wrapErase_settled (.inr (.inr ⟨rfl, rfl, rfl, rfl⟩))
  obtain ⟨hequal, -⟩ := hclaim t wrapRestart y 0 1 ht (by decide +kernel) (hdev ▸ .refl) rfl rfl hy hdrv herr
  exact hdiffer hequal

end Sys2Proof.Proofs
end

