-- ==== Sys2Proof/Proofs/Pins.lean ====
section
/-! PROOF. Bits of a device that no power loss and no failed operation can change: CUR and DUR hold them, and no pending
operation does anything to them (20_memory.md R67, R69). -/

open Sys2Proof Sys2Proof.Machine

namespace Sys2Proof.Machine

/-- A choice of bits of a device: bit b of byte x. -/
abbrev BitChoice := Nat → Nat → Prop

variable {S S' : BitChoice} {f g : Nat → Byte} {i : DevInfo} {d : Device} {op : PendOp} {s : State} {c : PowerCut}

/-- The bytes `g` have the chosen bits of `f`. -/
def AgreeOn (S : BitChoice) (f g : Nat → Byte) : Prop :=
  ∀ x b, b < 8 → S x b → (g x).getLsbD b = (f x).getLsbD b

theorem AgreeOn.refl (S : BitChoice) (f : Nat → Byte) : AgreeOn S f f := fun _ _ _ _ => rfl

/-- A byte all of whose bits are chosen. -/
theorem AgreeOn.byte (h : AgreeOn S f g) {x : Nat} (hx : ∀ b, b < 8 → S x b) : g x = f x :=
  byte_ext fun b hb => h x b hb (hx b hb)

/-- The operation leaves the chosen bits as `f` has them. -/
def PendOp.Spares (op : PendOp) (S : BitChoice) (f : Nat → Byte) : Prop :=
  ∀ x b, b < 8 → S x b → op.bitAfter x b ((f x).getLsbD b) = (f x).getLsbD b

/-- An operation that covers no chosen byte. -/
theorem spares_of_not_covers (h : ∀ x b, S x b → ¬op.Covers x) : op.Spares S f :=
  fun x b _ hx => PendOp.bitAfter_of_not_covers (h x b hx) b _

/-- The device has this report, and the chosen bits of `f` for good. -/
structure Device.Pins (i : DevInfo) (S : BitChoice) (f : Nat → Byte) (d : Device) : Prop where
  info : d.info = i
  canonical : d.canonical
  cur : AgreeOn S f d.cur.byteAt
  dur : AgreeOn S f d.dur.byteAt
  pending : ∀ op ∈ d.pending, op.Spares S f

/-- Where everything is durable, any choice of bits is pinned. -/
theorem Device.Pins.of_durable (hc : d.cur.wf (some erasedByte) = true) (hp : d.pending = []) (hd : d.dur = d.cur)
    (S : BitChoice) : d.Pins d.info S d.cur.byteAt where
  info := rfl
  canonical := ⟨hc, hd ▸ hc⟩
  cur := AgreeOn.refl S _
  dur := by rw [hd]; exact AgreeOn.refl S _
  pending op ho := by rw [hp] at ho; cases ho

/-! ### What keeps pinned bits -/

/-- Operations that leave a bit alone leave it in every torn image. -/
theorem tornBit_of_spared (took : Nat → Nat → Nat → Bool) (x b k : Nat) {ops : List PendOp} {v : Bool}
    (h : ∀ op ∈ ops, op.bitAfter x b v = v) : tornBit took x b k ops v = v := by
  induction ops generalizing k with
  | nil => rfl
  | cons op ops ih =>
    rw [tornBit, h op List.mem_cons_self, ite_self]
    exact ih (k + 1) fun o ho => h o (List.mem_cons_of_mem _ ho)

theorem settle_agreeOn (r : TearRule) (t : Torn) {dur : Memory} {pending : List PendOp}
    (hw : dur.wf (some erasedByte) = true) (hd : AgreeOn S f dur.byteAt) (hp : ∀ op ∈ pending, op.Spares S f) :
    AgreeOn S f (settle r t dur pending).byteAt := fun x b hb hx => by
  rw [settle_tornAs r t pending hw x b hb, hd x b hb hx]
  exact tornBit_of_spared _ x b 0 fun op ho => hp op ho x b hb hx

namespace Device.Pins

variable (h : d.Pins i S f)
include h

theorem anti (hS : ∀ x b, S' x b → S x b) : d.Pins i S' f where
  info := h.info
  canonical := h.canonical
  cur x b hb hx := h.cur x b hb (hS x b hx)
  dur x b hb hx := h.dur x b hb (hS x b hx)
  pending op ho x b hb hx := h.pending op ho x b hb (hS x b hx)

theorem pending_append (hop : op.Spares S f) : ∀ o ∈ d.pending ++ [op], o.Spares S f := fun o ho => by
  rcases List.mem_append.1 ho with ho | ho
  · exact h.pending o ho
  · exact List.mem_singleton.1 ho ▸ hop

/-- An operation is issued, and no more. -/
theorem issued (hop : op.Spares S f) : { d with pending := d.pending ++ [op] }.Pins i S f :=
  ⟨h.info, h.canonical, h.cur, h.dur, h.pending_append hop⟩

theorem perform (hop : op.Spares S f) : (d.perform op).Pins i S f where
  info := h.info
  canonical := Device.perform_canonical h.canonical op
  cur x b hb hx := by
    show ((op.land _ d.cur).byteAt x).getLsbD b = _
    rw [PendOp.bit_land h.canonical.1 op _ x hb, h.cur x b hb hx, hop x b hb hx, ite_self]
  dur := h.dur
  pending := h.pending_append hop

theorem performFailed (r : TearRule) (t : Torn) (hop : op.Spares S f) : (d.performFailed r t op).Pins i S f where
  info := h.info
  canonical := Device.performFailed_canonical h.canonical r t op
  cur x b hb hx := by
    show ((Memory.splice _ _ _ _).byteAt x).getLsbD b = _
    rw [Memory.byteAt_splice]
    split
    · exact settle_agreeOn r t h.canonical.2 h.dur (h.pending_append hop) x b hb hx
    · exact h.cur x b hb hx
  dur := h.dur
  pending := h.pending_append hop

theorem synced : d.synced.Pins i S f := ⟨h.info, Device.synced_canonical h.canonical, h.cur, h.cur, nofun⟩

theorem own (o : Bool) : { d with owned := o }.Pins i S f := ⟨h.info, h.canonical, h.cur, h.dur, h.pending⟩

theorem afterPowerLoss (r : TearRule) (t : Torn) : (d.afterPowerLoss r t).Pins i S f :=
  have hsettled := settle_agreeOn r t h.canonical.2 h.dur h.pending
  ⟨h.info, Device.afterPowerLoss_canonical h.canonical r t, hsettled, hsettled, nofun⟩

end Device.Pins

/-! ### Power loss -/

theorem powerLoss_pins (h : s.devM.Pins i S f) (c : PowerCut) : (s.powerLoss c).devM.Pins i S f := h.afterPowerLoss _ _

/-- Power is lost with an operation in flight that leaves the pinned bits alone, if the Mirror device has it. -/
theorem cutPower_pins {op : Option (UnitId × PendOp)} (h : s.devM.Pins i S f) (c : PowerCut)
    (hop : ∀ o, op = some (.mirror, o) → o.Spares S f) : (s.cutPower op c).devM.Pins i S f := by
  unfold State.cutPower
  split
  · next u o _ =>
    cases u with
    | mirror => exact (h.issued (hop o rfl)).afterPowerLoss _ _
    | fee => exact powerLoss_pins h c
  · exact powerLoss_pins h c

end Sys2Proof.Machine
end

