-- ==== Sys2Proof/Proofs/Runs.lean ====
section
/-! PROOF. What the Mirror engine's operations leave where they end well, to the byte, and which bits of DEV_M survive
where they do not. With `c` nothing outside interferes, and they end well (20_memory.md R63 to R69; 60_exceptions.md
R304, R312). -/

open Sys2Proof Sys2Proof.Machine

namespace Sys2Proof.Machine

variable {c : Prop} {α : Type} {i : DevInfo} {S : BitChoice} {f : Nat → Byte} {s t r : State} {m m' : MirrorUnit}
  {d d' : Device}

/-! ### The two ways to end -/

/-- `t` comes after `s` with this Mirror bank and this DEV_M, and the same operands and BUF; with `c`, all else is as it
was. -/
structure State.Ran (c : Prop) (s : State) (m : MirrorUnit) (d : Device) (t : State) : Prop where
  params : t.params = s.params
  latch : t.latch = s.latch
  buf : t.bufByte = s.bufByte
  mirror : t.m = m
  devM : t.devM = d
  calm : c → t = { s with m := m, devM := d }

theorem State.Ran.refl (c : Prop) (s : State) : s.Ran c s.m s.devM s := ⟨rfl, rfl, rfl, rfl, rfl, fun _ => rfl⟩

theorem State.Ran.trans (h : s.Ran c m d t) (k : t.Ran c m' d' r) : s.Ran c m' d' r where
  params := k.params.trans h.params
  latch := k.latch.trans h.latch
  buf := k.buf.trans h.buf
  mirror := k.mirror
  devM := k.devM
  calm hc := (k.calm hc).trans (by rw [h.calm hc])

theorem State.Ran.cast (h : s.Ran c m d t) (hm : m = m') (hd : d = d') : s.Ran c m' d' t := by
  rwa [hm, hd] at h

theorem State.Ran.undisturbed (h : s.Ran c m d t) (hs : c → s.undisturbed = true) : c → t.undisturbed = true :=
  fun hc => undisturbed_of_eq (hs hc) (by rw [h.calm hc]) (by rw [h.calm hc])

/-- An early end: only without `c`, with a fault, or with DEV_M as `P` says. -/
def Cut (c : Prop) (P : Device → Prop) (e : Stop) (t : State) : Prop := ¬c ∧ ((∃ x, e = .fault x) ∨ P t.devM)

theorem cut_of_dev {P : Device → Prop} {e : Stop} (hn : ¬c) (h : P t.devM) : Cut c P e t := ⟨hn, .inr h⟩

theorem cut_of_fault {P : Device → Prop} {x : Fault} (hn : ¬c) : Cut c P (.fault x) t := ⟨hn, .inl ⟨x, rfl⟩⟩

/-- The procedure ends well, as `Q` says; or it is cut, and these bits of DEV_M survive. -/
abbrev Runs (c : Prop) (i : DevInfo) (S : BitChoice) (f : Nat → Byte) (Q : α → State → Prop) (p : Proc α) (s : State) :
    Prop := Ends Q (Cut c (Device.Pins i S f)) (p s)

/-! ### The outside world -/

theorem buf_regAccess (reg : Reg) (a : Access) (s : State) : (regAccess reg a s).buf = s.buf := by
  cases a with
  | read z x => rfl
  | write z x v => cases reg <;> rfl

/-- While a command runs, no host changes BUF (60_exceptions.md R321). -/
theorem hostEvent_running_buf {h : HostId} {a : Access} (ht : s.hostEvent true h a = .ok t) : t.buf = s.buf := by
  unfold State.hostEvent hostAccess at ht
  split at ht
  · split at ht
    · cases ht
      rfl
    · split at ht
      · split at ht
        · cases ht
          exact buf_regAccess _ a s
        · cases ht
      · split at ht
        · split at ht
          · cases a <;> cases ht
            rfl
          · cases ht
        · cases ht
          cases a <;> rfl
  · cases ht
    rfl

/-- Events at a point leave BUF, or end the command with a fault or in a power loss. -/
theorem takeEvents_runs {op : Option (UnitId × PendOp)} (l : List Input) (hp : s.devM.Pins i S f)
    (hop : ∀ o, op = some (.mirror, o) → o.Spares S f) :
    Ends (fun _ t => t.buf = s.buf) (fun e t => (∃ x, e = .fault x) ∨ t.devM.Pins i S f) (takeEvents op l s) := by
  induction l generalizing s with
  | nil =>
    rw [takeEvents.eq_def]
    exact rfl
  | cons x rest ih =>
    rw [takeEvents.eq_def]
    cases x with
    | idle e => exact rfl
    | dev d => exact rfl
    | regStep => exact rfl
    | busy e =>
      cases e with
      | access h a =>
        dsimp only
        cases he : s.hostEvent true h a with
        | error x => exact .inl ⟨x, rfl⟩
        | ok s' =>
          obtain ⟨hframe, -, -⟩ := hostEvent_frame he
          have hdev : s'.devM = s.devM := by rw [hframe]
          exact (ih (hdev ▸ hp)).mono (fun _ _ k => k.trans (hostEvent_running_buf he)) fun _ _ k => k
      | powerLoss cut =>
        dsimp only
        split
        · exact .inl ⟨.overwrite, rfl⟩
        · exact .inr (cutPower_pins (s := { s with inputs := rest }) hp cut hop)

section
variable (hc : c → s.undisturbed = true)
include hc

theorem point_runs {op : Option (UnitId × PendOp)} (hp : s.devM.Pins i S f)
    (hop : ∀ o, op = some (.mirror, o) → o.Spares S f) :
    Runs c i S f (fun _ t => s.Ran c s.m s.devM t) (point op) s := by
  by_cases hcalm : c
  · unfold Runs
    rw [point_undisturbed (hc hcalm)]
    exact .refl c s
  · have hpoint : Ends (fun _ t => t.buf = s.buf) (fun e t => (∃ x, e = .fault x) ∨ t.devM.Pins i S f) (point op s) :=
      takeEvents_runs s.inputs hp hop
    unfold Runs
    cases hps : point op s with
    | error e t =>
      rw [hps] at hpoint
      exact ⟨hcalm, hpoint⟩
    | ok _ t =>
      rw [hps] at hpoint
      obtain ⟨hframe, -, -⟩ := point_frame hps
      have hbuf : t.bufByte = s.bufByte := by
        have hepoch : t.bufEpoch = s.bufEpoch := by rw [hframe]
        funext k
        unfold State.bufByte
        rw [show t.buf = s.buf from hpoint, hepoch]
      exact ⟨by rw [hframe], by rw [hframe], hbuf, by rw [hframe], by rw [hframe], fun h => absurd h hcalm⟩

theorem answer_runs : Runs c i S f (fun a t => s.Ran c s.m s.devM t ∧ (c → a = .ok)) answer s := by
  by_cases hcalm : c
  · unfold Runs
    rw [answer_undisturbed (hc hcalm)]
    exact ⟨.refl c s, fun _ => rfl⟩
  · obtain ⟨a, inputs, draws, ha⟩ := answer_cases s
    unfold Runs
    rw [ha]
    exact ⟨⟨rfl, rfl, rfl, rfl, rfl, fun h => absurd h hcalm⟩, fun h => absurd h hcalm⟩

/-- A point, then the device's answer. -/
theorem point_answer_runs {op : Option (UnitId × PendOp)} {β : Type} {Q : β → State → Prop} {q : Draw → Proc β}
    (hp : s.devM.Pins i S f) (hop : ∀ o, op = some (.mirror, o) → o.Spares S f)
    (hq : ∀ a t, s.Ran c s.m s.devM t → (c → a = .ok) → Runs c i S f Q (q a) t) :
    Runs c i S f Q (do point op; let a ← answer; q a) s := by
  refine (point_runs hc hp hop).bind fun _ t1 k1 => (answer_runs (k1.undisturbed hc)).bind fun a t2 ⟨k2, ha⟩ => ?_
  exact hq a t2 ((k1.trans k2).cast k1.mirror k1.devM) ha

end

/-! ### The device primitives -/

theorem contract_runs {β : Type} {Q : β → State → Prop} {x : Fault} {b : Bool} {q : Proc β} (hb : b = true)
    (hq : Runs c i S f Q q s) : Runs c i S f Q (do contract x b; q) s := by
  unfold Runs
  rwa [Proc.bind_ok (contract_holds x hb s)]

theorem ran_setDevM (d : Device) : s.Ran c s.m d (s.setDev .mirror d) := ⟨rfl, rfl, rfl, rfl, rfl, fun _ => rfl⟩

theorem performOp_runs {op : PendOp} {a : Draw} (hp : s.devM.Pins i S f) (hop : op.Spares S f) (ha : c → a = .ok) :
    Runs c i S f (fun _ t => s.Ran c s.m (s.devM.perform op) t) (performOp .mirror op a) s := by
  unfold Runs
  rw [performOp_apply]
  cases a with
  | ok => exact ran_setDevM _
  | fail torn => exact cut_of_dev (fun h => nomatch ha h) (hp.performFailed _ torn hop)

theorem overwriteOp_runs {op : PendOp} {a : Draw} (hp : s.devM.Pins i S f) (hop : op.Spares S f) (ha : c → a = .ok)
    (hand : c → s.params.overwrite = .and) :
    Runs c i S f (fun _ t => s.Ran c s.m (s.devM.perform op) t) (overwriteOp .mirror op a) s := by
  unfold overwriteOp
  refine .read ?_
  cases hrule : s.params.overwrite with
  | fault => exact cut_of_fault fun h => nomatch (hand h).symm.trans hrule
  | and => exact performOp_runs hp hop fun _ => rfl
  | fail =>
    have hfail : ¬c := fun h => nomatch (hand h).symm.trans hrule
    cases a with
    | fail torn => exact performOp_runs hp hop fun h => absurd h hfail
    | ok => exact cut_of_dev hfail (hp.performFailed _ _ hop)

section
variable (hc : c → s.undisturbed = true) (hp : s.devM.Pins i S f)
include hc hp

theorem devErase_runs {a n : Nat} (hr : (s.dev .mirror).erasable a n = true) (hop : (PendOp.erase a n).Spares S f) :
    Runs c i S f (fun _ t => s.Ran c s.m (s.devM.perform (.erase a n)) t) (devErase .mirror a n) s := by
  unfold devErase
  refine .read (contract_runs hr (point_answer_runs hc hp (fun o ho => by cases ho; exact hop) fun x t k hx => ?_))
  refine (performOp_runs (k.devM ▸ hp) hop hx).mono (fun _ t' k' => ?_) fun _ _ e => e
  exact (k.trans k').cast k.mirror (by rw [k.devM])

theorem devWrite_runs {a : Nat} {data : List Byte} (hw : (s.dev .mirror).writable a data.length = true)
    (hop : (PendOp.write a data).Spares S f)
    (hover : c → s.devM.overwrites a data = false ∨ s.params.overwrite = .and) :
    Runs c i S f (fun _ t => s.Ran c s.m (s.devM.perform (.write a data)) t) (devWrite .mirror a data) s := by
  unfold devWrite
  refine .read (contract_runs hw (point_answer_runs hc hp (fun o ho => by cases ho; exact hop) fun x t k hx => ?_))
  have hpt : t.devM.Pins i S f := k.devM ▸ hp
  have perform {q : Proc Unit} (hq : Runs c i S f (fun _ r => t.Ran c t.m (t.devM.perform (.write a data)) r) q t) :
      Runs c i S f (fun _ r => s.Ran c s.m (s.devM.perform (.write a data)) r) q t :=
    hq.mono (fun _ r k' => (k.trans k').cast k.mirror (by rw [k.devM])) fun _ _ e => e
  refine .read (.ite (fun ho => perform (overwriteOp_runs hpt hop hx fun h => ?_)) fun _ =>
    perform (performOp_runs hpt hop hx))
  rw [show t.dev .mirror = s.devM from k.devM] at ho
  rw [k.params]
  exact (hover h).resolve_left (by rw [ho]; decide)

theorem devRead_runs {a n : Nat} (hr : (s.dev .mirror).readable a n = true) :
    Runs c i S f (fun bs t => bs = s.devM.cur.bytesAt a n ∧ s.Ran c s.m s.devM t) (devRead .mirror a n) s := by
  unfold devRead
  refine .read (contract_runs hr (point_answer_runs hc hp (fun _ ho => nomatch ho) fun x t k hx => ?_))
  cases x with
  | ok => exact ⟨by rw [← k.devM]; rfl, k⟩
  | fail torn => exact cut_of_dev (fun h => nomatch hx h) (k.devM ▸ hp)

theorem devSync_runs : Runs c i S f (fun _ t => s.Ran c s.m s.devM.synced t) (devSync .mirror) s := by
  unfold devSync
  refine point_answer_runs hc hp (fun _ ho => nomatch ho) fun x t k hx => ?_
  cases x with
  | ok =>
    exact (k.trans (ran_setDevM t.devM.synced)).cast k.mirror (congrArg Device.synced k.devM)
  | fail torn => exact cut_of_dev (fun h => nomatch hx h) (k.devM ▸ hp)

theorem change_runs {g : State → State} {m : MirrorUnit} (hg : ∀ t : State, t.m = s.m → t.Ran c m t.devM (g t)) :
    Runs c i S f (fun _ t => s.Ran c m s.devM t) (change g) s := by
  unfold change
  refine (point_runs (op := none) hc hp nofun).bind fun _ t k => ?_
  have hdrop : t.Ran c t.m t.devM t.dropRegStep := by
    refine ⟨?_, ?_, ?_, ?_, ?_, fun h => ?_⟩
    · exact State.params_dropRegStep t
    · exact State.latch_dropRegStep t
    · rw [State.dropRegStep_frame]
      rfl
    · exact State.m_dropRegStep t
    · exact State.devM_dropRegStep t
    · exact State.dropRegStep_uneventful (undisturbed_uneventful (k.undisturbed hc h))
  exact ((k.trans hdrop).trans (hg t.dropRegStep (hdrop.mirror.trans k.mirror))).cast rfl (hdrop.devM.trans k.devM)

end

theorem mirrorRegs_runs (gs : List (MirrorUnit → MirrorUnit)) (hc : c → s.undisturbed = true)
    (hp : s.devM.Pins i S f) :
    Runs c i S f (fun _ t => s.Ran c (gs.foldl (fun m g => g m) s.m) s.devM t) (mirrorRegs gs) s := by
  induction gs generalizing s with
  | nil => exact .refl c s
  | cons g gs ih =>
    refine (change_runs (m := g s.m) hc hp fun t ht => ?_).bind fun _ t k => ?_
    · exact ⟨rfl, rfl, rfl, congrArg g ht, rfl, fun _ => by rw [ht]⟩
    · refine (ih (k.undisturbed hc) (k.devM ▸ hp)).mono (fun _ t' k' => ?_) fun _ _ e => e
      exact (k.trans k').cast (by rw [k.mirror]; rfl) k.devM

end Sys2Proof.Machine
end

