-- ==== Sys2Proof/Proofs/LogImage.lean ====
section
/-! PROOF. The header log as a function of the device's bytes: what Scan makes of it, and what an append does to it
(30_encoding.md R112; 41_mirror.md R162, R164). -/

open Sys2Proof Sys2Proof.Machine

namespace Sys2Proof.Machine

variable {w : MarkWidth} {g g' : Nat → Byte} {ne n k j a : Nat} {x last : LogMark} {r : MirrorState × Nat}

/-! ### Spans of bytes -/

/-- The bytes [a, a+n). -/
def spanOf (g : Nat → Byte) (a n : Nat) : List Byte := (List.range n).map fun j => g (a + j)

theorem length_spanOf (g : Nat → Byte) (a n : Nat) : (spanOf g a n).length = n := by simp [spanOf]

theorem spanOf_congr (h : ∀ y, a ≤ y → y < a + n → g' y = g y) : spanOf g' a n = spanOf g a n :=
  List.map_congr_left fun j hj => h _ (Nat.le_add_right a j) (by have := List.mem_range.1 hj; omega)

theorem spanOf_eq_iff {bs : List Byte} (hb : bs.length = n) :
    spanOf g a n = bs ↔ ∀ j, j < n → g (a + j) = (bs[j]?).getD erasedByte := by
  constructor
  · rintro rfl j hj
    simp [spanOf, hj]
  · intro h
    refine List.ext_getElem (by rw [length_spanOf, hb]) fun j hj hj' => ?_
    rw [length_spanOf] at hj
    simp [spanOf, h j hj, List.getElem?_eq_getElem hj']

theorem spanOf_eq_fill_iff : spanOf g a n = fill erasedByte n ↔ ∀ y, a ≤ y → y < a + n → g y = erasedByte := by
  rw [spanOf_eq_iff (length_fill ..)]
  constructor
  · intro h y hlo hhi
    have hy := h (y - a) (by omega)
    rw [Nat.add_sub_cancel' hlo] at hy
    rw [hy]
    simp [fill, show y - a < n by omega]
  · intro h j hj
    rw [h (a + j) (Nat.le_add_right ..) (by omega)]
    simp [fill, hj]

/-! ### Entries -/

/-- Log entry k. -/
def entryOf (w : MarkWidth) (g : Nat → Byte) (k : Nat) : List Byte := spanOf g (k * w.bytes) w.bytes

/-- Entry k lies before entry j. -/
theorem entry_end_le (w : MarkWidth) (h : k < j) : k * w.bytes + w.bytes ≤ j * w.bytes := by
  rw [← Nat.succ_mul]
  exact Nat.mul_le_mul_right _ h

theorem entryOf_congr (h : ∀ y, y < ne * w.bytes → g' y = g y) (hk : k < ne) : entryOf w g' k = entryOf w g k :=
  spanOf_congr fun y _ hy => h y (lt_of_lt_of_le hy (entry_end_le w hk))

theorem encode_unused (w : MarkWidth) : LogMark.unused.encode w = fill erasedByte w.bytes := by
  cases w <;> decide

theorem length_encode (w : MarkWidth) (x : LogMark) : (x.encode w).length = w.bytes := length_leBytes ..

theorem encode_inj {x y : LogMark} : x.encode w = y.encode w ↔ x = y := by
  rw [← LogMark.decode_eq_some_iff (length_encode w x), (LogMark.decode_eq_some_iff (length_encode w x)).2 rfl,
    Option.some.injEq]

theorem decode_entryOf_iff : LogMark.decode w (entryOf w g k) = some x ↔ entryOf w g k = x.encode w :=
  LogMark.decode_eq_some_iff (length_spanOf ..)

/-- Entry k is a mark. -/
def Marked (w : MarkWidth) (g : Nat → Byte) (k : Nat) : Prop := ∃ x, x ≠ LogMark.unused ∧ entryOf w g k = x.encode w

/-- Entry k is erased. -/
def Vacant (w : MarkWidth) (g : Nat → Byte) (k : Nat) : Prop := entryOf w g k = fill erasedByte w.bytes

theorem vacant_iff : Vacant w g k ↔ ∀ y, k * w.bytes ≤ y → y < k * w.bytes + w.bytes → g y = erasedByte :=
  spanOf_eq_fill_iff

theorem vacant_iff_decode : Vacant w g k ↔ LogMark.decode w (entryOf w g k) = some .unused := by
  rw [decode_entryOf_iff, encode_unused]
  rfl

theorem Vacant.not_marked (h : Vacant w g k) : ¬Marked w g k := by
  rintro ⟨x, hx, he⟩
  have hv : entryOf w g k = LogMark.unused.encode w := h.trans (encode_unused w).symm
  exact hx (encode_inj.1 (he.symm.trans hv))

/-! ### The log -/

/-- Of `ne` entries the first `n` are marks, the last of them `last`, and the others are erased. -/
structure LogEnds (w : MarkWidth) (g : Nat → Byte) (ne n : Nat) (last : LogMark) : Prop where
  pos : 1 ≤ n
  le : n ≤ ne
  marked : ∀ k, k < n → Marked w g k
  last : entryOf w g (n - 1) = last.encode w
  vacant : ∀ k, n ≤ k → k < ne → Vacant w g k

theorem logEndsWith_iff {s : State} :
    s.logEndsWith n last ↔ LogEnds s.params.widthM s.devM.cur.byteAt s.logEntries n last :=
  ⟨fun ⟨h1, h2, h3, h4, h5⟩ => ⟨h1, h2, h3, h4, h5⟩, fun ⟨h1, h2, h3, h4, h5⟩ => ⟨h1, h2, h3, h4, h5⟩⟩

theorem LogEnds.last_ne (h : LogEnds w g ne n last) : last ≠ .unused := by
  have hpos := h.pos
  obtain ⟨x, hx, he⟩ := h.marked (n - 1) (by omega)
  exact encode_inj.1 (he.symm.trans h.last) ▸ hx

theorem LogEnds.congr (h : LogEnds w g ne n last) (hg : ∀ y, y < ne * w.bytes → g' y = g y) :
    LogEnds w g' ne n last := by
  have hpos := h.pos
  have hle := h.le
  have he (k : Nat) (hk : k < ne) : entryOf w g' k = entryOf w g k := entryOf_congr hg hk
  refine ⟨hpos, hle, fun k hk => ?_, ?_, fun k hk hk' => ?_⟩
  · unfold Marked
    rw [he k (by omega)]
    exact h.marked k hk
  · rw [he _ (by omega)]
    exact h.last
  · unfold Vacant
    rw [he k hk']
    exact h.vacant k hk hk'

/-! ### Scan -/

/-- Scan's tail check on the `n` entries from k on (41_mirror.md R164). -/
def tailOf (w : MarkWidth) (g : Nat → Byte) (r : MirrorState × Nat) : Nat → Nat → MirrorState × Nat
  | 0, _ => r
  | n + 1, k => if entryOf w g k = fill erasedByte w.bytes then tailOf w g r n (k + 1) else (.invalid, 0)

/-- Scan on the `n` entries from k on, with the last state found (41_mirror.md R164). -/
def headOf (w : MarkWidth) (g : Nat → Byte) (r : MirrorState × Nat) : Nat → Nat → MirrorState × Nat
  | 0, _ => r
  | n + 1, k =>
    match LogMark.decode w (entryOf w g k) with
    | some .unused => tailOf w g r n (k + 1)
    | some x => headOf w g (x.mirrorState, k * w.bytes) n (k + 1)
    | none => (.invalid, 0)

/-- What Scan finds in a log of `ne` entries (41_mirror.md R164). -/
def scanOf (w : MarkWidth) (g : Nat → Byte) (ne : Nat) : MirrorState × Nat := headOf w g (.invalid, 0) ne 0

theorem tailOf_vacant (h : ∀ e, k ≤ e → e < k + n → Vacant w g e) : tailOf w g r n k = r := by
  induction n generalizing k with
  | zero => rfl
  | succ n ih =>
    have hk : entryOf w g k = fill erasedByte w.bytes := h k le_rfl (by omega)
    rw [tailOf, if_pos hk]
    exact ih fun e he he' => h e (by omega) (by omega)

theorem tailOf_cases (w : MarkWidth) (g : Nat → Byte) (r : MirrorState × Nat) (n k : Nat) :
    tailOf w g r n k = (.invalid, 0) ∨ ∀ e, k ≤ e → e < k + n → Vacant w g e := by
  induction n generalizing k with
  | zero => exact .inr fun e he he' => by omega
  | succ n ih =>
    rw [tailOf]
    split
    · next hv =>
      refine (ih (k + 1)).imp id fun h e he he' => ?_
      rcases Nat.eq_or_lt_of_le he with rfl | hlt
      · exact hv
      · exact h e hlt (by omega)
    · exact .inl rfl

/-- A step of Scan over a mark. -/
theorem headOf_marked (h : entryOf w g k = x.encode w) (hx : x ≠ .unused) :
    headOf w g r (n + 1) k = headOf w g (x.mirrorState, k * w.bytes) n (k + 1) := by
  rw [headOf, decode_entryOf_iff.2 h]
  cases x <;> first | exact absurd rfl hx | rfl

theorem headOf_vacant (h : Vacant w g k) : headOf w g r (n + 1) k = tailOf w g r n (k + 1) := by
  rw [headOf, vacant_iff_decode.1 h]

/-- `j` marks, then erased entries: Scan finds the last of the marks, or what it had. -/
theorem headOf_log (hj : j ≤ n) (hm : ∀ e, k ≤ e → e < k + j → Marked w g e)
    (hv : ∀ e, k + j ≤ e → e < k + n → Vacant w g e)
    (hlast : j ≠ 0 → entryOf w g (k + j - 1) = last.encode w) :
    headOf w g r n k = if j = 0 then r else (last.mirrorState, (k + j - 1) * w.bytes) := by
  induction n generalizing k j r with
  | zero =>
    obtain rfl : j = 0 := Nat.le_zero.1 hj
    rfl
  | succ n ih =>
    cases j with
    | zero =>
      rw [headOf_vacant (hv k le_rfl (by omega))]
      exact tailOf_vacant fun e he he' => hv e (by omega) (by omega)
    | succ j =>
      obtain ⟨x, hx, he⟩ := hm k le_rfl (by omega)
      rw [headOf_marked he hx, ih (j := j) (by omega) (fun e h1 h2 => hm e (by omega) (by omega))
        (fun e h1 h2 => hv e (by omega) (by omega)) fun _ => by rw [← hlast nofun]; congr 1; omega]
      rw [if_neg (Nat.succ_ne_zero j)]
      split
      · next hzero =>
        subst hzero
        rw [encode_inj.1 (he.symm.trans (hlast nofun))]
        rfl
      · rw [show k + 1 + j - 1 = k + (j + 1) - 1 by omega]

/-- Where Scan finds anything but an invalid log, the entries are marks and then erased. -/
theorem headOf_cases (w : MarkWidth) (g : Nat → Byte) (r : MirrorState × Nat) (n k : Nat) :
    headOf w g r n k = (.invalid, 0)
      ∨ ∃ j, j ≤ n ∧ (∀ e, k ≤ e → e < k + j → Marked w g e) ∧ ∀ e, k + j ≤ e → e < k + n → Vacant w g e := by
  induction n generalizing k r with
  | zero => exact .inr ⟨0, le_rfl, fun e _ _ => by omega, fun e _ _ => by omega⟩
  | succ n ih =>
    cases hd : LogMark.decode w (entryOf w g k) with
    | none =>
      rw [headOf, hd]
      exact .inl rfl
    | some x =>
      by_cases hx : x = .unused
      · have hvac : Vacant w g k := vacant_iff_decode.2 (hx ▸ hd)
        rw [headOf_vacant hvac]
        refine (tailOf_cases w g r n (k + 1)).imp id fun h => ⟨0, Nat.zero_le _, fun e _ _ => by omega, fun e he he' => ?_⟩
        rcases Nat.eq_or_lt_of_le he with rfl | hlt
        · exact hvac
        · exact h e hlt (by omega)
      · have hmark := decode_entryOf_iff.1 hd
        rw [headOf_marked hmark hx]
        refine (ih _ (k + 1)).imp id fun ⟨j, hj, hm, hv⟩ => ⟨j + 1, by omega, fun e he he' => ?_, fun e he he' => ?_⟩
        · rcases Nat.eq_or_lt_of_le he with rfl | hlt
          · exact ⟨x, hx, hmark⟩
          · exact hm e hlt (by omega)
        · exact hv e (by omega) (by omega)

/-- Scan finds the last mark of a log. -/
theorem scanOf_of_ends (h : LogEnds w g ne n last) : scanOf w g ne = (last.mirrorState, (n - 1) * w.bytes) := by
  have hpos := h.pos
  have hscan := headOf_log (r := (.invalid, 0)) (k := 0) (last := last) h.le (fun e _ he => h.marked e (by omega))
    (fun e he he' => h.vacant e (by omega) (by omega)) fun _ => by rw [Nat.zero_add]; exact h.last
  rwa [if_neg (by omega), Nat.zero_add] at hscan

/-- Scan finds the last mark of a log, or that there is no log. -/
theorem scanOf_cases (w : MarkWidth) (g : Nat → Byte) (ne : Nat) :
    (∃ n last, LogEnds w g ne n last) ∨ (¬∃ n last, LogEnds w g ne n last) ∧ scanOf w g ne = (.invalid, 0) := by
  by_cases h : ∃ n last, LogEnds w g ne n last
  · exact .inl h
  · refine .inr ⟨h, ?_⟩
    rcases headOf_cases w g (.invalid, 0) ne 0 with hi | ⟨j, hj, hm, hv⟩
    · exact hi
    · rcases Nat.eq_zero_or_pos j with rfl | hpos
      · exact headOf_log (last := .unused) hj hm hv fun hne => absurd rfl hne
      · obtain ⟨x, -, hx⟩ := hm (j - 1) (Nat.zero_le _) (by omega)
        exact absurd ⟨j, x, hpos, hj, fun e he => hm e (Nat.zero_le e) (by omega), hx,
          fun e he he' => hv e (by omega) (by omega)⟩ h

theorem scanOf_congr (h : ∀ y, y < ne * w.bytes → g' y = g y) : scanOf w g' ne = scanOf w g ne := by
  rcases scanOf_cases w g ne with ⟨n, last, hends⟩ | ⟨hno, hinv⟩
  · rw [scanOf_of_ends hends, scanOf_of_ends (hends.congr h)]
  · rcases scanOf_cases w g' ne with ⟨n, last, hends⟩ | ⟨-, hinv'⟩
    · exact absurd ⟨n, last, hends.congr fun y hy => (h y hy).symm⟩ hno
    · rw [hinv, hinv']

/-! ### Bytes laid over, erased and copied -/

theorem overlayBytes_of_mem {bs : List Byte} {y : Nat} (hlo : a ≤ y) (hhi : y < a + bs.length) :
    overlayBytes g a bs y = (bs[y - a]?).getD erasedByte := if_pos ⟨hlo, hhi⟩

theorem overlayBytes_of_not_mem {bs : List Byte} {y : Nat} (h : ¬(a ≤ y ∧ y < a + bs.length)) :
    overlayBytes g a bs y = g y := if_neg h

/-- What is laid over a span is then in it. -/
theorem spanOf_overlay {bs : List Byte} (hb : bs.length = n) : spanOf (overlayBytes g a bs) a n = bs :=
  (spanOf_eq_iff hb).2 fun j hj => by
    rw [overlayBytes_of_mem (Nat.le_add_right ..) (by omega), Nat.add_sub_cancel_left]

/-- The log after an append of a mark to the entry `k + 1`, or to the entry 0 of an erased header of `hdr` bytes. -/
def appendOf (w : MarkWidth) (ne hdr : Nat) (x : LogMark) (p : Nat × (Nat → Byte)) : Nat × (Nat → Byte) :=
  if p.1 + 1 < ne then (p.1 + 1, overlayBytes p.2 ((p.1 + 1) * w.bytes) (x.encode w))
  else (0, overlayBytes (eraseBytes p.2 0 hdr) 0 (x.encode w))

/-- Every entry after entry k is erased. -/
def VacantAfter (w : MarkWidth) (g : Nat → Byte) (ne k : Nat) : Prop := ∀ e, k < e → e < ne → Vacant w g e

theorem LogEnds.vacantAfter (h : LogEnds w g ne (k + 1) last) : VacantAfter w g ne k :=
  fun e he he' => h.vacant e he he'

theorem VacantAfter.congr (h : VacantAfter w g ne k) (hg : ∀ y, y < ne * w.bytes → g' y = g y) :
    VacantAfter w g' ne k := fun e he he' => by
  unfold Vacant
  rw [entryOf_congr hg he']
  exact h e he he'

/-- An entry other than the one that is written stays. -/
theorem entryOf_overlay_ne (h : j ≠ k) : entryOf w (overlayBytes g (k * w.bytes) (x.encode w)) j = entryOf w g j :=
  spanOf_congr fun y hlo hhi => overlayBytes_of_not_mem fun ⟨hlo', hhi'⟩ => by
    rw [length_encode] at hhi'
    rcases Nat.lt_or_gt_of_ne h with hlt | hgt
    · have := entry_end_le w hlt
      omega
    · have := entry_end_le w hgt
      omega

theorem entryOf_overlay_same : entryOf w (overlayBytes g (k * w.bytes) (x.encode w)) k = x.encode w :=
  spanOf_overlay (length_encode w x)

section append
variable {hdr : Nat} (hne : 0 < ne) (hhdr : ne * w.bytes ≤ hdr)

theorem entryOf_erased (hhdr : ne * w.bytes ≤ hdr) (hk : k < ne) : Vacant w (eraseBytes g 0 hdr) k :=
  vacant_iff.2 fun y _ hy => if_pos ⟨Nat.zero_le y, by have := entry_end_le w hk; omega⟩

include hne in
theorem appendOf_fst_lt : (appendOf w ne hdr x (k, g)).1 < ne := by
  unfold appendOf
  split
  · assumption
  · exact hne

include hhdr

theorem appendOf_vacantAfter (h : VacantAfter w g ne k) :
    VacantAfter w (appendOf w ne hdr x (k, g)).2 ne (appendOf w ne hdr x (k, g)).1 := by
  unfold appendOf
  split
  · intro e he he'
    have he : k + 1 < e := he
    unfold Vacant
    rw [entryOf_overlay_ne (by omega)]
    exact h e (by omega) he'
  · intro e he he'
    have he : 0 < e := he
    have hover := entryOf_overlay_ne (w := w) (g := eraseBytes g 0 hdr) (x := x) (j := e) (k := 0) (by omega)
    rw [Nat.zero_mul] at hover
    exact hover.trans (entryOf_erased hhdr he')

include hne

/-- An append to a log is a log that ends with the mark. -/
theorem appendOf_ends (h : LogEnds w g ne (k + 1) last) (hx : x ≠ .unused) :
    LogEnds w (appendOf w ne hdr x (k, g)).2 ne ((appendOf w ne hdr x (k, g)).1 + 1) x := by
  have hvac := appendOf_vacantAfter (x := x) hhdr h.vacantAfter
  revert hvac
  unfold appendOf
  split
  · next hlt =>
    intro hvac
    refine ⟨Nat.le_add_left .., hlt, fun e he => ?_, entryOf_overlay_same, fun e he he' => hvac e he he'⟩
    have he : e < k + 1 + 1 := he
    unfold Marked
    by_cases hek : e = k + 1
    · exact ⟨x, hx, hek ▸ entryOf_overlay_same⟩
    · rw [entryOf_overlay_ne hek]
      exact h.marked e (by omega)
  · intro hvac
    have hsame := entryOf_overlay_same (w := w) (g := eraseBytes g 0 hdr) (x := x) (k := 0)
    rw [Nat.zero_mul] at hsame
    refine ⟨le_rfl, hne, fun e he => ?_, hsame, fun e he he' => hvac e he he'⟩
    obtain rfl : e = 0 := Nat.lt_one_iff.1 he
    exact ⟨x, hx, hsame⟩

/-- An append changes no byte past the header. -/
theorem appendOf_beyond {y : Nat} (hy : hdr ≤ y) :
    (appendOf w ne hdr x (k, g)).2 y = g y := by
  unfold appendOf
  split
  · next hlt =>
    refine overlayBytes_of_not_mem fun ⟨_, h⟩ => ?_
    have := entry_end_le w hlt
    rw [length_encode] at h
    omega
  · next hlt =>
    have hone := entry_end_le w hne
    show overlayBytes (eraseBytes g 0 hdr) 0 (x.encode w) y = g y
    rw [overlayBytes_of_not_mem fun ⟨_, h⟩ => by rw [length_encode] at h; omega]
    exact if_neg fun ⟨_, h⟩ => by omega

end append

end Sys2Proof.Machine
end

