-- ==== Sys2Proof/Proofs/MirrorRuns.lean ====
section
/-! PROOF. The Mirror engine's procedures, to the byte: an append to the log, Scan, and a copy of one half over the other
(41_mirror.md R162 to R165). -/

open Sys2Proof Sys2Proof.Machine

namespace Sys2Proof.Machine

variable {c : Prop} {p : Params} {i : DevInfo} {h k n j off v src dst : Nat} {S : BitChoice} {f g g' g'' : Nat → Byte}
  {s t : State} {m : MirrorUnit} {d d' d'' : Device} {op : PendOp} {x : LogMark}

/-! ### What a device reads as -/

/-- CUR is canonical and holds these bytes. -/
structure Device.Reads (d : Device) (g : Nat → Byte) : Prop where
  canonical : d.cur.wf (some erasedByte) = true
  bytes : d.cur.byteAt = g

/-- The bytes after an operation that lands whole. -/
def PendOp.on (op : PendOp) (g : Nat → Byte) : Nat → Byte :=
  match op with
  | .write a data => fun y => if a ≤ y ∧ y < a + data.length then g y &&& (data[y - a]?).getD erasedByte else g y
  | .erase a n => eraseBytes g a n

theorem PendOp.on_of_not_covers {y : Nat} (hy : ¬op.Covers y) : op.on g y = g y := by
  cases op <;> exact if_neg hy

theorem Device.Reads.perform (hd : d.Reads g) (op : PendOp) : (d.perform op).Reads (op.on g) where
  canonical := wf_land hd.canonical op _
  bytes := by
    funext y
    rw [← hd.bytes]
    cases op with
    | erase a n => exact byteAt_apply_erase hd.canonical a n y
    | write a data =>
      refine (byteAt_landWrite hd.canonical _ a data y).trans ?_
      show _ = ite _ _ _
      rw [show ~~~(0xFF : Byte) = 0#8 from rfl, BitVec.or_zero]

theorem Device.Reads.synced (hd : d.Reads g) : d.synced.Reads g := ⟨hd.canonical, hd.bytes⟩

/-- A write to erased bytes lays its data over them. -/
theorem write_on_erased {a : Nat} {data : List Byte}
    (he : ∀ y, a ≤ y → y < a + data.length → g y = erasedByte) : (PendOp.write a data).on g = overlayBytes g a data := by
  funext y
  show ite _ _ _ = ite _ _ _
  by_cases hy : a ≤ y ∧ y < a + data.length
  · rw [if_pos hy, if_pos hy, he y hy.1 hy.2, show erasedByte = BitVec.allOnes 8 from rfl, BitVec.allOnes_and]
  · rw [if_neg hy, if_neg hy]

theorem Device.Reads.overwrites_erased (hd : d.Reads g) {a : Nat} {data : List Byte}
    (he : ∀ y, a ≤ y → y < a + data.length → g y = erasedByte) : d.overwrites a data = false :=
  overwrites_eq_false fun j hj => .inr (by
    rw [hd.bytes]
    exact he _ (Nat.le_add_right ..) (by omega))

/-- `d'` is `d` with these bytes, all of them durable. -/
structure Device.Settles (d d' : Device) (g : Nat → Byte) : Prop where
  info : d'.info = d.info
  owned : d'.owned = d.owned
  pending : d'.pending = []
  durable : d'.dur = d'.cur
  reads : d'.Reads g

theorem Device.Settles.settledAs (hd : d.Settles d' g) : d.settledAs d' g :=
  ⟨hd.info, hd.owned, hd.pending, hd.durable, fun y => congrFun hd.reads.bytes y⟩

theorem Device.Settles.trans (hd : d.Settles d' g) (hd' : d'.Settles d'' g') : d.Settles d'' g' :=
  ⟨hd'.info.trans hd.info, hd'.owned.trans hd.owned, hd'.pending, hd'.durable, hd'.reads⟩

/-- The device has this report and reads so, and all of it is durable. -/
structure Device.Rests (i : DevInfo) (g : Nat → Byte) (d : Device) : Prop where
  info : d.info = i
  pending : d.pending = []
  durable : d.dur = d.cur
  reads : d.Reads g

theorem Device.Settles.rests (hd : d.Settles d' g) : d'.Rests d.info g := ⟨hd.info, hd.pending, hd.durable, hd.reads⟩

/-- Any choice of bits of a device at rest is pinned. -/
theorem Device.Rests.pins (hd : d.Rests i g) (S : BitChoice) : d.Pins i S g := by
  have hp := Device.Pins.of_durable hd.reads.canonical hd.pending hd.durable S
  rwa [hd.info, hd.reads.bytes] at hp

theorem settles_perform (hd : d.Reads g) (op : PendOp) : d.Settles (d.perform op).synced (op.on g) :=
  ⟨rfl, rfl, rfl, rfl, (hd.perform op).synced⟩

/-! ### The log -/

/-- The Mirror bank with a mark. -/
def MirrorUnit.marked (m : MirrorUnit) (x : MirrorState) (off : Nat) : MirrorUnit :=
  { m with state := x, stateAddr := BitVec.ofNat 32 off }

theorem MirrorAt.ran (hs : MirrorAt p i h s) (hk : s.Ran c m d t) (hm : m.geometry = s.m.geometry)
    (hd : d.info = s.devM.info) : MirrorAt p i h t :=
  ⟨hs.fit, hk.params.trans hs.params, by rw [hk.devM, hd, hs.info], by rw [hk.mirror, hm, hs.geometry]⟩

theorem log_le_header (p : Params) (i : DevInfo) (h : Nat) : logCount p i h * p.widthM.bytes ≤ headerSpan i h :=
  Nat.div_mul_le_self ..

/-- The write of a mark to entry k. -/
def entryOp (p : Params) (k : Nat) (x : LogMark) : PendOp := .write (k * p.widthM.bytes) (x.encode p.widthM)

/-- The erase of the header span. -/
def headerOp (i : DevInfo) (h : Nat) : PendOp := .erase 0 (headerSpan i h)

/-- The operations of an append after entry k (41_mirror.md R162). -/
def AppendOps (p : Params) (i : DevInfo) (h k : Nat) (x : LogMark) (op : PendOp) : Prop :=
  if k + 1 < logCount p i h then op = entryOp p (k + 1) x else op = headerOp i h ∨ op = entryOp p 0 x

/-- An append of a mark, to a log position and the device's bytes. -/
abbrev appendAt (p : Params) (i : DevInfo) (h : Nat) (x : LogMark) (q : Nat × (Nat → Byte)) : Nat × (Nat → Byte) :=
  appendOf p.widthM (logCount p i h) (headerSpan i h) x q

theorem MirrorAt.logStep_eq (hs : MirrorAt p i h s) (x : LogMark) (q : Nat × (Nat → Byte)) :
    s.logStep x q = appendAt p i h x q := by
  unfold State.logStep appendAt appendOf
  rw [hs.logEntries, hs.hdrBytes, hs.params]

/-- The unit is laid out, M_STATE_ADDR names entry k, the entries after it are erased, and DEV_M reads as `g`. -/
structure MirrorHolds (p : Params) (i : DevInfo) (h k : Nat) (g : Nat → Byte) (s : State) : Prop where
  at_ : MirrorAt p i h s
  entry : k < logCount p i h
  addr : s.m.stateAddr.toNat = k * p.widthM.bytes
  reads : s.devM.Reads g
  vacant : VacantAfter p.widthM g (logCount p i h) k

theorem vacant_entryOp (hv : Vacant p.widthM g k) (y : Nat) (hlo : k * p.widthM.bytes ≤ y)
    (hhi : y < k * p.widthM.bytes + (x.encode p.widthM).length) : g y = erasedByte :=
  vacant_iff.1 hv y hlo (by rwa [length_encode] at hhi)

theorem MirrorAt.entry_writable (hs : MirrorAt p i h s) (hk : k < logCount p i h) :
    (s.dev .mirror).writable (k * p.widthM.bytes) (x.encode p.widthM).length = true := by
  rw [length_encode]
  exact hs.writable (hs.entry_le_device hk) (hs.fit.align_dvd_width.mul_left k) hs.fit.align_dvd_width

theorem MirrorAt.header_erasable (hs : MirrorAt p i h s) : (s.dev .mirror).erasable 0 (headerSpan i h) = true :=
  hs.erasable (by rw [Nat.zero_add]; exact hs.header_le_device) (Nat.dvd_zero _) (Nat.dvd_mul_left _ _)

theorem setMirrorState_runs (hc : c → s.undisturbed = true) (hp : s.devM.Pins i S f) (x : MirrorState) (off : Nat) :
    Runs c i S f (fun _ t => s.Ran c (s.m.marked x off) s.devM t) (setMirrorState x off) s :=
  mirrorRegs_runs [fun m => { m with state := x }, fun m => { m with stateAddr := BitVec.ofNat 32 off }] hc hp

section log
variable (hs : MirrorAt p i h s) (hc : c → s.undisturbed = true) (hp : s.devM.Pins i S f) (hg : s.devM.Reads g)
include hs hc hp hg

theorem writeLogEntry_runs (hk : k < logCount p i h) (hv : Vacant p.widthM g k) (hop : (entryOp p k x).Spares S f) :
    Runs c i S f
      (fun _ t => s.Ran c (s.m.marked x.mirrorState (k * p.widthM.bytes)) (s.devM.perform (entryOp p k x)).synced t)
      (writeLogEntry (k * p.widthM.bytes) x) s := by
  unfold writeLogEntry writeMarkWord
  refine .read ?_
  rw [hs.params]
  have hmark : Runs c i S f (fun _ t => s.Ran c s.m (s.devM.perform (entryOp p k x)).synced t)
      (writeMarkWord .mirror (k * p.widthM.bytes) (x.pattern p.widthM)) s := by
    unfold writeMarkWord
    refine .read ?_
    rw [show s.markWidth .mirror = p.widthM from congrArg Params.widthM hs.params]
    refine (devWrite_runs hc hp (hs.entry_writable hk) hop
      fun _ => .inl (hg.overwrites_erased (vacant_entryOp hv))).bind fun _ t ht => ?_
    refine (devSync_runs (ht.undisturbed hc) (ht.devM ▸ hp.perform hop)).mono (fun _ t' ht' => ?_) fun _ _ e => e
    exact (ht.trans ht').cast ht.mirror (by rw [ht.devM]; rfl)
  refine hmark.bind fun _ t ht => ?_
  refine (setMirrorState_runs (ht.undisturbed hc) (ht.devM ▸ (hp.perform hop).synced) _ _).mono (fun _ t' ht' => ?_)
    fun _ _ e => e
  exact (ht.trans ht').cast (by rw [ht.mirror]) ht.devM

omit hg in
theorem eraseHeader_runs (hop : (headerOp i h).Spares S f) :
    Runs c i S f (fun _ t => s.Ran c s.m (s.devM.perform (headerOp i h)).synced t) eraseHeader s := by
  unfold eraseHeader
  refine .read ?_
  rw [hs.hdrBytes]
  refine (devErase_runs hc hp hs.header_erasable hop).bind fun _ t ht => ?_
  refine (devSync_runs (ht.undisturbed hc) (ht.devM ▸ hp.perform hop)).mono (fun _ t' ht' => ?_) fun _ _ e => e
  exact (ht.trans ht').cast ht.mirror (by rw [ht.devM]; rfl)

/-- What the write of a mark to entry k leaves. -/
theorem writeLogEntry_settles (hk : k < logCount p i h) (hv : Vacant p.widthM g k)
    (hop : (entryOp p k x).Spares S f) :
    Runs c i S f
      (fun _ t => s.Ran c (s.m.marked x.mirrorState (k * p.widthM.bytes)) t.devM t
        ∧ s.devM.Settles t.devM (overlayBytes g (k * p.widthM.bytes) (x.encode p.widthM)))
      (writeLogEntry (k * p.widthM.bytes) x) s :=
  (writeLogEntry_runs hs hc hp hg hk hv hop).mono (fun _ t ht => by
    refine ⟨ht.cast rfl ht.devM.symm, ?_⟩
    rw [ht.devM, ← write_on_erased (vacant_entryOp hv)]
    exact settles_perform hg _) fun _ _ e => e

/-- What MarkReset leaves: a log of one mark (41_mirror.md R163). -/
theorem markReset_settles (hop : (headerOp i h).Spares S f) (hop' : (entryOp p 0 x).Spares S f) :
    Runs c i S f
      (fun _ t => s.Ran c (s.m.marked x.mirrorState 0) t.devM t
        ∧ s.devM.Settles t.devM (overlayBytes (eraseBytes g 0 (headerSpan i h)) 0 (x.encode p.widthM)))
      (markReset x) s := by
  unfold markReset
  refine (eraseHeader_runs hs hc hp hop).bind fun _ t ht => ?_
  have hset := settles_perform hg (headerOp i h)
  have hread : t.devM.Reads (eraseBytes g 0 (headerSpan i h)) := ht.devM ▸ hset.reads
  have hwrite := writeLogEntry_settles (x := x) (hs.ran ht rfl rfl) (ht.undisturbed hc)
    (ht.devM ▸ (hp.perform hop).synced) hread hs.fit.logCount_pos
    (entryOf_erased (log_le_header p i h) hs.fit.logCount_pos) hop'
  rw [Nat.zero_mul, ht.mirror, ht.devM] at hwrite
  exact hwrite.mono (fun _ t' ⟨hran, hset'⟩ => ⟨ht.trans hran, hset.trans hset'⟩) fun _ _ e => e

end log

/-- What an append of a mark leaves (41_mirror.md R162). -/
theorem markAppend_settles (hs : MirrorHolds p i h k g s) (hc : c → s.undisturbed = true) (hp : s.devM.Pins i S f)
    (hop : ∀ op, AppendOps p i h k x op → op.Spares S f) :
    Runs c i S f
      (fun _ t => s.Ran c (s.m.marked x.mirrorState ((appendAt p i h x (k, g)).1 * p.widthM.bytes)) t.devM t
        ∧ s.devM.Settles t.devM (appendAt p i h x (k, g)).2)
      (markAppend x) s := by
  unfold markAppend
  refine .read (.ite (fun hfull => ?_) fun hroom => ?_)
  · rw [logFull_iff hs.at_ hs.addr] at hfull
    have hno : ¬k + 1 < logCount p i h := by omega
    unfold appendAt appendOf
    unfold AppendOps at hop
    rw [if_neg hno, Nat.zero_mul]
    exact markReset_settles hs.at_ hc hp hs.reads (hop _ (by rw [if_neg hno]; exact .inl rfl))
      (hop _ (by rw [if_neg hno]; exact .inr rfl))
  · rw [logFull_iff hs.at_ hs.addr] at hroom
    have hlt : k + 1 < logCount p i h := by omega
    unfold appendAt appendOf
    unfold AppendOps at hop
    rw [if_pos hlt, logCursor_eq hs.at_ hs.addr]
    exact writeLogEntry_settles hs.at_ hc hp hs.reads hlt (hs.vacant _ (Nat.lt_succ_self k) hlt)
      (hop _ (by rw [if_pos hlt]))

/-- Where an append leaves the unit. -/
theorem MirrorHolds.append (hs : MirrorHolds p i h k g s)
    (ht : s.Ran c (s.m.marked x.mirrorState ((appendAt p i h x (k, g)).1 * p.widthM.bytes)) t.devM t)
    (hd : s.devM.Settles t.devM (appendAt p i h x (k, g)).2) :
    MirrorHolds p i h (appendAt p i h x (k, g)).1 (appendAt p i h x (k, g)).2 t := by
  have hlt := appendOf_fst_lt (w := p.widthM) (hdr := headerSpan i h) (x := x) (g := g) (k := k) hs.at_.fit.logCount_pos
  refine ⟨hs.at_.ran ht rfl hd.info, hlt, ?_, hd.reads, appendOf_vacantAfter (log_le_header p i h) hs.vacant⟩
  have haddr : LogAt p i h t.m := logAt_ofNat hs.at_.fit hlt (by rw [ht.mirror]; rfl)
  rw [ht.mirror, MirrorUnit.marked, BitVec.toNat_ofNat, Nat.mod_eq_of_lt]
  exact lt_of_le_of_lt ((Nat.le_add_right _ _).trans (entry_le_header hlt)) hs.at_.fit.headerSpan_lt

/-! ### Scan -/

section scan
variable (hs : MirrorAt p i h s) (hc : c → s.undisturbed = true) (hp : s.devM.Pins i S f)

/-- A procedure that answers with a value and changes nothing. -/
abbrev Answers (c : Prop) (i : DevInfo) (S : BitChoice) (f : Nat → Byte) {α : Type} (a : α) (q : Proc α) (s : State) :
    Prop := Runs c i S f (fun b t => b = a ∧ s.Ran c s.m s.devM t) q s

theorem answers_pure {α : Type} (a : α) : Answers c i S f a (pure a : Proc α) s := ⟨rfl, .refl c s⟩

include hs hc hp

/-- After a procedure that answers and changes nothing. -/
theorem Answers.bind {α β : Type} {a : α} {b : β} {q : Proc α} {q' : α → Proc β} (hq : Answers c i S f a q s)
    (hq' : ∀ t, MirrorAt p i h t → (c → t.undisturbed = true) → t.devM.Pins i S f → t.devM = s.devM →
      Answers c i S f b (q' a) t) : Answers c i S f b (q >>= q') s := by
  refine Ends.bind hq fun a' t ⟨ha, ht⟩ => ?_
  subst ha
  exact (hq' t (hs.ran ht rfl rfl) (ht.undisturbed hc) (ht.devM ▸ hp) ht.devM).mono
    (fun _ t' ⟨hb, ht'⟩ => ⟨hb, (ht.trans ht').cast ht.mirror ht.devM⟩) fun _ _ e => e

theorem readLogEntry_answers (hk : k < logCount p i h) :
    Answers c i S f (entryOf p.widthM s.devM.cur.byteAt k) (readLogEntry k) s := by
  unfold readLogEntry
  refine .read ?_
  simp only [hs.params]
  exact devRead_runs hc hp (decide_eq_true (hs.readable (hs.entry_le_device hk)))

theorem scanTail_answers (r : MirrorState × Nat) (n k : Nat) (hk : k + n ≤ logCount p i h) :
    Answers c i S f (tailOf p.widthM s.devM.cur.byteAt r n k) (scanTail r n k) s := by
  induction n generalizing s k with
  | zero => exact answers_pure r
  | succ n ih =>
    refine (readLogEntry_answers hs hc hp (by omega)).bind hs hc hp fun t ht htc htp hdev => .read ?_
    rw [ht.params, tailOf]
    refine .ite (fun hv => ?_) fun hv => ?_
    · rw [if_pos hv, ← hdev]
      exact ih ht htc htp (k + 1) (by omega)
    · rw [if_neg hv]
      exact answers_pure _

theorem scanFrom_answers (r : MirrorState × Nat) (n k : Nat) (hk : k + n ≤ logCount p i h) :
    Answers c i S f (headOf p.widthM s.devM.cur.byteAt r n k) (scanFrom r n k) s := by
  induction n generalizing s k r with
  | zero => exact answers_pure r
  | succ n ih =>
    refine (readLogEntry_answers hs hc hp (by omega)).bind hs hc hp fun t ht htc htp hdev => .read ?_
    rw [ht.params, headOf, ← hdev]
    cases LogMark.decode p.widthM (entryOf p.widthM t.devM.cur.byteAt k) with
    | none => exact answers_pure _
    | some x =>
      cases x with
      | unused => exact scanTail_answers ht htc htp r n (k + 1) (by omega)
      | _ => exact ih ht htc htp _ (k + 1) (by omega)

theorem scan_answers :
    Answers c i S f (scanOf p.widthM s.devM.cur.byteAt (logCount p i h)) scan s := by
  unfold scan
  refine .read ?_
  rw [hs.logEntries]
  exact scanFrom_answers hs hc hp _ _ 0 (by omega)

end scan

/-! ### A copy -/

/-- Bytes copied over erased ones, sector after sector. -/
theorem copyBytes_succ {a : Nat} (hdis : src + a + n ≤ dst ∨ dst + a + n ≤ src) :
    copyBytes (copyBytes g src dst a) (src + a) (dst + a) n = copyBytes g src dst (a + n) := by
  funext y
  simp only [copyBytes]
  by_cases h1 : dst + a ≤ y ∧ y < dst + a + n
  · rw [if_pos h1, if_neg (by omega), if_pos (by omega)]
    congr 1
    omega
  · rw [if_neg h1]
    by_cases h2 : dst ≤ y ∧ y < dst + a
    · rw [if_pos h2, if_pos (by omega)]
    · rw [if_neg h2, if_neg (by omega)]

/-- The operations of a copy go to the span that it writes. -/
def SpanOps (a n : Nat) (op : PendOp) : Prop := a ≤ op.addr ∧ op.addr + op.len ≤ a + n

/-- The bytes of a span written over the same number of erased ones. -/
theorem copy_on_erased (g : Nat → Byte) (a b n : Nat) :
    (PendOp.write b (spanOf g a n)).on ((PendOp.erase b n).on g) = copyBytes g a b n := by
  have herased : ∀ y, b ≤ y → y < b + (spanOf g a n).length → (PendOp.erase b n).on g y = erasedByte :=
    fun y hlo hhi => if_pos ⟨hlo, by rwa [length_spanOf] at hhi⟩
  rw [write_on_erased herased]
  funext y
  simp only [overlayBytes, copyBytes, PendOp.on, eraseBytes, length_spanOf]
  by_cases hy : b ≤ y ∧ y < b + n
  · rw [if_pos hy, if_pos hy]
    simp [spanOf, show y - b < n by omega]
  · rw [if_neg hy, if_neg hy, if_neg hy]

section copy
variable (hs : MirrorAt p i h s) (hc : c → s.undisturbed = true) (hp : s.devM.Pins i S f) (hg : s.devM.Reads g)
include hs hc hp hg

/-- One sector of a copy, and what comes after it. -/
theorem copySector_runs {a b : Nat} {Q : Unit → State → Prop} {q : Proc Unit}
    (hdis : a + i.sectorSize ≤ b ∨ b + i.sectorSize ≤ a) (ha : a + i.sectorSize ≤ i.sectorSize * i.sectorNum)
    (hb : b + i.sectorSize ≤ i.sectorSize * i.sectorNum) (hdvd : i.sectorSize ∣ b)
    (hop : ∀ op, SpanOps b i.sectorSize op → op.Spares S f)
    (hq : ∀ t, s.Ran c s.m t.devM t → t.devM.info = s.devM.info → t.devM.owned = s.devM.owned → t.devM.Pins i S f →
      t.devM.Reads (copyBytes g a b i.sectorSize) → Runs c i S f Q q t) :
    Runs c i S f Q
      (do devErase .mirror b i.sectorSize
          let data ← devRead .mirror a i.sectorSize
          devWrite .mirror b data
          q) s := by
  have herase : (PendOp.erase b i.sectorSize).Spares S f := hop _ ⟨le_rfl, le_rfl⟩
  refine (devErase_runs hc hp (hs.erasable hb hdvd dvd_rfl) herase).bind fun _ t1 h1 => ?_
  have at1 := hs.ran h1 rfl rfl
  have hp1 := hp.perform herase
  have hr1 := hg.perform (.erase b i.sectorSize)
  refine (devRead_runs (h1.undisturbed hc) (h1.devM ▸ hp1) (decide_eq_true (at1.readable ha))).bind
    fun data t2 ⟨hdata, h2⟩ => ?_
  have h12 := (h1.trans h2).cast h1.mirror h1.devM
  have at2 := hs.ran h12 rfl rfl
  have hspan : data = spanOf g a i.sectorSize := by
    rw [hdata, h1.devM]
    refine List.map_congr_left fun y hy => ?_
    have hy := List.mem_range.1 hy
    rw [hr1.bytes]
    exact if_neg (by omega)
  have hlen : data.length = i.sectorSize := by rw [hspan, length_spanOf]
  have hwrite : (PendOp.write b data).Spares S f := hop _ ⟨le_rfl, Nat.add_le_add_left hlen.le b⟩
  have herased : ∀ y, b ≤ y → y < b + data.length → (PendOp.erase b i.sectorSize).on g y = erasedByte :=
    fun y hlo hhi => if_pos ⟨hlo, by rwa [hlen] at hhi⟩
  have hwritable : (t2.dev .mirror).writable b data.length = true := by
    rw [hlen]
    exact at2.writable hb (hs.fit.align_dvd_sector.trans hdvd) hs.fit.align_dvd_sector
  refine (devWrite_runs (h12.undisturbed hc) (h12.devM ▸ hp1) hwritable hwrite
    fun _ => .inl (h12.devM ▸ hr1.overwrites_erased herased)).bind fun _ t3 h3 => ?_
  have h13 := (h12.trans h3).cast h12.mirror (by rw [h12.devM])
  have hr3 := hr1.perform (.write b data)
  rw [hspan, copy_on_erased, ← hspan, ← h13.devM] at hr3
  refine hq t3 (h13.cast rfl h13.devM.symm) ?_ ?_ ?_ hr3
  · rw [h13.devM]
    rfl
  · rw [h13.devM]
    rfl
  · rw [h13.devM]
    exact hp1.perform hwrite

theorem copySectors_runs {sn : Nat} (hsrc : IsOrigin i h src) (hdst : IsOrigin i h dst) (hne : src ≠ dst)
    (hop : ∀ op, SpanOps dst (copySpan i h) op → op.Spares S f) (hsn : j + sn ≤ copySectorCount i h)
    (hpre : g = copyBytes g' src dst (j * i.sectorSize)) :
    Runs c i S f
      (fun _ t => s.Ran c s.m t.devM t ∧ t.devM.info = s.devM.info ∧ t.devM.owned = s.devM.owned
        ∧ t.devM.Pins i S f ∧ t.devM.Reads (copyBytes g' src dst ((j + sn) * i.sectorSize)))
      (copySectors src dst sn j) s := by
  induction sn generalizing s j g with
  | zero =>
    refine ⟨.refl c s, rfl, rfl, hp, ?_⟩
    rw [Nat.add_zero, ← hpre]
    exact hg
  | succ sn ih =>
    have hspan : (j + 1) * i.sectorSize ≤ copySpan i h := Nat.mul_le_mul_right _ (by omega)
    have hsucc : (j + 1) * i.sectorSize = j * i.sectorSize + i.sectorSize := Nat.succ_mul ..
    have hapart : src + copySpan i h ≤ dst ∨ dst + copySpan i h ≤ src := by
      have hb := copyBAt_eq i h
      rcases hsrc with rfl | rfl <;> rcases hdst with rfl | rfl <;> omega
    have hsrcdev := hs.fit.copy_le_device hsrc
    have hdstdev := hs.fit.copy_le_device hdst
    unfold copySectors
    refine .read ?_
    rw [hs.sectorSize]
    refine copySector_runs hs hc hp hg (by omega) (by omega) (by omega)
      ((sector_dvd_origin hdst).add (Nat.dvd_mul_left _ _)) (fun op ⟨hlo, hhi⟩ => hop op ⟨by omega, by omega⟩)
      fun t ht hinfo howned hpins hread => ?_
    rw [hpre, copyBytes_succ (by omega), ← hsucc] at hread
    refine (ih (j := j + 1) (hs.ran ht rfl hinfo) (ht.undisturbed hc) hpins hread (by omega) rfl).mono
      (fun _ t' ⟨ht', hinfo', howned', hpins', hread'⟩ => ?_) fun _ _ e => e
    rw [show j + 1 + sn = j + (sn + 1) by omega] at hread'
    exact ⟨(ht.trans ht').cast ht.mirror rfl, hinfo'.trans hinfo, howned'.trans howned, hpins', hread'⟩

/-- What a copy of one half over the other leaves (41_mirror.md R165). -/
theorem copyMirror_settles (hsrc : IsOrigin i h src) (hdst : IsOrigin i h dst) (hne : src ≠ dst)
    (hop : ∀ op, SpanOps dst (copySpan i h) op → op.Spares S f) :
    Runs c i S f
      (fun _ t => s.Ran c s.m t.devM t ∧ s.devM.Settles t.devM (copyBytes g src dst (copySpan i h)))
      (copyMirror src dst) s := by
  unfold copyMirror
  refine .read ?_
  rw [hs.sectors]
  have hpre : g = copyBytes g src dst (0 * i.sectorSize) := by
    funext y
    exact (if_neg (by omega)).symm
  refine (copySectors_runs hs hc hp hg hsrc hdst hne hop (by omega) hpre).bind
    fun _ t ⟨hran, hinfo, howned, hpins, hread⟩ => ?_
  refine (devSync_runs (hran.undisturbed hc) hpins).mono (fun _ t' ht' => ?_) fun _ _ e => e
  rw [Nat.zero_add] at hread
  refine ⟨(hran.trans ht').cast hran.mirror ht'.devM.symm, ?_⟩
  rw [ht'.devM]
  exact ⟨hinfo, howned, rfl, rfl, hread.synced⟩

end copy

end Sys2Proof.Machine
end

