-- ==== Sys2Proof/Proofs/MirrorStart.lean ====
section
/-! PROOF. MIRROR.START: what Recover makes of each log, and what START leaves (41_mirror.md R164 to R166, R170, R173). -/

open Sys2Proof Sys2Proof.Machine

namespace Sys2Proof.Machine

variable {c : Prop} {P : Device → Prop} {p : Params} {i : DevInfo} {h n k : Nat} {O : PendOp → Prop} {g : Nat → Byte}
  {s t : State} {d : Device} {last : LogMark} {r : Nat × (Nat → Byte)}

/-! ### What a cut may find -/

/-- Operations of the kind `O` may be cut: some bits of DEV_M that they leave alone are pinned, and with those bits the
device is as `P` says. -/
def Guarded (c : Prop) (P : Device → Prop) (i : DevInfo) (O : PendOp → Prop) (d : Device) : Prop :=
  ∃ S f, d.Pins i S f ∧ (∀ op, O op → op.Spares S f) ∧ (¬c → ∀ d', Device.Pins i S f d' → P d')

theorem Guarded.ends {α : Type} {Q : α → State → Prop} {q : Proc α} (hg : Guarded c P i O d)
    (hq : ∀ S f, d.Pins i S f → (∀ op, O op → op.Spares S f) → Runs c i S f Q q s) : Ends Q (Cut c P) (q s) := by
  obtain ⟨S, f, hp, hop, hP⟩ := hg
  exact (hq S f hp hop).mono (fun _ _ k => k) fun _ _ ⟨hn, k⟩ => ⟨hn, k.imp id fun k => hP hn _ k⟩

/-- As `Guarded`, for a device that rests with these bytes. -/
def Shielded (c : Prop) (P : Device → Prop) (i : DevInfo) (O : PendOp → Prop) (g : Nat → Byte) : Prop :=
  ∃ S : BitChoice, (∀ op, O op → op.Spares S g) ∧ (¬c → ∀ d', Device.Pins i S g d' → P d')

theorem Shielded.guarded (hg : Shielded c P i O g) (hd : d.Rests i g) : Guarded c P i O d := by
  obtain ⟨S, hop, hP⟩ := hg
  exact ⟨S, g, hd.pins S, hop, hP⟩

/-- Where nothing is cut, nothing need be pinned. -/
theorem shielded_calm (hc : c) : Shielded c P i O g := ⟨fun _ _ => False, fun _ _ _ _ _ => False.elim, fun h => absurd hc h⟩

theorem guarded_calm (hc : c) (hi : d.info = i) (hd : d.canonical) : Guarded c P i O d :=
  ⟨fun _ _ => False, fun _ => 0, ⟨hi, hd, fun _ _ _ => False.elim, fun _ _ _ => False.elim, fun _ _ _ _ _ => False.elim⟩,
    fun _ _ _ _ _ => False.elim, fun h => absurd hc h⟩

/-- No operation. -/
abbrev NoOps : PendOp → Prop := fun _ => False

/-- A procedure that nothing can cut ends well. -/
theorem exists_ok_of_calm {α : Type} {Q : α → State → Prop} {x : EStateM.Result Stop State α} (hc : c)
    (hx : Ends Q (Cut c P) x) : ∃ a t, x = .ok a t ∧ Q a t := by
  cases x with
  | ok a t => exact ⟨a, t, rfl, hx⟩
  | error e t => exact absurd hc hx.1

/-! ### Recover -/

/-- The bytes with mirror_b copied over mirror_a. -/
def copiedToA (i : DevInfo) (h : Nat) (g : Nat → Byte) : Nat → Byte :=
  copyBytes g (copyBAt i h) (headerSpan i h) (copySpan i h)

/-- The bytes with mirror_a copied over mirror_b. -/
def copiedToB (i : DevInfo) (h : Nat) (g : Nat → Byte) : Nat → Byte :=
  copyBytes g (headerSpan i h) (copyBAt i h) (copySpan i h)

/-- The bytes with the log reset to one mark (41_mirror.md R163). -/
def resetLog (p : Params) (i : DevInfo) (h : Nat) (x : LogMark) (g : Nat → Byte) : Nat → Byte :=
  overlayBytes (eraseBytes g 0 (headerSpan i h)) 0 (x.encode p.widthM)

/-- The log of these bytes is `n` marks that end with `last`. -/
abbrev LogIs (p : Params) (i : DevInfo) (h : Nat) (g : Nat → Byte) (n : Nat) (last : LogMark) : Prop :=
  LogEnds p.widthM g (logCount p i h) n last

/-- The log position and the bytes that Recover leaves, by the log it finds (41_mirror.md R166). -/
inductive Recovered (p : Params) (i : DevInfo) (h : Nat) (g : Nat → Byte) : Nat × (Nat → Byte) → Prop
  | synced {n : Nat} (hn : LogIs p i h g n .synced) : Recovered p i h g (n - 1, g)
  | dirtyA {n : Nat} (hn : LogIs p i h g n .dirtyA) :
    Recovered p i h g (appendAt p i h .synced (n - 1, copiedToA i h g))
  | dirtyB {n : Nat} (hn : LogIs p i h g n .dirtyB) :
    Recovered p i h g (appendAt p i h .synced (n - 1, copiedToB i h g))
  | invalid (hno : ¬∃ n last, LogIs p i h g n last) : Recovered p i h g (0, resetLog p i h .synced (copiedToB i h g))

/-- The operations of a log's reset. -/
def ResetOps (p : Params) (i : DevInfo) (h : Nat) (op : PendOp) : Prop :=
  op = headerOp i h ∨ op = entryOp p 0 .synced

/-- Each phase of Recover on these bytes may be cut. -/
structure RecoverShield (c : Prop) (P : Device → Prop) (p : Params) (i : DevInfo) (h : Nat) (g : Nat → Byte) : Prop where
  idle : Shielded c P i NoOps g
  copyToA {n : Nat} (hn : LogIs p i h g n .dirtyA) : Shielded c P i (SpanOps (headerSpan i h) (copySpan i h)) g
  copyToB {n : Nat} (hn : LogIs p i h g n .dirtyB) : Shielded c P i (SpanOps (copyBAt i h) (copySpan i h)) g
  copyToB' (hno : ¬∃ n last, LogIs p i h g n last) : Shielded c P i (SpanOps (copyBAt i h) (copySpan i h)) g
  appendA {n : Nat} (hn : LogIs p i h g n .dirtyA) :
    Shielded c P i (AppendOps p i h (n - 1) .synced) (copiedToA i h g)
  appendB {n : Nat} (hn : LogIs p i h g n .dirtyB) :
    Shielded c P i (AppendOps p i h (n - 1) .synced) (copiedToB i h g)
  reset (hno : ¬∃ n last, LogIs p i h g n last) : Shielded c P i (ResetOps p i h) (copiedToB i h g)

theorem recoverShield_calm (hc : c) : RecoverShield c P p i h g :=
  ⟨shielded_calm hc, fun _ => shielded_calm hc, fun _ => shielded_calm hc, fun _ => shielded_calm hc,
    fun _ => shielded_calm hc, fun _ => shielded_calm hc, fun _ => shielded_calm hc⟩

/-- The origins differ, and neither copy is in the header. -/
theorem copyBytes_header {src dst y : Nat} (hdst : IsOrigin i h dst) (hy : y < headerSpan i h) :
    copyBytes g src dst (copySpan i h) y = g y := by
  have hb := copyBAt_eq i h
  refine if_neg fun ⟨hlo, _⟩ => ?_
  rcases hdst with rfl | rfl <;> omega

/-- A log entry's offset, as M_STATE_ADDR holds it. -/
theorem MirrorFit.toNat_entry (hfit : MirrorFit p i h) (hk : k < logCount p i h) :
    (BitVec.ofNat 32 (k * p.widthM.bytes)).toNat = k * p.widthM.bytes := by
  rw [BitVec.toNat_ofNat, Nat.mod_eq_of_lt]
  exact lt_of_le_of_lt ((Nat.le_add_right _ _).trans (entry_le_header hk)) hfit.headerSpan_lt

section recover
variable (hs : MirrorAt p i h s) (hc : c → s.undisturbed = true) (hd : s.devM.Rests i g)
include hs hc hd

/-- A copy over one half, then an append of SYNCED: the repair of a dirty log. -/
theorem repair_ends {src dst : Nat} (hsrc : IsOrigin i h src) (hdst : IsOrigin i h dst) (hne : src ≠ dst)
    (hn : LogIs p i h g n last) (haddr : s.m.stateAddr.toNat = (n - 1) * p.widthM.bytes)
    (hcopy : Shielded c P i (SpanOps dst (copySpan i h)) g)
    (happend : Shielded c P i (AppendOps p i h (n - 1) .synced) (copyBytes g src dst (copySpan i h))) :
    Ends (fun _ t => s.Ran c
        (s.m.marked .synced
          ((appendAt p i h .synced (n - 1, copyBytes g src dst (copySpan i h))).1 * p.widthM.bytes)) t.devM t
        ∧ s.devM.Settles t.devM (appendAt p i h .synced (n - 1, copyBytes g src dst (copySpan i h))).2)
      (Cut c P) ((do copyMirror src dst; markAppend .synced : Proc Unit) s) := by
  have hpos := hn.pos
  have hle := hn.le
  refine Ends.bind ((hcopy.guarded hd).ends fun S f hp hop =>
    copyMirror_settles hs hc hp hd.reads hsrc hdst hne hop) fun _ t ⟨ht, hset⟩ => ?_
  have hrest : t.devM.Rests i (copyBytes g src dst (copySpan i h)) := hs.info ▸ hset.rests
  have hheader : ∀ y, y < logCount p i h * p.widthM.bytes → copyBytes g src dst (copySpan i h) y = g y :=
    fun y hy => copyBytes_header hdst (lt_of_lt_of_le hy (log_le_header p i h))
  have hends : LogIs p i h (copyBytes g src dst (copySpan i h)) (n - 1 + 1) last := by
    rw [Nat.sub_add_cancel hpos]
    exact hn.congr hheader
  have holds : MirrorHolds p i h (n - 1) (copyBytes g src dst (copySpan i h)) t :=
    ⟨hs.ran ht rfl hset.info, by omega, by rw [ht.mirror, haddr], hset.reads, hends.vacantAfter⟩
  refine ((happend.guarded hrest).ends fun S f hp hop =>
    markAppend_settles holds (ht.undisturbed hc) hp hop).mono (fun _ t' ⟨ht', hset'⟩ => ?_) fun _ _ e => e
  rw [ht.mirror] at ht'
  exact ⟨ht.trans ht', hset.trans hset'⟩

/-- A copy over mirror_b, then a reset of the log: the repair of an invalid log. -/
theorem reset_ends (hcopy : Shielded c P i (SpanOps (copyBAt i h) (copySpan i h)) g)
    (hreset : Shielded c P i (ResetOps p i h) (copiedToB i h g)) :
    Ends (fun _ t => s.Ran c (s.m.marked .synced 0) t.devM t
        ∧ s.devM.Settles t.devM (resetLog p i h .synced (copiedToB i h g)))
      (Cut c P) ((do copyMirror (headerSpan i h) (copyBAt i h); markReset .synced : Proc Unit) s) := by
  have hne : headerSpan i h ≠ copyBAt i h := by
    have := copyBAt_eq i h
    have := hs.fit.copySpan_pos
    omega
  refine Ends.bind ((hcopy.guarded hd).ends fun S f hp hop =>
    copyMirror_settles hs hc hp hd.reads (.inl rfl) (.inr rfl) hne hop) fun _ t ⟨ht, hset⟩ => ?_
  have hrest : t.devM.Rests i (copiedToB i h g) := hs.info ▸ hset.rests
  refine ((hreset.guarded hrest).ends fun S f hp hop => markReset_settles (x := .synced) (hs.ran ht rfl hset.info)
    (ht.undisturbed hc) hp hset.reads (hop _ (.inl rfl)) (hop _ (.inr rfl))).mono (fun _ t' ⟨ht', hset'⟩ => ?_)
    fun _ _ e => e
  rw [ht.mirror] at ht'
  exact ⟨ht.trans ht', hset.trans hset'⟩

/-- What Recover leaves (41_mirror.md R166). -/
theorem recoverMirror_ends (hshield : RecoverShield c P p i h g) :
    Ends (fun _ t => ∃ r, Recovered p i h g r ∧ s.Ran c (s.m.marked .synced (r.1 * p.widthM.bytes)) t.devM t
        ∧ s.devM.Settles t.devM r.2)
      (Cut c P) (recoverMirror s) := by
  have hidle {s' : State} (hs' : s'.devM.Rests i g) := hshield.idle.guarded hs'
  unfold recoverMirror
  refine Ends.bind ((hidle hd).ends fun S f hp _ => scan_answers hs hc hp) fun (st, off) t1 ⟨hscan, h1⟩ => ?_
  have hd1 : t1.devM.Rests i g := h1.devM ▸ hd
  refine Ends.bind ((hidle hd1).ends fun S f hp _ => setMirrorState_runs (h1.undisturbed hc) hp st off)
    fun _ t2 h2 => ?_
  have h12 := (h1.trans h2).cast (by rw [h1.mirror]) h1.devM
  have hs2 := hs.ran h12 rfl rfl
  have hc2 := h12.undisturbed hc
  have hd2 : t2.devM.Rests i g := h12.devM ▸ hd
  have hset2 : s.devM.Settles t2.devM g := by
    rw [h12.devM]
    exact ⟨rfl, rfl, hd.pending, hd.durable, hd.reads⟩
  have hAB : headerSpan i h ≠ copyBAt i h := by
    have := copyBAt_eq i h
    have := hs.fit.copySpan_pos
    omega
  rw [hd.reads.bytes] at hscan
  rcases scanOf_cases p.widthM g (logCount p i h) with ⟨n, last, hn⟩ | ⟨hno, hinv⟩
  · have hpos := hn.pos
    have hle := hn.le
    rw [scanOf_of_ends hn] at hscan
    obtain ⟨rfl, rfl⟩ := Prod.mk.inj hscan
    have haddr : t2.m.stateAddr.toNat = (n - 1) * p.widthM.bytes := by
      rw [h12.mirror]
      exact hs.fit.toNat_entry (by omega)
    cases last with
    | unused => exact absurd rfl hn.last_ne
    | synced => exact ⟨_, .synced hn, h12.cast rfl h12.devM.symm, hset2⟩
    | dirtyA =>
      dsimp only [LogMark.mirrorState]
      unfold copyBtoA
      rw [Proc.bind_apply, Proc.bind_ok (Proc.get_apply t2), hs2.aOrg, hs2.bOrg, ← Proc.bind_apply]
      refine (repair_ends hs2 hc2 hd2 (.inr rfl) (.inl rfl) hAB.symm hn haddr (hshield.copyToA hn)
        (hshield.appendA hn)).mono (fun _ t ⟨ht, hset⟩ => ⟨_, .dirtyA hn, ?_, hset2.trans hset⟩) fun _ _ e => e
      rw [h12.mirror] at ht
      exact h12.trans ht
    | dirtyB =>
      dsimp only [LogMark.mirrorState]
      unfold copyAtoB
      rw [Proc.bind_apply, Proc.bind_ok (Proc.get_apply t2), hs2.aOrg, hs2.bOrg, ← Proc.bind_apply]
      refine (repair_ends hs2 hc2 hd2 (.inl rfl) (.inr rfl) hAB hn haddr (hshield.copyToB hn)
        (hshield.appendB hn)).mono (fun _ t ⟨ht, hset⟩ => ⟨_, .dirtyB hn, ?_, hset2.trans hset⟩) fun _ _ e => e
      rw [h12.mirror] at ht
      exact h12.trans ht
  · rw [hinv] at hscan
    obtain ⟨rfl, rfl⟩ := Prod.mk.inj hscan
    dsimp only
    unfold copyAtoB
    rw [Proc.bind_apply, Proc.bind_ok (Proc.get_apply t2), hs2.aOrg, hs2.bOrg, ← Proc.bind_apply]
    refine (reset_ends hs2 hc2 hd2 (hshield.copyToB' hno) (hshield.reset hno)).mono
      (fun _ t ⟨ht, hset⟩ => ⟨_, .invalid hno, ?_, hset2.trans hset⟩) fun _ _ e => e
    rw [h12.mirror] at ht
    rw [Nat.zero_mul]
    exact h12.trans ht

end recover

/-! ### START -/

/-- The Mirror bank that START leaves, with this mark. -/
def MirrorUnit.started (m : MirrorUnit) (i : DevInfo) (h off : Nat) : MirrorUnit :=
  { m.withGeometry i h with drv := .ready, state := .synced, stateAddr := BitVec.ofNat 32 off, recover := false }

/-- The geometry step on a device that fits (41_mirror.md R170). -/
theorem mirrorGeometry_ends (hc : c → s.undisturbed = true) (hfit : MirrorFit s.params s.devM.info s.opCfg)
    (hguard : Guarded c P i NoOps s.devM) :
    Ends (fun _ t => s.Ran c (s.m.withGeometry s.devM.info s.opCfg) s.devM t) (Cut c P) (mirrorGeometry s) := by
  have hinfo : devGetInfo .mirror s = .ok s.devM.info s := rfl
  unfold mirrorGeometry
  rw [Proc.bind_ok hinfo, Proc.bind_ok (Proc.get_apply s), required_apply _ hfit.fits]
  exact hguard.ends fun S f hp _ => mirrorRegs_runs (s.m.withGeometry s.devM.info s.opCfg).geometryRegs hc hp

/-- The first steps of START, up to its sync (41_mirror.md R173). -/
theorem mirrorStartHead_ends {Q : Unit → State → Prop} {q : Proc Unit} (hc : c → s.undisturbed = true)
    (hfit : MirrorFit s.params s.devM.info s.opCfg) (hguard : Guarded c P s.devM.info NoOps s.devM)
    (hq : ∀ t, s.Ran c ({ s.m with drv := .stop }.withGeometry s.devM.info s.opCfg) s.devM.synced t →
      Ends Q (Cut c P) (q t)) :
    Ends Q (Cut c P) ((do changeDrv .mirror .stop; mirrorGeometry; devSync .mirror; q : Proc Unit) s) := by
  have hdrv : ∀ t : State, t.m = s.m → t.Ran c { s.m with drv := .stop } t.devM (t.setDrv .mirror .stop) :=
    fun t ht => ⟨rfl, rfl, rfl, by rw [← ht]; rfl, rfl, fun _ => by rw [← ht]; rfl⟩
  refine Ends.bind (hguard.ends fun S f hp _ => change_runs hc hp hdrv) fun _ t1 h1 => ?_
  have hinfo : t1.devM.info = s.devM.info := by rw [h1.devM]
  have hcfg : t1.opCfg = s.opCfg := congrArg (fun l : Latches => l.cfg.toNat) h1.latch
  have hgeometry := mirrorGeometry_ends (P := P) (i := s.devM.info) (h1.undisturbed hc)
    (by rw [h1.params, hinfo, hcfg]; exact hfit) (h1.devM ▸ hguard)
  rw [hinfo, hcfg] at hgeometry
  refine Ends.bind hgeometry fun _ t2 h2 => ?_
  have h12 := (h1.trans h2).cast (by rw [h1.mirror]) h1.devM
  have hguard2 : Guarded c P s.devM.info NoOps t2.devM := h12.devM ▸ hguard
  refine Ends.bind (hguard2.ends fun S f hp _ => devSync_runs (h12.undisturbed hc) hp) fun _ t3 h3 => ?_
  exact hq t3 ((h12.trans h3).cast h12.mirror (by rw [h12.devM]))

/-- What START leaves on a device that fits (41_mirror.md R173). -/
theorem mirrorStartBody_ends (hc : c → s.undisturbed = true) (hstart : s.started .mirror = true)
    (hfit : MirrorFit s.params s.devM.info s.opCfg) (hread : s.devM.Reads g)
    (hguard : Guarded c P s.devM.info NoOps s.devM)
    (hshield : RecoverShield c P s.params s.devM.info s.opCfg g)
    (hdone : ∀ r, Recovered s.params s.devM.info s.opCfg g r → Shielded c P s.devM.info NoOps r.2) :
    Ends (fun _ t => ∃ r, Recovered s.params s.devM.info s.opCfg g r
        ∧ s.Ran c (s.m.started s.devM.info s.opCfg (r.1 * s.params.widthM.bytes)) t.devM t
        ∧ s.devM.Settles t.devM r.2)
      (Cut c P) (mirrorStartBody s) := by
  unfold mirrorStartBody
  rw [checked_apply, if_pos hstart]
  refine mirrorStartHead_ends hc hfit hguard fun t1 h1 => ?_
  have hs1 : MirrorAt s.params s.devM.info s.opCfg t1 :=
    ⟨hfit, h1.params, by rw [h1.devM]; rfl, by rw [h1.mirror]; rfl⟩
  have hset1 : s.devM.Settles t1.devM g := h1.devM ▸ ⟨rfl, rfl, rfl, rfl, hread.synced⟩
  refine Ends.bind (recoverMirror_ends hs1 (h1.undisturbed hc) hset1.rests hshield) fun _ t2 ⟨r, hr, h2, hset2⟩ => ?_
  have h12 := h1.trans h2
  have hset := hset1.trans hset2
  refine ((hdone r hr).guarded hset.rests).ends fun S f hp _ => ?_
  refine (mirrorRegs_runs _ (h12.undisturbed hc) hp).mono (fun _ t3 h3 => ⟨r, hr, ?_, h3.devM ▸ hset⟩) fun _ _ e => e
  exact (h12.trans h3).cast (by rw [h12.mirror, h1.mirror]; rfl) h3.devM.symm

/-! ### The statements -/

theorem LogEnds.unique {w : MarkWidth} {ne n' : Nat} {last' : LogMark} (h1 : LogEnds w g ne n last)
    (h2 : LogEnds w g ne n' last') : n' = n ∧ last' = last := by
  have hscan := (scanOf_of_ends h2).symm.trans (scanOf_of_ends h1)
  obtain ⟨hstate, hoff⟩ := Prod.mk.inj hscan
  have hn := Nat.eq_of_mul_eq_mul_right (width_pos w) hoff
  have hpos := h1.pos
  have hpos' := h2.pos
  refine ⟨by omega, ?_⟩
  cases last <;> cases last' <;> first | rfl | cases hstate

theorem Recovered.eq_of_ends (hr : Recovered p i h g r) (hn : LogIs p i h g n last) :
    r = match last with
      | .unused | .synced => (n - 1, g)
      | .dirtyA => appendAt p i h .synced (n - 1, copiedToA i h g)
      | .dirtyB => appendAt p i h .synced (n - 1, copiedToB i h g) := by
  cases hr with
  | synced hn' => obtain ⟨rfl, rfl⟩ := hn.unique hn'; rfl
  | dirtyA hn' => obtain ⟨rfl, rfl⟩ := hn.unique hn'; rfl
  | dirtyB hn' => obtain ⟨rfl, rfl⟩ := hn.unique hn'; rfl
  | invalid hno => exact absurd ⟨n, last, hn⟩ hno

theorem Recovered.eq_of_invalid (hr : Recovered p i h g r) (hno : ¬∃ n last, LogIs p i h g n last) :
    r = (0, resetLog p i h .synced (copiedToB i h g)) := by
  cases hr with
  | invalid => rfl
  | synced hn => exact absurd ⟨_, _, hn⟩ hno
  | dirtyA hn => exact absurd ⟨_, _, hn⟩ hno
  | dirtyB hn => exact absurd ⟨_, _, hn⟩ hno

/-- The state after a START's geometry step is laid out. -/
theorem mirrorAt_geometrySet (hfit : mirrorFits s.params s.devM.info s.opCfg = true) :
    MirrorAt s.params s.devM.info s.opCfg s.mirrorGeometrySet := ⟨⟨hfit⟩, rfl, rfl, rfl⟩

theorem MirrorAt.logEndsWith_iff (hs : MirrorAt p i h s) :
    s.logEndsWith n last ↔ LogIs p i h s.devM.cur.byteAt n last := by
  rw [Machine.logEndsWith_iff, hs.logEntries, hs.params]

/-- A START that nothing disturbs leaves what Recover makes of the log. -/
theorem mirrorStart_undisturbed {hid : HostId} (hs : s.startable .mirror hid) (hu : s.undisturbed = true)
    (hcan : s.memoryCanonical = true) (hfit : mirrorFits s.params s.devM.info s.opCfg = true) :
    ∃ t r, exec (.mirrorStart hid) s = .next t ∧ s.mirrorStarted t r
      ∧ Recovered s.params s.devM.info s.opCfg s.devM.cur.byteAt r := by
  obtain ⟨hdev, -⟩ := (memoryCanonical_iff s).1 hcan
  obtain ⟨⟨⟩, t, hbody, r, hr, hran, hset⟩ := exists_ok_of_calm (c := True) (P := fun _ => False) trivial
    (mirrorStartBody_ends (fun _ => hu) (started_of_startable hs) ⟨hfit⟩ ⟨hdev.1, rfl⟩
      (guarded_calm trivial rfl hdev) (recoverShield_calm trivial) fun _ _ => shielded_calm trivial)
  have ht := hran.calm trivial
  have hq : t.uneventful = true := undisturbed_uneventful (hran.undisturbed (fun _ => hu) trivial)
  obtain ⟨hadmits, -⟩ := hs
  refine ⟨t.complete .ok, r, exec_of_body_ok hadmits hbody hq, ⟨hset.settledAs, ?_⟩, hr⟩
  rw [ht]
  rfl

end Sys2Proof.Machine

namespace Sys2Proof.Proofs

/-- Settles O24: Recover adopts a log that ends with SYNCED. -/
theorem mirrorStartKeepsASyncedLog : Obligations.MirrorStartKeepsASyncedLog := by
  unfold Obligations.MirrorStartKeepsASyncedLog
  intro hid s n hs hu hcan hfit hends
  obtain ⟨t, r, hexec, hstarted, hr⟩ := mirrorStart_undisturbed hs hu hcan hfit
  have hlog := (mirrorAt_geometrySet hfit).logEndsWith_iff.1 hends
  rw [hr.eq_of_ends hlog] at hstarted
  exact ⟨t, hexec, hstarted⟩

/-- Settles O25: Recover copies the half that the mark says is whole, and appends SYNCED. -/
theorem mirrorStartRepairsADirtyLog : Obligations.MirrorStartRepairsADirtyLog := by
  unfold Obligations.MirrorStartRepairsADirtyLog
  intro hid s n hs hu hcan hfit g
  obtain ⟨t, r, hexec, hstarted, hr⟩ := mirrorStart_undisturbed hs hu hcan hfit
  have hat := mirrorAt_geometrySet hfit
  refine ⟨fun hends => ⟨t, hexec, ?_⟩, fun hends => ⟨t, hexec, ?_⟩⟩
  all_goals
    rw [hr.eq_of_ends (hat.logEndsWith_iff.1 hends)] at hstarted
    rw [hat.logStep_eq, hat.aOrg, hat.bOrg, hat.size]
    exact hstarted

/-- Settles O26: where Scan finds no log, Recover copies mirror_a over mirror_b and resets the log. -/
theorem mirrorStartResetsAnInvalidLog : Obligations.MirrorStartResetsAnInvalidLog := by
  unfold Obligations.MirrorStartResetsAnInvalidLog
  intro hid s hs hu hcan hfit g hno
  obtain ⟨t, r, hexec, hstarted, hr⟩ := mirrorStart_undisturbed hs hu hcan hfit
  have hat := mirrorAt_geometrySet hfit
  rw [hr.eq_of_invalid fun ⟨n, last, h⟩ => hno ⟨n, last, hat.logEndsWith_iff.2 h⟩] at hstarted
  rw [hat.aOrg, hat.bOrg, hat.size, hat.hdrBytes]
  exact ⟨t, hexec, hstarted⟩

end Sys2Proof.Proofs
end

