-- ==== Sys2Proof/Proofs/MirrorMutate.lean ====
section
/-! PROOF. MIRROR.WRITE, ERASE and MASS_ERASE: the three marks and the two mutations between them, to the byte
(41_mirror.md R162, R176 to R178). -/

open Sys2Proof Sys2Proof.Machine

namespace Sys2Proof.Machine

variable {c : Prop} {P : Device → Prop} {p : Params} {i : DevInfo} {h k n addr org : Nat} {g g' : Nat → Byte}
  {s t : State} {mutate : Nat → Proc Unit} {op : Nat → PendOp} {new : Nat → Byte → Byte} {x : LogMark}

/-! ### A mutation of one copy -/

/-- The procedure `mutate`, begun on `s`, is one operation of the device on logical [addr, addr+n) of a copy, which
gives byte k of the range the value `new k b` where b stood. With `c` the device takes it, while the range reads as it
did on `s`. -/
structure Mutation (c : Prop) (p : Params) (i : DevInfo) (h : Nat) (s : State) (mutate : Nat → Proc Unit)
    (op : Nat → PendOp) (addr n : Nat) (new : Nat → Byte → Byte) : Prop where
  fits : addr + n ≤ copySpan i h
  place (org : Nat) : (op org).addr = org + addr ∧ (op org).len = n
  on (org : Nat) (g : Nat → Byte) (y : Nat) :
    (op org).on g y = if org + addr ≤ y ∧ y < org + addr + n then new (y - (org + addr)) (g y) else g y
  runs {S : BitChoice} {f g : Nat → Byte} {t : State} {org : Nat} (ho : IsOrigin i h org) (ht : MirrorAt p i h t)
    (hbuf : t.bufByte = s.bufByte) (hc : c → t.undisturbed = true) (hp : t.devM.Pins i S f) (hg : t.devM.Reads g)
    (hop : (op org).Spares S f)
    (htakes : c → ∀ y, org + addr ≤ y → y < org + addr + n → g y = s.devM.cur.byteAt y) :
    Runs c i S f (fun _ r => t.Ran c t.m (t.devM.perform (op org)) r) (mutate org) t

section mutation
variable (hm : Mutation c p i h s mutate op addr n new)
include hm

/-- A mutation goes to the copy at its origin. -/
theorem Mutation.covers {y : Nat} (hy : (op org).Covers y) : org + addr ≤ y ∧ y < org + addr + n := by
  obtain ⟨ha, hn⟩ := hm.place org
  unfold PendOp.Covers at hy
  rwa [ha, hn] at hy

/-- A mutation leaves the header. -/
theorem Mutation.header (ho : IsOrigin i h org) {y : Nat} (hy : y < headerSpan i h) : (op org).on g y = g y := by
  have hb := copyBAt_eq i h
  refine PendOp.on_of_not_covers fun hc => ?_
  have := hm.covers hc
  rcases ho with rfl | rfl <;> omega

/-- A mutation and its sync, between two marks. -/
theorem mutateSync_ends {Q : Unit → State → Prop} {q : Proc Unit} (ho : IsOrigin i h org)
    (ht : MirrorHolds p i h k g t) (hbuf : t.bufByte = s.bufByte) (hc : c → t.undisturbed = true)
    (hguard : Guarded c P i (· = op org) t.devM)
    (htakes : c → ∀ y, org + addr ≤ y → y < org + addr + n → g y = s.devM.cur.byteAt y)
    (hq : ∀ r, t.Ran c t.m r.devM r → t.devM.Settles r.devM ((op org).on g) →
      MirrorHolds p i h k ((op org).on g) r → Ends Q (Cut c P) (q r)) :
    Ends Q (Cut c P) ((do mutate org; devSync .mirror; q : Proc Unit) t) := by
  have hphase : Ends (fun _ r => t.Ran c t.m (t.devM.perform (op org)).synced r) (Cut c P)
      ((do mutate org; devSync .mirror : Proc Unit) t) := hguard.ends fun S f hp hop => by
    refine (hm.runs ho ht.at_ hbuf hc hp ht.reads (hop _ rfl) htakes).bind fun _ r hr => ?_
    refine (devSync_runs (hr.undisturbed hc) (hr.devM ▸ hp.perform (hop _ rfl))).mono (fun _ r' hr' => ?_)
      fun _ _ e => e
    exact (hr.trans hr').cast hr.mirror (by rw [hr.devM])
  have hassoc := bind_assoc (mutate org) (fun _ => devSync .mirror) fun _ => q
  rw [← hassoc]
  refine hphase.bind fun _ r hr => ?_
  have hset : t.devM.Settles r.devM ((op org).on g) := hr.devM ▸ settles_perform ht.reads _
  have hheader : ∀ y, y < logCount p i h * p.widthM.bytes → (op org).on g y = g y :=
    fun y hy => hm.header ho (lt_of_lt_of_le hy (log_le_header p i h))
  exact hq r (hr.cast rfl hr.devM.symm) hset
    ⟨ht.at_.ran hr rfl rfl, ht.entry, by rw [hr.mirror]; exact ht.addr, hset.reads, ht.vacant.congr hheader⟩

end mutation

/-! ### The three phases -/

/-- What the three phases make of a log position and the device's bytes, phase by phase. -/
def markedA (p : Params) (i : DevInfo) (h : Nat) (q : Nat × (Nat → Byte)) : Nat × (Nat → Byte) := appendAt p i h .dirtyA q

/-- The log position and the bytes when DIRTY_B is marked. -/
def markedB (p : Params) (i : DevInfo) (h : Nat) (op : Nat → PendOp) (q : Nat × (Nat → Byte)) : Nat × (Nat → Byte) :=
  appendAt p i h .dirtyB ((markedA p i h q).1, (op (headerSpan i h)).on (markedA p i h q).2)

/-- The log position and the bytes when SYNCED is marked. -/
def markedS (p : Params) (i : DevInfo) (h : Nat) (op : Nat → PendOp) (q : Nat × (Nat → Byte)) : Nat × (Nat → Byte) :=
  appendAt p i h .synced ((markedB p i h op q).1, (op (copyBAt i h)).on (markedB p i h op q).2)

/-- Each phase may be cut. -/
structure PhaseShield (c : Prop) (P : Device → Prop) (p : Params) (i : DevInfo) (h : Nat) (op : Nat → PendOp) (k : Nat)
    (g : Nat → Byte) : Prop where
  mutateA : Shielded c P i (· = op (headerSpan i h)) (markedA p i h (k, g)).2
  markB : Shielded c P i (AppendOps p i h (markedA p i h (k, g)).1 .dirtyB)
    ((op (headerSpan i h)).on (markedA p i h (k, g)).2)
  mutateB : Shielded c P i (· = op (copyBAt i h)) (markedB p i h op (k, g)).2
  markS : Shielded c P i (AppendOps p i h (markedB p i h op (k, g)).1 .synced)
    ((op (copyBAt i h)).on (markedB p i h op (k, g)).2)

theorem phaseShield_calm (hc : c) : PhaseShield c P p i h op k g :=
  ⟨shielded_calm hc, shielded_calm hc, shielded_calm hc, shielded_calm hc⟩

/-- A mark and what comes after it. -/
theorem markPhase_ends {Q : Unit → State → Prop} {q : Proc Unit} (ht : MirrorHolds p i h k g t)
    (hc : c → t.undisturbed = true) (hguard : Guarded c P i (AppendOps p i h k x) t.devM)
    (hq : ∀ r, t.Ran c (t.m.marked x.mirrorState ((appendAt p i h x (k, g)).1 * p.widthM.bytes)) r.devM r →
      t.devM.Settles r.devM (appendAt p i h x (k, g)).2 →
      MirrorHolds p i h (appendAt p i h x (k, g)).1 (appendAt p i h x (k, g)).2 r → Ends Q (Cut c P) (q r)) :
    Ends Q (Cut c P) ((do markAppend x; q : Proc Unit) t) :=
  Ends.bind (hguard.ends fun _ _ hp hop => markAppend_settles ht hc hp hop) fun _ r ⟨hr, hset⟩ =>
    hq r hr hset (ht.append hr hset)

theorem threePhase_ends (hm : Mutation c p i h s mutate op addr n new) (hs : MirrorHolds p i h k g s)
    (hc : c → s.undisturbed = true) (hguard : Guarded c P i (AppendOps p i h k .dirtyA) s.devM)
    (hshield : PhaseShield c P p i h op k g) :
    Ends (fun _ t => s.Ran c (s.m.marked .synced ((markedS p i h op (k, g)).1 * p.widthM.bytes)) t.devM t
        ∧ s.devM.Settles t.devM (markedS p i h op (k, g)).2)
      (Cut c P) (threePhase mutate s) := by
  have hbytes : ∀ y, g y = s.devM.cur.byteAt y := fun y => (congrFun hs.reads.bytes y).symm
  have hinfo := hs.at_.info
  have hpos := hs.at_.fit.logCount_pos
  have hle := log_le_header p i h
  have hb := copyBAt_eq i h
  have hfits := hm.fits
  unfold threePhase
  refine markPhase_ends hs hc hguard fun t1 h1 set1 hs1 => .read ?_
  have hc1 := h1.undisturbed hc
  have hrest1 := set1.rests
  rw [hinfo] at hrest1
  rw [hs1.at_.aOrg]
  refine mutateSync_ends hm (.inl rfl) hs1 h1.buf hc1 (hshield.mutateA.guarded hrest1) (fun _ y hlo _ => ?_)
    fun t2 h2 set2 hs2 => ?_
  · rw [appendOf_beyond hpos hle (by omega), hbytes]
  have h12 := (h1.trans h2).cast h1.mirror rfl
  have set12 := set1.trans set2
  have hrest2 := set12.rests
  rw [hinfo] at hrest2
  refine markPhase_ends hs2 (h12.undisturbed hc) (hshield.markB.guarded hrest2) fun t3 h3 set3 hs3 => .read ?_
  have h13 := h12.trans h3
  have set13 := set12.trans set3
  have hrest3 := set13.rests
  rw [hinfo] at hrest3
  rw [hs3.at_.bOrg]
  refine mutateSync_ends hm (.inr rfl) hs3 h13.buf (h13.undisturbed hc) (hshield.mutateB.guarded hrest3)
    (fun _ y hlo _ => ?_) fun t4 h4 set4 hs4 => ?_
  · rw [appendOf_beyond hpos hle (by omega), PendOp.on_of_not_covers fun hy => by have := hm.covers hy; omega,
      appendOf_beyond hpos hle (by omega), hbytes]
  have h14 := h13.trans h4
  have set14 := set13.trans set4
  have hrest4 := set14.rests
  rw [hinfo] at hrest4
  refine ((hshield.markS.guarded hrest4).ends fun S f hp hop =>
    markAppend_settles hs4 (h14.undisturbed hc) hp hop).mono (fun _ t5 ⟨h5, set5⟩ => ?_) fun _ _ e => e
  refine ⟨(h14.trans h5).cast ?_ rfl, set14.trans set5⟩
  rw [h14.mirror, h3.mirror, h12.mirror]
  rfl

/-! ### The order of marks and mutations -/

/-- A byte after an append is determined by that byte before. -/
theorem appendOf_byte_congr {w : MarkWidth} {ne hdr y : Nat} (hy : g' y = g y) :
    (appendOf w ne hdr x (k, g')).2 y = (appendOf w ne hdr x (k, g)).2 y := by
  unfold appendOf
  split
  · simp only [overlayBytes, hy]
  · simp only [overlayBytes, eraseBytes, hy]

theorem appendOf_fst_congr {w : MarkWidth} {ne hdr : Nat} :
    (appendOf w ne hdr x (k, g')).1 = (appendOf w ne hdr x (k, g)).1 := by
  unfold appendOf
  split <;> rfl

/-- A mutation may come before the mark. -/
theorem Mutation.append_comm (hm : Mutation c p i h s mutate op addr n new) (hfit : MirrorFit p i h)
    (ho : IsOrigin i h org) :
    appendAt p i h x (k, (op org).on g) = ((appendAt p i h x (k, g)).1, (op org).on (appendAt p i h x (k, g)).2) := by
  refine Prod.ext appendOf_fst_congr (funext fun y => ?_)
  have hbeyond {g : Nat → Byte} (hy : headerSpan i h ≤ y) : (appendAt p i h x (k, g)).2 y = g y :=
    appendOf_beyond hfit.logCount_pos (log_le_header p i h) hy
  show _ = (op org).on (appendAt p i h x (k, g)).2 y
  rcases Nat.lt_or_ge y (headerSpan i h) with hy | hy
  · rw [hm.header ho hy]
    exact appendOf_byte_congr (hm.header ho hy)
  · rw [hbeyond hy, hm.on, hm.on, hbeyond hy]

/-- The three phases are the three marks on the bytes that the mutations leave. -/
theorem Mutation.markedS_eq (hm : Mutation c p i h s mutate op addr n new) (hfit : MirrorFit p i h) :
    markedS p i h op (k, g) = appendAt p i h .synced (appendAt p i h .dirtyB (appendAt p i h .dirtyA
      (k, (op (copyBAt i h)).on ((op (headerSpan i h)).on g)))) := by
  unfold markedS markedB markedA
  simp only [hm.append_comm hfit (.inl rfl), hm.append_comm hfit (.inr rfl)]

/-- Both copies mutated. -/
theorem Mutation.mutated_eq (hm : Mutation c p i h s mutate op addr n new) (hs : MirrorAt p i h s) :
    (op (copyBAt i h)).on ((op (headerSpan i h)).on s.devM.cur.byteAt) = s.mirrorMutated addr n new := by
  have hb := copyBAt_eq i h
  have hfits := hm.fits
  funext y
  unfold State.mirrorMutated
  dsimp only
  rw [hm.on, hm.on, hs.aOrg, hs.bOrg]
  by_cases hB : copyBAt i h + addr ≤ y ∧ y < copyBAt i h + addr + n
  · rw [if_pos hB, if_neg (by omega), if_neg (by omega), if_pos hB]
  · rw [if_neg hB, if_neg hB]

/-! ### The mutations of the commands -/

theorem eraseMutation (hs : MirrorAt p i h s) (hfits : addr + n ≤ copySpan i h) (ha : i.sectorSize ∣ addr)
    (hn : i.sectorSize ∣ n) :
    Mutation c p i h s (fun org => devErase .mirror (org + addr) n) (fun org => .erase (org + addr) n) addr n
      (fun _ _ => erasedByte) where
  fits := hfits
  place _ := ⟨rfl, rfl⟩
  on _ _ _ := rfl
  runs {_ _ _ _ org} ho ht _ hc hp _ hop _ := by
    have hcopy := hs.fit.copy_le_device ho
    exact devErase_runs hc hp (ht.erasable (by omega) ((sector_dvd_origin ho).add ha) hn) hop

theorem bufBytes_congr (hbuf : t.bufByte = s.bufByte) (a n : Nat) : t.bufBytes a n = s.bufBytes a n := by
  unfold State.bufBytes
  rw [hbuf]

theorem length_bufBytes (s : State) (a n : Nat) : (s.bufBytes a n).length = n := by simp [State.bufBytes]

theorem getElem?_bufBytes {j : Nat} (s : State) (hj : j < n) : (s.bufBytes 0 n)[j]? = some (s.bufByte j) := by
  simp [State.bufBytes, hj]

/-- The device takes BUF's bytes in this range of each copy: they set no 0 bit, or it only clears bits. -/
def State.TakesBuf (s : State) (i : DevInfo) (h addr n : Nat) : Prop :=
  s.params.overwrite = .and ∨ ∀ k, k < n → ∀ org, IsOrigin i h org →
    s.bufByte k &&& ~~~ s.devM.cur.byteAt (org + addr + k) = 0

theorem overwrites_eq_false_of_le {d : Device} {a : Nat} {data : List Byte}
    (hle : ∀ j (hj : j < data.length), data[j] &&& ~~~ d.cur.byteAt (a + j) = 0) : d.overwrites a data = false := by
  unfold Device.overwrites
  rw [List.any_eq_false]
  intro q hq
  obtain ⟨j, hj, rfl⟩ := List.mem_iff_getElem.1 hq
  simp only [List.length_zip, length_bytesAt, Nat.min_self] at hj
  simpa [Memory.bytesAt] using hle j hj

theorem writeMutation (hs : MirrorAt p i h s) (hfits : addr + n ≤ copySpan i h) (hbuf : n ≤ p.bufBytes)
    (ha : i.writeAlign ∣ addr) (hn : i.writeAlign ∣ n) (htake : c → s.TakesBuf i h addr n) :
    Mutation c p i h s (mirrorWriteAt addr n) (fun org => .write (org + addr) (s.bufBytes 0 n)) addr n
      (fun k b => b &&& s.bufByte k) where
  fits := hfits
  place _ := ⟨rfl, length_bufBytes ..⟩
  on org g y := by
    show (if _ ∧ y < _ + (s.bufBytes 0 n).length then _ else _) = _
    rw [length_bufBytes]
    by_cases hy : org + addr ≤ y ∧ y < org + addr + n
    · rw [if_pos hy, if_pos hy, getElem?_bufBytes s (by omega), Option.getD_some]
    · rw [if_neg hy, if_neg hy]
  runs {_ _ g t org} ho ht hbytes hc hp hg hop htakes := by
    have hcopy := hs.fit.copy_le_device ho
    have hload : bufLoad n t = .ok (s.bufBytes 0 n) t := by
      rw [bufLoad_apply, if_pos (by rw [ht.params]; exact hbuf), bufBytes_congr hbytes]
    have hwritable : (t.dev .mirror).writable (org + addr) (s.bufBytes 0 n).length = true := by
      rw [length_bufBytes]
      exact ht.writable (by omega) ((hs.fit.align_dvd_sector.trans (sector_dvd_origin ho)).add ha) hn
    unfold mirrorWriteAt
    show Ends _ _ _
    rw [Proc.bind_ok hload]
    refine devWrite_runs hc hp hwritable hop fun h => (htake h).symm.imp (fun hle => ?_) fun hand => ?_
    · refine overwrites_eq_false_of_le fun j hj => ?_
      rw [length_bufBytes] at hj
      rw [hg.bytes, htakes h _ (Nat.le_add_right ..) (by omega)]
      simpa [State.bufBytes] using hle j hj org ho
    · rw [ht.params, ← hs.params]
      exact hand

/-! ### The statements -/

/-- A sound unit, as the phases need it. -/
theorem mirrorHolds_of_sound (hs : s.mirrorSound) :
    ∃ h, MirrorHolds s.params s.devM.info h s.logPosition s.devM.cur.byteAt s := by
  obtain ⟨hcan, hlaid, hplaced, hfree⟩ := hs
  obtain ⟨h, hat⟩ := mirrorAt_of_laidOut hlaid
  obtain ⟨hmod, hlt⟩ := hplaced
  rw [hat.logEntries] at hlt hfree
  refine ⟨h, hat, hlt, ?_, ⟨canonical_cur hcan .mirror, rfl⟩, hfree⟩
  unfold State.logPosition
  have := Nat.div_add_mod' s.m.stateAddr.toNat s.params.widthM.bytes
  omega

/-- A mutating command that nothing disturbs. -/
theorem exists_committed {ins : Instr} {hid : HostId} (hserves : s.serves .mirror hid) (hu : s.undisturbed = true)
    (hcan : s.memoryCanonical = true) (hins : ins.unit = .mirror ∧ ins.hid = hid)
    (hs : MirrorHolds s.params s.devM.info h s.logPosition s.devM.cur.byteAt s)
    (hm : Mutation True s.params s.devM.info h s mutate op addr n new)
    (hbody : bodyOf ins s = threePhase mutate s) :
    ∃ t, exec ins s = .next t ∧ s.mirrorCommitted t addr n new := by
  obtain ⟨hdev, -⟩ := (memoryCanonical_iff s).1 hcan
  obtain ⟨hunit, rfl⟩ := hins
  obtain ⟨⟨⟩, t, ht, hran, hset⟩ := exists_ok_of_calm (c := True) (P := fun _ => False) trivial
    (threePhase_ends hm hs (fun _ => hu) (guarded_calm trivial rfl hdev) (phaseShield_calm trivial))
  have hq : t.uneventful = true := undisturbed_uneventful (hran.undisturbed (fun _ => hu) trivial)
  obtain ⟨hadmits, -⟩ := hserves
  refine ⟨t.complete .ok, exec_of_body_ok (by rw [hunit]; exact hadmits) (hbody.trans ht) hq, ?_⟩
  unfold State.mirrorCommitted
  simp only [hs.at_.logStep_eq, ← hm.mutated_eq hs.at_, ← hm.markedS_eq hs.at_.fit]
  refine ⟨hset.settledAs, ?_⟩
  rw [hran.calm trivial]
  rfl

/-- An ERASE whose operands pass is its three phases (41_mirror.md R177). -/
theorem mirrorEraseBody_of_serves {hid : HostId} (hs : s.serves .mirror hid) (hin : s.opAddr + s.opLen ≤ s.m.size.toNat)
    (haddr : s.opAddr % s.m.cache.sectorSize = 0) (hlen : s.opLen % s.m.cache.sectorSize = 0) (hpos : 1 ≤ s.opLen) :
    mirrorEraseBody s = threePhase (fun org => devErase .mirror (org + s.opAddr) s.opLen) s := by
  have hrange : s.mirrorInRange = true := decide_eq_true hin
  have halign : s.opAligned s.m.cache.sectorSize = true := decide_eq_true ⟨haddr, hlen⟩
  unfold mirrorEraseBody
  rw [checked_get_apply (mirrorServes_of_serves hs), required_apply _ hrange, required_apply _ halign,
    if_neg (by omega)]

/-- A MASS_ERASE is its three phases (41_mirror.md R178). -/
theorem mirrorMassEraseBody_of_serves {hid : HostId} (hs : s.serves .mirror hid) :
    mirrorMassEraseBody s = threePhase (fun org => devErase .mirror (org + 0) s.m.size.toNat) s := by
  unfold mirrorMassEraseBody
  rw [checked_get_apply (mirrorServes_of_serves hs)]
  rfl

end Sys2Proof.Machine

namespace Sys2Proof.Proofs

/-- Settles O21: the three phases, each mutation a write of BUF's bytes that the device takes. -/
theorem mirrorWriteStoresBothCopies : Obligations.MirrorWriteStoresBothCopies := by
  unfold Obligations.MirrorWriteStoresBothCopies
  intro hid s hserves hu hsound hpos hbuf hin haddr hlen htake
  obtain ⟨h, hs⟩ := mirrorHolds_of_sound hsound
  obtain ⟨hcan, -⟩ := id hsound
  have hbody := mirrorWriteBody_of_serves hserves hbuf hin haddr hlen hpos
  rw [hs.at_.writeAlign] at haddr hlen
  rw [hs.at_.size] at hin
  rw [hs.at_.aOrg, hs.at_.bOrg] at htake
  refine exists_committed hserves hu hcan ⟨rfl, rfl⟩ hs (writeMutation hs.at_ hin hbuf
    (Nat.dvd_of_mod_eq_zero haddr) (Nat.dvd_of_mod_eq_zero hlen) fun _ => htake.imp id fun hle k hk org ho => ?_) hbody
  obtain ⟨hA, hB⟩ := hle k hk
  rcases ho with rfl | rfl
  · exact hA
  · exact hB

/-- Settles O23: the three phases, each mutation an erase. -/
theorem mirrorEraseErasesBothCopies : Obligations.MirrorEraseErasesBothCopies := by
  unfold Obligations.MirrorEraseErasesBothCopies
  intro hid s hserves hu hsound
  obtain ⟨h, hs⟩ := mirrorHolds_of_sound hsound
  obtain ⟨hcan, -⟩ := id hsound
  refine ⟨fun hpos hin haddr hlen => ?_, ?_⟩
  · have hbody := mirrorEraseBody_of_serves hserves hin haddr hlen hpos
    rw [hs.at_.sectorSize] at haddr hlen
    rw [hs.at_.size] at hin
    exact exists_committed hserves hu hcan ⟨rfl, rfl⟩ hs (eraseMutation hs.at_ hin
      (Nat.dvd_of_mod_eq_zero haddr) (Nat.dvd_of_mod_eq_zero hlen)) hbody
  · have hdvd : s.devM.info.sectorSize ∣ s.m.size.toNat := by
      rw [hs.at_.size]
      exact Nat.dvd_mul_left _ _
    exact exists_committed hserves hu hcan ⟨rfl, rfl⟩ hs (eraseMutation hs.at_
      (by rw [Nat.zero_add, hs.at_.size]) (Nat.dvd_zero _) hdvd) (mirrorMassEraseBody_of_serves hserves)

end Sys2Proof.Proofs
end

