-- ==== Sys2Proof/Proofs/PinSafe.lean ====
section
/-! PROOF. What the commands other than MIRROR.START, WRITE, ERASE and MASS_ERASE do to DEV_M: the FEE engine issues no
operation to it, and the rest of the Mirror engine no write or erase, so every pinned bit stays. -/

open Sys2Proof Sys2Proof.Machine

namespace Sys2Proof.Machine

variable {α β : Type} {i : DevInfo} {S : BitChoice} {f : Nat → Byte} {u : UnitId} {s t : State}

/-- However it ends, unless with a fault, the procedure leaves the pinned bits of DEV_M. -/
structure PinSafe (i : DevInfo) (S : BitChoice) (f : Nat → Byte) (p : Proc α) : Prop where
  runs (s : State) (hs : s.devM.Pins i S f) : Runs False i S f (fun _ t => t.devM.Pins i S f) p s

/-! ### The constructions of a procedure -/

theorem PinSafe.bind {p : Proc α} {q : α → Proc β} (hp : PinSafe i S f p) (hq : ∀ a, PinSafe i S f (q a)) :
    PinSafe i S f (p >>= q) := ⟨fun s hs => (hp.runs s hs).bind fun a t ht => (hq a).runs t ht⟩

theorem pinSafe_pure (a : α) : PinSafe i S f (pure a : Proc α) := ⟨fun _ hs => hs⟩

theorem pinSafe_raise (e : ErrCode) : PinSafe i S f (raise e : Proc α) := ⟨fun _ hs => cut_of_dev id hs⟩

theorem pinSafe_throw (e : Stop) : PinSafe i S f (throw e : Proc α) := ⟨fun _ hs => cut_of_dev id hs⟩

/-- A procedure that first reads the state. -/
theorem pinSafe_read {q : State → Proc α} (hq : ∀ s, PinSafe i S f (q s)) : PinSafe i S f (get >>= q) :=
  ⟨fun s hs => (hq s).runs s hs⟩

theorem pinSafe_ite {b : Prop} [Decidable b] {p q : Proc α} (hp : PinSafe i S f p) (hq : PinSafe i S f q) :
    PinSafe i S f (if b then p else q) := by
  split
  · exact hp
  · exact hq

theorem pinSafe_modify {g : State → State} (hg : ∀ s, s.devM.Pins i S f → (g s).devM.Pins i S f) :
    PinSafe i S f (modify g : Proc PUnit) := ⟨fun s hs => hg s hs⟩

theorem pinSafe_require (e : ErrCode) (b : Bool) : PinSafe i S f (require e b) :=
  pinSafe_ite (pinSafe_pure ()) (pinSafe_raise e)

theorem pinSafe_contract (x : Fault) (b : Bool) : PinSafe i S f (contract x b) :=
  pinSafe_ite (pinSafe_pure ()) (pinSafe_throw _)

theorem pinSafe_checked (b : State → Bool) {p : Proc α} (hp : PinSafe i S f p) :
    PinSafe i S f (do checkState b; p) := (pinSafe_read fun _ => pinSafe_require _ _).bind fun _ => hp

/-! ### The shared operations -/

theorem pinSafe_point {op : Option (UnitId × PendOp)} (hop : ∀ o, op ≠ some (.mirror, o)) :
    PinSafe i S f (point op) :=
  ⟨fun _ hs => (point_runs False.elim hs fun o ho => absurd ho (hop o)).mono (fun _ _ ht => ht.devM ▸ hs)
    fun _ _ e => e⟩

theorem pinSafe_event : PinSafe i S f (point none) := pinSafe_point fun _ => nofun

theorem pinSafe_answer : PinSafe i S f answer :=
  ⟨fun _ hs => (answer_runs False.elim).mono (fun _ _ ⟨ht, _⟩ => ht.devM ▸ hs) fun _ _ e => e⟩

theorem pinSafe_change {g : State → State} (hg : ∀ s, s.devM.Pins i S f → (g s).devM.Pins i S f) :
    PinSafe i S f (change g) :=
  pinSafe_event.bind fun _ => pinSafe_modify fun s hs => hg _ (by rwa [State.devM_dropRegStep])

theorem pinSafe_mirrorRegs (gs : List (MirrorUnit → MirrorUnit)) : PinSafe i S f (mirrorRegs gs) := by
  induction gs with
  | nil => exact pinSafe_pure ()
  | cons g gs ih => exact PinSafe.bind (pinSafe_change fun _ hs => id hs) fun _ => ih

theorem pinSafe_feeRegs (gs : List (FeeUnit → FeeUnit)) : PinSafe i S f (feeRegs gs) := by
  induction gs with
  | nil => exact pinSafe_pure ()
  | cons g gs ih => exact PinSafe.bind (pinSafe_change fun _ hs => id hs) fun _ => ih

theorem pinSafe_infoRegs (gs : List (InfoRegs → InfoRegs)) : PinSafe i S f (infoRegs gs) := by
  induction gs with
  | nil => exact pinSafe_pure ()
  | cons g gs ih => exact PinSafe.bind (pinSafe_change fun _ hs => id hs) fun _ => ih

theorem pinSafe_changeDrv (u : UnitId) (d : DrvState) : PinSafe i S f (changeDrv u d) :=
  pinSafe_change fun s hs => by cases u <;> exact hs

theorem pinSafe_devRead (u : UnitId) (a n : Nat) : PinSafe i S f (devRead u a n) :=
  pinSafe_read fun _ => (pinSafe_contract ..).bind fun _ => pinSafe_event.bind fun _ => pinSafe_answer.bind fun
    | .ok => pinSafe_read fun _ => pinSafe_pure _
    | .fail _ => pinSafe_raise _

theorem pinSafe_devSync (u : UnitId) : PinSafe i S f (devSync u) :=
  pinSafe_event.bind fun _ => pinSafe_answer.bind fun
    | .ok => pinSafe_modify fun s hs => by
      cases u with
      | mirror => exact hs.synced
      | fee => exact hs
    | .fail _ => pinSafe_raise _

theorem pinSafe_bufLoad (n : Nat) : PinSafe i S f (bufLoad n) :=
  pinSafe_read fun _ => (pinSafe_contract ..).bind fun _ => pinSafe_pure _

theorem pinSafe_bufStore (bs : List Byte) : PinSafe i S f (bufStore bs) :=
  pinSafe_read fun _ => (pinSafe_contract ..).bind fun _ => pinSafe_modify fun _ hs => hs

theorem pinSafe_reportInfo (ss sn wa : Word) (ident : List Byte) : PinSafe i S f (reportInfo ss sn wa ident) :=
  (pinSafe_infoRegs _).bind fun _ => (pinSafe_bufStore _).bind fun _ => pinSafe_infoRegs _

theorem pinSafe_guardRead {p : Proc Unit} (n : Nat) (hp : PinSafe i S f p) : PinSafe i S f (guardRead n p) :=
  ⟨fun s hs => by
    have h := hp.runs s hs
    unfold Runs guardRead
    unfold Runs at h
    split
    · next t ht =>
      rw [ht] at h
      obtain ⟨-, ⟨x, hx⟩ | hpins⟩ := h
      · cases hx
      · exact cut_of_dev id hpins
    · exact h⟩

theorem pinSafe_acquire (u : UnitId) (hid : HostId) : PinSafe i S f (acquire u hid) := by
  have hlock (l : State → Lock) : PinSafe i S f (change fun s => s.setLock u (l s)) :=
    pinSafe_change fun s hs => by cases u <;> exact hs
  have hfresh : PinSafe i S f (acquireFresh u hid) :=
    pinSafe_event.bind fun _ => pinSafe_answer.bind fun
      | .ok => pinSafe_change fun s hs => by
        cases u with
        | mirror => exact hs.own true
        | fee => exact hs
      | .fail _ => PinSafe.bind (pinSafe_modify fun _ hs => hs) fun _ => pinSafe_throw _
  exact pinSafe_read fun _ => pinSafe_ite hfresh (pinSafe_ite (pinSafe_raise _) (hlock _))

theorem pinSafe_release (u : UnitId) : PinSafe i S f (release u) :=
  pinSafe_read fun _ => pinSafe_ite (pinSafe_raise _) (pinSafe_ite
    (pinSafe_change fun s hs => by
      cases u with
      | mirror => exact hs.own false
      | fee => exact hs)
    (pinSafe_change fun s hs => by cases u <;> exact hs))

/-! ### The FEE engine's operations -/

theorem pinSafe_performOp (op : PendOp) (a : Draw) : PinSafe i S f (performOp .fee op a) :=
  ⟨fun s hs => by
    unfold Runs
    rw [performOp_apply]
    cases a with
    | ok => exact hs
    | fail torn => exact cut_of_dev id hs⟩

theorem pinSafe_overwriteOp (op : PendOp) (a : Draw) : PinSafe i S f (overwriteOp .fee op a) :=
  ⟨fun s hs => by
    have hperform (a : Draw) (t : State) (ht : t.devM.Pins i S f) :
        Runs False i S f (fun _ t => t.devM.Pins i S f) (performOp .fee op a) t := (pinSafe_performOp op a).runs t ht
    unfold overwriteOp
    refine .read ?_
    cases s.params.overwrite with
    | fault => exact cut_of_dev id hs
    | and => exact hperform .ok s hs
    | fail =>
      cases a with
      | fail torn => exact hperform (.fail torn) s hs
      | ok => exact hperform (.fail (.free s.draws)) { s with draws := s.draws + 1 } hs⟩

theorem pinSafe_devWrite (a : Nat) (data : List Byte) : PinSafe i S f (devWrite .fee a data) :=
  pinSafe_read fun _ => (pinSafe_contract ..).bind fun _ => (pinSafe_point fun _ h => by cases h).bind fun _ =>
    pinSafe_answer.bind fun _ => pinSafe_read fun _ => pinSafe_ite (pinSafe_overwriteOp ..) (pinSafe_performOp ..)

theorem pinSafe_devErase (a n : Nat) : PinSafe i S f (devErase .fee a n) :=
  pinSafe_read fun _ => (pinSafe_contract ..).bind fun _ => (pinSafe_point fun _ h => by cases h).bind fun _ =>
    pinSafe_answer.bind fun _ => pinSafe_performOp ..

theorem pinSafe_writeMarkWord (a v : Nat) : PinSafe i S f (writeMarkWord .fee a v) :=
  pinSafe_read fun _ => (pinSafe_devWrite ..).bind fun _ => pinSafe_devSync .fee

/-! ### The FEE engine's procedures -/

theorem pinSafe_headerState (a : Arena) : PinSafe i S f (headerState a) :=
  pinSafe_read fun _ => (pinSafe_devRead ..).bind fun _ => (pinSafe_devRead ..).bind fun _ =>
    (pinSafe_devRead ..).bind fun _ => pinSafe_pure _

theorem pinSafe_headerInit (a : Arena) : PinSafe i S f (headerInit a) :=
  pinSafe_read fun _ => (pinSafe_devWrite ..).bind fun _ => pinSafe_devSync .fee

theorem pinSafe_markArenaActive (a : Arena) : PinSafe i S f (markArenaActive a) :=
  pinSafe_read fun _ => (pinSafe_writeMarkWord ..).bind fun _ => pinSafe_feeRegs _

theorem pinSafe_markArenaFrozen (a : Arena) : PinSafe i S f (markArenaFrozen a) :=
  pinSafe_read fun _ => (pinSafe_writeMarkWord ..).bind fun _ => pinSafe_feeRegs _

theorem pinSafe_arenaReinit (a : Arena) : PinSafe i S f (arenaReinit a) :=
  pinSafe_read fun _ => (pinSafe_devErase ..).bind fun _ => (pinSafe_devSync .fee).bind fun _ =>
    (pinSafe_ite ((pinSafe_devErase ..).bind fun _ => pinSafe_devSync .fee) (pinSafe_pure ())).bind fun _ =>
      (pinSafe_headerInit a).bind fun _ => pinSafe_feeRegs _

theorem pinSafe_format : PinSafe i S f format :=
  (pinSafe_arenaReinit .a0).bind fun _ => (pinSafe_arenaReinit .a1).bind fun _ =>
    (pinSafe_markArenaActive .a0).bind fun _ => (pinSafe_feeRegs _).bind fun _ => pinSafe_feeRegs _

theorem pinSafe_slotMark (a : Arena) (n : Nat) : PinSafe i S f (slotMark a n) :=
  pinSafe_read fun _ => (pinSafe_devRead ..).bind fun _ => (pinSafe_devRead ..).bind fun _ => pinSafe_pure _

theorem pinSafe_slotKey (a : Arena) (n : Nat) : PinSafe i S f (slotKey a n) :=
  pinSafe_read fun _ => (pinSafe_devRead ..).bind fun _ => pinSafe_pure _

theorem pinSafe_slotPayload (a : Arena) (n : Nat) : PinSafe i S f (slotPayload a n) :=
  pinSafe_read fun _ => pinSafe_devRead ..

theorem pinSafe_slotRecord (a : Arena) (n : Nat) : PinSafe i S f (slotRecord a n) :=
  pinSafe_read fun _ => pinSafe_devRead ..

theorem pinSafe_countUsed (a : Arena) (c n k : Nat) : PinSafe i S f (countUsed a c n k) := by
  induction n generalizing c k with
  | zero => exact pinSafe_pure c
  | succ n ih => exact (pinSafe_slotMark a k).bind fun x => by cases x <;> exact ih ..

theorem pinSafe_arenaLoad (a : Arena) : PinSafe i S f (arenaLoad a) :=
  pinSafe_read fun _ => (pinSafe_countUsed ..).bind fun _ => pinSafe_feeRegs _

theorem pinSafe_lookup (a : Arena) (key : Nat) : PinSafe i S f (lookup a key) := by
  have hmatch (k : Nat) : PinSafe i S f (slotMatches a key k) := (pinSafe_slotMark a k).bind fun
    | .valid => (pinSafe_slotKey a k).bind fun _ => pinSafe_pure _
    | .unused => pinSafe_pure _
    | .dirty => pinSafe_pure _
    | .unknown => pinSafe_pure _
  have hfrom (r : Option Nat) (n k : Nat) : PinSafe i S f (lookupFrom a key r n k) := by
    induction n generalizing r k with
    | zero => exact pinSafe_pure r
    | succ n ih => exact (hmatch k).bind fun _ => pinSafe_ite (ih ..) (ih ..)
  exact pinSafe_read fun _ => hfrom ..

theorem pinSafe_append (key : Nat) (bs : List Byte) : PinSafe i S f (append key bs) :=
  pinSafe_read fun _ => (pinSafe_writeMarkWord ..).bind fun _ => (pinSafe_devWrite ..).bind fun _ =>
    (pinSafe_devSync .fee).bind fun _ => (pinSafe_writeMarkWord ..).bind fun _ => pinSafe_feeRegs _

theorem pinSafe_prepareDst (a : Arena) : PinSafe i S f (prepareDst a) := by
  have hblank : PinSafe i S f (blankArena a) := pinSafe_read fun _ => (pinSafe_devRead ..).bind fun _ => pinSafe_pure _
  exact hblank.bind fun _ => pinSafe_ite
    (pinSafe_read fun _ => (pinSafe_devRead ..).bind fun _ => pinSafe_ite (pinSafe_headerInit a) (pinSafe_pure ()))
    (pinSafe_arenaReinit a)

theorem pinSafe_copyLive (src dst : Arena) (o : Option Nat) (j : Nat) (ks : List Nat) :
    PinSafe i S f (copyLive src dst o j ks) := by
  induction ks generalizing j with
  | nil => exact pinSafe_pure j
  | cons k ks ih =>
    refine pinSafe_ite (ih j) ((pinSafe_lookup src k).bind fun r => ?_)
    cases r with
    | none => exact ih j
    | some r =>
      exact (pinSafe_slotRecord src r).bind fun _ => pinSafe_read fun _ => (pinSafe_devWrite ..).bind fun _ => ih (j + 1)

theorem pinSafe_gc (o : Option Nat) : PinSafe i S f (gc o) :=
  pinSafe_read fun _ => (pinSafe_markArenaFrozen _).bind fun _ => (pinSafe_prepareDst _).bind fun _ =>
    pinSafe_read fun _ => (pinSafe_copyLive ..).bind fun _ => (pinSafe_devSync .fee).bind fun _ =>
      (pinSafe_markArenaActive _).bind fun _ => (pinSafe_arenaReinit _).bind fun _ => (pinSafe_feeRegs _).bind fun _ =>
        (pinSafe_feeRegs _).bind fun _ => pinSafe_feeRegs _

theorem pinSafe_writeSpan (sa lo : Nat) (bs : List Byte) : PinSafe i S f (writeSpan sa lo bs) := by
  have hpayload : PinSafe i S f (chunkPayload sa) := pinSafe_read fun _ => (pinSafe_lookup ..).bind fun
    | some _ => pinSafe_slotPayload ..
    | none => pinSafe_read fun _ => pinSafe_pure _
  have hroom : PinSafe i S f (makeRoom sa) := pinSafe_read fun _ => pinSafe_ite (pinSafe_gc _) (pinSafe_pure ())
  exact hpayload.bind fun _ => pinSafe_ite (pinSafe_pure ()) (hroom.bind fun _ => pinSafe_append sa _)

theorem pinSafe_writeChunks (n x : Nat) (bs : List Byte) : PinSafe i S f (writeChunks n x bs) := by
  induction n generalizing x bs with
  | zero => exact pinSafe_pure ()
  | succ n ih =>
    exact pinSafe_ite (pinSafe_pure ()) (pinSafe_read fun _ => (pinSafe_writeSpan ..).bind fun _ => ih ..)

theorem pinSafe_readRange (addr n : Nat) : PinSafe i S f (readRange addr n) := by
  have hslot (a : Arena) (k : Nat) (out : List Byte) : PinSafe i S f (readSlot a addr k out) :=
    (pinSafe_slotMark a k).bind fun
      | .valid => (pinSafe_slotKey a k).bind fun _ => pinSafe_read fun _ =>
          pinSafe_ite ((pinSafe_slotPayload a k).bind fun _ => pinSafe_pure _) (pinSafe_pure _)
      | .unused => pinSafe_pure _
      | .dirty => pinSafe_pure _
      | .unknown => pinSafe_pure _
  have hslots (a : Arena) (n k : Nat) (out : List Byte) : PinSafe i S f (readSlots a addr n k out) := by
    induction n generalizing k out with
    | zero => exact pinSafe_pure out
    | succ n ih => exact (hslot a k out).bind fun _ => ih ..
  exact pinSafe_read fun _ => hslots ..

theorem pinSafe_startCases : PinSafe i S f startCases := by
  have hadopt (a : Arena) : PinSafe i S f (adoptArena a) := (pinSafe_feeRegs _).bind fun _ => pinSafe_arenaLoad a
  refine (pinSafe_headerState .a0).bind fun s0 => (pinSafe_headerState .a1).bind fun s1 =>
    (pinSafe_feeRegs _).bind fun _ => (pinSafe_feeRegs _).bind fun _ => ?_
  cases startCase s0 s1 with
  | adopt a => exact hadopt a
  | resume a => exact (pinSafe_arenaReinit a.other).bind fun _ => (hadopt a).bind fun _ => pinSafe_gc none
  | cold => exact pinSafe_format

/-! ### The commands -/

/-- Every command but MIRROR.START and the mutating Mirror commands leaves the pinned bits of DEV_M. -/
theorem bodyOf_pinSafe {ins : Instr} (hm : ¬mutatesMirror ins) (hstart : ¬∃ hid, ins = .mirrorStart hid) :
    PinSafe i S f (bodyOf ins) := by
  cases ins
  case mirrorInit hid => exact pinSafe_pure ()
  case feeInit hid => exact pinSafe_pure ()
  case mirrorObjectInit hid => exact pinSafe_checked _ (pinSafe_read fun _ => pinSafe_mirrorRegs _)
  case feeObjectInit hid => exact pinSafe_checked _ (pinSafe_read fun _ => pinSafe_feeRegs _)
  case mirrorStart hid => exact absurd ⟨hid, rfl⟩ hstart
  case feeStart hid =>
    have hgeometry : PinSafe i S f feeGeometry := (pinSafe_read fun _ => pinSafe_pure _).bind fun _ =>
      pinSafe_read fun _ => (pinSafe_require ..).bind fun _ => pinSafe_feeRegs _
    exact pinSafe_checked _ ((pinSafe_changeDrv ..).bind fun _ => hgeometry.bind fun _ =>
      (pinSafe_devSync .fee).bind fun _ => pinSafe_startCases.bind fun _ => pinSafe_feeRegs _)
  case mirrorStop hid => exact pinSafe_checked _ (pinSafe_changeDrv ..)
  case feeStop hid => exact pinSafe_checked _ (pinSafe_changeDrv ..)
  case mirrorRead hid =>
    exact pinSafe_checked _ (pinSafe_read fun _ => (pinSafe_require ..).bind fun _ => pinSafe_ite (pinSafe_pure ())
      (pinSafe_guardRead _ ((pinSafe_devRead ..).bind fun _ => pinSafe_bufStore _)))
  case feeRead hid =>
    exact pinSafe_checked _ (pinSafe_read fun _ => (pinSafe_require ..).bind fun _ => pinSafe_ite (pinSafe_pure ())
      (pinSafe_guardRead _ ((pinSafe_readRange ..).bind fun _ => pinSafe_bufStore _)))
  case mirrorWrite hid => exact absurd ⟨hid, .inl rfl⟩ hm
  case mirrorErase hid => exact absurd ⟨hid, .inr (.inl rfl)⟩ hm
  case mirrorMassErase hid => exact absurd ⟨hid, .inr (.inr rfl)⟩ hm
  case feeWrite hid =>
    exact pinSafe_checked _ (pinSafe_read fun _ => (pinSafe_require ..).bind fun _ => pinSafe_ite (pinSafe_pure ())
      ((pinSafe_bufLoad _).bind fun _ => pinSafe_writeChunks ..))
  case feeErase hid =>
    exact pinSafe_checked _ (pinSafe_read fun _ => (pinSafe_require ..).bind fun _ => pinSafe_ite (pinSafe_pure ())
      (pinSafe_writeChunks ..))
  case feeMassErase hid => exact pinSafe_checked _ pinSafe_format
  case mirrorSync hid => exact pinSafe_checked _ (pinSafe_devSync _)
  case feeSync hid => exact pinSafe_checked _ (pinSafe_devSync _)
  case mirrorGetInfo hid =>
    exact pinSafe_checked _ ((pinSafe_read fun _ => pinSafe_pure _).bind fun _ => pinSafe_read fun _ =>
      pinSafe_reportInfo ..)
  case feeGetInfo hid =>
    exact pinSafe_checked _ ((pinSafe_read fun _ => pinSafe_pure _).bind fun _ => pinSafe_read fun _ =>
      pinSafe_reportInfo ..)
  case mirrorAcquireBus hid => exact pinSafe_checked _ (pinSafe_acquire ..)
  case feeAcquireBus hid => exact pinSafe_checked _ (pinSafe_acquire ..)
  case mirrorReleaseBus hid => exact pinSafe_checked _ (pinSafe_release _)
  case feeReleaseBus hid => exact pinSafe_checked _ (pinSafe_release _)

end Sys2Proof.Machine
end

