-- ==== Sys2Proof/Proofs/MirrorCuts.lean ====
section
/-! PROOF. What a cut may leave on DEV_M and MIRROR.START still repair (41_mirror.md R166, R183): in each phase of a
mutation and of Recover, bits that no operation of the phase touches keep the good half and the mark that names it. -/

open Sys2Proof Sys2Proof.Machine

namespace Sys2Proof.Machine

variable {p : Params} {i : DevInfo} {h n k j a org : Nat} {good : List Byte → Prop} {O : PendOp → Prop}
  {g g' : Nat → Byte} {s : State} {d : Device} {op : PendOp} {r : Nat × (Nat → Byte)} {x last : LogMark}

/-! ### The two halves -/

/-- The content of mirror_a. -/
def imageA (i : DevInfo) (h : Nat) (g : Nat → Byte) : List Byte := spanOf g (headerSpan i h) (copySpan i h)

/-- The content of mirror_b. -/
def imageB (i : DevInfo) (h : Nat) (g : Nat → Byte) : List Byte := spanOf g (copyBAt i h) (copySpan i h)

theorem MirrorAt.mirrorA_eq (hs : MirrorAt p i h s) : s.mirrorA = imageA i h s.devM.cur.byteAt := by
  unfold State.mirrorA
  rw [hs.aOrg, hs.size]
  rfl

theorem MirrorAt.mirrorB_eq (hs : MirrorAt p i h s) : s.mirrorB = imageB i h s.devM.cur.byteAt := by
  unfold State.mirrorB
  rw [hs.bOrg, hs.size]
  rfl

theorem imageA_congr (hg : ∀ y, headerSpan i h ≤ y → y < copyBAt i h → g' y = g y) : imageA i h g' = imageA i h g :=
  spanOf_congr fun y hlo hhi => hg y hlo (by rwa [copyBAt_eq])

theorem imageB_congr (hg : ∀ y, copyBAt i h ≤ y → g' y = g y) : imageB i h g' = imageB i h g :=
  spanOf_congr fun y hlo _ => hg y hlo

theorem LogEnds.congr_header (hn : LogIs p i h g n last) (hg : ∀ y, y < headerSpan i h → g' y = g y) :
    LogIs p i h g' n last := hn.congr fun y hy => hg y (lt_of_lt_of_le hy (log_le_header p i h))

/-- The two halves are equal and good. -/
structure Twin (i : DevInfo) (h : Nat) (good : List Byte → Prop) (g : Nat → Byte) : Prop where
  equal : imageA i h g = imageB i h g
  good : good (imageA i h g)

/-- The header is no part of the halves. -/
theorem Twin.congr (ht : Twin i h good g) (hg : ∀ y, headerSpan i h ≤ y → g' y = g y) : Twin i h good g' := by
  have hb := copyBAt_eq i h
  have hA : imageA i h g' = imageA i h g := imageA_congr fun y hlo _ => hg y hlo
  have hB : imageB i h g' = imageB i h g := imageB_congr fun y hlo => hg y (by omega)
  exact ⟨by rw [hA, hB, ht.equal], hA ▸ ht.good⟩

/-! ### What START repairs -/

/-- The half that Recover keeps is good: both where the log ends with SYNCED, mirror_b where it ends with DIRTY_A,
else mirror_a (41_mirror.md R166). -/
structure Recoverable (p : Params) (i : DevInfo) (h : Nat) (good : List Byte → Prop) (g : Nat → Byte) : Prop where
  adopt {n : Nat} (hn : LogIs p i h g n .synced) : imageA i h g = imageB i h g
  fromB {n : Nat} (hn : LogIs p i h g n .dirtyA) : good (imageB i h g)
  fromA (hno : ∀ n, ¬LogIs p i h g n .dirtyA) : good (imageA i h g)

theorem Twin.recoverable (ht : Twin i h good g) : Recoverable p i h good g :=
  ⟨fun _ => ht.equal, fun _ => ht.equal ▸ ht.good, fun _ => ht.good⟩

/-- A log that does not end with SYNCED or DIRTY_A: only mirror_a counts. -/
theorem recoverable_of_goodA (hS : ∀ n, ¬LogIs p i h g n .synced) (hA : ∀ n, ¬LogIs p i h g n .dirtyA)
    (hgood : good (imageA i h g)) : Recoverable p i h good g :=
  ⟨fun hn => absurd hn (hS _), fun hn => absurd hn (hA _), fun _ => hgood⟩

/-- A log that ends with DIRTY_A: only mirror_b counts. -/
theorem recoverable_of_dirtyA (hn : LogIs p i h g n .dirtyA) (hgood : good (imageB i h g)) :
    Recoverable p i h good g :=
  ⟨(fun hS => nomatch (hn.unique hS).2), fun _ => hgood, fun hno => absurd hn (hno _)⟩

/-- Whatever else becomes of DEV_M, its pinned bits keep it recoverable. -/
def Device.Safe (p : Params) (i : DevInfo) (h : Nat) (good : List Byte → Prop) (d : Device) : Prop :=
  ∃ S f, d.Pins i S f ∧ ∀ g, AgreeOn S f g → Recoverable p i h good g

theorem Device.Safe.recoverable (hd : d.Safe p i h good) : Recoverable p i h good d.cur.byteAt := by
  obtain ⟨S, f, hp, hrec⟩ := hd
  exact hrec _ hp.cur

theorem Device.Safe.info (hd : d.Safe p i h good) : d.info = i := by
  obtain ⟨S, f, hp, -⟩ := hd
  exact hp.info

theorem Device.Safe.reads (hd : d.Safe p i h good) : d.Reads d.cur.byteAt := by
  obtain ⟨S, f, hp, -⟩ := hd
  exact ⟨hp.canonical.1, rfl⟩

/-- Where no operation is issued, a cut leaves a safe device safe. -/
theorem Device.Safe.guarded (hd : d.Safe p i h good) : Guarded False (Device.Safe p i h good) i NoOps d := by
  obtain ⟨S, f, hp, hrec⟩ := hd
  exact ⟨S, f, hp, fun _ ho => ho.elim, fun _ _ hp' => ⟨S, f, hp', hrec⟩⟩

/-! ### The shield of a phase -/

/-- The operations of the kind `O` touch bytes in [a, a+n) alone. -/
def StaysIn (O : PendOp → Prop) (a n : Nat) : Prop := ∀ op, O op → ∀ y, op.Covers y → a ≤ y ∧ y < a + n

/-- All bits but those of [a, a+n). -/
def outside (a n : Nat) : BitChoice := fun y _ => ¬(a ≤ y ∧ y < a + n)

/-- A phase whose operations stay in a span is safe, if any bytes in the span are recoverable. -/
theorem shielded_of_staysIn (hO : StaysIn O a n)
    (hrec : ∀ g', (∀ y, ¬(a ≤ y ∧ y < a + n) → g' y = g y) → Recoverable p i h good g') :
    Shielded False (Device.Safe p i h good) i O g := by
  refine ⟨outside a n, fun op ho => spares_of_not_covers fun y _ hy hcov => hy (hO op ho y hcov), fun _ d hd => ?_⟩
  exact ⟨_, g, hd, fun g' hg' => hrec g' fun y hy => hg'.byte fun _ _ => hy⟩

/-- Where the halves are equal and good, the header does not count. -/
theorem Twin.shielded (ht : Twin i h good g) (hO : StaysIn O 0 (headerSpan i h)) :
    Shielded False (Device.Safe p i h good) i O g :=
  shielded_of_staysIn hO fun _ hg' => (ht.congr fun y hy => hg' y (by omega)).recoverable

/-- Where the log ends with DIRTY_A and mirror_b is good, mirror_a does not count. -/
theorem shielded_onA (hn : LogIs p i h g n .dirtyA) (hgood : good (imageB i h g))
    (hO : StaysIn O (headerSpan i h) (copySpan i h)) : Shielded False (Device.Safe p i h good) i O g := by
  have hb := copyBAt_eq i h
  refine shielded_of_staysIn hO fun g' hg' => recoverable_of_dirtyA (hn.congr_header fun y hy => hg' y (by omega)) ?_
  rwa [imageB_congr fun y hy => hg' y (by omega)]

/-- Where the log ends neither with SYNCED nor with DIRTY_A and mirror_a is good, mirror_b does not count. -/
theorem shielded_onB (hS : ∀ n, ¬LogIs p i h g n .synced) (hA : ∀ n, ¬LogIs p i h g n .dirtyA)
    (hgood : good (imageA i h g)) (hO : StaysIn O (copyBAt i h) (copySpan i h)) :
    Shielded False (Device.Safe p i h good) i O g := by
  have hb := copyBAt_eq i h
  refine shielded_of_staysIn hO fun g' hg' => ?_
  have hback {m : Nat} {y : LogMark} (hm : LogIs p i h g' m y) : LogIs p i h g m y :=
    hm.congr_header fun z hz => (hg' z (by omega)).symm
  refine recoverable_of_goodA (fun m hm => hS m (hback hm)) (fun m hm => hA m (hback hm)) ?_
  rwa [imageA_congr fun y _ hy => hg' y (by omega)]

/-- A phase without operations. -/
theorem Recoverable.shielded (hr : Recoverable p i h good g) : Shielded False (Device.Safe p i h good) i NoOps g :=
  shielded_of_staysIn (a := 0) (n := 0) (fun _ ho => ho.elim) fun g' hg' =>
    (funext fun y => hg' y (by omega) : g' = g) ▸ hr

/-- A device at rest is safe with bytes that are recoverable. -/
theorem Recoverable.safe (hr : Recoverable p i h good g) (hd : d.Rests i g) : d.Safe p i h good := by
  obtain ⟨S, -, hP⟩ := hr.shielded
  exact hP id d (hd.pins S)

/-! ### The spans of the phases -/

theorem spanOps_stay (a n : Nat) : StaysIn (SpanOps a n) a n := fun _ ⟨hlo, hhi⟩ _ ⟨hcov, hcov'⟩ => ⟨by omega, by omega⟩

theorem entryOp_covers_iff {y : Nat} :
    (entryOp p k x).Covers y ↔ k * p.widthM.bytes ≤ y ∧ y < k * p.widthM.bytes + p.widthM.bytes := by
  show (_ ≤ y ∧ y < _ + (x.encode p.widthM).length) ↔ _
  rw [length_encode]
  rfl

theorem headerOp_covers {y : Nat} (hy : (headerOp i h).Covers y) : y < headerSpan i h := by
  obtain ⟨-, hhi⟩ := hy
  rwa [← Nat.zero_add (headerSpan i h)]

theorem entryOp_in_header {y : Nat} (hk : k < logCount p i h) (hy : (entryOp p k x).Covers y) : y < headerSpan i h := by
  obtain ⟨-, hhi⟩ := entryOp_covers_iff.1 hy
  have := entry_le_header hk
  omega

/-- An append writes in the header. -/
theorem appendOps_stay (hfit : MirrorFit p i h) : StaysIn (AppendOps p i h k x) 0 (headerSpan i h) := by
  intro op ho y hy
  refine ⟨Nat.zero_le y, ?_⟩
  rw [Nat.zero_add]
  unfold AppendOps at ho
  split at ho
  · next hlt => exact entryOp_in_header hlt (ho ▸ hy)
  · rcases ho with rfl | rfl
    · exact headerOp_covers hy
    · exact entryOp_in_header hfit.logCount_pos hy

/-- A reset of the log writes in the header. -/
theorem resetOps_stay (hfit : MirrorFit p i h) : StaysIn (ResetOps p i h) 0 (headerSpan i h) := by
  intro op ho y hy
  refine ⟨Nat.zero_le y, ?_⟩
  rw [Nat.zero_add]
  rcases ho with rfl | rfl
  · exact headerOp_covers hy
  · exact entryOp_in_header hfit.logCount_pos hy

/-! ### Recover -/

theorem spanOf_copy {src dst m : Nat} : spanOf (copyBytes g src dst m) dst m = spanOf g src m :=
  List.map_congr_left fun y hy => by
    have hy := List.mem_range.1 hy
    show ite _ _ _ = _
    rw [if_pos ⟨by omega, by omega⟩, Nat.add_sub_cancel_left]

/-- mirror_b copied over mirror_a. -/
theorem twin_copiedToA (hgood : good (imageB i h g)) : Twin i h good (copiedToA i h g) := by
  have hb := copyBAt_eq i h
  have hA : imageA i h (copiedToA i h g) = imageB i h g := spanOf_copy
  have hB : imageB i h (copiedToA i h g) = imageB i h g := imageB_congr fun y hy => if_neg (by omega)
  exact ⟨hA.trans hB.symm, hA ▸ hgood⟩

/-- mirror_a copied over mirror_b. -/
theorem twin_copiedToB (hgood : good (imageA i h g)) : Twin i h good (copiedToB i h g) := by
  have hB : imageB i h (copiedToB i h g) = imageA i h g := spanOf_copy
  have hA : imageA i h (copiedToB i h g) = imageA i h g := imageA_congr fun y _ hy => if_neg (by omega)
  exact ⟨hA.trans hB.symm, hA ▸ hgood⟩

theorem imageA_append (hfit : MirrorFit p i h) : imageA i h (appendAt p i h x (k, g)).2 = imageA i h g :=
  imageA_congr fun _ hy _ => appendOf_beyond hfit.logCount_pos (log_le_header p i h) hy

theorem imageB_append (hfit : MirrorFit p i h) : imageB i h (appendAt p i h x (k, g)).2 = imageB i h g :=
  imageB_congr fun _ hy => appendOf_beyond hfit.logCount_pos (log_le_header p i h)
    (le_trans (copyBAt_eq i h ▸ Nat.le_add_right ..) hy)

/-- An append leaves the halves. -/
theorem Twin.append (ht : Twin i h good g) (hfit : MirrorFit p i h) : Twin i h good (appendAt p i h x (k, g)).2 :=
  ⟨by rw [imageA_append hfit, imageB_append hfit, ht.equal], (imageA_append hfit).symm ▸ ht.good⟩

/-- A reset of the log leaves the halves. -/
theorem Twin.reset (ht : Twin i h good g) (hfit : MirrorFit p i h) : Twin i h good (resetLog p i h x g) := by
  have hfull : (appendAt p i h x (logCount p i h, g)).2 = resetLog p i h x g := by
    unfold appendAt appendOf
    rw [if_neg (by omega)]
    rfl
  exact hfull ▸ ht.append hfit

namespace Recoverable

variable (hr : Recoverable p i h good g)
include hr

/-- With a log that ends otherwise than with DIRTY_A, mirror_a is good. -/
theorem goodA (hn : LogIs p i h g n last) (hlast : last ≠ .dirtyA) : good (imageA i h g) :=
  hr.fromA fun _ hA => hlast (hA.unique hn).2

/-- Every phase of Recover may be cut. -/
theorem recoverShield (hfit : MirrorFit p i h) : RecoverShield False (Device.Safe p i h good) p i h g where
  idle := hr.shielded
  copyToA hn := shielded_onA hn (hr.fromB hn) (spanOps_stay _ _)
  copyToB hn := shielded_onB (fun _ hS => nomatch (hn.unique hS).2) (fun _ hA => nomatch (hn.unique hA).2)
    (hr.goodA hn nofun) (spanOps_stay _ _)
  copyToB' hno := shielded_onB (fun n hS => hno ⟨n, _, hS⟩) (fun n hA => hno ⟨n, _, hA⟩)
    (hr.fromA fun n hA => hno ⟨n, _, hA⟩) (spanOps_stay _ _)
  appendA hn := (twin_copiedToA (hr.fromB hn)).shielded (appendOps_stay hfit)
  appendB hn := (twin_copiedToB (hr.goodA hn nofun)).shielded (appendOps_stay hfit)
  reset hno := (twin_copiedToB (hr.fromA fun n hA => hno ⟨n, _, hA⟩)).shielded (resetOps_stay hfit)

/-- Recover leaves the halves equal and good. -/
theorem twin_of_recovered (hfit : MirrorFit p i h) (hd : Recovered p i h g r) : Twin i h good r.2 := by
  cases hd with
  | synced hn => exact ⟨hr.adopt hn, hr.goodA hn nofun⟩
  | dirtyA hn => exact (twin_copiedToA (hr.fromB hn)).append hfit
  | dirtyB hn => exact (twin_copiedToB (hr.goodA hn nofun)).append hfit
  | invalid hno => exact (twin_copiedToB (hr.fromA fun n hA => hno ⟨n, _, hA⟩)).reset hfit

end Recoverable

/-! ### The mark DIRTY_B -/

/-- The address of the last byte of entry k. -/
def lastByteOf (p : Params) (k : Nat) : Nat := k * p.widthM.bytes + (p.widthM.bytes - 1)

/-- The top bit of a mark's last byte is 0 in SYNCED alone. -/
theorem topBit_encode (w : MarkWidth) (x : LogMark) :
    (((x.encode w)[w.bytes - 1]?).getD erasedByte).getLsbD 7 = decide (x ≠ .synced) := by
  cases w <;> cases x <;> decide

theorem topBit_of_entry (he : entryOf p.widthM g k = x.encode p.widthM) :
    (g (lastByteOf p k)).getLsbD 7 = decide (x ≠ .synced) := by
  have hpos := width_pos p.widthM
  rw [← topBit_encode p.widthM x]
  exact congrArg (·.getLsbD 7) ((spanOf_eq_iff (length_encode ..)).1 he (p.widthM.bytes - 1) (by omega))

/-- Where a log ends with a mark other than SYNCED, the entries from the mark on have the top bit set. -/
theorem LogEnds.topBit (hn : LogIs p i h g (k + 1) last) (hlast : last ≠ .synced) (hk : k ≤ j)
    (hj : j < logCount p i h) : (g (lastByteOf p j)).getLsbD 7 = true := by
  rcases Nat.eq_or_lt_of_le hk with rfl | hlt
  · exact (topBit_of_entry hn.last).trans (decide_eq_true hlast)
  · rw [topBit_of_entry (x := .unused) ((hn.vacant j hlt hj).trans (encode_unused _).symm)]
    rfl

/-- The bits that keep a log that ends at entry k from ending with SYNCED while a mark other than SYNCED is appended:
the top bits from entry k on, and entry k, if there is another after it; and what lies past the header. -/
def markPinned (p : Params) (i : DevInfo) (h k : Nat) : BitChoice := fun y b =>
  headerSpan i h ≤ y ∨ (∃ e, k ≤ e ∧ e < logCount p i h ∧ y = lastByteOf p e ∧ b = 7)
    ∨ k + 1 < logCount p i h ∧ k * p.widthM.bytes ≤ y ∧ y < k * p.widthM.bytes + p.widthM.bytes

/-- The write of a mark other than SYNCED leaves the top bits. -/
theorem bitAfter_entryOp_top (e : Nat) (hx : x ≠ .synced) (v : Bool) :
    (entryOp p j x).bitAfter (lastByteOf p e) 7 v = v := by
  have hpos := width_pos p.widthM
  by_cases he : e = j
  · subst he
    have hin : lastByteOf p e < e * p.widthM.bytes + (x.encode p.widthM).length := by
      rw [length_encode]
      unfold lastByteOf
      omega
    refine (if_pos ⟨Nat.le_add_right .., hin⟩).trans ?_
    rw [show lastByteOf p e - e * p.widthM.bytes = p.widthM.bytes - 1 from Nat.add_sub_cancel_left .., topBit_encode,
      decide_eq_true hx, Bool.and_true]
  · refine PendOp.bitAfter_of_not_covers (fun hcov => ?_) 7 v
    obtain ⟨hlo, hhi⟩ := entryOp_covers_iff.1 hcov
    unfold lastByteOf at hlo hhi
    rcases Nat.lt_or_gt_of_ne he with hlt | hgt
    · have := entry_end_le p.widthM hlt
      omega
    · have := entry_end_le p.widthM hgt
      omega

/-- The append of a mark other than SYNCED to a log that ends with another such mark, where it does not wrap over a
longer log, leaves these bits. -/
theorem markPinned_spared (hfit : MirrorFit p i h) (hn : LogIs p i h g (k + 1) last) (hlast : last ≠ .synced)
    (hx : x ≠ .synced) (hop : AppendOps p i h k x op) : op.Spares (markPinned p i h k) g := by
  rintro y b hb (hy | ⟨e, hke, he, rfl, rfl⟩ | ⟨hroom, hlo, hhi⟩)
  · refine PendOp.bitAfter_of_not_covers (fun hcov => ?_) b _
    have := appendOps_stay hfit op hop y hcov
    omega
  · unfold AppendOps at hop
    split at hop
    · rw [hop]
      exact bitAfter_entryOp_top e hx _
    · rcases hop with rfl | rfl
      · rw [hn.topBit hlast hke he]
        exact ite_self _
      · exact bitAfter_entryOp_top e hx _
  · unfold AppendOps at hop
    rw [if_pos hroom] at hop
    refine PendOp.bitAfter_of_not_covers (fun hcov => ?_) b _
    obtain ⟨hlo', -⟩ := entryOp_covers_iff.1 (hop ▸ hcov)
    have := entry_end_le p.widthM (show k < k + 1 by omega)
    omega

/-- With these bits no log ends with SYNCED. -/
theorem markPinned_not_synced (hn : LogIs p i h g (k + 1) last) (hlast : last ≠ .synced)
    (hroom : k + 1 ≠ logCount p i h ∨ k = 0) (hg' : AgreeOn (markPinned p i h k) g g') :
    ¬LogIs p i h g' n .synced := by
  intro hS
  have hpos := hS.pos
  have hle := hS.le
  have hle' := hn.le
  by_cases hk : k ≤ n - 1
  · have htop := hg' (lastByteOf p (n - 1)) 7 (by decide) (.inr (.inl ⟨n - 1, hk, by omega, rfl, rfl⟩))
    rw [hn.topBit hlast hk (by omega), topBit_of_entry hS.last] at htop
    exact absurd htop (by decide)
  · have hentry : entryOf p.widthM g' k = entryOf p.widthM g k :=
      spanOf_congr fun y hlo hhi => hg'.byte fun b _ => .inr (.inr ⟨by omega, hlo, hhi⟩)
    have hvac : Vacant p.widthM g' k := hS.vacant k (by omega) (by omega)
    refine hvac.not_marked ?_
    unfold Marked
    rw [hentry]
    exact hn.marked k (Nat.lt_succ_self k)

/-- The append of DIRTY_B after DIRTY_A, where both halves are good and it does not wrap over a longer log. -/
theorem shielded_markB (hfit : MirrorFit p i h) (hn : LogIs p i h g (k + 1) .dirtyA)
    (hroom : k + 1 ≠ logCount p i h ∨ k = 0) (hA : good (imageA i h g)) (hB : good (imageB i h g)) :
    Shielded False (Device.Safe p i h good) i (AppendOps p i h k .dirtyB) g := by
  have hb := copyBAt_eq i h
  refine ⟨markPinned p i h k, fun op => markPinned_spared hfit hn nofun nofun, fun _ d hd => ⟨_, g, hd, fun g' hg' => ?_⟩⟩
  have hhalves : ∀ y, headerSpan i h ≤ y → g' y = g y := fun y hy => hg'.byte fun _ _ => .inl hy
  have hA' : imageA i h g' = imageA i h g := imageA_congr fun y hy _ => hhalves y hy
  have hB' : imageB i h g' = imageB i h g := imageB_congr fun y hy => hhalves y (by omega)
  exact ⟨fun hS => absurd hS (markPinned_not_synced hn nofun hroom hg'), fun _ => hB'.symm ▸ hB, fun _ => hA'.symm ▸ hA⟩

/-! ### The three phases -/

section phases
variable {addr len : Nat} {mutate : Nat → Proc Unit} {mop : Nat → PendOp} {new : Nat → Byte → Byte}

/-- A half with logical [addr, addr+len) changed. -/
def changedSpan (g : Nat → Byte) (org m addr len : Nat) (new : Nat → Byte → Byte) : List Byte :=
  (List.range m).map fun y => if addr ≤ y ∧ y < addr + len then new (y - addr) (g (org + y)) else g (org + y)

theorem MirrorAt.mirrorAWith_eq (hs : MirrorAt p i h s) :
    s.mirrorAWith addr len new = changedSpan s.devM.cur.byteAt (headerSpan i h) (copySpan i h) addr len new := by
  unfold State.mirrorAWith
  rw [hs.aOrg, hs.size]
  rfl

/-- What is changed in a half depends on the half alone. -/
theorem changedSpan_congr {org' m : Nat} (hg : spanOf g' org' m = spanOf g org m) :
    changedSpan g' org' m addr len new = changedSpan g org m addr len new := by
  refine List.map_congr_left fun y hy => ?_
  have hy := List.mem_range.1 hy
  have hbyte : g' (org' + y) = g (org + y) := by
    have hat := (spanOf_eq_iff (length_spanOf g org m)).1 hg y hy
    rw [hat]
    simp [spanOf, hy]
  rw [hbyte]

variable (hm : Mutation False p i h s mutate mop addr len new)
include hm

/-- A mutation changes the half at its origin. -/
theorem Mutation.changes (g : Nat → Byte) (org : Nat) :
    spanOf ((mop org).on g) org (copySpan i h) = changedSpan g org (copySpan i h) addr len new :=
  List.map_congr_left fun y _ => by
    rw [hm.on]
    by_cases hy : addr ≤ y ∧ y < addr + len
    · rw [if_pos hy, if_pos (by omega), show org + y - (org + addr) = y - addr by omega]
    · rw [if_neg hy, if_neg (by omega)]

theorem Mutation.staysIn (org : Nat) : StaysIn (· = mop org) org (copySpan i h) := by
  rintro _ rfl y hy
  have hfits := hm.fits
  have := hm.covers hy
  omega

/-- A mutation leaves what lies past its half, or before it. -/
theorem Mutation.apart {y : Nat} (hy : y < org ∨ org + copySpan i h ≤ y) : (mop org).on g y = g y :=
  PendOp.on_of_not_covers fun hcov => by
    have := hm.staysIn org _ rfl y hcov
    omega

theorem Mutation.imageA_onA : imageA i h ((mop (headerSpan i h)).on g)
    = changedSpan g (headerSpan i h) (copySpan i h) addr len new := hm.changes ..

theorem Mutation.imageB_onA : imageB i h ((mop (headerSpan i h)).on g) = imageB i h g :=
  imageB_congr fun _ hy => hm.apart (.inr (by rwa [← copyBAt_eq]))

theorem Mutation.imageA_onB : imageA i h ((mop (copyBAt i h)).on g) = imageA i h g :=
  imageA_congr fun _ _ hy => hm.apart (.inl hy)

theorem Mutation.imageB_onB : imageB i h ((mop (copyBAt i h)).on g)
    = changedSpan g (copyBAt i h) (copySpan i h) addr len new := hm.changes ..

theorem Mutation.logIs (ho : IsOrigin i h org) (hn : LogIs p i h g n last) : LogIs p i h ((mop org).on g) n last :=
  hn.congr_header fun _ hy => hm.header ho hy

/-- The phases of a mutation on equal halves, where DIRTY_B does not wrap over a longer log, may each be cut; and they
leave equal halves with the change. -/
theorem Mutation.phaseShield (hfit : MirrorFit p i h) (hn : LogIs p i h g (k + 1) .synced)
    (heq : imageA i h g = imageB i h g) (hroom : k + 2 ≠ logCount p i h) (hold : good (imageA i h g))
    (hnew : good (changedSpan g (headerSpan i h) (copySpan i h) addr len new)) :
    PhaseShield False (Device.Safe p i h good) p i h mop k g ∧ Twin i h good (markedS p i h mop (k, g)).2 := by
  have happend {k : Nat} {g : Nat → Byte} {x y : LogMark} (hn : LogIs p i h g (k + 1) x) (hy : y ≠ .unused) :=
    appendOf_ends hfit.logCount_pos (log_le_header p i h) hn hy
  have hlogA : LogIs p i h (markedA p i h (k, g)).2 _ .dirtyA := happend hn nofun
  have hB1 : good (imageB i h (markedA p i h (k, g)).2) := (imageB_append hfit).symm ▸ heq ▸ hold
  have hlogA' := hm.logIs (.inl rfl) hlogA
  have hB2 := hm.imageB_onA.symm ▸ hB1
  have hA2 : good (imageA i h ((mop (headerSpan i h)).on (markedA p i h (k, g)).2)) := by
    rw [hm.imageA_onA]
    exact (changedSpan_congr (imageA_append hfit)).symm ▸ hnew
  have hlogB : LogIs p i h (markedB p i h mop (k, g)).2 _ .dirtyB := happend hlogA' nofun
  have hA3 : good (imageA i h (markedB p i h mop (k, g)).2) := (imageA_append hfit).symm ▸ hA2
  have htwin : Twin i h good ((mop (copyBAt i h)).on (markedB p i h mop (k, g)).2) := by
    have hA4 := hm.imageA_onB (g := (markedB p i h mop (k, g)).2)
    refine ⟨?_, hA4.symm ▸ hA3⟩
    have hB : spanOf (markedB p i h mop (k, g)).2 (copyBAt i h) (copySpan i h)
        = spanOf g (headerSpan i h) (copySpan i h) :=
      calc imageB i h (markedB p i h mop (k, g)).2 = imageB i h (markedA p i h (k, g)).2 :=
            (imageB_append hfit).trans hm.imageB_onA
        _ = imageB i h g := imageB_append hfit
        _ = imageA i h g := heq.symm
    rw [hA4, hm.imageB_onB, changedSpan_congr hB]
    exact ((imageA_append hfit).trans hm.imageA_onA).trans (changedSpan_congr (imageA_append hfit))
  refine ⟨⟨?_, ?_, ?_, ?_⟩, htwin.append hfit⟩
  · exact shielded_onA hlogA hB1 (hm.staysIn _)
  · refine shielded_markB hfit hlogA' ?_ hA2 hB2
    unfold markedA appendAt appendOf
    split
    · exact .inl hroom
    · exact .inr rfl
  · exact shielded_onB (fun _ hS => nomatch (hlogB.unique hS).2) (fun _ hA => nomatch (hlogB.unique hA).2) hA3
      (hm.staysIn _)
  · exact htwin.shielded (appendOps_stay hfit)

end phases

end Sys2Proof.Machine
end

