-- ==== Sys2Proof/Proofs/MirrorAtomic.lean ====
section
/-! PROOF. A MIRROR.WRITE, ERASE or MASS_ERASE that is cut, and the commands after it, keep DEV_M recoverable; and a
START that ends with OK repairs it (41_mirror.md R183). -/

open Sys2Proof Sys2Proof.Machine

namespace Sys2Proof.Machine

variable {p : Params} {i : DevInfo} {h k n addr : Nat} {good : List Byte → Prop} {s t x y : State} {ins : Instr}
  {hid : HostId} {e : ErrCode} {new : Nat → Byte → Byte}

/-! ### How a command ends -/

/-- However the procedure ends, unless with a fault, DEV_M is safe. -/
abbrev EndsSafe (p : Params) (i : DevInfo) (h : Nat) (good : List Byte → Prop) {α : Type}
    (r : EStateM.Result Stop State α) : Prop :=
  Ends (fun _ t => t.devM.Safe p i h good) (Cut False (Device.Safe p i h good)) r

theorem safe_of_cut {e : Stop} (hx : Cut False (Device.Safe p i h good) e t) (he : ∀ f, e ≠ .fault f) :
    t.devM.Safe p i h good := by
  obtain ⟨-, ⟨f, hf⟩ | hs⟩ := hx
  · exact absurd hf (he f)
  · exact hs

/-- A point at which no operation is in flight. -/
theorem point_safe (hs : s.devM.Safe p i h good) : EndsSafe p i h good (point none s) := by
  refine hs.guarded.ends fun S f hp _ => ?_
  exact (point_runs (c := False) (op := none) False.elim hp nofun).mono (fun _ t ht => ht.devM.symm ▸ hs) fun _ _ k => k

theorem finish_safe (hs : s.devM.Safe p i h good) (ht : finish e s = .next t) : t.devM.Safe p i h good := by
  have hpoint := point_safe hs
  rcases finish_cases e s with ⟨t', hp, hf⟩ | ⟨f, t', -, hf⟩ | ⟨x, t', hp, hx, hf⟩ <;> rw [hf] at ht
  · cases ht
    rw [hp] at hpoint
    exact hpoint
  · cases ht
  · cases ht
    rw [hp] at hpoint
    exact safe_of_cut hpoint hx

theorem devM_afterRaise (s : State) (u : UnitId) (mu : Bool) (e : ErrCode) : (s.afterRaise u mu e).devM = s.devM := by
  unfold State.afterRaise
  split
  · exact State.devM_setRecover ..
  · rfl

/-- A command whose procedure leaves DEV_M safe, however it ends, leaves it safe. -/
theorem exec_safe (hs : s.devM.Safe p i h good) (hbody : EndsSafe p i h good (bodyOf ins s))
    (ht : exec ins s = .next t) : t.devM.Safe p i h good := by
  rw [exec_eq_runCommand] at ht
  unfold runCommand at ht
  split at ht
  · exact finish_safe hs ht
  · rcases conclude_cases ins.unit (setsRecover ins) (bodyOf ins s) with
      ⟨a, r, hr, hf⟩ | ⟨e, r, hr, hf⟩ | ⟨r, hr, hf⟩ | ⟨f, r, -, hf⟩ <;> rw [hf] at ht
    · rw [hr] at hbody
      exact finish_safe hbody ht
    · rw [hr] at hbody
      exact finish_safe ((devM_afterRaise ..).symm ▸ safe_of_cut hbody nofun) ht
    · cases ht
      rcases hr with hr | hr
      · rw [hr] at hbody
        exact safe_of_cut hbody nofun
      · rw [hr] at hbody
        exact safe_of_cut hbody nofun
    · cases ht

/-! ### The mutating commands -/

/-- A unit at rest with equal halves, whose log ends with SYNCED at entry k. -/
structure MirrorRests (p : Params) (i : DevInfo) (h k : Nat) (s : State) : Prop where
  holds : MirrorHolds p i h k s.devM.cur.byteAt s
  rests : s.devM.Rests i s.devM.cur.byteAt
  log : LogIs p i h s.devM.cur.byteAt (k + 1) .synced
  equal : imageA i h s.devM.cur.byteAt = imageB i h s.devM.cur.byteAt

/-- The contents that R183 allows. -/
def OldOrNew (s : State) (addr n : Nat) (new : Nat → Byte → Byte) (l : List Byte) : Prop :=
  l = s.mirrorA ∨ l = s.mirrorAWith addr n new

theorem mirrorRests_of_settled (hs : s.mirrorSettled hid) :
    ∃ h, MirrorRests s.params s.devM.info h s.logPosition s := by
  obtain ⟨-, hsound, hpending, hdurable, hlog, hequal⟩ := hs
  obtain ⟨h, holds⟩ := mirrorHolds_of_sound hsound
  refine ⟨h, holds, ⟨rfl, hpending, hdurable, holds.reads⟩, holds.at_.logEndsWith_iff.1 hlog, ?_⟩
  rwa [holds.at_.mirrorA_eq, holds.at_.mirrorB_eq] at hequal

section mutating
variable (hs : MirrorRests p i h k s)
include hs

theorem MirrorRests.twin : Twin i h (OldOrNew s addr n new) s.devM.cur.byteAt :=
  ⟨hs.equal, .inl hs.holds.at_.mirrorA_eq.symm⟩

theorem MirrorRests.safe : s.devM.Safe p i h (OldOrNew s addr n new) := hs.twin.recoverable.safe hs.rests

/-- The three phases, where DIRTY_B does not wrap over a longer log. -/
theorem MirrorRests.threePhase_safe {mutate : Nat → Proc Unit} {op : Nat → PendOp}
    (hm : Mutation False p i h s mutate op addr n new) (hroom : k + 2 ≠ logCount p i h) :
    EndsSafe p i h (OldOrNew s addr n new) (threePhase mutate s) := by
  have hfit := hs.holds.at_.fit
  obtain ⟨hshield, htwin⟩ := hm.phaseShield hfit hs.log hs.equal hroom (good := OldOrNew s addr n new)
    (.inl hs.holds.at_.mirrorA_eq.symm) (.inr hs.holds.at_.mirrorAWith_eq.symm)
  have hfirst : Shielded False (Device.Safe p i h (OldOrNew s addr n new)) i (AppendOps p i h k .dirtyA)
      s.devM.cur.byteAt := hs.twin.shielded (appendOps_stay hfit)
  refine (threePhase_ends hm hs.holds False.elim (hfirst.guarded hs.rests) hshield).mono (fun _ t ⟨_, hset⟩ => ?_)
    fun _ _ k => k
  have hrest := hset.rests
  rw [hs.holds.at_.info] at hrest
  exact htwin.recoverable.safe hrest

/-- However a WRITE, ERASE or MASS_ERASE ends, START repairs what it leaves, if DIRTY_B does not wrap over a longer
log. -/
theorem MirrorRests.change_safe (hserves : s.serves .mirror hid) (hchange : s.mirrorChange ins hid addr n new)
    (hroom : k + 2 ≠ logCount p i h) : EndsSafe p i h (OldOrNew s addr n new) (bodyOf ins s) := by
  have hat := hs.holds.at_
  have hraise (e : ErrCode) : Cut False (Device.Safe p i h (OldOrNew s addr n new)) (.raised e) s :=
    cut_of_dev id hs.safe
  have hready := mirrorServes_of_serves hserves
  rcases hchange with ⟨rfl, rfl, rfl, rfl⟩ | ⟨rfl, rfl, rfl, rfl⟩ | ⟨rfl, rfl, rfl, rfl⟩
  · show EndsSafe p i h _ (mirrorWriteBody s)
    unfold mirrorWriteBody
    rw [checked_get_apply hready]
    refine .require (fun hrange => .require (fun halign => .ite (fun _ => hs.safe) fun _ => ?_) fun _ => hraise _)
      fun _ => hraise _
    obtain ⟨hbuf, hin⟩ := Bool.and_eq_true_iff.1 hrange
    have hbuf : s.opLen ≤ s.params.bufBytes := of_decide_eq_true hbuf
    have hin : s.opAddr + s.opLen ≤ s.m.size.toNat := of_decide_eq_true hin
    obtain ⟨haddr, hlen⟩ := of_decide_eq_true halign
    rw [hat.params] at hbuf
    rw [hat.size] at hin
    rw [hat.writeAlign] at haddr hlen
    exact hs.threePhase_safe (writeMutation hat hin hbuf (Nat.dvd_of_mod_eq_zero haddr) (Nat.dvd_of_mod_eq_zero hlen)
      False.elim) hroom
  · show EndsSafe p i h _ (mirrorEraseBody s)
    unfold mirrorEraseBody
    rw [checked_get_apply hready]
    refine .require (fun hrange => .require (fun halign => .ite (fun _ => hs.safe) fun _ => ?_) fun _ => hraise _)
      fun _ => hraise _
    have hin : s.opAddr + s.opLen ≤ s.m.size.toNat := of_decide_eq_true hrange
    obtain ⟨haddr, hlen⟩ := of_decide_eq_true halign
    rw [hat.size] at hin
    rw [hat.sectorSize] at haddr hlen
    exact hs.threePhase_safe (eraseMutation hat hin (Nat.dvd_of_mod_eq_zero haddr) (Nat.dvd_of_mod_eq_zero hlen)) hroom
  · show EndsSafe p i h _ (mirrorMassEraseBody s)
    rw [mirrorMassEraseBody_of_serves hserves]
    have hdvd : i.sectorSize ∣ s.m.size.toNat := by
      rw [hat.size]
      exact Nat.dvd_mul_left _ _
    exact hs.threePhase_safe (eraseMutation hat (by rw [Nat.zero_add, hat.size]) (Nat.dvd_zero _) hdvd) hroom

end mutating

/-! ### START -/

/-- What START leaves on a safe device, if it ends well: equal and good halves, as the geometry names them. -/
theorem mirrorStart_repairs (hx : x.devM.Safe p i h good) (hfit : MirrorFit p i h) (hp : x.params = p)
    (hcfg : x.opCfg = h) :
    Ends (fun _ t => MirrorAt p i h t ∧ t.devM.Rests i t.devM.cur.byteAt ∧ Twin i h good t.devM.cur.byteAt)
      (Cut False (Device.Safe p i h good)) (mirrorStartBody x) := by
  have hinfo := hx.info
  by_cases hstarted : x.started .mirror = true
  · have hrec := hx.recoverable
    have hrun := mirrorStartBody_ends (c := False) (P := Device.Safe p i h good) False.elim hstarted
      (by rw [hp, hinfo, hcfg]; exact hfit) hx.reads (hinfo.symm ▸ hx.guarded)
      (by rw [hp, hinfo, hcfg]; exact hrec.recoverShield hfit)
      (by
        rw [hp, hinfo, hcfg]
        exact fun r hr => (hrec.twin_of_recovered hfit hr).recoverable.shielded)
    rw [hp, hinfo, hcfg] at hrun
    refine hrun.mono (fun _ t ⟨r, hr, hran, hset⟩ => ?_) fun _ _ k => k
    have hrest := hset.rests
    rw [hinfo] at hrest
    rw [hrest.reads.bytes]
    exact ⟨⟨hfit, hran.params.trans hp, hrest.info, by rw [hran.mirror]; rfl⟩, hrest,
      hrec.twin_of_recovered hfit hr⟩
  · unfold mirrorStartBody
    rw [checked_apply, if_neg hstarted]
    exact cut_of_dev id hx

/-! ### Until the last START -/

/-- Power losses and commands that do not mutate the region keep DEV_M safe. -/
theorem safe_of_passes {d d' : Device} (hd : d.Safe p i h good) (hfit : MirrorFit p i h)
    (hpass : Device.mirrorPassesTo p h d d') : d'.Safe p i h good := by
  obtain ⟨x, hp, rfl, ⟨c, rfl⟩ | ⟨ins, y, hmut, hcfg, hexec, rfl⟩⟩ := hpass
  · obtain ⟨S, f, hpins, hrec⟩ := hd
    exact ⟨S, f, powerLoss_pins hpins c, hrec⟩
  · refine exec_safe hd ?_ hexec
    by_cases hstart : ∃ hid, ins = .mirrorStart hid
    · obtain ⟨hid, rfl⟩ := hstart
      exact (mirrorStart_repairs hd hfit hp (hcfg ⟨hid, rfl⟩)).mono
        (fun _ t ⟨_, hrest, htwin⟩ => htwin.recoverable.safe hrest) fun _ _ k => k
    · obtain ⟨S, f, hpins, hrec⟩ := hd
      exact ((bodyOf_pinSafe hmut hstart).runs x hpins).mono (fun _ _ k => ⟨S, f, k, hrec⟩)
        fun _ _ ⟨hn, k⟩ => ⟨hn, k.imp id fun k => ⟨S, f, k, hrec⟩⟩

theorem safe_of_passes_many {d d' : Device} (hd : d.Safe p i h good) (hfit : MirrorFit p i h)
    (hpass : Relation.ReflTransGen (Device.mirrorPassesTo p h) d d') : d'.Safe p i h good := by
  induction hpass with
  | refl => exact hd
  | tail _ hstep ih => exact safe_of_passes ih hfit hstep

/-! ### The last START -/

/-- A command's end completes it with this code, or a power loss restarts the block. -/
theorem finish_completes (hy : finish e s = .next y) :
    (y.m = s.m ∧ y.devM = s.devM ∧ y.status.err = e) ∨ s.Restarted y := by
  have hpoint := point_ends id none s
  rcases finish_cases e s with ⟨t, ht, hf⟩ | ⟨f, t, -, hf⟩ | ⟨x, t, ht, hx, hf⟩ <;> rw [hf] at hy <;> cases hy
  · obtain ⟨hframe, -, -⟩ := point_frame ht
    exact .inl ⟨by rw [hframe]; rfl, by rw [hframe]; rfl, rfl⟩
  · rw [ht] at hpoint
    rcases hpoint with ⟨f, rfl⟩ | ⟨-, -, hr⟩
    · exact absurd rfl (hx f)
    · exact .inr hr

/-- A START after which the unit is READY and ERR is OK ran its procedure to the end. -/
theorem mirrorStart_completed (hy : exec (.mirrorStart hid) x = .next y) (hdrv : y.m.drv = .ready)
    (herr : y.status.err = .ok) : ∃ t, mirrorStartBody x = .ok () t ∧ y.m = t.m ∧ y.devM = t.devM := by
  have hrestart {s : State} (hr : s.Restarted y) : False := by
    rw [hr.m] at hdrv
    cases hdrv
  rw [exec_eq_runCommand] at hy
  unfold runCommand at hy
  split at hy
  · rcases finish_completes hy with ⟨-, -, he⟩ | hr
    · cases he.symm.trans herr
    · exact (hrestart hr).elim
  · rcases conclude_cases (Instr.mirrorStart hid).unit (setsRecover (.mirrorStart hid)) (bodyOf (.mirrorStart hid) x) with
      ⟨⟨⟩, r, hr, hf⟩ | ⟨e, r, hr, hf⟩ | ⟨r, hr, hf⟩ | ⟨f, r, -, hf⟩ <;> rw [hf] at hy
    · rcases finish_completes hy with ⟨hm, hd, -⟩ | hres
      · exact ⟨r, hr, hm, hd⟩
      · exact (hrestart hres).elim
    · rcases finish_completes hy with ⟨-, -, he⟩ | hres
      · exact absurd (he.symm.trans herr) (body_raised hr).1
      · exact (hrestart hres).elim
    · cases hy
      rcases hr with hr | hr
      · exact (hrestart (body_powerLost hr).2).elim
      · obtain ⟨⟨u, g, hins⟩, -⟩ := body_waiting hr
        cases u <;> cases hins
    · cases hy

/-- The last START leaves equal and good copies. -/
theorem mirrorStart_completes_twin (hx : x.devM.Safe p i h good) (hfit : MirrorFit p i h) (hp : x.params = p)
    (hcfg : x.opCfg = h) (hy : exec (.mirrorStart hid) x = .next y) (hdrv : y.m.drv = .ready)
    (herr : y.status.err = .ok) : y.mirrorA = y.mirrorB ∧ good y.mirrorA := by
  obtain ⟨t, hbody, hm, hd⟩ := mirrorStart_completed hy hdrv herr
  have hends := mirrorStart_repairs hx hfit hp hcfg
  rw [hbody] at hends
  obtain ⟨hat, -, htwin⟩ := hends
  have hA : y.mirrorA = imageA i h t.devM.cur.byteAt := by
    rw [← hat.mirrorA_eq]
    unfold State.mirrorA
    rw [hm, hd]
  have hB : y.mirrorB = imageB i h t.devM.cur.byteAt := by
    rw [← hat.mirrorB_eq]
    unfold State.mirrorB
    rw [hm, hd]
  exact ⟨by rw [hA, hB, htwin.equal], hA.symm ▸ htwin.good⟩

end Sys2Proof.Machine

namespace Sys2Proof.Proofs

/-- Settles O27: the mutation, and all that comes before the last START, keep the bits that name a good half and hold
it; the last START copies that half over the other. -/
theorem mirrorWriteIsAtomicWithLogRoom : Obligations.MirrorWriteIsAtomicWithLogRoom := by
  unfold Obligations.MirrorWriteIsAtomicWithLogRoom
  intro s ins hid addr n new hsettled hchange hroom t x y hid' cfg ht hcfg hpass hp hxcfg hy hdrv herr
  obtain ⟨h, hs⟩ := mirrorRests_of_settled hsettled
  obtain ⟨hserves, -⟩ := hsettled
  have hat := hs.holds.at_
  obtain rfl : cfg = h := Nat.eq_of_mul_eq_mul_right hat.fit.sectorSize_pos (hcfg.trans hat.hdrBytes)
  rw [hat.logEntries] at hroom
  have hcut := exec_safe hs.safe (hs.change_safe hserves hchange hroom) ht
  exact mirrorStart_completes_twin (safe_of_passes_many hcut hat.fit hpass) hat.fit hp hxcfg hy hdrv herr

end Sys2Proof.Proofs
end

