-- ==== Sys2Proof/Proofs/FeeScans.lean ====
section
/-! PROOF. What the FEE engine's reading procedures answer where nothing outside interferes, and FEE.READ
(42_fee.md R202, R207 to R209, R213, R221). -/

open Sys2Proof Sys2Proof.Machine

namespace Sys2Proof.Machine

variable {p : Params} {d : DevInfo} {s t : State} {i j n : Nat} {q q' : Nat → Bool}

/-! ### The last index that passes -/

/-- The highest index below n that passes. -/
def lastBelow (q : Nat → Bool) (n : Nat) : Option Nat := ((List.range n).filter q).getLast?

theorem lastBelow_zero (q : Nat → Bool) : lastBelow q 0 = none := rfl

theorem lastBelow_succ (q : Nat → Bool) (n : Nat) : lastBelow q (n + 1) = if q n then some n else lastBelow q n := by
  unfold lastBelow
  rw [List.range_succ, List.filter_append]
  by_cases h : q n = true
  · simp [h]
  · simp [h]

theorem lastBelow_eq_some_iff :
    lastBelow q n = some i ↔ i < n ∧ q i = true ∧ ∀ j, i < j → j < n → q j = false := by
  induction n with
  | zero => simp [lastBelow_zero]
  | succ n ih =>
    rw [lastBelow_succ]
    by_cases hn : q n = true
    · rw [if_pos hn, Option.some.injEq]
      refine ⟨fun h => h ▸ ⟨n.lt_succ_self, hn, fun j h1 h2 => by omega⟩, fun ⟨hlt, _, hlast⟩ => ?_⟩
      by_contra hne
      have hfalse := hlast n (by omega) n.lt_succ_self
      rw [hn] at hfalse
      cases hfalse
    · rw [if_neg hn, ih]
      refine ⟨fun ⟨h1, h2, h3⟩ => ⟨by omega, h2, fun j hj hjn => ?_⟩,
        fun ⟨h1, h2, h3⟩ => ⟨?_, h2, fun j hj hjn => h3 j hj (by omega)⟩⟩
      · rcases Nat.lt_succ_iff_lt_or_eq.1 hjn with h | rfl
        · exact h3 j hj h
        · simpa using hn
      · rcases Nat.lt_succ_iff_lt_or_eq.1 h1 with h | rfl
        · exact h
        · exact absurd h2 hn

theorem lastBelow_eq_none_iff : lastBelow q n = none ↔ ∀ j, j < n → q j = false := by
  simp [lastBelow]

theorem lastBelow_congr (h : ∀ j, j < n → q' j = q j) : lastBelow q' n = lastBelow q n := by
  unfold lastBelow
  rw [List.filter_congr fun j hj => h j (List.mem_range.1 hj)]

/-! ### What a slot reads as -/

/-- The test of 42_fee.md R209: slot i is VALID and carries the key. -/
def State.holdsKey (s : State) (key i : Nat) : Bool := s.slotStateAt i == .valid && s.slotKeyAt i == key

/-- Slot i is VALID and its chunk covers byte x (42_fee.md R213). -/
def State.coversByte (s : State) (x i : Nat) : Bool :=
  s.slotStateAt i == .valid && decide (s.slotKeyAt i ≤ x ∧ x < s.slotKeyAt i + s.params.payload)

theorem State.chunkHolder_eq (s : State) (key : Nat) :
    s.chunkHolder key = lastBelow (s.holdsKey key) s.f.slotsUsed.toNat := rfl

theorem State.byteHolder_eq (s : State) (x : Nat) :
    s.byteHolder x = lastBelow (s.coversByte x) s.f.slotsUsed.toNat := rfl

theorem State.holdsKey_iff {key : Nat} :
    s.holdsKey key i = true ↔ s.slotStateAt i = .valid ∧ s.slotKeyAt i = key := by simp [State.holdsKey]

/-- One more than the highest slot below n that is not UNUSED (42_fee.md R207). -/
def State.usedBelow (s : State) (a : Arena) (n : Nat) : Nat :=
  (lastBelow (fun i => s.slotStateIn a i != .unused) n).elim 0 (· + 1)

theorem State.usedBelow_succ (s : State) (a : Arena) (n : Nat) :
    s.usedBelow a (n + 1) = if s.slotStateIn a n != .unused then n + 1 else s.usedBelow a n := by
  unfold State.usedBelow
  rw [lastBelow_succ]
  split <;> rfl

theorem State.loadedSlots_eq (s : State) (a : Arena) : s.loadedSlots a = s.usedBelow a s.f.numSlots.toNat := by
  unfold State.loadedSlots State.usedBelow lastBelow
  split
  · next h => rw [h]; rfl
  · next h => rw [h]; rfl

theorem State.usedBelow_le (s : State) (a : Arena) (n : Nat) : s.usedBelow a n ≤ n := by
  induction n with
  | zero => exact le_rfl
  | succ n ih =>
    rw [State.usedBelow_succ]
    split <;> omega

/-- What slot i gives byte x of its chunk. -/
def State.slotByte (s : State) (i x : Nat) : Byte := ((s.slotPayloadAt i)[x - s.slotKeyAt i]?).getD erasedByte

/-- Byte x as the slots below n give it (42_fee.md R213). -/
def State.byteBelow (s : State) (n x : Nat) : Byte :=
  (lastBelow (s.coversByte x) n).elim erasedByte fun i => s.slotByte i x

theorem State.byteBelow_succ (s : State) (n x : Nat) :
    s.byteBelow (n + 1) x = if s.coversByte x n then s.slotByte n x else s.byteBelow n x := by
  unfold State.byteBelow
  rw [lastBelow_succ]
  split <;> rfl

theorem State.feeByte_eq (s : State) (x : Nat) : s.feeByte x = s.byteBelow s.f.slotsUsed.toNat x := by
  unfold State.feeByte State.byteBelow
  rw [State.byteHolder_eq]
  cases lastBelow (s.coversByte x) s.f.slotsUsed.toNat <;> rfl

theorem length_slotPayloadAt (s : State) (i : Nat) : (s.slotPayloadAt i).length = s.params.payload := length_bytesAt ..

theorem State.chunkValue_some {key : Nat} (h : s.chunkHolder key = some i) : s.chunkValue key = s.slotPayloadAt i := by
  unfold State.chunkValue
  rw [h]

theorem State.chunkValue_none {key : Nat} (h : s.chunkHolder key = none) :
    s.chunkValue key = fill erasedByte s.params.payload := by
  unfold State.chunkValue
  rw [h]

theorem length_chunkValue (s : State) (key : Nat) : (s.chunkValue key).length = s.params.payload := by
  unfold State.chunkValue
  split
  · exact length_slotPayloadAt ..
  · exact length_fill ..

/-! ### Reads of the device -/

section reads
variable (h : FeeAt p d s) (hu : s.undisturbed = true)
include h hu

/-- A read within an arena. -/
theorem devRead_arena (a : Arena) {x n : Nat} (hx : x + n ≤ arenaAt d a + arenaSpan d) :
    devRead .fee x n s = .ok (s.devF.cur.bytesAt x n) s :=
  devRead_undisturbed hu (decide_eq_true (h.readable a hx))

theorem headerState_undisturbed (a : Arena) : headerState a s = .ok (s.headerAt a) s := by
  have hmark := headerMark_le s.params.widthF
  have hspan := h.fit.slot_le_arena
  have hbase := h.arenaBase a
  unfold headerState
  rw [Proc.bind_ok (Proc.get_apply s)]
  rw [Proc.bind_ok (devRead_arena h hu a (by omega)), Proc.bind_ok (devRead_arena h hu a (by omega)),
    Proc.bind_ok (devRead_arena h hu a (by omega))]
  rfl

section slot
variable (hi : i < slotCount p d)
include hi

/-- A read within a slot. -/
theorem devRead_slot (a : Arena) {off n : Nat} (hn : off + n ≤ slotSpan p) :
    devRead .fee (s.f.slotBase a i + off) n s = .ok (s.devF.cur.bytesAt (s.f.slotBase a i + off) n) s := by
  have hend := h.fit.slot_end_le hi a
  rw [h.slotBase]
  exact devRead_arena h hu a (by omega)

theorem slotMark_undisturbed (a : Arena) : slotMark a i s = .ok (s.slotStateIn a i) s := by
  have hkey := marks_le_key p.widthF
  have hpay := payload_le_slotSpan p
  unfold slotPayloadOffset at hpay
  have hw := h.widthF
  have hfirst := devRead_slot h hu hi a (off := 0) (n := s.params.widthF.bytes) (by rw [hw]; omega)
  rw [Nat.add_zero] at hfirst
  unfold slotMark
  rw [Proc.bind_ok (Proc.get_apply s), Proc.bind_ok hfirst,
    Proc.bind_ok (devRead_slot h hu hi a (by rw [hw]; omega))]
  rfl

theorem slotKey_undisturbed : slotKey s.f.active i s = .ok (s.slotKeyAt i) s := by
  have hpay := payload_le_slotSpan p
  unfold slotPayloadOffset at hpay
  unfold slotKey
  rw [Proc.bind_ok (Proc.get_apply s)]
  rw [Proc.bind_ok (devRead_slot h hu hi _ (by rw [h.widthF]; omega))]
  rfl

theorem slotPayload_undisturbed : slotPayload s.f.active i s = .ok (s.slotPayloadAt i) s := by
  unfold slotPayload
  rw [Proc.bind_ok (Proc.get_apply s)]
  exact devRead_slot h hu hi _ (by rw [h.params]; exact payload_le_slotSpan p)

theorem slotRecord_undisturbed (a : Arena) :
    slotRecord a i s = .ok (s.devF.cur.bytesAt (slotAt p d a i) (slotSpan p)) s := by
  unfold slotRecord
  rw [Proc.bind_ok (Proc.get_apply s), ← h.slotBase, ← h.slotSize]
  exact devRead_slot h hu hi a (off := 0) (by rw [h.slotSize]; omega)

theorem slotMatches_undisturbed (key : Nat) : slotMatches s.f.active key i s = .ok (s.holdsKey key i) s := by
  have hmark := slotMark_undisturbed h hu hi s.f.active
  unfold slotMatches State.holdsKey State.slotStateAt
  rw [Proc.bind_ok hmark]
  cases s.slotStateIn s.f.active i with
  | valid =>
    show (slotKey s.f.active i >>= fun k => pure (k == key) : Proc Bool) s = _
    rw [Proc.bind_ok (slotKey_undisturbed h hu hi)]
    rfl
  | unused => rfl
  | dirty => rfl
  | unknown => rfl

/-- What one slot adds to the output of a read: the bytes that it covers. -/
theorem readSlot_undisturbed (addr len : Nat) :
    readSlot s.f.active addr i ((List.range len).map fun k => s.byteBelow i (addr + k)) s =
      .ok ((List.range len).map fun k => s.byteBelow (i + 1) (addr + k)) s := by
  have hmark := slotMark_undisturbed h hu hi s.f.active
  have hskip (hno : ∀ k, k < len → s.coversByte (addr + k) i = false) :
      (List.range len).map (fun k => s.byteBelow i (addr + k))
        = (List.range len).map fun k => s.byteBelow (i + 1) (addr + k) :=
    List.map_congr_left fun k hk => by
      rw [State.byteBelow_succ, if_neg (by rw [hno k (List.mem_range.1 hk)]; decide)]
  unfold readSlot
  rw [Proc.bind_ok hmark]
  have hother (hne : s.slotStateIn s.f.active i ≠ .valid) (k : Nat) : s.coversByte (addr + k) i = false := by
    simp [State.coversByte, State.slotStateAt, hne]
  cases hst : s.slotStateIn s.f.active i with
  | unused => rw [hskip fun k _ => hother (by rw [hst]; decide) k]; rfl
  | dirty => rw [hskip fun k _ => hother (by rw [hst]; decide) k]; rfl
  | unknown => rw [hskip fun k _ => hother (by rw [hst]; decide) k]; rfl
  | valid =>
    have hcov (x : Nat) : s.coversByte x i
        = decide (s.slotKeyAt i ≤ x ∧ x < s.slotKeyAt i + s.params.payload) := by
      simp [State.coversByte, State.slotStateAt, hst]
    dsimp only
    rw [Proc.bind_ok (slotKey_undisturbed h hu hi), Proc.bind_ok (Proc.get_apply s)]
    by_cases hov : chunkOverlaps s.params.payload addr len (s.slotKeyAt i) = true
    · rw [if_pos (by simpa using hov), Proc.bind_ok (slotPayload_undisturbed h hu hi)]
      refine congrArg (fun l => EStateM.Result.ok l s) (List.ext_getElem (by simp [overlay]) fun k hk _ => ?_)
      simp only [overlay, List.length_mapIdx, List.length_map, List.length_range] at hk
      simp only [overlay, List.getElem_mapIdx, List.getElem_map, List.getElem_range, State.byteBelow_succ, hcov]
      by_cases hlo : s.slotKeyAt i ≤ addr + k
      · by_cases hhi : addr + k < s.slotKeyAt i + s.params.payload
        · have hlt : addr + k - s.slotKeyAt i < (s.slotPayloadAt i).length := by
            rw [length_slotPayloadAt]
            omega
          simp [State.slotByte, hlo, hhi, List.getElem?_eq_getElem hlt]
        · have hge : (s.slotPayloadAt i).length ≤ addr + k - s.slotKeyAt i := by
            rw [length_slotPayloadAt]
            omega
          simp [hlo, hhi, List.getElem?_eq_none hge]
      · simp [hlo]
    · rw [if_neg (by simpa using hov), hskip fun k hk => ?_]
      · rfl
      · rw [hcov]
        simp only [chunkOverlaps, decide_eq_true_eq] at hov
        exact decide_eq_false fun ⟨h1, h2⟩ => hov ⟨by omega, by omega⟩

end slot

/-! ### Scans -/

theorem countUsed_undisturbed (a : Arena) (n i : Nat) (hi : i + n ≤ slotCount p d) :
    countUsed a (s.usedBelow a i) n i s = .ok (s.usedBelow a (i + n)) s := by
  induction n generalizing i with
  | zero => rfl
  | succ n ih =>
    have hnext := ih (i + 1) (by omega)
    rw [State.usedBelow_succ, Nat.add_right_comm] at hnext
    unfold countUsed
    rw [Proc.bind_ok (slotMark_undisturbed h hu (by omega) a)]
    cases hst : s.slotStateIn a i <;> rw [hst] at hnext <;> exact hnext

theorem lookupFrom_undisturbed (key n i : Nat) (hi : i + n ≤ slotCount p d) :
    lookupFrom s.f.active key (lastBelow (s.holdsKey key) i) n i s = .ok (lastBelow (s.holdsKey key) (i + n)) s := by
  induction n generalizing i with
  | zero => rfl
  | succ n ih =>
    have hnext := ih (i + 1) (by omega)
    rw [lastBelow_succ, Nat.add_right_comm] at hnext
    unfold lookupFrom
    rw [Proc.bind_ok (slotMatches_undisturbed h hu (by omega) key)]
    split at hnext <;> rename_i hq
    · rw [if_pos hq]
      exact hnext
    · rw [if_neg hq]
      exact hnext

theorem readSlots_undisturbed (addr len n i : Nat) (hi : i + n ≤ slotCount p d) :
    readSlots s.f.active addr n i ((List.range len).map fun k => s.byteBelow i (addr + k)) s =
      .ok ((List.range len).map fun k => s.byteBelow (i + n) (addr + k)) s := by
  induction n generalizing i with
  | zero => rfl
  | succ n ih =>
    have hnext := ih (i + 1) (by omega)
    rw [Nat.add_right_comm] at hnext
    unfold readSlots
    rw [Proc.bind_ok (readSlot_undisturbed h hu (by omega) addr len)]
    exact hnext

variable (hn : s.f.slotsUsed.toNat ≤ slotCount p d)
include hn

omit h hu in
/-- A holder is a slot in use. -/
theorem chunkHolder_lt {key : Nat} (hk : s.chunkHolder key = some i) : i < slotCount p d :=
  lt_of_lt_of_le (lastBelow_eq_some_iff.1 hk).1 hn

theorem lookup_undisturbed (key : Nat) : lookup s.f.active key s = .ok (s.chunkHolder key) s := by
  have hscan := lookupFrom_undisturbed h hu key s.f.slotsUsed.toNat 0 (by omega)
  rw [Nat.zero_add] at hscan
  exact hscan

theorem chunkPayload_undisturbed (key : Nat) : chunkPayload key s = .ok (s.chunkValue key) s := by
  unfold chunkPayload State.chunkValue
  rw [Proc.bind_ok (Proc.get_apply s), Proc.bind_ok (lookup_undisturbed h hu hn key)]
  cases hk : s.chunkHolder key with
  | none => rfl
  | some r => exact slotPayload_undisturbed h hu (chunkHolder_lt hn hk)

theorem readRange_undisturbed (addr len : Nat) :
    readRange addr len s = .ok ((List.range len).map fun k => s.feeByte (addr + k)) s := by
  have hscan := readSlots_undisturbed h hu addr len s.f.slotsUsed.toNat 0 (by omega)
  have hinit : (List.range len).map (fun k => s.byteBelow 0 (addr + k)) = fill erasedByte len :=
    List.map_const' .. |>.trans (by rw [List.length_range]; rfl)
  rw [Nat.zero_add, hinit] at hscan
  simp only [State.feeByte_eq]
  exact hscan

end reads

/-! ### FEE.READ -/

theorem feeReadBody_of_serves {hid : HostId} (hs : s.serves .fee hid) (h : FeeAt p d s) (hu : s.undisturbed = true)
    (hn : s.f.slotsUsed.toNat ≤ slotCount p d) (hbuf : s.opLen ≤ s.params.bufBytes)
    (hin : s.opAddr + s.opLen ≤ s.f.logicalSize.toNat) :
    feeReadBody s = .ok () (s.setBuf 0 ((List.range s.opLen).map fun k => s.feeByte (s.opAddr + k))) := by
  have hserves := feeServes_of_serves hs
  have hrange : (decide (s.opLen ≤ s.params.bufBytes) && s.feeInRange) = true :=
    Bool.and_eq_true_iff.2 ⟨decide_eq_true hbuf, decide_eq_true hin⟩
  by_cases hzero : s.opLen = 0
  · rw [feeReadBody_no_bytes hzero hserves (by omega), hzero]
    rfl
  · unfold feeReadBody
    rw [checked_get_apply hserves, required_apply _ hrange, if_neg hzero]
    refine guardRead_ok ?_
    rw [Proc.bind_ok (readRange_undisturbed h hu hn _ _), bufStore_apply, if_pos]
    rw [List.length_map, List.length_range]
    exact hbuf

end Sys2Proof.Machine

namespace Sys2Proof.Proofs

/-- Settles O29: the scan of the slots in use leaves each byte of the output at the last slot that covers it. -/
theorem feeReadReturnsTheLastValues : Obligations.FeeReadReturnsTheLastValues := by
  unfold Obligations.FeeReadReturnsTheLastValues
  intro h s hs hu hl hn hbuf hin
  obtain ⟨hadmits, -⟩ := id hs
  have hat := feeAt_of_laidOut hl
  have hbody := feeReadBody_of_serves hs hat hu (hat.numSlots ▸ hn) hbuf hin
  exact exec_of_body_ok (i := .feeRead h) hadmits hbody (uneventful_of_eq (undisturbed_uneventful hu) rfl)

end Sys2Proof.Proofs
end

