-- ==== Sys2Proof/Proofs/FeeSteps.lean ====
section
/-! PROOF. What the FEE engine's writing procedures leave where nothing outside interferes, to the byte: marks, headers,
erased and formatted arenas, appended records (42_fee.md R203 to R206, R210). -/

open Sys2Proof Sys2Proof.Machine

namespace Sys2Proof.Machine

variable {α β : Type} {c c' : Prop} {p : Params} {d : DevInfo} {s t r : State} {f f' : FeeUnit} {g g' : Nat → Byte}
  {a : Arena} {x y i n : Nat}

/-! ### Procedures that nothing makes end early -/

/-- The procedure ends well, as `Q` says. -/
abbrev Completes (Q : α → State → Prop) (q : Proc α) (s : State) : Prop := Ends Q (fun _ _ => False) (q s)

theorem Completes.exists_ok {Q : α → State → Prop} {q : Proc α} (h : Completes Q q s) :
    ∃ v t, q s = .ok v t ∧ Q v t := by
  unfold Completes at h
  cases hq : q s with
  | ok v t => exact ⟨v, t, rfl, by rwa [hq] at h⟩
  | error e t => rw [hq] at h; exact h.elim

theorem completes_of_ok {Q : α → State → Prop} {q : Proc α} {v : α} (h : q s = .ok v t) (hQ : Q v t) :
    Completes Q q s := by
  unfold Completes
  rw [h]
  exact hQ

/-- A first part that answers and changes nothing. -/
theorem Completes.after {Q : β → State → Prop} {q : Proc α} {k : α → Proc β} {v : α} (h : q s = .ok v t)
    (hk : Completes Q (k v) t) : Completes Q (q >>= k) s := by
  unfold Completes
  rwa [Proc.bind_ok h]

/-! ### What becomes of the bank and the device -/

/-- `t` is `s` with this FEE bank and DEV_F reading as these bytes; with `c`, all of them are durable. -/
structure State.Turns (c : Prop) (s : State) (f : FeeUnit) (g : Nat → Byte) (t : State) : Prop where
  rest : t = { s with f := f, devF := t.devF }
  info : t.devF.info = s.devF.info
  owned : t.devF.owned = s.devF.owned
  reads : t.devF.Reads g
  durable : c → t.devF.pending = [] ∧ t.devF.dur = t.devF.cur

namespace State.Turns

theorem bank (h : s.Turns c f g t) : t.f = f := by rw [h.rest]

theorem trans (h : s.Turns c f g t) (k : t.Turns c' f' g' r) : s.Turns c' f' g' r where
  rest := k.rest.trans (by rw [h.rest])
  info := k.info.trans h.info
  owned := k.owned.trans h.owned
  reads := k.reads
  durable := k.durable

/-- Registers of the bank change, and the device stays. -/
theorem setBank (h : s.Turns c f g t) (f' : FeeUnit) : s.Turns c f' g { t with f := f' } :=
  ⟨by rw [h.rest], h.info, h.owned, h.reads, h.durable⟩

theorem cast (h : s.Turns c f g t) (hf : f = f') (hg : g = g') : s.Turns c f' g' t := by rwa [hf, hg] at h

/-- That the bytes are durable may be forgotten. -/
theorem unsettled (h : s.Turns c f g t) : s.Turns False f g t := ⟨h.rest, h.info, h.owned, h.reads, False.elim⟩

theorem undisturbed (h : s.Turns c f g t) (hs : s.undisturbed = true) : t.undisturbed = true :=
  undisturbed_of_eq hs (by rw [h.rest]) (by rw [h.rest])

theorem settledAs (h : s.Turns c f g t) (hc : c) : s.devF.settledAs t.devF g :=
  ⟨h.info, h.owned, (h.durable hc).1, (h.durable hc).2, congrFun h.reads.bytes⟩

end State.Turns

/-- The FEE unit on its device, which reads as these bytes, with nothing outside that interferes. -/
structure FeeOn (p : Params) (d : DevInfo) (g : Nat → Byte) (s : State) : Prop where
  laid : FeeAt p d s
  calm : s.undisturbed = true
  reads : s.devF.Reads g

theorem FeeOn.turns (h : FeeOn p d g s) (k : s.Turns c f g' t) (hf : f.geometry = s.f.geometry) : FeeOn p d g' t where
  laid := h.laid.congr (by rw [k.rest]; show (_, _, t.devF.info) = _; rw [k.info]; rfl) (by rw [k.bank, hf])
  calm := k.undisturbed h.calm
  reads := k.reads

/-- Registers of the bank other than the geometry change. -/
theorem FeeOn.setBank (h : FeeOn p d g s) (hf : f.geometry = s.f.geometry) : FeeOn p d g { s with f := f } :=
  ⟨h.laid.congr rfl hf, undisturbed_of_eq h.calm rfl rfl, h.reads⟩

theorem FeeOn.still_turns (h : FeeOn p d g s) : s.Turns False s.f g s := ⟨rfl, rfl, rfl, h.reads, False.elim⟩

@[simp] theorem geometry_setArenaState (f : FeeUnit) (a : Arena) (v : ArenaState) :
    (f.setArenaState a v).geometry = f.geometry := by cases a <;> rfl

theorem feeRegs_undisturbed (hu : s.undisturbed = true) (gs : List (FeeUnit → FeeUnit)) :
    feeRegs gs s = .ok () { s with f := gs.foldl (fun f g => g f) s.f } :=
  feeRegs_uneventful (undisturbed_uneventful hu) gs

/-! ### Bytes laid over bytes -/

/-- A write whose bytes are 0 or go to erased bytes lays them over. -/
theorem write_on_of {x : Nat} {data : List Byte}
    (he : ∀ k, (hk : k < data.length) → data[k] = 0 ∨ g (x + k) = erasedByte) :
    (PendOp.write x data).on g = overlayBytes g x data := by
  funext y
  show ite _ _ _ = ite _ _ _
  by_cases hy : x ≤ y ∧ y < x + data.length
  · rw [if_pos hy, if_pos hy]
    have hk := he (y - x) (by omega)
    rw [Nat.add_sub_cancel' hy.1] at hk
    rw [List.getElem?_eq_getElem (show y - x < data.length by omega), Option.getD_some]
    rcases hk with h0 | h0
    · rw [h0]
      exact BitVec.and_zero
    · rw [h0, show erasedByte = BitVec.allOnes 8 from rfl, BitVec.allOnes_and]
  · rw [if_neg hy, if_neg hy]

/-- What is laid over wholly covers what was laid there before. -/
theorem overlay_overlay {xs ys : List Byte} (h : xs.length ≤ ys.length) :
    overlayBytes (overlayBytes g x xs) x ys = overlayBytes g x ys := by
  funext y
  unfold overlayBytes
  split_ifs <;> first | rfl | omega

/-- A middle part laid over a string. -/
theorem overlay_middle {xs ys ys' zs : List Byte} (h : ys'.length = ys.length) :
    overlayBytes (overlayBytes g x (xs ++ ys ++ zs)) (x + xs.length) ys' = overlayBytes g x (xs ++ ys' ++ zs) := by
  funext y
  unfold overlayBytes
  simp only [List.length_append, h]
  by_cases hall : x ≤ y ∧ y < x + (xs.length + ys.length + zs.length)
  · by_cases hmid : x + xs.length ≤ y ∧ y < x + xs.length + ys.length
    · rw [if_pos hmid, if_pos hall, List.getElem?_append_left (by simp; omega),
        List.getElem?_append_right (by omega)]
      congr 2
      omega
    · rw [if_neg hmid, if_pos hall, if_pos hall]
      rcases Nat.lt_or_ge (y - x) xs.length with hlt | hge
      · simp [List.getElem?_append, hlt]
      · have hpast : xs.length + ys.length ≤ y - x := by omega
        rw [List.getElem?_append_right (by simpa using hpast), List.getElem?_append_right (by simpa [h] using hpast)]
        simp [h]
  · rw [if_neg (by omega), if_neg hall, if_neg hall]

/-! ### The device primitives -/

section device
variable (h : FeeOn p d g s)
include h

theorem devWrite_turns (a : Arena) {data : List Byte} (hx : x + data.length ≤ arenaAt d a + arenaSpan d)
    (hax : d.writeAlign ∣ x) (han : d.writeAlign ∣ data.length)
    (he : ∀ k, (hk : k < data.length) → data[k] = 0 ∨ g (x + k) = erasedByte) :
    Completes (fun _ t => s.Turns False s.f (overlayBytes g x data) t) (devWrite .fee x data) s := by
  have hover : s.devF.overwrites x data = false :=
    overwrites_eq_false fun k hk => by rw [h.reads.bytes]; exact he k hk
  refine completes_of_ok (devWrite_undisturbed h.calm (h.laid.writable a hx hax han) hover)
    ⟨rfl, rfl, rfl, ?_, False.elim⟩
  rw [← write_on_of he]
  exact h.reads.perform _

theorem devErase_turns (a : Arena) (hx : x + n ≤ arenaAt d a + arenaSpan d) (hax : d.sectorSize ∣ x)
    (han : d.sectorSize ∣ n) :
    Completes (fun _ t => s.Turns False s.f (eraseBytes g x n) t) (devErase .fee x n) s :=
  completes_of_ok (devErase_undisturbed h.calm (h.laid.erasable a hx hax han))
    ⟨rfl, rfl, rfl, h.reads.perform (.erase x n), False.elim⟩

theorem devSync_turns : Completes (fun _ t => s.Turns True s.f g t) (devSync .fee) s :=
  completes_of_ok (devSync_undisturbed h.calm .fee) ⟨rfl, rfl, rfl, h.reads.synced, fun _ => ⟨rfl, rfl⟩⟩

/-- What leaves the bank, and a sync after it. -/
theorem Completes.synced {q : Proc Unit} (hq : Completes (fun _ t => s.Turns c s.f g' t) q s) :
    Completes (fun _ t => s.Turns True s.f g' t) (do q; devSync .fee) s := by
  refine Ends.bind hq fun _ t k => Ends.mono (devSync_turns (h.turns k rfl)) (fun _ r k' => ?_) fun _ _ e => e
  exact (k.trans k').cast k.bank rfl

/-- A zero mark word within an arena (40_codec.md R145). -/
theorem writeMarkWord_turns (a : Arena) (hx : x + p.widthF.bytes ≤ arenaAt d a + arenaSpan d)
    (hax : d.writeAlign ∣ x) :
    Completes (fun _ t => s.Turns True s.f (overlayBytes g x (fill 0 p.widthF.bytes)) t)
      (writeMarkWord .fee x 0) s := by
  unfold writeMarkWord
  refine .read ?_
  rw [show s.markWidth .fee = p.widthF from h.laid.widthF, leBytes_zero]
  exact Completes.synced h (devWrite_turns h a (by simpa using hx) hax (by simpa using h.laid.fit.align_dvd_width)
    fun k _ => .inl (List.getElem_replicate ..))

end device

/-! ### Registers -/

theorem setArenaState_undisturbed (hu : s.undisturbed = true) (a : Arena) (v : ArenaState) :
    setArenaState a v s = .ok () { s with f := s.f.setArenaState a v } := feeRegs_undisturbed hu _

theorem setActive_undisturbed (hu : s.undisturbed = true) (a : Arena) :
    setActive a s = .ok () { s with f := { s.f with active := a } } := feeRegs_undisturbed hu _

theorem setSlotsUsed_undisturbed (hu : s.undisturbed = true) (n : Nat) :
    setSlotsUsed n s = .ok () { s with f := { s.f with slotsUsed := BitVec.ofNat 32 n } } := feeRegs_undisturbed hu _

/-! ### Headers -/

/-- The bytes with the header image laid over an arena's header (42_fee.md R203). -/
def headerBytes (p : Params) (d : DevInfo) (a : Arena) (g : Nat → Byte) : Nat → Byte :=
  overlayBytes g (arenaAt d a) (headerImage p)

/-- The bytes with an arena reset (42_fee.md R205). -/
def reinitBytes (p : Params) (d : DevInfo) (a : Arena) (g : Nat → Byte) : Nat → Byte :=
  headerBytes p d a (eraseBytes g (arenaAt d a) (arenaSpan d))

/-- The bytes with a mark of an arena's header cleared (42_fee.md R204). -/
def markBytes (p : Params) (d : DevInfo) (a : Arena) (off : Nat) (g : Nat → Byte) : Nat → Byte :=
  overlayBytes g (arenaAt d a + off) (fill 0 p.widthF.bytes)

section header
variable (h : FeeOn p d g s)
include h

/-- A mark within a header, and the register that follows it (42_fee.md R204). -/
theorem headerMark_turns (a : Arena) (v : ArenaState) {off : Nat} (hoff : off + p.widthF.bytes ≤ 32)
    (hal : p.widthF.bytes ∣ off) :
    Completes (fun _ t => s.Turns True (s.f.setArenaState a v) (markBytes p d a off g) t)
      (do writeMarkWord .fee (arenaAt d a + off) 0; setArenaState a v) s := by
  have hspan := h.laid.fit.slot_le_arena
  have halign := (h.laid.fit.align_dvd_arenaAt a).add (h.laid.fit.align_dvd_width.trans hal)
  refine Ends.bind (writeMarkWord_turns h a (by omega) halign) fun _ t k => ?_
  refine completes_of_ok (setArenaState_undisturbed (k.undisturbed h.calm) a v) ?_
  rw [k.bank]
  exact k.setBank _

theorem markArenaActive_turns (a : Arena) :
    Completes (fun _ t => s.Turns True (s.f.setArenaState a .active) (markBytes p d a (headerMark0 p.widthF) g) t)
      (markArenaActive a) s := by
  unfold markArenaActive
  refine .read ?_
  rw [h.laid.arenaBase, h.laid.widthF]
  exact headerMark_turns h a .active (headerMark_le _).1 (width_dvd_mark0 _)

theorem markArenaFrozen_turns (a : Arena) :
    Completes (fun _ t => s.Turns True (s.f.setArenaState a .frozen) (markBytes p d a (headerMark1 p.widthF) g) t)
      (markArenaFrozen a) s := by
  unfold markArenaFrozen
  refine .read ?_
  rw [h.laid.arenaBase, h.laid.widthF]
  exact headerMark_turns h a .frozen (headerMark_le _).2 (width_dvd_mark1 _)

/-- The header image goes to erased bytes. -/
theorem headerInit_turns (a : Arena) (he : ∀ x, arenaAt d a ≤ x → x < arenaAt d a + 32 → g x = erasedByte) :
    Completes (fun _ t => s.Turns True s.f (headerBytes p d a g) t) (headerInit a) s := by
  have hspan := h.laid.fit.slot_le_arena
  have hlen := length_headerImage p
  unfold headerInit
  refine .read ?_
  rw [h.laid.arenaBase, h.laid.params]
  refine Completes.synced h (devWrite_turns h a (by omega) (h.laid.fit.align_dvd_arenaAt a) ?_ fun k hk => ?_)
  · rw [hlen]
    exact h.laid.fit.align_dvd_width.trans (width_dvd_32 _)
  · exact .inr (he _ (Nat.le_add_right ..) (by omega))

/-- An erase of the sectors after the header's. -/
theorem eraseBody_turns (a : Arena) {eh : Nat} (hle : eh ≤ arenaSpan d) (hal : d.sectorSize ∣ eh) :
    Completes (fun _ t => s.Turns False s.f (eraseBytes g (arenaAt d a + eh) (arenaSpan d - eh)) t)
      (eraseBody (arenaAt d a) eh (arenaSpan d)) s := by
  unfold eraseBody
  refine .ite (fun hlt => ?_) fun hge => ?_
  · refine Ends.mono (Completes.synced h (devErase_turns h a (by omega) ((sector_dvd_arenaAt d a).add hal) ?_))
      (fun _ _ k => k.unsettled) fun _ _ e => e
    exact Nat.dvd_sub (Nat.dvd_mul_left _ _) hal
  · refine h.still_turns.cast rfl (funext fun y => (if_neg ?_).symm)
    omega

theorem arenaReinit_turns (a : Arena) :
    Completes (fun _ t => s.Turns True (s.f.setArenaState a .unused) (reinitBytes p d a g) t) (arenaReinit a) s := by
  have hle := h.laid.fit.header_sectors_le
  have h32 := le_roundup 32 h.laid.fit.sectorSize_pos
  have hsplit : eraseBytes (eraseBytes g (arenaAt d a) (roundup 32 d.sectorSize))
      (arenaAt d a + roundup 32 d.sectorSize) (arenaSpan d - roundup 32 d.sectorSize)
        = eraseBytes g (arenaAt d a) (arenaSpan d) := by
    funext y
    unfold eraseBytes
    split_ifs <;> first | rfl | omega
  unfold arenaReinit
  refine .read ?_
  rw [h.laid.arenaBase, h.laid.arenaBytes, h.laid.sectorSize]
  refine Ends.bind (devErase_turns h a (by omega) (sector_dvd_arenaAt d a) (dvd_roundup _ _)) fun _ s1 k1 => ?_
  have h1 := h.turns k1 rfl
  refine Ends.bind (devSync_turns h1) fun _ s2 k2 => ?_
  have h2 := h1.turns k2 rfl
  refine Ends.bind (eraseBody_turns h2 a hle (dvd_roundup _ _)) fun _ s3 k3 => ?_
  rw [hsplit] at k3
  have h3 := h2.turns k3 rfl
  refine Ends.bind (headerInit_turns h3 a fun x h1 h2 => if_pos ⟨h1, by omega⟩) fun _ s4 k4 => ?_
  have h4 := h3.turns k4 rfl
  refine completes_of_ok (setArenaState_undisturbed h4.calm a .unused) ?_
  have hbank : s4.f = s.f := by rw [k4.bank, k3.bank, k2.bank, k1.bank]
  rw [hbank]
  exact (((k1.trans k2).trans k3).trans k4).setBank _

theorem format_turns :
    Completes (fun _ t => s.Turns True { s.f with active := .a0, slotsUsed := 0, state0 := .active, state1 := .unused }
      (formattedBytes p (arenaSpan d) g) t) format s := by
  have hspan := h.laid.fit.slot_le_arena
  have hbytes : markBytes p d .a0 (headerMark0 p.widthF) (reinitBytes p d .a1 (reinitBytes p d .a0 g))
      = formattedBytes p (arenaSpan d) g := by
    have h0 : arenaAt d .a0 = 0 := Nat.zero_mul _
    have h1 : arenaAt d .a1 = arenaSpan d := Nat.one_mul _
    unfold markBytes reinitBytes headerBytes formattedBytes
    rw [h0, h1, Nat.zero_add]
    congr 1
    funext y
    simp only [overlayBytes, eraseBytes, length_headerImage]
    split_ifs <;> first | rfl | omega
  unfold format
  refine Ends.bind (arenaReinit_turns h .a0) fun _ s1 k1 => ?_
  have h1 := h.turns k1 (geometry_setArenaState ..)
  refine Ends.bind (arenaReinit_turns h1 .a1) fun _ s2 k2 => ?_
  have h2 := h1.turns k2 (geometry_setArenaState ..)
  refine Ends.bind (markArenaActive_turns h2 .a0) fun _ s3 k3 => ?_
  have h3 := h2.turns k3 (geometry_setArenaState ..)
  refine Completes.after (setActive_undisturbed h3.calm .a0) ?_
  refine completes_of_ok (setSlotsUsed_undisturbed (h3.setBank (f := { s3.f with active := .a0 }) rfl).calm 0) ?_
  have hbank : s3.f = ((s.f.setArenaState .a0 .unused).setArenaState .a1 .unused).setArenaState .a0 .active := by
    rw [k3.bank, k2.bank, k1.bank]
  exact ((((k1.trans k2).trans k3).setBank _).setBank _).cast
    (congrArg (fun f : FeeUnit => { f with active := .a0, slotsUsed := 0 }) hbank) hbytes

end header

/-! ### Records -/

/-- The bytes with a VALID record in a slot (30_encoding.md R114, R117, R118). -/
def recordBytes (p : Params) (d : DevInfo) (a : Arena) (i key : Nat) (pl : List Byte) (g : Nat → Byte) : Nat → Byte :=
  overlayBytes g (slotAt p d a i) (validRecord p (slotSpan p) key pl)

theorem length_validRecord (p : Params) (key : Nat) {pl : List Byte} (h : pl.length = p.payload) :
    (validRecord p (slotSpan p) key pl).length = slotSpan p := by
  have hkey := marks_le_key p.widthF
  have hspan := payload_le_slotSpan p
  unfold slotPayloadOffset at hspan
  simp only [validRecord, FeeMark.encode, List.length_append, length_leBytes, length_fill, h, slotPayloadOffset]
  omega

/-- A DIRTY record whose second mark is cleared is VALID (30_encoding.md R114). -/
theorem overlay_second_mark (p : Params) (size key : Nat) (pl : List Byte) :
    overlayBytes (overlayBytes g x (recordImage p size key pl)) (x + p.widthF.bytes) (fill 0 p.widthF.bytes)
      = overlayBytes g x (validRecord p size key pl) := by
  have h := overlay_middle (g := g) (x := x) (xs := leBytes p.widthF.bytes 0)
    (ys := leBytes p.widthF.bytes (ones p.widthF)) (ys' := fill 0 p.widthF.bytes)
    (zs := fill erasedByte (slotKeyOffset p.widthF - 2 * p.widthF.bytes) ++ leBytes 4 key ++ pl
      ++ fill erasedByte (size - slotPayloadOffset p.widthF - p.payload)) (by simp)
  rw [length_leBytes] at h
  unfold recordImage validRecord FeeMark.encode FeeMark.word0 FeeMark.word1
  simp only [List.append_assoc, leBytes_zero, fill] at h ⊢
  exact h

/-- An append to a free slot writes one VALID record and counts it (42_fee.md R210). -/
theorem append_turns (h : FeeOn p d g s) (hroom : s.f.slotsUsed.toNat < slotCount p d) (key : Nat) {pl : List Byte}
    (hpl : pl.length = p.payload)
    (he : ∀ x, slotAt p d s.f.active s.f.slotsUsed.toNat ≤ x →
      x < slotAt p d s.f.active s.f.slotsUsed.toNat + slotSpan p → g x = erasedByte) :
    Completes (fun _ t => s.Turns True { s.f with slotsUsed := s.f.slotsUsed + 1 }
      (recordBytes p d s.f.active s.f.slotsUsed.toNat key pl g) t) (append key pl) s := by
  have hused : BitVec.ofNat 32 (s.f.slotsUsed.toNat + 1) = s.f.slotsUsed + 1 :=
    BitVec.eq_of_toNat_eq (by simp)
  unfold append
  refine .read ?_
  dsimp only
  rw [h.laid.slotBase, h.laid.params, h.laid.slotSize, ← hused]
  generalize s.f.slotsUsed.toNat = i at *
  generalize ha : s.f.active = a at *
  have hend := h.laid.fit.slot_end_le hroom a
  have hkeyo := marks_le_key p.widthF
  have hspan := payload_le_slotSpan p
  unfold slotPayloadOffset at hspan
  have hal := h.laid.fit.align_dvd_slotAt a i
  have hlen := length_recordImage p key hpl
  refine Ends.bind (writeMarkWord_turns h a (x := slotAt p d a i) (by omega) hal) fun _ s1 k1 => ?_
  have h1 := h.turns k1 rfl
  refine Ends.bind (devWrite_turns h1 a (x := slotAt p d a i) (by omega) hal
    (by rw [hlen]; exact h.laid.fit.align_dvd_width.trans (width_dvd_slotSpan p)) fun k hk => ?_) fun _ s2 k2 => ?_
  · by_cases hmark : k < p.widthF.bytes
    · refine .inl (Option.some.inj ?_)
      rw [← List.getElem?_eq_getElem]
      exact recordImage_mark p _ key pl hmark
    · refine .inr ((overlayBytes_of_not_mem fun hm => ?_).trans (he _ (Nat.le_add_right ..) (by omega)))
      rw [length_fill] at hm
      omega
  rw [overlay_overlay (by rw [length_fill]; omega)] at k2
  have h2 := h1.turns k2 rfl
  refine Ends.bind (devSync_turns h2) fun _ s3 k3 => ?_
  have h3 := h2.turns k3 rfl
  refine Ends.bind (writeMarkWord_turns h3 a (by omega) (hal.add h3.laid.fit.align_dvd_width)) fun _ s4 k4 => ?_
  rw [overlay_second_mark] at k4
  refine completes_of_ok (setSlotsUsed_undisturbed (h3.turns k4 rfl).calm (i + 1)) ?_
  have hbank : s4.f = s.f := by rw [k4.bank, k3.bank, k2.bank, k1.bank]
  rw [hbank]
  refine ((((k1.trans k2).trans k3).trans k4).setBank _).cast ?_ rfl
  rw [← ha]

end Sys2Proof.Machine
end

