-- ==== Sys2Proof/Proofs/FeeFormats.lean ====
section
/-! PROOF. FEE.MASS_ERASE, and FEE.START where it adopts an arena or formats (42_fee.md R206, R207, R215, R219,
R224). -/

open Sys2Proof Sys2Proof.Machine

namespace Sys2Proof.Machine

variable {c : Prop} {p : Params} {d : DevInfo} {s t : State} {f : FeeUnit} {g : Nat → Byte} {hid : HostId}

/-! ### From a procedure to its command -/

/-- A command that turns the FEE unit, and nothing else. -/
theorem exec_of_turns {i : Instr} (hs : s.admits i.unit i.hid) (hu : s.undisturbed = true)
    (hb : Completes (fun _ t => s.Turns True f g t) (bodyOf i) s) :
    ∃ t, exec i s = .next t ∧ s.devF.settledAs t.devF g
      ∧ t = { s with devF := t.devF, f := f, status := s.status.completed .ok } := by
  obtain ⟨⟨⟩, t, hbody, k⟩ := hb.exists_ok
  refine ⟨t.complete .ok, exec_of_body_ok hs hbody (undisturbed_uneventful (k.undisturbed hu)), k.settledAs trivial, ?_⟩
  rw [k.rest]
  rfl

/-- The unit on its device, as a state shows it. -/
theorem feeOn_of_laidOut (hcan : s.memoryCanonical = true) (hl : s.feeLaidOut) (hu : s.undisturbed = true) :
    FeeOn s.params s.devF.info s.devF.cur.byteAt s := ⟨feeAt_of_laidOut hl, hu, canonical_cur hcan .fee, rfl⟩

/-! ### START -/

/-- The state that StartCases begins on: the geometry is set, and the device is synced (42_fee.md R219). -/
def State.feeOpened (s : State) : State :=
  { s with f := { s.feeGeometrySet.f with drv := .stop }, devF := s.devF.synced }

/-- The state with F_ARENA_STATE as both headers read (42_fee.md R215). -/
def State.headersRead (s : State) : State :=
  { s with f := (s.f.setArenaState .a0 (s.headerAt .a0)).setArenaState .a1 (s.headerAt .a1) }

/-- What the three cases of START do (42_fee.md R215). -/
def startCaseBody : StartCase → Proc Unit
  | .adopt a => adoptArena a
  | .resume a => resumeGc a
  | .cold => format

theorem startCases_apply (h : FeeAt p d s) (hu : s.undisturbed = true) :
    startCases s = startCaseBody (startCase (s.headerAt .a0) (s.headerAt .a1)) s.headersRead := by
  have hregs := setArenaState_undisturbed hu .a0 (s.headerAt .a0)
  have hregs' := setArenaState_undisturbed (s := { s with f := s.f.setArenaState .a0 (s.headerAt .a0) })
    (undisturbed_of_eq hu rfl rfl) .a1 (s.headerAt .a1)
  unfold startCases
  rw [Proc.bind_ok (headerState_undisturbed h hu .a0), Proc.bind_ok (headerState_undisturbed h hu .a1),
    Proc.bind_ok hregs, Proc.bind_ok hregs']
  cases startCase (s.headerAt .a0) (s.headerAt .a1) <;> rfl

theorem feeAt_opened (hw : s.params.wf = true) (hfit : feeFits s.params s.devF.info = true) :
    FeeAt s.params s.devF.info s.feeOpened := ⟨⟨hw, hfit⟩, rfl, rfl, rfl⟩

theorem feeOn_opened (hcan : s.memoryCanonical = true) (hw : s.params.wf = true)
    (hfit : feeFits s.params s.devF.info = true) (hu : s.undisturbed = true) :
    FeeOn s.params s.devF.info s.devF.cur.byteAt s.feeOpened.headersRead :=
  ⟨(feeAt_opened hw hfit).congr rfl rfl, undisturbed_of_eq hu rfl rfl, canonical_cur hcan .fee, rfl⟩

/-- START sets the geometry, syncs, decides by the headers, and makes the unit READY (42_fee.md R219). -/
theorem exec_feeStart (hs : s.startable .fee hid) (hu : s.undisturbed = true) (hw : s.params.wf = true)
    (hfit : feeFits s.params s.devF.info = true)
    (hcase : startCaseBody (startCase (s.feeGeometrySet.headerAt .a0) (s.feeGeometrySet.headerAt .a1))
      s.feeOpened.headersRead = .ok () t) (ht : t.undisturbed = true) :
    exec (.feeStart hid) s =
      .next (State.complete { t with f := { t.f with recover := false, drv := .ready } } .ok) := by
  obtain ⟨hadmits, -⟩ := id hs
  have hq := undisturbed_uneventful hu
  have hopened : s.feeOpened.undisturbed = true := undisturbed_of_eq hu rfl rfl
  have hdrv : changeDrv .fee .stop s = .ok () (s.setDrv .fee .stop) := change_uneventful hq _
  have hgeometry : feeGeometry (s.setDrv .fee .stop)
      = .ok () { s with f := { s.feeGeometrySet.f with drv := .stop } } := by
    unfold feeGeometry devGetInfo
    refine (required_apply .config (c := feeFits s.params s.devF.info) hfit _ _).trans ?_
    exact feeRegs_uneventful (s := s.setDrv .fee .stop) (uneventful_of_eq hq rfl) _
  have hsync : devSync .fee { s with f := { s.feeGeometrySet.f with drv := .stop } } = .ok () s.feeOpened :=
    devSync_undisturbed (s := { s with f := { s.feeGeometrySet.f with drv := .stop } })
      (undisturbed_of_eq hu rfl rfl) .fee
  have hstart := startCases_apply (feeAt_opened hw hfit) hopened
  have hbody : feeStartBody s = .ok () { t with f := { t.f with recover := false, drv := .ready } } := by
    unfold feeStartBody
    rw [checked_apply, if_pos (started_of_startable hs), Proc.bind_ok hdrv, Proc.bind_ok hgeometry,
      Proc.bind_ok hsync, Proc.bind_ok (hstart.trans hcase)]
    exact feeRegs_undisturbed ht _
  exact exec_of_body_ok (i := .feeStart hid) hadmits hbody (undisturbed_uneventful (undisturbed_of_eq ht rfl rfl))

/-- Adopting an arena counts its slots (42_fee.md R207, R215). -/
theorem adoptArena_undisturbed (h : FeeAt p d s) (hu : s.undisturbed = true) (a : Arena) :
    adoptArena a s =
      .ok () { s with f := { s.f with active := a, slotsUsed := BitVec.ofNat 32 (s.loadedSlots a) } } := by
  let s1 : State := { s with f := { s.f with active := a } }
  have h1 : FeeAt p d s1 := h.congr rfl rfl
  have hu1 : s1.undisturbed = true := undisturbed_of_eq hu rfl rfl
  have hcount : countUsed a 0 s1.f.numSlots.toNat 0 s1 = .ok (s1.loadedSlots a) s1 := by
    have hscan := countUsed_undisturbed h1 hu1 a s1.f.numSlots.toNat 0 (by rw [h1.numSlots]; omega)
    rwa [Nat.zero_add, ← State.loadedSlots_eq] at hscan
  unfold adoptArena arenaLoad
  rw [Proc.bind_ok (setActive_undisturbed hu a), Proc.bind_ok (Proc.get_apply s1), Proc.bind_ok hcount]
  exact setSlotsUsed_undisturbed hu1 _

theorem startCase_adopt {x : Arena → ArenaState} {a : Arena} (h : x a = .active) (h' : x a.other = .unused) :
    startCase (x .a0) (x .a1) = .adopt a := by
  unfold startCase
  cases a <;> simp_all [Arena.other]

theorem startCase_resume {x : Arena → ArenaState} {a : Arena} (h : x a = .frozen) (h' : x a.other ≠ .frozen) :
    startCase (x .a0) (x .a1) = .resume a := by
  unfold startCase
  cases a <;> simp_all [Arena.other]

theorem startCase_cold {x : Arena → ArenaState} (h : ∀ a, ¬(x a = .active ∧ x a.other = .unused))
    (h' : ∀ a, ¬(x a = .frozen ∧ x a.other ≠ .frozen)) : startCase (x .a0) (x .a1) = .cold := by
  have h0 : ¬(x .a0 = .active ∧ x .a1 = .unused) := h .a0
  have h1 : ¬(x .a0 = .unused ∧ x .a1 = .active) := fun k => h .a1 k.symm
  have h2 : ¬(x .a0 = .frozen ∧ x .a1 ≠ .frozen) := h' .a0
  have h3 : ¬(x .a1 = .frozen ∧ x .a0 ≠ .frozen) := h' .a1
  unfold startCase
  rw [if_neg h0, if_neg h1, if_neg h2, if_neg h3]

end Sys2Proof.Machine

namespace Sys2Proof.Proofs

/-- Settles O34: MASS_ERASE is Format behind its state check. -/
theorem feeMassEraseFormats : Obligations.FeeMassEraseFormats := by
  unfold Obligations.FeeMassEraseFormats
  intro h s hs hu hcan hl
  obtain ⟨hadmits, -⟩ := id hs
  have hon := feeOn_of_laidOut hcan hl hu
  refine exec_of_turns (i := .feeMassErase h) hadmits hu ?_
  rw [hon.laid.arenaBytes]
  unfold Completes
  show Ends _ _ ((do checkState State.feeServes; format : Proc Unit) s)
  rw [checked_apply, if_pos (feeServes_of_serves hs)]
  exact format_turns hon

/-- Settles O35: the headers choose the first case of START, which reads the arena's marks and writes nothing. -/
theorem feeStartAdoptsTheActiveArena : Obligations.FeeStartAdoptsTheActiveArena := by
  unfold Obligations.FeeStartAdoptsTheActiveArena
  intro h s a hs hu hw hfit g hactive hunused
  have hat : FeeAt s.params s.devF.info s.feeOpened.headersRead := (feeAt_opened hw hfit).congr rfl rfl
  have hadopt := adoptArena_undisturbed hat (undisturbed_of_eq hu rfl rfl) a
  have hcase : startCase (s.feeGeometrySet.headerAt .a0) (s.feeGeometrySet.headerAt .a1) = .adopt a :=
    startCase_adopt (x := g.headerAt) hactive hunused
  rw [exec_feeStart hs hu hw hfit ((congrArg (fun k => startCaseBody k _) hcase).trans hadopt)
    (undisturbed_of_eq hu rfl rfl)]
  have hx0 : s.feeOpened.headerAt .a0 = g.headerAt .a0 := rfl
  have hx1 : s.feeOpened.headerAt .a1 = g.headerAt .a1 := rfl
  have hcount : s.feeOpened.headersRead.loadedSlots a = g.loadedSlots a := rfl
  rw [hcount]
  unfold State.headersRead
  cases a with
  | a0 => rw [hx0, hx1, hactive, show g.headerAt .a1 = .unused from hunused]; rfl
  | a1 => rw [hx0, hx1, hactive, show g.headerAt .a0 = .unused from hunused]; rfl

/-- Settles O36: the headers choose the third case of START, which formats. -/
theorem feeStartFormatsOtherwise : Obligations.FeeStartFormatsOtherwise := by
  unfold Obligations.FeeStartFormatsOtherwise
  intro h s hs hu hcan hw hfit g hadopt hresume
  have hon := feeOn_opened hcan hw hfit hu
  have hcase : startCase (s.feeGeometrySet.headerAt .a0) (s.feeGeometrySet.headerAt .a1) = .cold :=
    startCase_cold (x := g.headerAt) hadopt hresume
  have hspan : g.f.arenaBytes.toNat = arenaSpan s.devF.info := (feeAt_opened hw hfit).arenaBytes
  obtain ⟨⟨⟩, t, hformat, k⟩ := (format_turns hon).exists_ok
  refine ⟨_, exec_feeStart hs hu hw hfit (by rw [hcase]; exact hformat) (k.undisturbed hon.calm), ?_, ?_⟩
  · rw [hspan]
    exact k.settledAs trivial
  · rw [k.rest]
    rfl

end Sys2Proof.Proofs
end

