-- ==== Sys2Proof/Proofs/FeeSpans.lean ====
section
/-! PROOF. Chunks of the emulated space byte by byte, what FEE.WRITE and FEE.ERASE make of one chunk, and the commands
that append nothing or one record (42_fee.md R209 to R212, R222, R223). -/

open Sys2Proof Sys2Proof.Machine

namespace Sys2Proof.Machine

variable {p : Params} {d : DevInfo} {s t : State} {g : Nat → Byte} {key lo k n x : Nat} {cur nb : List Byte}
  {hid : HostId} {ins : Instr} {new : Nat → Byte}

/-! ### Chunks and their bytes -/

/-- The chunk that an address belongs to. -/
theorem sub_mod_eq (x m : Nat) : x - x % m = x / m * m := by
  have := Nat.div_add_mod' x m
  omega

theorem State.chunkByte_eq (s : State) (x : Nat) :
    s.chunkByte x = ((s.chunkValue (x - x % s.params.payload))[x % s.params.payload]?).getD erasedByte := by
  rw [sub_mod_eq]
  rfl

/-- The bytes of a chunk at an aligned address. -/
theorem State.chunkByte_add (s : State) (x : Nat) {j : Nat} (hj : j < s.params.payload) :
    s.chunkByte (x - x % s.params.payload + j)
      = (s.chunkValue (x - x % s.params.payload))[j]'(by rwa [length_chunkValue]) := by
  have hmod : (x - x % s.params.payload + j) % s.params.payload = j := by
    rw [sub_mod_eq, Nat.mul_add_mod', Nat.mod_eq_of_lt hj]
  rw [State.chunkByte_eq, hmod, Nat.add_sub_cancel, List.getElem?_eq_getElem (by rwa [length_chunkValue]),
    Option.getD_some]

theorem State.coversByte_iff {i : Nat} : s.coversByte x i = true
    ↔ s.slotStateAt i = .valid ∧ s.slotKeyAt i ≤ x ∧ x < s.slotKeyAt i + s.params.payload := by
  simp [State.coversByte]

/-- An aligned chunk covers a byte exactly when it is the byte's own. -/
theorem aligned_covers_iff {m : Nat} (hpos : 0 < m) (hkey : key % m = 0) :
    key ≤ x ∧ x < key + m ↔ key = x / m * m := by
  obtain ⟨q, rfl⟩ := Nat.dvd_of_mod_eq_zero hkey
  constructor
  · rintro ⟨hlo, hhi⟩
    rw [Nat.div_eq_of_lt_le (by rwa [Nat.mul_comm]) (by rwa [Nat.succ_mul, Nat.mul_comm]), Nat.mul_comm]
  · intro h
    rw [h]
    exact ⟨Nat.div_mul_le_self x m, Nat.lt_div_mul_add hpos⟩

/-- Where every key is aligned, the slots that cover a byte are those that hold its chunk (43_fee_gc.md R251). -/
theorem feeByte_eq_chunkByte (hpos : 0 < s.params.payload) (ha : s.keysAligned) (x : Nat) :
    s.feeByte x = s.chunkByte x := by
  have hholder : s.byteHolder x = s.chunkHolder (x / s.params.payload * s.params.payload) := by
    rw [State.byteHolder_eq, State.chunkHolder_eq]
    refine lastBelow_congr fun i hi => Bool.eq_iff_iff.2 ?_
    rw [State.coversByte_iff, State.holdsKey_iff]
    exact and_congr_right fun hv => aligned_covers_iff hpos (ha i hi hv)
  unfold State.feeByte State.chunkByte State.chunkValue
  rw [hholder]
  cases hk : s.chunkHolder (x / s.params.payload * s.params.payload) with
  | none =>
    have hmod := Nat.mod_lt x hpos
    simp [fill, hmod]
  | some i =>
    obtain ⟨-, hold, -⟩ := lastBelow_eq_some_iff.1 (s.chunkHolder_eq _ ▸ hk)
    obtain ⟨-, hkey⟩ := State.holdsKey_iff.1 hold
    dsimp only
    rw [hkey, ← sub_mod_eq, Nat.sub_sub_self (Nat.mod_le ..)]

/-! ### Merged payloads (42_fee.md R211) -/

theorem getElem_mergePayload (h : lo + nb.length ≤ cur.length) {j : Nat} (hj : j < (mergePayload cur lo nb).length) :
    (mergePayload cur lo nb)[j] = if hm : lo ≤ j ∧ j < lo + nb.length then nb[j - lo]'(by omega)
      else cur[j]'(by rwa [length_mergePayload h] at hj) := by
  have hlen : (cur.take lo).length = lo := by rw [List.length_take]; omega
  unfold mergePayload at hj
  show (cur.take lo ++ nb ++ cur.drop (lo + nb.length))[j] = _
  rcases Nat.lt_or_ge j lo with hlt | hge
  · rw [dif_neg (by omega), List.getElem_append_left (by simp; omega), List.getElem_append_left (by omega),
      List.getElem_take]
  · rcases Nat.lt_or_ge j (lo + nb.length) with hmid | hpast
    · rw [dif_pos ⟨hge, hmid⟩, List.getElem_append_left (by simp; omega), List.getElem_append_right (by omega)]
      simp only [hlen]
    · rw [dif_neg (by omega), List.getElem_append_right (by simp; omega), List.getElem_drop]
      congr 1
      simp only [List.length_append, hlen]
      omega

/-- The payload of x's chunk with a byte string merged in from x on. -/
def State.mergedAt (s : State) (x : Nat) (nb : List Byte) : List Byte :=
  mergePayload (s.chunkValue (x - x % s.params.payload)) (x % s.params.payload) nb

section merged
variable (hlen : x % s.params.payload + nb.length ≤ s.params.payload)
include hlen

theorem length_mergedAt : (s.mergedAt x nb).length = s.params.payload :=
  (length_mergePayload (by rwa [length_chunkValue])).trans (length_chunkValue ..)

/-- A merge lays the string over the bytes of the chunk. -/
theorem getElem_mergedAt {j : Nat} (hj : j < (s.mergedAt x nb).length) :
    (s.mergedAt x nb)[j] = overlayBytes s.chunkByte x nb (x - x % s.params.payload + j) := by
  have hle := Nat.mod_le x s.params.payload
  refine (getElem_mergePayload (by rwa [length_chunkValue]) hj).trans ?_
  rw [length_mergedAt hlen] at hj
  split
  · next hm =>
    rw [overlayBytes_of_mem (by omega) (by omega), List.getElem?_eq_getElem (by omega), Option.getD_some]
    congr 1
    omega
  · next hm => rw [overlayBytes_of_not_mem (by omega), s.chunkByte_add x hj]

/-- A payload is unchanged exactly when the merged bytes are those that the chunk holds. -/
theorem mergedAt_eq_self_iff : s.mergedAt x nb = s.chunkValue (x - x % s.params.payload)
    ↔ ∀ k (hk : k < nb.length), nb[k] = s.chunkByte (x + k) := by
  have hle := Nat.mod_le x s.params.payload
  constructor
  · intro he k hk
    have hget := getElem_mergedAt hlen (j := x % s.params.payload + k) (by rw [length_mergedAt hlen]; omega)
    rw [overlayBytes_of_mem (by omega) (by omega), List.getElem?_eq_getElem (by omega), Option.getD_some] at hget
    simp only [he, ← s.chunkByte_add x (j := x % s.params.payload + k) (by omega)] at hget
    rw [show x + k = x - x % s.params.payload + (x % s.params.payload + k) by omega, hget]
    congr 1
    omega
  · intro he
    refine List.ext_getElem ((length_mergedAt hlen).trans (length_chunkValue ..).symm) fun j hj hj' => ?_
    rw [getElem_mergedAt hlen hj, ← s.chunkByte_add x (by rwa [length_chunkValue] at hj')]
    by_cases hm : x ≤ x - x % s.params.payload + j ∧ x - x % s.params.payload + j < x + nb.length
    · rw [overlayBytes_of_mem hm.1 hm.2, List.getElem?_eq_getElem (by omega), Option.getD_some, he]
      congr 1
      omega
    · rw [overlayBytes_of_not_mem hm]

end merged

/-! ### One chunk -/

section span
variable (h : FeeAt p d s) (hu : s.undisturbed = true) (hn : s.f.slotsUsed.toNat ≤ slotCount p d)
include h hu hn

/-- A span that its chunk holds already is left (42_fee.md R211). -/
theorem writeSpan_of_equal (he : s.mergedAt x nb = s.chunkValue (x - x % s.params.payload)) :
    writeSpan (x - x % s.params.payload) (x % s.params.payload) nb s = .ok () s := by
  unfold writeSpan
  rw [Proc.bind_ok (chunkPayload_undisturbed h hu hn _)]
  exact congrFun (if_pos he) s

/-- Any other span is appended with the chunk's bytes around it, after room is made for it (42_fee.md R211). -/
theorem writeSpan_of_change (hne : s.mergedAt x nb ≠ s.chunkValue (x - x % s.params.payload)) :
    writeSpan (x - x % s.params.payload) (x % s.params.payload) nb s = (do
      makeRoom (x - x % s.params.payload)
      append (x - x % s.params.payload) (s.mergedAt x nb) : Proc Unit) s := by
  unfold writeSpan
  rw [Proc.bind_ok (chunkPayload_undisturbed h hu hn _)]
  exact congrFun (if_neg hne) s

/-- A range whose bytes the emulated space holds already is left, chunk by chunk (42_fee.md R212). -/
theorem writeChunks_of_held (n x : Nat) (nb : List Byte)
    (he : ∀ k (hk : k < nb.length), nb[k] = s.chunkByte (x + k)) : writeChunks n x nb s = .ok () s := by
  induction n generalizing x nb with
  | zero => rfl
  | succ n ih =>
    unfold writeChunks
    by_cases hnil : nb = []
    · rw [if_pos hnil]
      rfl
    · have hpos : 0 < s.params.payload := h.params ▸ h.fit.payload_pos
      have hmod := Nat.mod_lt x hpos
      have hle := Nat.mod_le x s.params.payload
      have hequal := (mergedAt_eq_self_iff (s := s) (x := x) (nb := nb.take (s.params.payload - x % s.params.payload))
        (by rw [List.length_take]; omega)).2 fun k hk => by
          rw [List.length_take] at hk
          rw [List.getElem_take, he k (by omega)]
      have hspan := writeSpan_of_equal h hu hn hequal
      rw [if_neg hnil, Proc.bind_ok (Proc.get_apply s), Proc.bind_ok hspan]
      refine ih _ _ fun k hk => ?_
      rw [List.getElem_drop, he]
      congr 1
      omega

end span

/-! ### The commands (42_fee.md R222, R223) -/

/-- The bytes that a WRITE or an ERASE puts into its range. -/
def State.rangeBytes (s : State) (new : Nat → Byte) : List Byte := (List.range s.opLen).map new

@[simp] theorem length_rangeBytes (s : State) (new : Nat → Byte) : (s.rangeBytes new).length = s.opLen := by
  simp [State.rangeBytes]

theorem getElem_rangeBytes (hk : k < (s.rangeBytes new).length) : (s.rangeBytes new)[k] = new k := by
  simp [State.rangeBytes]

/-- The new bytes laid over a range. -/
theorem overlay_rangeBytes (f : Nat → Byte) (y : Nat) : overlayBytes f s.opAddr (s.rangeBytes new) y
    = if s.opAddr ≤ y ∧ y < s.opAddr + s.opLen then new (y - s.opAddr) else f y := by
  by_cases hy : s.opAddr ≤ y ∧ y < s.opAddr + s.opLen
  · rw [overlayBytes_of_mem hy.1 (by simpa using hy.2), List.getElem?_eq_getElem (by simp; omega), Option.getD_some,
      getElem_rangeBytes, if_pos hy]
  · rw [overlayBytes_of_not_mem (by simpa using hy), if_neg hy]

theorem writeRange_nil (x : Nat) (s : State) : writeRange x [] s = .ok () s := rfl

/-- A WRITE or an ERASE whose operands pass writes its range. -/
theorem feeChangeBody_of_serves (hs : s.serves .fee hid) (hin : s.opAddr + s.opLen ≤ s.f.logicalSize.toNat)
    (hnew : s.feeNewBytes ins hid new) : bodyOf ins s = writeRange s.opAddr (s.rangeBytes new) s := by
  have hserves := feeServes_of_serves hs
  have hlogical : s.feeInRange = true := decide_eq_true hin
  by_cases hzero : s.opLen = 0
  · have hnil : s.rangeBytes new = [] := List.eq_nil_of_length_eq_zero ((length_rangeBytes ..).trans hzero)
    rw [hnil, writeRange_nil]
    rcases hnew with ⟨rfl, -, -⟩ | ⟨rfl, -⟩
    · exact feeWriteBody_no_bytes hzero hserves (by omega)
    · exact feeEraseBody_no_bytes hzero hserves (by omega)
  · rcases hnew with ⟨rfl, hbuf, rfl⟩ | ⟨rfl, rfl⟩
    · have hrange : (decide (s.opLen ≤ s.params.bufBytes) && s.feeInRange) = true :=
        Bool.and_eq_true_iff.2 ⟨decide_eq_true hbuf, hlogical⟩
      have hbytes : s.bufBytes 0 s.opLen = s.rangeBytes fun k => s.bufByte k := by
        simp [State.bufBytes, State.rangeBytes]
      have hload : bufLoad s.opLen s = .ok (s.rangeBytes fun k => s.bufByte k) s := by
        rw [bufLoad_apply, if_pos hbuf, hbytes]
      show feeWriteBody s = _
      unfold feeWriteBody
      rw [checked_get_apply hserves, required_apply _ hrange, if_neg hzero, Proc.bind_ok hload]
    · have hbytes : fill erasedByte s.opLen = s.rangeBytes fun _ => erasedByte := by
        simp [fill, State.rangeBytes]
      show feeEraseBody s = _
      unfold feeEraseBody
      rw [checked_get_apply hserves, required_apply _ hlogical, if_neg hzero, hbytes]

theorem admits_of_feeNewBytes (hs : s.serves .fee hid) (hnew : s.feeNewBytes ins hid new) :
    s.admits ins.unit ins.hid := by
  obtain ⟨hadmits, -⟩ := hs
  rcases hnew with ⟨rfl, -⟩ | ⟨rfl, -⟩ <;> exact hadmits

/-- A range of bytes that touches one chunk is one span. -/
theorem writeRange_of_one_chunk (hlen : x % s.params.payload + nb.length ≤ s.params.payload) (hpos : nb ≠ []) :
    writeRange x nb s = (do
      writeSpan (x - x % s.params.payload) (x % s.params.payload) nb
      writeChunks (nb.length - 1) (x - x % s.params.payload + s.params.payload) [] : Proc Unit) s := by
  obtain ⟨n, hn⟩ := Nat.exists_eq_succ_of_ne_zero (List.length_pos_iff.2 hpos).ne'
  unfold writeRange
  rw [hn, Nat.succ_sub_one]
  show (if nb = [] then _ else _ : Proc Unit) s = _
  rw [if_neg hpos, Proc.bind_ok (Proc.get_apply s), List.take_of_length_le (by omega),
    List.drop_of_length_le (by omega)]

theorem writeChunks_nil (n x : Nat) (s : State) : writeChunks n x [] s = .ok () s := by
  cases n <;> rfl

/-! ### Free slots -/

/-- The bytes of the active arena from slot n on are erased. -/
def VacantFrom (p : Params) (d : DevInfo) (a : Arena) (n : Nat) (g : Nat → Byte) : Prop :=
  ∀ x, slotAt p d a n ≤ x → x < arenaAt d a + arenaSpan d → g x = erasedByte

theorem vacantFrom_of_sound (h : s.feeSound) :
    VacantFrom s.params s.devF.info s.f.active s.f.slotsUsed.toNat s.devF.cur.byteAt := by
  obtain ⟨-, hl, -, -, habove⟩ := h
  have hat := feeAt_of_laidOut hl
  intro x hlo hhi
  rw [← hat.slotBase] at hlo
  rw [← hat.arenaBase, ← hat.arenaBytes] at hhi
  exact habove x hlo hhi

/-- A record in a free slot (42_fee.md R210). -/
theorem append_vacant (h : FeeOn p d g s) (hroom : s.f.slotsUsed.toNat < slotCount p d) (key : Nat) {pl : List Byte}
    (hpl : pl.length = p.payload) (hv : VacantFrom p d s.f.active s.f.slotsUsed.toNat g) :
    Completes (fun _ t => s.Turns True { s.f with slotsUsed := s.f.slotsUsed + 1 }
      (recordBytes p d s.f.active s.f.slotsUsed.toNat key pl g) t) (append key pl) s := by
  have hend := h.laid.fit.slot_end_le hroom s.f.active
  exact append_turns h hroom key hpl fun x hlo hhi => hv x hlo (by omega)

/-- Nothing is collected where a slot is free. -/
theorem makeRoom_of_free (hroom : s.f.slotsUsed ≠ s.f.numSlots) (key : Nat) : makeRoom key s = .ok () s := by
  unfold makeRoom
  rw [Proc.bind_ok (Proc.get_apply s), if_neg hroom]
  rfl

end Sys2Proof.Machine

namespace Sys2Proof.Proofs

/-- Settles O30: each span of the range merges into its chunk's payload without a change. -/
theorem feeWriteOfEqualBytesDoesNothing : Obligations.FeeWriteOfEqualBytesDoesNothing := by
  unfold Obligations.FeeWriteOfEqualBytesDoesNothing
  intro h s i nb hs hu hl hn hin hnew heq
  have hat := feeAt_of_laidOut hl
  have hbody : bodyOf i s = .ok () s := by
    rw [feeChangeBody_of_serves hs hin hnew]
    refine writeChunks_of_held hat hu (hat.numSlots ▸ hn) _ _ _ fun k hk => ?_
    rw [getElem_rangeBytes hk]
    exact heq k (by simpa using hk)
  exact exec_of_idle_body (undisturbed_uneventful hu) (admits_of_feeNewBytes hs hnew) hbody

/-- Settles O31: the range is one span, which changes its chunk and is appended to a free slot. -/
theorem feeWriteAppendsOneSlot : Obligations.FeeWriteAppendsOneSlot := by
  unfold Obligations.FeeWriteAppendsOneSlot
  intro h s i nb hs hu hsound hpos hin hnew hone ⟨k, hk, hne⟩ hroom
  obtain ⟨hcan, hl, hn, -⟩ := id hsound
  have hon := feeOn_of_laidOut hcan hl hu
  have hlen : s.opAddr % s.params.payload + (s.rangeBytes nb).length ≤ s.params.payload := by
    rwa [length_rangeBytes]
  have hchange : s.mergedAt s.opAddr (s.rangeBytes nb) ≠ s.chunkValue (s.opAddr - s.opAddr % s.params.payload) := by
    rw [Ne, mergedAt_eq_self_iff hlen]
    exact fun hall => hne (by rw [← hall k (by rwa [length_rangeBytes]), getElem_rangeBytes])
  have hfree : s.f.slotsUsed ≠ s.f.numSlots := fun he => by
    rw [he] at hroom
    exact lt_irrefl _ hroom
  have hpayload : s.mergedAt s.opAddr (s.rangeBytes nb) = (List.range s.params.payload).map fun j =>
      if s.opAddr ≤ s.opAddr / s.params.payload * s.params.payload + j
          ∧ s.opAddr / s.params.payload * s.params.payload + j < s.opAddr + s.opLen
      then nb (s.opAddr / s.params.payload * s.params.payload + j - s.opAddr)
      else s.chunkByte (s.opAddr / s.params.payload * s.params.payload + j) := by
    refine List.ext_getElem (by simp [length_mergedAt hlen]) fun j hj hj' => ?_
    rw [getElem_mergedAt hlen, overlay_rangeBytes, List.getElem_map, List.getElem_range, sub_mod_eq]
  have hbody : Completes (fun _ t => s.Turns True { s.f with slotsUsed := s.f.slotsUsed + 1 }
      (recordBytes s.params s.devF.info s.f.active s.f.slotsUsed.toNat (s.opAddr - s.opAddr % s.params.payload)
        (s.mergedAt s.opAddr (s.rangeBytes nb)) s.devF.cur.byteAt) t) (bodyOf i) s := by
    unfold Completes
    rw [feeChangeBody_of_serves hs hin hnew,
      writeRange_of_one_chunk hlen (List.ne_nil_of_length_pos (by rwa [length_rangeBytes]))]
    refine Ends.bind (Q := fun _ t => s.Turns True { s.f with slotsUsed := s.f.slotsUsed + 1 } _ t) ?_ fun _ t k =>
      completes_of_ok (writeChunks_nil _ _ t) k
    rw [writeSpan_of_change hon.laid hu (hon.laid.numSlots ▸ hn) hchange]
    exact Completes.after (makeRoom_of_free hfree _)
      (append_vacant hon (hon.laid.numSlots ▸ hroom) _ (length_mergedAt hlen) (vacantFrom_of_sound hsound))
  have hrun := exec_of_turns (admits_of_feeNewBytes hs hnew) hu hbody
  unfold recordBytes at hrun
  rwa [← hon.laid.slotBase, ← hon.laid.slotSize, hpayload, sub_mod_eq] at hrun

end Sys2Proof.Proofs
end

