-- ==== Sys2Proof/Proofs/FeeCollect.lean ====
section
/-! PROOF. Garbage collection, to the slot: each live chunk's record is copied whole to the other arena, in the order of
the keys, and the rest of that arena is erased (43_fee_gc.md R241 to R243, R250). -/

open Sys2Proof Sys2Proof.Machine

namespace Sys2Proof.Machine

variable {p : Params} {d : DevInfo} {s t r : State} {g g' g'' : Nat → Byte} {a : Arena} {i j k n x : Nat}
  {ks : List Nat} {omitted : Option Nat}

/-! ### Slots as the device's bytes give them -/

theorem FeeOn.slotStateIn (h : FeeOn p d g s) (a : Arena) (i : Nat) : s.slotStateIn a i =
    slotOfMark (FeeMark.decode p.widthF (leVal (spanOf g (slotAt p d a i) p.widthF.bytes))
      (leVal (spanOf g (slotAt p d a i + p.widthF.bytes) p.widthF.bytes))) := by
  rw [← h.reads.bytes, ← h.laid.slotBase, ← h.laid.params]
  rfl

theorem FeeOn.slotKeyAt (h : FeeOn p d g s) (i : Nat) :
    s.slotKeyAt i = leVal (spanOf g (slotAt p d s.f.active i + slotKeyOffset p.widthF) 4) := by
  rw [← h.reads.bytes, ← h.laid.slotBase, ← h.laid.params]
  rfl

theorem FeeOn.slotPayloadAt (h : FeeOn p d g s) (i : Nat) :
    s.slotPayloadAt i = spanOf g (slotAt p d s.f.active i + slotPayloadOffset p.widthF) p.payload := by
  rw [← h.reads.bytes, ← h.laid.slotBase, ← h.laid.params]
  rfl

/-- The same bytes at another place. -/
theorem spanOf_moved {b b' off n m : Nat} (h : ∀ o, o < m → g' (b' + o) = g (b + o)) (hle : off + n ≤ m) :
    spanOf g' (b' + off) n = spanOf g (b + off) n :=
  List.map_congr_left fun o ho => by
    have hlt := List.mem_range.1 ho
    rw [Nat.add_assoc, Nat.add_assoc, h _ (by omega)]

/-- The bytes of slot i' of an arena are those of slot i of another. -/
def SameRecord (p : Params) (d : DevInfo) (g : Nat → Byte) (a : Arena) (i : Nat) (g' : Nat → Byte) (a' : Arena)
    (i' : Nat) : Prop := ∀ o, o < slotSpan p → g' (slotAt p d a' i' + o) = g (slotAt p d a i + o)

/-- Slots with the same bytes read the same. -/
theorem slotStateIn_congr {a' : Arena} {i' : Nat} (hs : FeeOn p d g s) (ht : FeeOn p d g' t)
    (hrec : SameRecord p d g a i g' a' i') : t.slotStateIn a' i' = s.slotStateIn a i := by
  have hkey := marks_le_key p.widthF
  have hpay := payload_le_slotSpan p
  unfold slotPayloadOffset at hpay
  rw [hs.slotStateIn, ht.slotStateIn]
  have h0 := spanOf_moved hrec (off := 0) (n := p.widthF.bytes) (by omega)
  have h1 := spanOf_moved hrec (off := p.widthF.bytes) (n := p.widthF.bytes) (by omega)
  rw [Nat.add_zero, Nat.add_zero] at h0
  rw [h0, h1]

theorem slotKeyAt_congr {i' : Nat} (hs : FeeOn p d g s) (ht : FeeOn p d g' t)
    (hrec : SameRecord p d g s.f.active i g' t.f.active i') : t.slotKeyAt i' = s.slotKeyAt i := by
  have hpay := payload_le_slotSpan p
  unfold slotPayloadOffset at hpay
  rw [hs.slotKeyAt, ht.slotKeyAt, spanOf_moved hrec (by omega)]

theorem slotPayloadAt_congr {i' : Nat} (hs : FeeOn p d g s) (ht : FeeOn p d g' t)
    (hrec : SameRecord p d g s.f.active i g' t.f.active i') : t.slotPayloadAt i' = s.slotPayloadAt i := by
  rw [hs.slotPayloadAt, ht.slotPayloadAt, spanOf_moved hrec (payload_le_slotSpan p)]

/-- The bytes of an arena after its header agree. -/
def SlotsAgree (d : DevInfo) (a : Arena) (g g' : Nat → Byte) : Prop :=
  ∀ x, arenaAt d a + 32 ≤ x → x < arenaAt d a + arenaSpan d → g' x = g x

theorem SlotsAgree.trans (h : SlotsAgree d a g g') (h' : SlotsAgree d a g' g'') : SlotsAgree d a g g'' :=
  fun x hlo hhi => (h' x hlo hhi).trans (h x hlo hhi)

theorem SlotsAgree.sameRecord (hfit : FeeFit p d) (h : SlotsAgree d a g g') (hi : i < slotCount p d) :
    SameRecord p d g a i g' a i := fun o ho => by
  have hend := hfit.slot_end_le hi a
  have hbase := arenaAt_le_slotAt p d a i
  exact h _ (by omega) (by omega)

section congruence
variable (hs : FeeOn p d g s) (ht : FeeOn p d g' t) (hactive : t.f.active = s.f.active)
  (hused : t.f.slotsUsed = s.f.slotsUsed) (hn : s.f.slotsUsed.toNat ≤ slotCount p d)
  (hslots : SlotsAgree d s.f.active g g')
include hs ht hactive hused hn hslots

theorem chunkHolder_congr (key : Nat) : t.chunkHolder key = s.chunkHolder key := by
  rw [State.chunkHolder_eq, State.chunkHolder_eq, hused]
  refine lastBelow_congr fun i hi => ?_
  have hrec : SameRecord p d g s.f.active i g' t.f.active i := by
    rw [hactive]
    exact hslots.sameRecord hs.laid.fit (by omega)
  unfold State.holdsKey State.slotStateAt
  rw [slotStateIn_congr hs ht hrec, slotKeyAt_congr hs ht hrec]

theorem chunkValue_congr (key : Nat) : t.chunkValue key = s.chunkValue key := by
  have hholder := chunkHolder_congr hs ht hactive hused hn hslots key
  cases hk : s.chunkHolder key with
  | none =>
    rw [State.chunkValue_none hk, State.chunkValue_none (hholder.trans hk), hs.laid.params, ht.laid.params]
  | some i =>
    rw [State.chunkValue_some hk, State.chunkValue_some (hholder.trans hk)]
    refine slotPayloadAt_congr hs ht ?_
    rw [hactive]
    exact hslots.sameRecord hs.laid.fit (chunkHolder_lt hn hk)

end congruence

/-! ### Arenas apart -/

/-- The two arenas have no byte in common. -/
theorem arenas_apart (d : DevInfo) (a : Arena) :
    arenaAt d a + arenaSpan d ≤ arenaAt d a.other ∨ arenaAt d a.other + arenaSpan d ≤ arenaAt d a := by
  cases a with
  | a0 => exact .inl (by show 0 * arenaSpan d + arenaSpan d ≤ 1 * arenaSpan d; omega)
  | a1 => exact .inr (by show 0 * arenaSpan d + arenaSpan d ≤ 1 * arenaSpan d; omega)

/-- What is laid over one arena leaves the slots of the other. -/
theorem overlay_slotsAgree_other {bs : List Byte} (hlo : arenaAt d a.other ≤ x)
    (hhi : x + bs.length ≤ arenaAt d a.other + arenaSpan d) : SlotsAgree d a g (overlayBytes g x bs) :=
  fun y _ _ => overlayBytes_of_not_mem fun _ => by
    have := arenas_apart d a
    omega

theorem eq_or_other (a a' : Arena) : a' = a ∨ a' = a.other := by cases a <;> cases a' <;> decide

theorem other_other (a : Arena) : a.other.other = a := by cases a <;> rfl

/-- A mark of a header leaves the slots of both arenas. -/
theorem markBytes_slotsAgree {off : Nat} {a' : Arena} (hspan : 32 ≤ arenaSpan d) (hoff : off + p.widthF.bytes ≤ 32) :
    SlotsAgree d a g (markBytes p d a' off g) := by
  have hlen := length_fill 0 p.widthF.bytes
  rcases eq_or_other a a' with rfl | rfl
  · exact fun y _ _ => overlayBytes_of_not_mem (by omega)
  · exact overlay_slotsAgree_other (Nat.le_add_right ..) (by omega)

/-- A reset of one arena leaves the slots of the other. -/
theorem reinitBytes_slotsAgree (hspan : 32 ≤ arenaSpan d) : SlotsAgree d a g (reinitBytes p d a.other g) := by
  have hlen := length_headerImage p
  refine SlotsAgree.trans (g' := eraseBytes g (arenaAt d a.other) (arenaSpan d)) (fun y _ _ => if_neg ?_)
    (overlay_slotsAgree_other le_rfl (by omega))
  have := arenas_apart d a
  omega

/-! ### The destination -/

/-- The destination of a collection is made ready: its slots are erased, and the other arena is as it was
(43_fee_gc.md R250). -/
structure Prepared (p : Params) (d : DevInfo) (a : Arena) (g g' : Nat → Byte) : Prop where
  vacant : VacantFrom p d a.other 0 g'
  agree : SlotsAgree d a g g'

/-- A reset arena is ready. -/
theorem prepared_reinit (hspan : 32 ≤ arenaSpan d) : Prepared p d a g (reinitBytes p d a.other g) where
  vacant x hlo hhi := by
    rw [slotAt_zero] at hlo
    have hlen := length_headerImage p
    exact (overlayBytes_of_not_mem (by omega)).trans (if_pos ⟨by omega, hhi⟩)
  agree := reinitBytes_slotsAgree hspan

theorem setArenaState_self (f : FeeUnit) (a : Arena) : f.setArenaState a (f.arenaState a) = f := by cases a <;> rfl

theorem setArenaState_setArenaState (f : FeeUnit) (a : Arena) (v v' : ArenaState) :
    (f.setArenaState a v).setArenaState a v' = f.setArenaState a v' := by cases a <;> rfl

theorem active_setArenaState (f : FeeUnit) (a : Arena) (v : ArenaState) : (f.setArenaState a v).active = f.active := by
  cases a <;> rfl

theorem slotsUsed_setArenaState (f : FeeUnit) (a : Arena) (v : ArenaState) :
    (f.setArenaState a v).slotsUsed = f.slotsUsed := by cases a <;> rfl

section collect
variable (h : FeeOn p d g s)
include h

/-- An arena that is found blank is erased after its header. -/
theorem blankArena_undisturbed (a : Arena) : ∃ b, blankArena a s = .ok b s ∧ (b = true → VacantFrom p d a 0 g) := by
  unfold blankArena
  rw [Proc.bind_ok (Proc.get_apply s), h.laid.arenaBase, h.laid.arenaBytes,
    Proc.bind_ok (devRead_arena h.laid h.calm a le_rfl)]
  refine ⟨_, rfl, fun hb x hlo hhi => ?_⟩
  simp only [Bool.and_eq_true, beq_iff_eq] at hb
  obtain ⟨-, hdrop⟩ := hb
  rw [drop_bytesAt] at hdrop
  rw [slotAt_zero] at hlo
  rw [← h.reads.bytes]
  exact byteAt_of_bytesAt_fill hdrop hlo (by omega)

theorem prepareDst_turns (a : Arena) :
    Completes (fun _ t => ∃ v g', s.Turns False (s.f.setArenaState a.other v) g' t ∧ Prepared p d a g g')
      (prepareDst a.other) s := by
  have hspan := h.laid.fit.slot_le_arena
  have hstay : s.f = s.f.setArenaState a.other (s.f.arenaState a.other) := (setArenaState_self ..).symm
  obtain ⟨b, hb, hvacant⟩ := blankArena_undisturbed h a.other
  unfold prepareDst
  refine Completes.after hb (.ite (fun hblank => ?_) fun _ => ?_)
  · have hv := hvacant hblank
    refine .read ?_
    rw [h.laid.arenaBase]
    refine Completes.after (devRead_arena h.laid h.calm a.other (by omega)) (.ite (fun hff => ?_) fun _ => ?_)
    · have hhdr : ∀ x, arenaAt d a.other ≤ x → x < arenaAt d a.other + 32 → g x = erasedByte := fun x hlo hhi => by
        rw [← h.reads.bytes]
        exact byteAt_of_bytesAt_fill hff hlo hhi
      refine Ends.mono (headerInit_turns h a.other hhdr) (fun _ t k => ?_) fun _ _ e => e
      have hlen := length_headerImage p
      refine ⟨_, _, (k.cast hstay rfl).unsettled, fun x hlo hhi => ?_, overlay_slotsAgree_other le_rfl (by omega)⟩
      refine (overlayBytes_of_not_mem ?_).trans (hv x hlo hhi)
      rw [slotAt_zero] at hlo
      omega
    · exact ⟨_, g, h.still_turns.cast hstay rfl, hv, fun _ _ _ => rfl⟩
  · exact Ends.mono (arenaReinit_turns h a.other)
      (fun _ t k => ⟨_, _, k.unsettled, prepared_reinit (by omega)⟩) fun _ _ e => e

end collect

/-! ### The copies -/

/-- The keys, in order, of the chunks that a collection copies (43_fee_gc.md R242). -/
def State.survivors (s : State) (omitted : Option Nat) (ks : List Nat) : List Nat :=
  ks.filter fun k => decide (some k ≠ omitted) && (s.chunkHolder k).isSome

/-- Slots j, j+1, ... of the other arena are copies of those that hold the chunks `ks`; all else of that arena, and the
slots of the active one, are as they were. -/
structure Copied (p : Params) (d : DevInfo) (s : State) (j : Nat) (ks : List Nat) (g g' : Nat → Byte) : Prop where
  record : ∀ i k, ks[i]? = some k →
    ∃ r, s.chunkHolder k = some r ∧ SameRecord p d g s.f.active r g' s.f.active.other (j + i)
  below : ∀ x, x < slotAt p d s.f.active.other j → arenaAt d s.f.active.other ≤ x → g' x = g x
  above : ∀ x, slotAt p d s.f.active.other (j + ks.length) ≤ x →
    x < arenaAt d s.f.active.other + arenaSpan d → g' x = g x
  agree : SlotsAgree d s.f.active g g'

theorem State.survivors_cons_of_skip (h : some k = omitted ∨ s.chunkHolder k = none) :
    s.survivors omitted (k :: ks) = s.survivors omitted ks :=
  List.filter_cons_of_neg (by rcases h with h | h <;> simp [h])

theorem State.survivors_cons_of_holder {r : Nat} (h : some k ≠ omitted) (hr : s.chunkHolder k = some r) :
    s.survivors omitted (k :: ks) = k :: s.survivors omitted ks :=
  List.filter_cons_of_pos (by simp [h, hr])

/-- A whole record goes to an erased slot. -/
theorem copyRecord_turns (h : FeeOn p d g s) (a : Arena) (hj : j < slotCount p d) {bs : List Byte}
    (hlen : bs.length = slotSpan p) (hv : VacantFrom p d a j g) :
    Completes (fun _ t => s.Turns False s.f (overlayBytes g (slotAt p d a j) bs) t)
      (devWrite .fee (slotAt p d a j) bs) s := by
  have hend := h.laid.fit.slot_end_le hj a
  refine devWrite_turns h a (by omega) (h.laid.fit.align_dvd_slotAt a j) ?_ fun k hk =>
    .inr (hv _ (Nat.le_add_right ..) (by omega))
  rw [hlen]
  exact h.laid.fit.align_dvd_width.trans (width_dvd_slotSpan p)

theorem slotAt_le (p : Params) (d : DevInfo) (a : Arena) (h : i ≤ j) : slotAt p d a i ≤ slotAt p d a j := by
  have := Nat.mul_le_mul_right (slotSpan p) h
  unfold slotAt
  omega

theorem copyLive_turns (h : FeeOn p d g s) (hn : s.f.slotsUsed.toNat ≤ slotCount p d) (omitted : Option Nat) (j : Nat)
    (ks : List Nat) (hj : j + (s.survivors omitted ks).length ≤ slotCount p d)
    (hv : VacantFrom p d s.f.active.other j g) :
    Completes (fun n t => n = j + (s.survivors omitted ks).length ∧ ∃ g', s.Turns False s.f g' t
        ∧ Copied p d s j (s.survivors omitted ks) g g')
      (copyLive s.f.active s.f.active.other omitted j ks) s := by
  induction ks generalizing s g j with
  | nil =>
    exact ⟨rfl, g, h.still_turns, nofun, fun _ _ _ => rfl, fun _ _ _ => rfl, fun _ _ _ => rfl⟩
  | cons k ks ih =>
    unfold copyLive
    by_cases hk : some k = omitted
    · rw [State.survivors_cons_of_skip (.inl hk)] at hj ⊢
      rw [if_pos hk]
      exact ih h hn j hj hv
    · rw [if_neg hk]
      refine Completes.after (lookup_undisturbed h.laid h.calm hn k) ?_
      cases hr : s.chunkHolder k with
      | none =>
        rw [State.survivors_cons_of_skip (.inr hr)] at hj ⊢
        exact ih h hn j hj hv
      | some r =>
        rw [State.survivors_cons_of_holder hk hr] at hj ⊢
        rw [List.length_cons] at hj
        have hjlt : j < slotCount p d := by omega
        have hend := h.laid.fit.slot_end_le hjlt s.f.active.other
        have hnext := slotAt_succ p d s.f.active.other j
        have hbase := arenaAt_le_slotAt p d s.f.active.other j
        refine Completes.after (slotRecord_undisturbed h.laid h.calm (chunkHolder_lt hn hr) s.f.active) (.read ?_)
        rw [h.laid.slotBase]
        refine Ends.bind (copyRecord_turns h s.f.active.other hjlt (length_bytesAt ..) hv) fun _ s1 k1 => ?_
        have hlen := length_bytesAt s.devF.cur (slotAt p d s.f.active r) (slotSpan p)
        generalize hg1 : overlayBytes g (slotAt p d s.f.active.other j)
          (s.devF.cur.bytesAt (slotAt p d s.f.active r) (slotSpan p)) = g1 at k1
        have h1 := h.turns k1 rfl
        have hslots : SlotsAgree d s.f.active g g1 := hg1 ▸ overlay_slotsAgree_other (by omega) (by omega)
        have hout (x : Nat) (hx : ¬(slotAt p d s.f.active.other j ≤ x
            ∧ x < slotAt p d s.f.active.other j + slotSpan p)) : g1 x = g x := by
          rw [← hg1]
          exact overlayBytes_of_not_mem (by rwa [hlen])
        have hholder := chunkHolder_congr h h1 (by rw [k1.bank]) (by rw [k1.bank]) hn hslots
        have hsurvive : s1.survivors omitted ks = s.survivors omitted ks := by
          unfold State.survivors
          simp only [hholder]
        have hrest := ih h1 (by rw [k1.bank]; exact hn) (j + 1) (by rw [hsurvive]; omega) fun x hlo hhi => by
          rw [k1.bank] at hlo hhi
          rw [hout x (by omega)]
          exact hv x (by omega) hhi
        rw [hsurvive, k1.bank] at hrest
        refine Ends.mono hrest (fun n t ⟨hcount, g', k2, hcopied⟩ => ?_) fun _ _ e => e
        obtain ⟨hrecord, hbelow, habove, hagree⟩ := hcopied
        rw [k1.bank] at hrecord hbelow habove hagree
        refine ⟨by rw [hcount, List.length_cons]; omega, g', k1.trans k2, fun i k' hi => ?_, fun x hx hx' => ?_,
          fun x hx hx' => ?_, hslots.trans hagree⟩
        · cases i with
          | zero =>
            obtain rfl : k = k' := Option.some.inj hi
            refine ⟨r, hr, fun o ho => ?_⟩
            rw [Nat.add_zero, hbelow _ (by omega) (by omega), ← hg1, overlayBytes_of_mem (by omega) (by omega)]
            simp [Memory.bytesAt, h.reads.bytes, ho]
          | succ i =>
            obtain ⟨r', hr', hsame⟩ := hrecord i k' hi
            rw [hholder] at hr'
            refine ⟨r', hr', fun o ho => ?_⟩
            have hplace : j + (i + 1) = j + 1 + i := by omega
            rw [hplace, hsame o ho]
            exact hslots.sameRecord h.laid.fit (chunkHolder_lt hn hr') o ho
        · rw [hbelow x (by omega) hx', hout x (by omega)]
        · have hplace : j + (k :: s.survivors omitted ks).length = j + 1 + (s.survivors omitted ks).length := by
            rw [List.length_cons]
            omega
          rw [hplace] at hx
          have hle := slotAt_le p d s.f.active.other (Nat.le_add_right (j + 1) (s.survivors omitted ks).length)
          rw [habove x hx hx', hout x (by omega)]

/-! ### A whole collection -/

/-- The bank after a collection that filled n slots (43_fee_gc.md R241). -/
def FeeUnit.collected (f : FeeUnit) (n : Nat) : FeeUnit :=
  { (f.setArenaState f.active .unused).setArenaState f.active.other .active with
    active := f.active.other
    slotsUsed := BitVec.ofNat 32 n
    gcCount := f.gcCount + 1 }

theorem geometry_collected (f : FeeUnit) (n : Nat) : (f.collected n).geometry = f.geometry := by
  unfold FeeUnit.collected
  cases f.active <;> rfl

/-- The first slots of the other arena are copies of those that hold the surviving chunks, and the rest of that arena is
erased (43_fee_gc.md R241 to R243). -/
structure Collected (p : Params) (d : DevInfo) (s : State) (ks : List Nat) (g g' : Nat → Byte) : Prop where
  record : ∀ i k, ks[i]? = some k →
    ∃ r, s.chunkHolder k = some r ∧ SameRecord p d g s.f.active r g' s.f.active.other i
  vacant : VacantFrom p d s.f.active.other ks.length g'

theorem survivors_le (h : FeeOn p d g s) (omitted : Option Nat) :
    (s.survivors omitted s.chunkKeys).length ≤ slotCount p d := by
  have hle := List.length_filter_le (fun k => decide (some k ≠ omitted) && (s.chunkHolder k).isSome) s.chunkKeys
  rw [h.laid.chunkKeys, length_chunkAddrs] at hle
  rw [h.laid.chunkKeys]
  exact hle

/-- Bytes of slots agree through what is done before and after the copies. -/
theorem SameRecord.between {a' : Arena} {i' : Nat} {g0 g1 g2 g3 : Nat → Byte} (hfit : FeeFit p d)
    (h : SameRecord p d g1 a i g2 a' i') (hbefore : SlotsAgree d a g0 g1) (hafter : SlotsAgree d a' g2 g3)
    (hi : i < slotCount p d) (hi' : i' < slotCount p d) : SameRecord p d g0 a i g3 a' i' := fun o ho => by
  rw [hafter.sameRecord hfit hi' o ho, h o ho, hbefore.sameRecord hfit hi o ho]

theorem VacantFrom.after (hv : VacantFrom p d a n g) (h : SlotsAgree d a g g') : VacantFrom p d a n g' :=
  fun x hlo hhi => by
    have hbase := arenaAt_le_slotAt p d a n
    rw [h x (by omega) hhi]
    exact hv x hlo hhi

theorem gc_turns (h : FeeOn p d g s) (hn : s.f.slotsUsed.toNat ≤ slotCount p d) (omitted : Option Nat) :
    Completes (fun _ t => ∃ g', s.Turns True (s.f.collected (s.survivors omitted s.chunkKeys).length) g' t
        ∧ Collected p d s (s.survivors omitted s.chunkKeys) g g') (gc omitted) s := by
  have hfit := h.laid.fit
  have hspan : 32 ≤ arenaSpan d := by have := hfit.slot_le_arena; omega
  have hcount := survivors_le h omitted
  unfold gc
  refine .read ?_
  refine Ends.bind (markArenaFrozen_turns h s.f.active) fun _ s1 k1 => ?_
  have h1 := h.turns k1 (geometry_setArenaState ..)
  refine Ends.bind (prepareDst_turns h1 s.f.active) fun _ s2 ⟨v, g2, k2, hprep⟩ => ?_
  have h2 := h1.turns k2 (geometry_setArenaState ..)
  have hbank2 : s2.f = (s.f.setArenaState s.f.active .frozen).setArenaState s.f.active.other v := by
    rw [k2.bank, k1.bank]
  have hactive : s2.f.active = s.f.active := by rw [hbank2, active_setArenaState, active_setArenaState]
  have hused : s2.f.slotsUsed = s.f.slotsUsed := by rw [hbank2, slotsUsed_setArenaState, slotsUsed_setArenaState]
  have hagree : SlotsAgree d s.f.active g g2 :=
    (markBytes_slotsAgree hspan (headerMark_le p.widthF).2).trans hprep.agree
  have hholder := chunkHolder_congr h h2 hactive hused hn hagree
  have hsurvive : s2.survivors omitted s.chunkKeys = s.survivors omitted s.chunkKeys := by
    unfold State.survivors
    simp only [hholder]
  have hcopy := copyLive_turns h2 (by rw [hused]; exact hn) omitted 0 s.chunkKeys
    (by rw [hsurvive, Nat.zero_add]; exact hcount) (by rw [hactive]; exact hprep.vacant)
  rw [hsurvive, hactive] at hcopy
  refine .read ?_
  rw [show s2.chunkKeys = s.chunkKeys from h2.laid.chunkKeys.trans h.laid.chunkKeys.symm]
  refine Ends.bind hcopy fun j s3 ⟨hj, g3, k3, hcopied⟩ => ?_
  rw [Nat.zero_add] at hj
  subst hj
  have h3 := h2.turns k3 rfl
  refine Ends.bind (devSync_turns h3) fun _ s4 k4 => ?_
  have h4 := h3.turns k4 rfl
  refine Ends.bind (markArenaActive_turns h4 s.f.active.other) fun _ s5 k5 => ?_
  have h5 := h4.turns k5 (geometry_setArenaState ..)
  refine Ends.bind (arenaReinit_turns h5 s.f.active) fun _ s6 k6 => ?_
  have h6 := h5.turns k6 (geometry_setArenaState ..)
  refine Completes.after (setActive_undisturbed h6.calm s.f.active.other) ?_
  have h7 := h6.setBank (f := { s6.f with active := s.f.active.other }) rfl
  refine Completes.after (setSlotsUsed_undisturbed h7.calm _) ?_
  have h8 := h7.setBank
    (f := { s6.f with
      active := s.f.active.other
      slotsUsed := BitVec.ofNat 32 (s.survivors omitted s.chunkKeys).length })
    rfl
  refine completes_of_ok (feeRegs_undisturbed h8.calm _) ?_
  have hbank6 : s6.f = (s.f.setArenaState s.f.active .unused).setArenaState s.f.active.other .active := by
    rw [k6.bank, k5.bank, k4.bank, k3.bank, hbank2, setArenaState_setArenaState]
    cases s.f.active <;> rfl
  have hafter : SlotsAgree d s.f.active.other g3
      (reinitBytes p d s.f.active (markBytes p d s.f.active.other (headerMark0 p.widthF) g3)) := by
    have hreinit := reinitBytes_slotsAgree (p := p) (a := s.f.active.other)
      (g := markBytes p d s.f.active.other (headerMark0 p.widthF) g3) hspan
    rw [other_other] at hreinit
    exact (markBytes_slotsAgree hspan (headerMark_le p.widthF).1).trans hreinit
  refine ⟨_, ((((((((k1.trans k2).trans k3).trans k4).trans k5).trans k6).setBank _).setBank _).setBank _).cast
    (congrArg (fun f : FeeUnit => { f with
      active := s.f.active.other
      slotsUsed := BitVec.ofNat 32 (s.survivors omitted s.chunkKeys).length
      gcCount := f.gcCount + 1 }) hbank6 |>.trans ?_) rfl, fun i k hi => ?_, ?_⟩
  · unfold FeeUnit.collected
    cases s.f.active <;> rfl
  · obtain ⟨r, hr, hsame⟩ := hcopied.record i k hi
    rw [hholder] at hr
    rw [hactive, Nat.zero_add] at hsame
    have hilt : i < (s.survivors omitted s.chunkKeys).length := (List.getElem?_eq_some_iff.1 hi).1
    exact ⟨r, hr, hsame.between hfit hagree hafter (chunkHolder_lt hn hr) (by omega)⟩
  · refine VacantFrom.after (fun x hlo hhi => ?_) hafter
    have hle := slotAt_le p d s.f.active.other (Nat.zero_le (s.survivors omitted s.chunkKeys).length)
    have habove := hcopied.above x
    rw [hactive, Nat.zero_add] at habove
    rw [habove hlo hhi]
    exact hprep.vacant x (by omega) hhi

end Sys2Proof.Machine
end

