-- ==== Sys2Proof/Proofs/FeeContent.lean ====
section
/-! PROOF. What the slots hold after an append and after a collection: chunk by chunk, the values that were there before
and the one that was written (42_fee.md R209 to R211; 43_fee_gc.md R241 to R243, R251). -/

open Sys2Proof Sys2Proof.Machine

namespace Sys2Proof.Machine

variable {p : Params} {d : DevInfo} {s t : State} {g g' : Nat → Byte} {a : Arena} {i key n x : Nat} {ks : List Nat}
  {pl : List Byte} {omitted : Option Nat}

/-- The FEE unit on its device, with content that its own commands leave. -/
structure FeeServed (p : Params) (d : DevInfo) (g : Nat → Byte) (s : State) : Prop where
  on : FeeOn p d g s
  used : s.f.slotsUsed.toNat ≤ slotCount p d
  aligned : s.keysAligned
  vacant : VacantFrom p d s.f.active s.f.slotsUsed.toNat g

theorem feeServed_of_sound (h : s.feeSound) (hu : s.undisturbed = true) :
    FeeServed s.params s.devF.info s.devF.cur.byteAt s := by
  obtain ⟨hcan, hlaid, hused, haligned, -⟩ := id h
  have hon := feeOn_of_laidOut hcan hlaid hu
  exact ⟨hon, hon.laid.numSlots ▸ hused, haligned, vacantFrom_of_sound h⟩

theorem FeeServed.sound (h : FeeServed p d g s) (hcan : s.memoryCanonical = true) : s.feeSound := by
  obtain ⟨⟨hlaid, -, hreads⟩, hused, haligned, hvacant⟩ := h
  refine ⟨hcan, feeAt_laidOut hlaid, hlaid.numSlots ▸ hused, haligned, fun x hlo hhi => ?_⟩
  rw [hlaid.slotBase] at hlo
  rw [hlaid.arenaBase, hlaid.arenaBytes] at hhi
  rw [hreads.bytes]
  exact hvacant x hlo hhi

/-- Byte by byte, a READ of sound content gives what the chunks hold. -/
theorem FeeServed.feeByte (h : FeeServed p d g s) (x : Nat) : s.feeByte x = s.chunkByte x :=
  feeByte_eq_chunkByte (by rw [h.on.laid.params]; exact h.on.laid.fit.payload_pos) h.aligned x

/-! ### After an append -/

/-- A part of what is laid over a span. -/
theorem spanOf_overlay_part (xs ys zs : List Byte) :
    spanOf (overlayBytes g x (xs ++ ys ++ zs)) (x + xs.length) ys.length = ys :=
  (spanOf_eq_iff rfl).2 fun j hj => by
    rw [overlayBytes_of_mem (by omega) (by simp only [List.length_append]; omega),
      List.getElem?_append_left (by simp only [List.length_append]; omega), List.getElem?_append_right (by omega)]
    congr 2
    omega

theorem spanOf_append (g : Nat → Byte) (x m n : Nat) : spanOf g x m ++ spanOf g (x + m) n = spanOf g x (m + n) := by
  unfold spanOf
  rw [List.range_add, List.map_append, List.map_map]
  simp [Function.comp_def, Nat.add_assoc]

/-- The parts of a VALID record in its place (30_encoding.md R114, R117). -/
theorem spans_of_record (hpl : pl.length = p.payload) (hkey : key < 2 ^ 32) :
    spanOf (recordBytes p d a i key pl g) (slotAt p d a i) p.widthF.bytes
        ++ spanOf (recordBytes p d a i key pl g) (slotAt p d a i + p.widthF.bytes) p.widthF.bytes
        = FeeMark.encode p.widthF .second
      ∧ leVal (spanOf (recordBytes p d a i key pl g) (slotAt p d a i + slotKeyOffset p.widthF) 4) = key
      ∧ spanOf (recordBytes p d a i key pl g) (slotAt p d a i + slotPayloadOffset p.widthF) p.payload = pl := by
  have hmarks := marks_le_key p.widthF
  have henc : (FeeMark.encode p.widthF .second).length = 2 * p.widthF.bytes := by
    rw [FeeMark.encode, List.length_append, length_leBytes, length_leBytes]
    omega
  have hgap : (FeeMark.encode p.widthF .second ++ fill erasedByte (slotKeyOffset p.widthF - 2 * p.widthF.bytes)).length
      = slotKeyOffset p.widthF := by
    rw [List.length_append, henc, length_fill]
    omega
  unfold recordBytes validRecord
  generalize fill erasedByte (slotSpan p - slotPayloadOffset p.widthF - p.payload) = tail
  refine ⟨?_, ?_, ?_⟩
  · have hpart := spanOf_overlay_part (g := g) (x := slotAt p d a i) [] (FeeMark.encode p.widthF .second)
      (fill erasedByte (slotKeyOffset p.widthF - 2 * p.widthF.bytes) ++ leBytes 4 key ++ pl ++ tail)
    rw [spanOf_append]
    simpa only [List.nil_append, List.append_assoc, List.length_nil, Nat.add_zero, henc, Nat.two_mul] using hpart
  · have hpart := spanOf_overlay_part (g := g) (x := slotAt p d a i)
      (FeeMark.encode p.widthF .second ++ fill erasedByte (slotKeyOffset p.widthF - 2 * p.widthF.bytes))
      (leBytes 4 key) (pl ++ tail)
    rw [hgap, length_leBytes, ← List.append_assoc] at hpart
    rw [hpart]
    exact leVal_leBytes 4 key (lt_of_lt_of_eq hkey (by decide))
  · have hpart := spanOf_overlay_part (g := g) (x := slotAt p d a i)
      (FeeMark.encode p.widthF .second ++ fill erasedByte (slotKeyOffset p.widthF - 2 * p.widthF.bytes)
        ++ leBytes 4 key)
      pl tail
    rwa [List.length_append, hgap, length_leBytes, hpl] at hpart

/-- A record leaves the slots before it. -/
theorem recordBytes_before (hin : i < n) :
    SameRecord p d g a i (recordBytes p d a n key pl g) a i := fun o ho =>
  overlayBytes_of_not_mem fun ⟨hlo, _⟩ => by
    have hle := slotAt_le p d a hin
    rw [slotAt_succ] at hle
    omega

section appended
variable (h : FeeServed p d g s) (hroom : s.f.slotsUsed.toNat < slotCount p d)
  (k : s.Turns True { s.f with slotsUsed := s.f.slotsUsed + 1 }
    (recordBytes p d s.f.active s.f.slotsUsed.toNat key pl g) t)
  (hpl : pl.length = p.payload) (hlt : key < 2 ^ 32)
include h hroom k hpl hlt

omit hpl hlt in
theorem slotsUsed_appended : t.f.slotsUsed.toNat = s.f.slotsUsed.toNat + 1 := by
  have hcount := h.on.laid.fit.slotCount_lt
  rw [k.bank]
  show (s.f.slotsUsed + 1).toNat = _
  rw [BitVec.toNat_add]
  exact Nat.mod_eq_of_lt (by show s.f.slotsUsed.toNat + 1 < 2 ^ 32; omega)

omit hroom hpl hlt in
/-- The slots that were in use read as before. -/
theorem slots_before_append (hi : i < s.f.slotsUsed.toNat) : t.slotStateAt i = s.slotStateAt i
    ∧ t.slotKeyAt i = s.slotKeyAt i ∧ t.slotPayloadAt i = s.slotPayloadAt i := by
  have ht := h.on.turns k rfl
  have hactive : t.f.active = s.f.active := by rw [k.bank]
  have hrec : SameRecord p d g s.f.active i (recordBytes p d s.f.active s.f.slotsUsed.toNat key pl g) t.f.active i :=
    hactive ▸ recordBytes_before hi
  exact ⟨slotStateIn_congr h.on ht hrec, slotKeyAt_congr h.on ht hrec, slotPayloadAt_congr h.on ht hrec⟩

omit hroom in
/-- The new slot holds the record. -/
theorem slot_appended : t.slotStateAt s.f.slotsUsed.toNat = .valid
    ∧ t.slotKeyAt s.f.slotsUsed.toNat = key ∧ t.slotPayloadAt s.f.slotsUsed.toNat = pl := by
  have ht := h.on.turns k rfl
  have hactive : t.f.active = s.f.active := by rw [k.bank]
  obtain ⟨hmark, hkey, hpayload⟩ :=
    spans_of_record (d := d) (a := s.f.active) (i := s.f.slotsUsed.toNat) (g := g) hpl hlt
  unfold State.slotStateAt
  rw [ht.slotStateIn, ht.slotKeyAt, ht.slotPayloadAt, hactive,
    (FeeMark.decode_leVal_eq_some_iff (length_spanOf ..) (length_spanOf ..)).2 hmark]
  exact ⟨rfl, hkey, hpayload⟩

theorem chunkValue_appended (k' : Nat) : t.chunkValue k' = if k' = key then pl else s.chunkValue k' := by
  obtain ⟨hvalid, hkey, hpayload⟩ := slot_appended h k hpl hlt
  have hbefore : lastBelow (t.holdsKey k') s.f.slotsUsed.toNat = s.chunkHolder k' := by
    rw [State.chunkHolder_eq]
    refine lastBelow_congr fun i hi => ?_
    obtain ⟨hstate, hkeyAt, -⟩ := slots_before_append h k hi
    unfold State.holdsKey
    rw [hstate, hkeyAt]
  have hholder : t.chunkHolder k' = if k' = key then some s.f.slotsUsed.toNat else s.chunkHolder k' := by
    rw [State.chunkHolder_eq, slotsUsed_appended h hroom k, lastBelow_succ, hbefore]
    refine if_congr ?_ rfl rfl
    rw [State.holdsKey_iff, hkey]
    exact ⟨fun ⟨_, he⟩ => he.symm, fun he => ⟨hvalid, he.symm⟩⟩
  by_cases hk : k' = key
  · rw [if_pos hk] at hholder ⊢
    rw [State.chunkValue_some hholder, hpayload]
  · rw [if_neg hk] at hholder ⊢
    cases hs : s.chunkHolder k' with
    | none =>
      rw [State.chunkValue_none hs, State.chunkValue_none (hholder.trans hs), k.rest]
    | some r =>
      have hr : r < s.f.slotsUsed.toNat := (lastBelow_eq_some_iff.1 hs).1
      obtain ⟨-, -, hsame⟩ := slots_before_append h k hr
      rw [State.chunkValue_some hs, State.chunkValue_some (hholder.trans hs), hsame]

theorem feeServed_appended (hal : key % p.payload = 0) :
    FeeServed p d (recordBytes p d s.f.active s.f.slotsUsed.toNat key pl g) t := by
  have hused := slotsUsed_appended h hroom k
  have hparams : t.params = s.params := by rw [k.rest]
  refine ⟨h.on.turns k rfl, by omega, fun i hi hv => ?_, fun x hlo hhi => ?_⟩
  · rcases Nat.lt_succ_iff_lt_or_eq.1 (hused ▸ hi) with hlt' | rfl
    · obtain ⟨hstate, hkeyAt, -⟩ := slots_before_append h k hlt'
      rw [hkeyAt, hparams]
      exact h.aligned i hlt' (hstate ▸ hv)
    · obtain ⟨-, hkey, -⟩ := slot_appended h k hpl hlt
      rw [hkey, hparams, h.on.laid.params]
      exact hal
  · rw [hused, slotAt_succ, k.bank] at hlo
    rw [k.bank] at hhi
    have hlen := length_validRecord p key hpl
    have hout : recordBytes p d s.f.active s.f.slotsUsed.toNat key pl g x = g x :=
      overlayBytes_of_not_mem (by rw [hlen]; exact fun hm => Nat.not_lt.2 hlo hm.2)
    rw [hout]
    exact h.vacant x (le_trans (Nat.le_add_right ..) hlo) hhi

end appended

/-! ### After a collection -/

theorem mem_survivors_iff : key ∈ s.survivors omitted ks
    ↔ key ∈ ks ∧ some key ≠ omitted ∧ (s.chunkHolder key).isSome = true := by
  simp [State.survivors]

section collected
variable (h : FeeOn p d g s) (k : s.Turns True (s.f.collected ks.length) g' t) (hc : Collected p d s ks g g')
  (hks : ks.length ≤ slotCount p d)
include h k hc hks

omit hc in
theorem slotsUsed_collected : t.f.slotsUsed.toNat = ks.length := by
  rw [k.bank]
  show (BitVec.ofNat 32 ks.length).toNat = _
  rw [BitVec.toNat_ofNat]
  exact Nat.mod_eq_of_lt (lt_of_le_of_lt hks h.laid.fit.slotCount_lt)

omit hks in
/-- Slot i holds the chunk that was copied to it. -/
theorem slot_collected {k' : Nat} (hi : ks[i]? = some k') :
    t.slotStateAt i = .valid ∧ t.slotKeyAt i = k' ∧ t.slotPayloadAt i = s.chunkValue k' := by
  have ht := h.turns k (geometry_collected ..)
  have hactive : t.f.active = s.f.active.other := by rw [k.bank]; rfl
  obtain ⟨r, hr, hrec⟩ := hc.record i k' hi
  rw [← hactive] at hrec
  obtain ⟨-, hholds, -⟩ := lastBelow_eq_some_iff.1 (State.chunkHolder_eq .. ▸ hr)
  obtain ⟨hvalid, hkey⟩ := State.holdsKey_iff.1 hholds
  refine ⟨(slotStateIn_congr h ht hrec).trans hvalid, (slotKeyAt_congr h ht hrec).trans hkey, ?_⟩
  rw [slotPayloadAt_congr h ht hrec, State.chunkValue_some hr]

omit hks in
theorem holdsKey_collected (hi : i < ks.length) : t.holdsKey key i = true ↔ ks[i]? = some key := by
  have hget := List.getElem?_eq_getElem hi
  obtain ⟨hvalid, hkey, -⟩ := slot_collected h k hc hget
  rw [State.holdsKey_iff, hkey, hget, Option.some.injEq]
  exact and_iff_right hvalid

/-- A chunk that was copied has its value. -/
theorem chunkValue_of_mem_collected (hmem : key ∈ ks) : t.chunkValue key = s.chunkValue key := by
  have hused := slotsUsed_collected h k hks
  cases hr : t.chunkHolder key with
  | none =>
    obtain ⟨i, hi, hget⟩ := List.getElem_of_mem hmem
    have hnone := lastBelow_eq_none_iff.1 (State.chunkHolder_eq .. ▸ hr) i (by omega)
    rw [(holdsKey_collected h k hc hi).2 (by rw [List.getElem?_eq_getElem hi, hget])] at hnone
    cases hnone
  | some r =>
    obtain ⟨hlt, hholds, -⟩ := lastBelow_eq_some_iff.1 (State.chunkHolder_eq .. ▸ hr)
    obtain ⟨-, -, hpayload⟩ := slot_collected h k hc
      ((holdsKey_collected h k hc (by omega)).1 hholds)
    rw [State.chunkValue_some hr, hpayload]

/-- A chunk that was not copied is in no slot. -/
theorem chunkHolder_of_not_mem_collected (hmem : key ∉ ks) : t.chunkHolder key = none := by
  rw [State.chunkHolder_eq, lastBelow_eq_none_iff, slotsUsed_collected h k hks]
  refine fun i hi => Bool.eq_false_iff.2 fun hholds => hmem ?_
  exact List.mem_of_getElem? ((holdsKey_collected h k hc hi).1 hholds)

end collected

/-- A collection keeps the value of each chunk but the omitted one. -/
theorem chunkValue_collected (h : FeeOn p d g s)
    (k : s.Turns True (s.f.collected (s.survivors omitted s.chunkKeys).length) g' t)
    (hc : Collected p d s (s.survivors omitted s.chunkKeys) g g') (hkey : key ∈ s.chunkKeys)
    (homit : some key ≠ omitted) : t.chunkValue key = s.chunkValue key := by
  by_cases hmem : key ∈ s.survivors omitted s.chunkKeys
  · exact chunkValue_of_mem_collected h k hc (survivors_le h omitted) hmem
  · have hnone : s.chunkHolder key = none := by
      by_contra hsome
      exact hmem (mem_survivors_iff.2 ⟨hkey, homit, Option.isSome_iff_ne_none.2 hsome⟩)
    rw [State.chunkValue_none hnone,
      State.chunkValue_none (chunkHolder_of_not_mem_collected h k hc (survivors_le h omitted) hmem), k.rest]

theorem mod_of_mem_chunkAddrs (hkey : key ∈ chunkAddrs p d) : key % p.payload = 0 := by
  obtain ⟨q, -, rfl⟩ := List.mem_map.1 hkey
  exact Nat.mul_mod_left ..

/-- A collection leaves content that the unit's own commands leave. -/
theorem feeServed_collected (h : FeeOn p d g s)
    (k : s.Turns True (s.f.collected (s.survivors omitted s.chunkKeys).length) g' t)
    (hc : Collected p d s (s.survivors omitted s.chunkKeys) g g') : FeeServed p d g' t := by
  have hle := survivors_le h omitted
  have hused := slotsUsed_collected h k hle
  refine ⟨h.turns k (geometry_collected ..), by omega, fun i hi _ => ?_, ?_⟩
  · have hget := List.getElem?_eq_getElem (hused ▸ hi)
    obtain ⟨-, hkey, -⟩ := slot_collected h k hc hget
    obtain ⟨hmem, -⟩ := mem_survivors_iff.1 (List.mem_of_getElem? hget)
    rw [← hkey, h.laid.chunkKeys] at hmem
    have hmod := mod_of_mem_chunkAddrs hmem
    rw [← h.laid.params] at hmod
    rwa [show t.params = s.params by rw [k.rest]]
  · rw [hused, k.bank]
    exact hc.vacant

end Sys2Proof.Machine
end

