-- ==== Sys2Proof/Proofs/FeeRanges.lean ====
section
/-! PROOF. What FEE.WRITE and FEE.ERASE make of a range, whatever they collect (42_fee.md R211, R212, R222, R223, R229;
43_fee_gc.md R240 to R243). -/

open Sys2Proof Sys2Proof.Machine

namespace Sys2Proof.Machine

variable {p : Params} {d : DevInfo} {s t r : State} {f : FeeUnit} {g : Nat → Byte} {a : Arena} {key n x y : Nat}
  {nb : List Byte}

/-! ### What is rewritten -/

/-- `t` is `s` with another FEE bank and another DEV_F, whose bytes are durable if it is not the same. -/
structure State.Rewrites (s t : State) : Prop where
  rest : t = { s with f := t.f, devF := t.devF }
  info : t.devF.info = s.devF.info
  owned : t.devF.owned = s.devF.owned
  settled : t.devF = s.devF ∨ t.devF.pending = [] ∧ t.devF.dur = t.devF.cur

namespace State.Rewrites

theorem refl (s : State) : s.Rewrites s := ⟨rfl, rfl, rfl, .inl rfl⟩

theorem trans (h : s.Rewrites t) (k : t.Rewrites r) : s.Rewrites r where
  rest := k.rest.trans (by rw [h.rest])
  info := k.info.trans h.info
  owned := k.owned.trans h.owned
  settled := k.settled.elim (fun he => he ▸ h.settled) .inr

theorem params (h : s.Rewrites t) : t.params = s.params := by rw [h.rest]

/-- Where what the device holds now is canonical, so is every memory. -/
theorem memoryCanonical (h : s.Rewrites t) (hcur : t.devF.cur.wf (some erasedByte) = true)
    (hs : s.memoryCanonical = true) : t.memoryCanonical = true := by
  obtain ⟨hm, hf, hbuf⟩ := (memoryCanonical_iff s).1 hs
  refine (memoryCanonical_iff t).2 ⟨by rw [h.rest]; exact hm, ?_, by rw [h.rest]; exact hbuf⟩
  rcases h.settled with he | ⟨-, hdur⟩
  · rw [he]
    exact hf
  · exact ⟨hcur, hdur ▸ hcur⟩

end State.Rewrites

theorem State.Turns.rewrites (k : s.Turns True f g t) : s.Rewrites t where
  rest := k.rest.trans (by rw [k.bank])
  info := k.info
  owned := k.owned
  settled := .inr (k.durable trivial)

/-! ### Room for a record -/

/-- What a collection that omits a chunk leaves: a free slot, and all other chunks' values (43_fee_gc.md R240, R241). -/
structure Roomy (p : Params) (d : DevInfo) (key : Nat) (s t : State) : Prop where
  served : ∃ g, FeeServed p d g t
  room : t.f.slotsUsed.toNat < slotCount p d
  rewrites : s.Rewrites t
  values : ∀ k ∈ chunkAddrs p d, k ≠ key → t.chunkValue k = s.chunkValue k

theorem survivors_lt (h : FeeOn p d g s) (hkey : key ∈ chunkAddrs p d) :
    (s.survivors (some key) s.chunkKeys).length < slotCount p d := by
  have homitted := length_filter_omitted hkey
  rw [length_chunkAddrs] at homitted
  unfold State.survivors
  rw [h.laid.chunkKeys, ← List.filter_filter, List.filter_comm]
  exact lt_of_le_of_lt (List.length_filter_le ..) homitted

theorem makeRoom_roomy (h : FeeServed p d g s) (hkey : key ∈ chunkAddrs p d) :
    Completes (fun _ t => Roomy p d key s t) (makeRoom key) s := by
  refine .read (.ite (fun _ => ?_) fun hne => ?_)
  · refine Ends.mono (gc_turns h.on h.used (some key)) (fun _ t ⟨g', k, hc⟩ => ?_) fun _ _ e => e
    have hused := slotsUsed_collected h.on k (survivors_le h.on (some key))
    refine ⟨⟨g', feeServed_collected h.on k hc⟩, hused ▸ survivors_lt h.on hkey, k.rewrites, fun k' hk' hk => ?_⟩
    exact chunkValue_collected h.on k hc (h.on.laid.chunkKeys.symm ▸ hk') fun he => hk (Option.some.inj he)
  · have hne' : s.f.slotsUsed.toNat ≠ slotCount p d := fun he =>
      hne (BitVec.eq_of_toNat_eq (he.trans h.on.laid.numSlots.symm))
    exact ⟨⟨g, h⟩, lt_of_le_of_ne h.used hne', .refl s, fun _ _ _ => rfl⟩

/-! ### Ranges of bytes -/

/-- The emulated space has these bytes laid over it, and is all else as it was. -/
structure Rewritten (p : Params) (d : DevInfo) (x : Nat) (nb : List Byte) (s t : State) : Prop where
  served : ∃ g, FeeServed p d g t
  rewrites : s.Rewrites t
  bytes : ∀ y, y < slotCount p d * p.payload → t.chunkByte y = overlayBytes s.chunkByte x nb y

theorem overlayBytes_nil (f : Nat → Byte) (x : Nat) : overlayBytes f x [] = f :=
  funext fun _ => overlayBytes_of_not_mem (by simp)

theorem Rewritten.refl (h : FeeServed p d g s) (x : Nat) : Rewritten p d x [] s s :=
  ⟨⟨g, h⟩, .refl s, fun y _ => by rw [overlayBytes_nil]⟩

/-- Bytes that are there already are laid over without a change. -/
theorem overlayBytes_eq_self {f : Nat → Byte} (h : ∀ k (hk : k < nb.length), nb[k] = f (x + k)) :
    overlayBytes f x nb = f := by
  funext y
  by_cases hy : x ≤ y ∧ y < x + nb.length
  · rw [overlayBytes_of_mem hy.1 hy.2, List.getElem?_eq_getElem (by omega), Option.getD_some, h _ (by omega),
      Nat.add_sub_cancel' hy.1]
  · exact overlayBytes_of_not_mem hy

/-- A string is laid over part by part. -/
theorem overlayBytes_take_drop (f : Nat → Byte) (x m : Nat) (nb : List Byte) :
    overlayBytes (overlayBytes f x (nb.take m)) (x + m) (nb.drop m) = overlayBytes f x nb := by
  funext y
  unfold overlayBytes
  simp only [List.length_take, List.length_drop, List.getElem?_drop]
  by_cases hall : x ≤ y ∧ y < x + nb.length
  · rw [if_pos hall]
    rcases Nat.lt_or_ge y (x + m) with hlt | hge
    · rw [if_neg (by omega), if_pos (by omega), List.getElem?_take_of_lt (by omega)]
    · rw [if_pos (by omega)]
      congr 2
      omega
  · rw [if_neg hall, if_neg (by omega), if_neg (by omega)]

/-- What is laid over bytes that agree agrees. -/
theorem overlayBytes_congr {f f' : Nat → Byte} (h : f' y = f y) : overlayBytes f' x nb y = overlayBytes f x nb y := by
  unfold overlayBytes
  rw [h]

section span
variable (h : FeeServed p d g s)
include h

/-- One span, written to its chunk alone (42_fee.md R211). -/
theorem writeSpan_rewritten (hx : x < slotCount p d * p.payload) (hlen : x % p.payload + nb.length ≤ p.payload) :
    Completes (fun _ t => Rewritten p d x nb s t) (writeSpan (x - x % p.payload) (x % p.payload) nb) s := by
  have hkey := mem_chunkAddrs hx
  obtain rfl : s.params = p := h.on.laid.params
  have hn := h.used
  by_cases hequal : s.mergedAt x nb = s.chunkValue (x - x % s.params.payload)
  · refine completes_of_ok (writeSpan_of_equal h.on.laid h.on.calm hn hequal) ⟨⟨g, h⟩, .refl s, fun y _ => ?_⟩
    rw [overlayBytes_eq_self ((mergedAt_eq_self_iff hlen).1 hequal)]
  · unfold Completes
    rw [writeSpan_of_change h.on.laid h.on.calm hn hequal]
    refine Ends.bind (makeRoom_roomy h hkey) fun _ s1 ⟨⟨g1, h1⟩, hroom, hrewrites, hvalues⟩ => ?_
    have hpl : (s.mergedAt x nb).length = s.params.payload := length_mergedAt hlen
    refine Ends.mono (append_vacant h1.on hroom (x - x % s.params.payload) hpl h1.vacant) (fun _ t k => ?_)
      fun _ _ e => e
    have hsize : slotCount s.params d * s.params.payload < 2 ^ 32 :=
      lt_of_le_of_lt h.on.laid.fit.chunks_le_arena h.on.laid.fit.arenaSpan_lt
    have hlt : x - x % s.params.payload < 2 ^ 32 := by omega
    have hchain := hrewrites.trans k.rewrites
    refine ⟨⟨_, feeServed_appended h1 hroom k hpl hlt (mod_of_mem_chunkAddrs hkey)⟩, hchain, fun y hy => ?_⟩
    have hpos : 0 < s.params.payload := h.on.laid.fit.payload_pos
    have hmod := Nat.mod_lt y hpos
    have hle := Nat.mod_le y s.params.payload
    have hlex := Nat.mod_le x s.params.payload
    rw [State.chunkByte_eq, hchain.params, chunkValue_appended h1 hroom k hpl hlt]
    by_cases hsame : y - y % s.params.payload = x - x % s.params.payload
    · rw [if_pos hsame, List.getElem?_eq_getElem (by rwa [hpl]), Option.getD_some, getElem_mergedAt hlen, ← hsame,
        Nat.sub_add_cancel hle]
    · rw [if_neg hsame, hvalues _ (mem_chunkAddrs hy) hsame, ← State.chunkByte_eq]
      refine (overlayBytes_of_not_mem fun hm => hsame ?_).symm
      have hcover := (aligned_covers_iff (x := y) hpos (mod_of_mem_chunkAddrs hkey)).1 (by omega)
      rw [hcover, sub_mod_eq]

end span

/-- A range, chunk by chunk (42_fee.md R212). -/
theorem writeChunks_rewritten (n x : Nat) (nb : List Byte) (h : FeeServed p d g s) (hfuel : nb.length ≤ n)
    (hin : nb = [] ∨ x + nb.length ≤ slotCount p d * p.payload) :
    Completes (fun _ t => Rewritten p d x nb s t) (writeChunks n x nb) s := by
  induction n generalizing s g x nb with
  | zero =>
    obtain rfl : nb = [] := List.eq_nil_of_length_eq_zero (by omega)
    exact Rewritten.refl h x
  | succ n ih =>
    refine .ite (fun hnil => hnil ▸ Rewritten.refl h x) fun hne => .read ?_
    have hbound := hin.resolve_left hne
    have hpos := List.length_pos_iff.2 hne
    have hmod := Nat.mod_lt x h.on.laid.fit.payload_pos
    have hle := Nat.mod_le x p.payload
    have hnext : x - x % p.payload + p.payload = x + (p.payload - x % p.payload) := by omega
    rw [h.on.laid.params, hnext]
    refine Ends.bind (writeSpan_rewritten h (x := x) (by omega) ?_) fun _ s1 ⟨⟨g1, h1⟩, hrewrites, hbytes⟩ => ?_
    · rw [List.length_take]
      omega
    · refine Ends.mono (ih _ _ h1 ?_ ?_) (fun _ t ⟨hserved, hrewrites', hbytes'⟩ => ?_) fun _ _ e => e
      · rw [List.length_drop]
        omega
      · rw [List.drop_eq_nil_iff, List.length_drop]
        omega
      · refine ⟨hserved, hrewrites.trans hrewrites', fun y hy => ?_⟩
        rw [hbytes' y hy, overlayBytes_congr (hbytes y hy), overlayBytes_take_drop]

theorem writeRange_rewritten (h : FeeServed p d g s) (hin : x + nb.length ≤ slotCount p d * p.payload) :
    Completes (fun _ t => Rewritten p d x nb s t) (writeRange x nb) s :=
  writeChunks_rewritten nb.length x nb h le_rfl (.inr hin)

/-- A bank that keeps all but the slots' and arenas' registers. -/
theorem bank_of_exceptSlots (h : s.Follows Banks.exceptSlots t) : t.f = { s.f with
    active := t.f.active, slotsUsed := t.f.slotsUsed, state0 := t.f.state0, state1 := t.f.state1
    gcCount := t.f.gcCount } :=
  congrArg (fun b : Banks => { b.f with
    active := t.f.active, slotsUsed := t.f.slotsUsed, state0 := t.f.state0, state1 := t.f.state1
    gcCount := t.f.gcCount }) h.view

end Sys2Proof.Machine

namespace Sys2Proof.Proofs

/-- Settles O33: each span of the range is laid over its chunk, and what an append or a collection does to the slots
leaves every other chunk's value. -/
theorem feeWriteReadsBack : Obligations.FeeWriteReadsBack := by
  unfold Obligations.FeeWriteReadsBack
  intro h s i nb hs hu hsound hin hnew
  have hserved := feeServed_of_sound hsound hu
  obtain ⟨hcan, -⟩ := hsound
  have hlogical := hserved.on.laid.logicalSize
  have hrange := (writeRange_rewritten hserved (x := s.opAddr) (nb := s.rangeBytes nb)
    (by rwa [length_rangeBytes, ← hlogical])).and ((writeRange_within s.opAddr (s.rangeBytes nb)).ends s)
  obtain ⟨⟨⟩, t, hok, hrewritten, hfollows⟩ := Completes.exists_ok (hrange.mono (fun _ _ k => k) fun _ _ e => e.1)
  obtain ⟨⟨g, ht⟩, hrewrites, hbytes⟩ := hrewritten
  rw [← feeChangeBody_of_serves hs hin hnew] at hok
  refine ⟨t.complete .ok, exec_of_body_ok (admits_of_feeNewBytes hs hnew) hok (undisturbed_uneventful ht.on.calm),
    ht.sound (hrewrites.memoryCanonical ht.on.reads.canonical hcan), fun x hx => ?_, hrewrites.info, hrewrites.owned,
    hrewrites.settled, ?_⟩
  · rw [hlogical] at hx
    rw [hserved.feeByte, ← overlay_rangeBytes, ← hbytes x hx]
    exact ht.feeByte x
  · show t.complete .ok = { s with
      devF := t.devF
      f := { s.f with
        active := t.f.active, slotsUsed := t.f.slotsUsed, state0 := t.f.state0, state1 := t.f.state1
        gcCount := t.f.gcCount }
      status := s.status.completed .ok }
    rw [← bank_of_exceptSlots hfollows]
    exact congrArg (·.complete .ok) hrewrites.rest

end Sys2Proof.Proofs
end

