-- ==== Sys2Proof/Proofs/FeeResumes.lean ====
section
/-! PROOF. The collection that FEE.START completes (42_fee.md R215, R219; 43_fee_gc.md R241, R245). -/

open Sys2Proof Sys2Proof.Machine

namespace Sys2Proof.Machine

variable {p : Params} {d : DevInfo} {s t : State} {g g' : Nat → Byte} {a : Arena}

/-- The state with an arena adopted (42_fee.md R215). -/
def State.adopted (s : State) (a : Arena) : State :=
  { s with f := { s.f with active := a, slotsUsed := BitVec.ofNat 32 (s.loadedSlots a) } }

theorem FeeOn.adopted (h : FeeOn p d g s) (a : Arena) : FeeOn p d g (s.adopted a) := h.setBank rfl

theorem slotsUsed_adopted_le (h : FeeOn p d g s) (a : Arena) : (s.adopted a).f.slotsUsed.toNat ≤ slotCount p d := by
  have hle := s.usedBelow_le a s.f.numSlots.toNat
  rw [← State.loadedSlots_eq, h.laid.numSlots] at hle
  show (BitVec.ofNat 32 (s.loadedSlots a)).toNat ≤ _
  rw [BitVec.toNat_ofNat]
  exact (Nat.mod_le ..).trans hle

/-- As many slots are loaded from an arena whose slots agree. -/
theorem loadedSlots_congr (hs : FeeOn p d g s) (ht : FeeOn p d g' t) (hslots : SlotsAgree d a g g') :
    t.loadedSlots a = s.loadedSlots a := by
  rw [State.loadedSlots_eq, State.loadedSlots_eq, hs.laid.numSlots, ht.laid.numSlots]
  unfold State.usedBelow
  rw [lastBelow_congr fun i hi => by rw [slotStateIn_congr hs ht (hslots.sameRecord hs.laid.fit hi)]]

theorem survivors_none (s : State) : s.survivors none s.chunkKeys = s.liveKeys := by
  unfold State.survivors State.liveKeys
  simp

/-- A collection resumed from arena a: its live chunks stand in the other arena, with the values that they have in
arena a (43_fee_gc.md R245). -/
structure Resumed (p : Params) (d : DevInfo) (s : State) (a : Arena) (g : Nat → Byte) (t : State) : Prop where
  turns : s.Turns True (FeeUnit.collected { s.f with active := a } (s.adopted a).liveKeys.length) g t
  served : FeeServed p d g t
  values : ∀ k ∈ chunkAddrs p d, t.chunkValue k = (s.adopted a).chunkValue k

theorem resumeGc_resumed (h : FeeOn p d g s) (a : Arena) :
    Completes (fun _ t => ∃ g', Resumed p d s a g' t) (resumeGc a) s := by
  have hspan := h.laid.fit.slot_le_arena
  unfold resumeGc
  refine Ends.bind (arenaReinit_turns h a.other) fun _ s1 k1 => ?_
  have h1 := h.turns k1 (geometry_setArenaState ..)
  have hslots : SlotsAgree d a g (reinitBytes p d a.other g) := reinitBytes_slotsAgree (by omega)
  refine Completes.after (adoptArena_undisturbed h1.laid h1.calm a) ?_
  have hn := slotsUsed_adopted_le h1 a
  refine Ends.mono (gc_turns (h1.adopted a) hn none) (fun _ t ⟨g', k, hc⟩ => ?_) fun _ _ e => e
  have hused : (s1.adopted a).f.slotsUsed = (s.adopted a).f.slotsUsed :=
    congrArg (BitVec.ofNat 32) (loadedSlots_congr h h1 hslots)
  have hle := slotsUsed_adopted_le h a
  have hlive : (s1.adopted a).liveKeys = (s.adopted a).liveKeys := by
    unfold State.liveKeys
    rw [(h1.adopted a).laid.chunkKeys, (h.adopted a).laid.chunkKeys]
    refine List.filter_congr fun key _ => ?_
    rw [chunkHolder_congr (h.adopted a) (h1.adopted a) rfl hused hle hslots]
  refine ⟨g', ((k1.setBank (s1.adopted a).f).trans k).cast ?_ rfl, feeServed_collected (h1.adopted a) k hc,
    fun key hkey => ?_⟩
  · rw [survivors_none, hlive]
    unfold State.adopted
    rw [k1.bank]
    cases a <;> rfl
  · rw [chunkValue_collected (h1.adopted a) k hc ((h1.adopted a).laid.chunkKeys.symm ▸ hkey) nofun]
    exact chunkValue_congr (h.adopted a) (h1.adopted a) rfl hused hle hslots key

/-- Registers outside the slots and the geometry do not matter to what the slots hold. -/
theorem FeeServed.setDriver (h : FeeServed p d g s) (v : DrvState) (b : Bool) :
    FeeServed p d g { s with f := { s.f with recover := b, drv := v } } :=
  ⟨h.on.setBank rfl, h.used, h.aligned, h.vacant⟩

end Sys2Proof.Machine

namespace Sys2Proof.Proofs

/-- Settles O37: the headers choose the second case of START; a reset of the other arena leaves the FROZEN one's slots,
and a collection that omits nothing keeps each chunk's value. -/
theorem feeStartResumesTheCollection : Obligations.FeeStartResumesTheCollection := by
  unfold Obligations.FeeStartResumesTheCollection
  intro h s a hs hu hcan hw hfit g hfrozen hother v
  have hon := feeOn_opened hcan hw hfit hu
  have hcase : startCase (s.feeGeometrySet.headerAt .a0) (s.feeGeometrySet.headerAt .a1) = .resume a :=
    startCase_resume (x := g.headerAt) hfrozen hother
  obtain ⟨⟨⟩, t, hresume, g', k, hserved, hvalues⟩ := (resumeGc_resumed hon a).exists_ok
  have hopened : s.Rewrites s.feeOpened.headersRead := ⟨rfl, rfl, rfl, .inr ⟨rfl, rfl⟩⟩
  have hrewrites := hopened.trans k.rewrites
  have hready := hserved.setDriver .ready false
  obtain ⟨hpending, hdur⟩ := k.durable trivial
  have hcanonical : t.memoryCanonical = true := hrewrites.memoryCanonical hserved.on.reads.canonical hcan
  have hparams : t.params = s.params := hrewrites.params
  have hbytes (x : Nat) (hx : x < t.f.logicalSize.toNat) : t.feeByte x = v.chunkByte x := by
    rw [hserved.on.laid.logicalSize] at hx
    rw [hserved.feeByte, State.chunkByte_eq, State.chunkByte_eq, hparams, hvalues _ (mem_chunkAddrs hx)]
    rfl
  refine ⟨_, exec_feeStart hs hu hw hfit (by rw [hcase]; exact hresume) hserved.on.calm, hready.sound hcanonical,
    hbytes, fun haligned x hx => ?_, hrewrites.info, hrewrites.owned, hpending, hdur, ?_⟩
  · rw [feeByte_eq_chunkByte (s := v) hon.laid.fit.payload_pos haligned]
    exact hbytes x hx
  · have hlive : (s.feeOpened.headersRead.adopted a).liveKeys = v.liveKeys := rfl
    rw [k.rest, hlive]
    cases a <;> rfl

end Sys2Proof.Proofs
end

