-- ==== Sys2Proof/Proofs/FeeFullArena.lean ====
section
/-! PROOF. A FEE.WRITE or FEE.ERASE on a full arena: the collection that makes room, and the record after it
(43_fee_gc.md R240 to R243, R251). -/

open Sys2Proof Sys2Proof.Machine

namespace Sys2Proof.Machine

variable {p : Params} {d : DevInfo} {s : State} {g : Nat → Byte} {key k : Nat} {pl : List Byte} {hid : HostId}
  {ins : Instr} {new : Nat → Byte} {Q : Unit → State → Prop}

/-! ### The bank after a collection -/

theorem arenaState_collected_src (f : FeeUnit) (n : Nat) : (f.collected n).arenaState f.active = .unused := by
  unfold FeeUnit.collected
  cases f.active <;> rfl

theorem arenaState_collected_dst (f : FeeUnit) (n : Nat) : (f.collected n).arenaState f.active.other = .active := by
  unfold FeeUnit.collected
  cases f.active <;> rfl

/-- One more slot is in use after a collection when a record follows it. -/
theorem collected_succ (f : FeeUnit) (n : Nat) :
    { f.collected n with slotsUsed := (f.collected n).slotsUsed + 1 } = f.collected (n + 1) := by
  have hcount : BitVec.ofNat 32 n + 1 = BitVec.ofNat 32 (n + 1) := (BitVec.ofNat_add n 1).symm
  unfold FeeUnit.collected
  rw [hcount]

/-! ### Room in a full arena -/

/-- A full arena is collected (43_fee_gc.md R240). -/
theorem makeRoom_of_full (hfull : s.f.slotsUsed = s.f.numSlots) (key : Nat) : makeRoom key s = gc (some key) s := by
  unfold makeRoom
  rw [Proc.bind_ok (Proc.get_apply s), if_pos hfull]

/-- What survives a collection that omits a chunk: the other live ones (43_fee_gc.md R242). -/
theorem survivors_some (s : State) (key : Nat) :
    s.survivors (some key) s.chunkKeys = s.liveKeys.filter fun k => k != key := by
  unfold State.survivors State.liveKeys
  rw [List.filter_filter]
  refine List.filter_congr fun k _ => congrArg (· && (s.chunkHolder k).isSome) ?_
  simp [bne, beq_eq_decide]

/-- A record appended to a full arena: the other live chunks are collected, and it takes the slot after them. -/
theorem append_full_turns (h : FeeServed p d g s) (hfull : s.f.slotsUsed = s.f.numSlots) (hkey : key ∈ chunkAddrs p d)
    (hpl : pl.length = p.payload) :
    Completes (fun _ t => ∃ g', s.Turns True (s.f.collected ((s.survivors (some key) s.chunkKeys).length + 1)) g' t)
      (do makeRoom key; append key pl : Proc Unit) s := by
  have hgc := gc_turns h.on h.used (some key)
  unfold Completes at hgc
  rw [← makeRoom_of_full hfull] at hgc
  refine Ends.bind hgc fun _ s1 ⟨g1, k1, hc⟩ => ?_
  have h1 := feeServed_collected h.on k1 hc
  have hroom : s1.f.slotsUsed.toNat < slotCount p d :=
    slotsUsed_collected h.on k1 (survivors_le h.on _) ▸ survivors_lt h.on hkey
  refine Ends.mono (append_vacant h1.on hroom key hpl h1.vacant) (fun _ t k2 => ⟨_, (k1.trans k2).cast ?_ rfl⟩)
    fun _ _ e => e
  rw [k1.bank, collected_succ]

/-! ### One changed chunk -/

/-- A WRITE or an ERASE that changes one chunk makes room for a record, and appends it (42_fee.md R211, R222). -/
theorem feeChangeBody_of_one_change (h : FeeServed s.params d g s) (hs : s.serves .fee hid)
    (hin : s.opAddr + s.opLen ≤ s.f.logicalSize.toNat) (hnew : s.feeNewBytes ins hid new)
    (hone : s.opAddr % s.params.payload + s.opLen ≤ s.params.payload) (hk : k < s.opLen)
    (hne : new k ≠ s.chunkByte (s.opAddr + k))
    (hrun : Completes Q (do
      makeRoom (s.opAddr - s.opAddr % s.params.payload)
      append (s.opAddr - s.opAddr % s.params.payload) (s.mergedAt s.opAddr (s.rangeBytes new)) : Proc Unit) s) :
    Completes Q (bodyOf ins) s := by
  have hlen : s.opAddr % s.params.payload + (s.rangeBytes new).length ≤ s.params.payload := by
    rwa [length_rangeBytes]
  have hchange : s.mergedAt s.opAddr (s.rangeBytes new) ≠ s.chunkValue (s.opAddr - s.opAddr % s.params.payload) := by
    rw [Ne, mergedAt_eq_self_iff hlen]
    exact fun hall => hne (by rw [← hall k (by rwa [length_rangeBytes]), getElem_rangeBytes])
  have hnonempty : s.rangeBytes new ≠ [] :=
    List.ne_nil_of_length_pos (by rw [length_rangeBytes]; exact Nat.zero_lt_of_lt hk)
  unfold Completes at hrun ⊢
  rw [← writeSpan_of_change h.on.laid h.on.calm h.used hchange] at hrun
  rw [feeChangeBody_of_serves hs hin hnew, writeRange_of_one_chunk hlen hnonempty]
  exact Ends.bind hrun fun _ t hQ => completes_of_ok (writeChunks_nil _ _ t) hQ

end Sys2Proof.Machine

namespace Sys2Proof.Proofs

/-- Settles O32: the one changed chunk is appended after a collection of the full arena, whose survivors are the other
live chunks. -/
theorem feeFullArenaIsCollected : Obligations.FeeFullArenaIsCollected := by
  unfold Obligations.FeeFullArenaIsCollected
  intro h s i nb hs hu hsound hpos hin hnew hone ⟨k, hk, hne⟩ hfull key
  have hserved := feeServed_of_sound hsound hu
  have hkey : s.opAddr - s.opAddr % s.params.payload ∈ chunkAddrs s.params s.devF.info :=
    mem_chunkAddrs (by rw [← hserved.on.laid.logicalSize]; omega)
  have hlen : s.opAddr % s.params.payload + (s.rangeBytes nb).length ≤ s.params.payload := by
    rwa [length_rangeBytes]
  obtain ⟨⟨⟩, t, hbody, g, hturns⟩ := (feeChangeBody_of_one_change hserved hs hin hnew hone hk hne
    (append_full_turns hserved hfull hkey (length_mergedAt hlen))).exists_ok
  have hcount := survivors_lt hserved.on hkey
  have hslots := hserved.on.laid.fit.slotCount_lt
  have hstatus : t.status = s.status := by rw [hturns.rest]
  have hexec := exec_of_body_ok (admits_of_feeNewBytes hs hnew) hbody
    (undisturbed_uneventful (hturns.undisturbed hu))
  refine ⟨t.complete .ok, hexec, congrArg (·.completed .ok) hstatus, ?_⟩
  rw [survivors_some, sub_mod_eq] at hturns hcount
  show t.f.active = _ ∧ t.f.gcCount = _ ∧ t.f.slotsUsed.toNat = _ ∧ t.f.arenaState _ = _ ∧ t.f.arenaState _ = _
  rw [hturns.bank]
  exact ⟨rfl, rfl, (BitVec.toNat_ofNat ..).trans (Nat.mod_eq_of_lt (by omega)), arenaState_collected_src ..,
    arenaState_collected_dst ..⟩

end Sys2Proof.Proofs
end

