-- ==== Sys2Proof/Proofs/Made.lean ====
section
/-! PROOF. What the engines' procedures are made of: reads of their own unit, points, answers, and changes confined to
their own unit and to few of the items that commands share. Every statement about all procedures is then an induction
over their making. -/

open Sys2Proof Sys2Proof.Machine

namespace Sys2Proof.Machine

variable {α : Type}

/-! ### The other unit -/

/-- `s` with the bank and the device of the unit other than `u` taken from `o`. -/
def State.withOther (s o : State) : UnitId → State
  | .mirror => { s with f := o.f, devF := o.devF }
  | .fee => { s with m := o.m, devM := o.devM }

section withOther
variable (s o : State) (u : UnitId)
@[simp] theorem State.dev_withOther : (s.withOther o u).dev u = s.dev u := by cases u <;> rfl
@[simp] theorem State.lock_withOther : (s.withOther o u).lock u = s.lock u := by cases u <;> rfl
@[simp] theorem State.drv_withOther : (s.withOther o u).drv u = s.drv u := by cases u <;> rfl
@[simp] theorem State.params_withOther : (s.withOther o u).params = s.params := by cases u <;> rfl
@[simp] theorem State.inputs_withOther : (s.withOther o u).inputs = s.inputs := by cases u <;> rfl
@[simp] theorem State.tail_withOther : (s.withOther o u).tail = s.tail := by cases u <;> rfl
@[simp] theorem State.draws_withOther : (s.withOther o u).draws = s.draws := by cases u <;> rfl
@[simp] theorem State.markWidth_withOther : (s.withOther o u).markWidth u = s.markWidth u := by cases u <;> rfl
@[simp] theorem State.tearRule_withOther : (s.withOther o u).tearRule u = s.tearRule u := by cases u <;> rfl
@[simp] theorem State.bufBytes_withOther (i n : Nat) : (s.withOther o u).bufBytes i n = s.bufBytes i n := by
  cases u <;> rfl
@[simp] theorem State.quiet_withOther : (s.withOther o u).quiet = s.quiet := by cases u <;> rfl
@[simp] theorem State.lockedOut_withOther (h : HostId) : (s.withOther o u).lockedOut u h = s.lockedOut u h := by
  cases u <;> rfl
end withOther

/-! ### What commands share -/

/-- The items of the state that only some commands change. -/
inductive Item where
  /-- What hosts write, or read: CMD, ADDR, LEN, CFG, CTRL, the latches, and the replies (10_state.md R28, R42, R48). -/
  | host
  /-- BUF (10_state.md R30). -/
  | buf
  /-- The INFO registers (10_state.md R29). -/
  | info
  /-- F_GC_COUNT (10_state.md R41). -/
  | gcCount
  /-- LOCK_U, and the ownership of the unit's device (44_dispatch_and_lock.md R277, R280). -/
  | lock (u : UnitId)
  /-- The ACQUIRE_BUS that waits (20_memory.md R72). -/
  | waiting

/-- What an item holds. -/
def Item.Value : Item → Type
  | .host => Word × Word × Word × Word × Bool × Latches × List Word
  | .buf => Memory
  | .info => InfoRegs
  | .gcCount => Word
  | .lock _ => Lock × Bool
  | .waiting => Option (UnitId × HostId)

/-- What an item holds in a state. -/
def State.item (s : State) : (x : Item) → x.Value
  | .host => (s.cmd, s.addr, s.len, s.cfg, s.ie, s.latch, s.replies)
  | .buf => s.buf
  | .info => s.info
  | .gcCount => s.f.gcCount
  | .lock u => (s.lock u, (s.dev u).owned)
  | .waiting => s.waiting

/-- `t` comes after `s`, and of the items only those in `E` may have changed. -/
structure State.Spares (E : Set Item) (s t : State) : Prop where
  params : t.params = s.params
  forgers : t.forgers = s.forgers
  item (x : Item) (hx : x ∉ E) : t.item x = s.item x

section spares
variable {E F : Set Item} {s t r : State}

theorem State.Spares.refl (E : Set Item) (s : State) : s.Spares E s := ⟨rfl, rfl, fun _ _ => rfl⟩

theorem State.Spares.trans (h : s.Spares E t) (k : t.Spares E r) : s.Spares E r :=
  ⟨k.params.trans h.params, k.forgers.trans h.forgers, fun x hx => (k.item x hx).trans (h.item x hx)⟩

theorem State.Spares.mono (h : s.Spares E t) (hE : E ⊆ F) : s.Spares F t :=
  ⟨h.params, h.forgers, fun x hx => h.item x (mt (@hE x) hx)⟩

end spares

/-! ### Changes and procedures -/

/-- A change that neither reads nor changes the unit other than `u`, leaves the schedule, and changes of the items only
those in `E`. -/
structure Confined (u : UnitId) (E : Set Item) (g : State → State) : Prop where
  apart (s o : State) : g (s.withOther o u) = (g s).withOther o u
  inputs (s : State) : (g s).inputs = s.inputs
  spares (s : State) : s.Spares E (g s)

/-- The procedures made of reads of their own unit `u`, of points and answers, and of changes confined to it and to the
items in `E`. -/
inductive Made (u : UnitId) (E : Set Item) : {α : Type} → Proc α → Prop where
  | pure {α : Type} (a : α) : Made u E (pure a : Proc α)
  | throw {α : Type} (e : Stop) : Made u E (throw e : Proc α)
  | bind {α β : Type} {p : Proc α} {f : α → Proc β} (hp : Made u E p) (hf : ∀ a, Made u E (f a)) : Made u E (p >>= f)
  | read {α : Type} {f : State → Proc α} (apart : ∀ s o : State, f (s.withOther o u) = f s) (hf : ∀ s, Made u E (f s)) :
      Made u E (get >>= f)
  | point (op : Option (UnitId × PendOp)) : Made u E (point op)
  | answer : Made u E answer
  | mark : Made u E (modify State.dropRegStep : Proc PUnit)
  | modify {g : State → State} (hg : Confined u E g) : Made u E (modify g : Proc PUnit)
  | guardRead {p : Proc Unit} (n : Nat) (hbuf : .buf ∈ E) (hp : Made u E p) : Made u E (guardRead n p)

/-! ### The shared operations -/

section shared
variable {u : UnitId} {E : Set Item}

theorem made_raise (e : ErrCode) : Made u E (raise e : Proc α) := .throw _

theorem made_ite {c : Prop} [Decidable c] {p q : Proc α} (hp : Made u E p) (hq : Made u E q) :
    Made u E (if c then p else q) := by
  split
  · exact hp
  · exact hq

theorem made_require (e : ErrCode) (c : Bool) : Made u E (require e c) := made_ite (.pure ()) (made_raise e)

theorem made_contract (f : Fault) (c : Bool) : Made u E (contract f c) := made_ite (.pure ()) (.throw _)

theorem made_checked {c : State → Bool} {p : Proc α} (hc : ∀ s o : State, c (s.withOther o u) = c s) (hp : Made u E p) :
    Made u E (do checkState c; p) :=
  .bind (.read (fun s o => congrArg (require ErrCode.state) (hc s o)) fun _ => made_require _ _) fun _ => hp

theorem made_change {g : State → State} (hg : Confined u E g) : Made u E (change g) :=
  .bind (.point none) fun _ => .bind (p := modify State.dropRegStep) .mark fun _ => .modify hg

/-- A change of neither a device's ownership nor any item. -/
theorem confined_setDev {d : State → Device} (hd : ∀ s o : State, d (s.withOther o u) = d s)
    (howned : ∀ s, (d s).owned = (s.dev u).owned) : Confined u E (fun s => s.setDev u (d s)) where
  apart s o := by
    rw [hd]
    cases u <;> rfl
  inputs s := State.inputs_setDev ..
  spares s := by
    refine ⟨State.params_setDev .., State.forgers_setDev .., fun x _ => ?_⟩
    cases x with
    | lock v =>
      cases u <;> cases v
      case mirror.mirror => exact congrArg (Prod.mk s.m.lock) (howned s)
      case fee.fee => exact congrArg (Prod.mk s.f.lock) (howned s)
      all_goals rfl
    | _ => cases u <;> rfl

theorem confined_draws (u : UnitId) (E : Set Item) : Confined u E (fun s => { s with draws := s.draws + 1 }) where
  apart s o := by cases u <;> rfl
  inputs s := rfl
  spares s := ⟨rfl, rfl, fun x _ => by cases x <;> rfl⟩

theorem made_performOp (op : PendOp) (d : Draw) : Made u E (performOp u op d) := by
  cases d with
  | ok => exact .modify (confined_setDev (d := fun s => (s.dev u).perform op) (by simp) fun _ => rfl)
  | fail t =>
    have hg : Confined u E fun s => s.setDev u ((s.dev u).performFailed (s.tearRule u) t op) :=
      confined_setDev (by simp) fun _ => rfl
    exact .bind (f := fun _ => raise .dev) (.modify hg) fun _ => made_raise .dev

/-- Under `fail` a write that sets a 0 bit fails with a free draw where the schedule draws none (20_memory.md R84). -/
def failFree (u : UnitId) (op : PendOp) : Proc Unit := do
  let n := (← get).draws
  modify fun s => { s with draws := s.draws + 1 }
  performOp u op (.fail (.free n))

/-- A write that sets a 0 bit depends on the parameter and the answer alone (20_memory.md R84). -/
theorem overwriteOp_eq (op : PendOp) (d : Draw) :
    overwriteOp u op d = get >>= fun s =>
      if s.params.overwrite = .fault then throw (.fault .overwrite)
      else if s.params.overwrite = .and then performOp u op .ok
      else if d = .ok then failFree u op else performOp u op d := by
  funext s
  unfold overwriteOp
  rw [Proc.bind_ok (Proc.get_apply s), Proc.bind_ok (Proc.get_apply s)]
  cases s.params.overwrite
  case fail => cases d <;> rfl
  all_goals rfl

theorem made_overwriteOp (op : PendOp) (d : Draw) : Made u E (overwriteOp u op d) := by
  rw [overwriteOp_eq]
  have hfree : Made u E (failFree u op) :=
    .read (by simp) fun _ => .bind (.modify (confined_draws u E)) fun _ => made_performOp ..
  exact .read (by simp) fun _ => made_ite (.throw _) (made_ite (made_performOp ..) (made_ite hfree (made_performOp ..)))

theorem made_devRead (a n : Nat) : Made u E (devRead u a n) :=
  .read (by simp) fun _ => .bind (made_contract ..) fun _ => .bind (.point none) fun _ => .bind .answer fun
    | .ok => .read (by simp) fun _ => .pure _
    | .fail _ => made_raise .dev

theorem made_devWrite (a : Nat) (data : List Byte) : Made u E (devWrite u a data) :=
  .read (by simp) fun _ => .bind (made_contract ..) fun _ => .bind (.point _) fun _ => .bind .answer fun _ =>
    .read (by simp) fun _ => made_ite (made_overwriteOp ..) (made_performOp ..)

theorem made_devErase (a n : Nat) : Made u E (devErase u a n) :=
  .read (by simp) fun _ => .bind (made_contract ..) fun _ => .bind (.point _) fun _ => .bind .answer fun _ =>
    made_performOp ..

theorem made_devSync : Made u E (devSync u) :=
  .bind (.point none) fun _ => .bind .answer fun
    | .ok => .modify (confined_setDev (d := fun s => (s.dev u).synced) (by simp) fun _ => rfl)
    | .fail _ => made_raise .dev

theorem made_devGetInfo : Made u E (devGetInfo u) := .read (by simp) fun _ => .pure _

theorem made_writeMarkWord (a v : Nat) : Made u E (writeMarkWord u a v) :=
  .read (by simp) fun _ => .bind (made_devWrite ..) fun _ => made_devSync

theorem made_changeDrv (d : DrvState) : Made u E (changeDrv u d) :=
  made_change
    { apart := fun s o => by cases u <;> rfl
      inputs := fun s => State.inputs_setDrv ..
      spares := fun s => by
        refine ⟨State.params_setDrv .., by cases u <;> rfl, fun x _ => ?_⟩
        cases x with
        | lock v => cases u <;> cases v <;> rfl
        | _ => cases u <;> rfl }

/-- Registers of the Mirror bank but the lock change. -/
theorem made_mirrorRegs {gs : List (MirrorUnit → MirrorUnit)}
    (hlock : ∀ g ∈ gs, ∀ m : MirrorUnit, (g m).lock = m.lock) : Made .mirror E (mirrorRegs gs) := by
  induction gs with
  | nil => exact .pure ()
  | cons g gs ih =>
    obtain ⟨hg, hgs⟩ := List.forall_mem_cons.1 hlock
    have hchange : Confined .mirror E fun s => { s with m := g s.m } :=
      { apart := fun s o => rfl
        inputs := fun s => rfl
        spares := fun s => ⟨rfl, rfl, fun x _ => by
          cases x with
          | lock v =>
            cases v with
            | mirror => exact congrArg (·, s.devM.owned) (hg s.m)
            | fee => rfl
          | _ => rfl⟩ }
    exact .bind (made_change hchange) fun _ => ih hgs

/-- Registers of the FEE bank but the lock and, where that is an item to spare, F_GC_COUNT change. -/
theorem made_feeRegs {gs : List (FeeUnit → FeeUnit)}
    (hkeep : ∀ g ∈ gs, ∀ f : FeeUnit, (g f).lock = f.lock ∧ (Item.gcCount ∉ E → (g f).gcCount = f.gcCount)) :
    Made .fee E (feeRegs gs) := by
  induction gs with
  | nil => exact .pure ()
  | cons g gs ih =>
    obtain ⟨hg, hgs⟩ := List.forall_mem_cons.1 hkeep
    have hchange : Confined .fee E fun s => { s with f := g s.f } :=
      { apart := fun s o => rfl
        inputs := fun s => rfl
        spares := fun s => ⟨rfl, rfl, fun x hx => by
          obtain ⟨hlock, hcount⟩ := hg s.f
          cases x with
          | lock v =>
            cases v with
            | mirror => rfl
            | fee => exact congrArg (·, s.devF.owned) hlock
          | gcCount => exact hcount hx
          | _ => rfl⟩ }
    exact .bind (made_change hchange) fun _ => ih hgs

theorem made_infoRegs (hE : .info ∈ E) (gs : List (InfoRegs → InfoRegs)) : Made u E (infoRegs gs) := by
  induction gs with
  | nil => exact .pure ()
  | cons g gs ih =>
    have hchange : Confined u E fun s => { s with info := g s.info } :=
      { apart := fun s o => by cases u <;> rfl
        inputs := fun s => rfl
        spares := fun s => ⟨rfl, rfl, fun x hx => by
          cases x with
          | info => exact absurd hE hx
          | _ => rfl⟩ }
    exact .bind (made_change hchange) fun _ => ih

theorem made_bufLoad (n : Nat) : Made u E (bufLoad n) :=
  .read (by simp) fun _ => .bind (made_contract ..) fun _ => .pure _

theorem made_bufStore (hE : .buf ∈ E) (bs : List Byte) : Made u E (bufStore bs) :=
  have hchange : Confined u E (fun s => s.setBuf 0 bs) :=
    { apart := fun s o => by cases u <;> rfl
      inputs := fun s => rfl
      spares := fun s => ⟨rfl, rfl, fun x hx => by
        cases x with
        | buf => exact absurd hE hx
        | _ => rfl⟩ }
  .read (by simp) fun _ => .bind (made_contract ..) fun _ => .modify hchange

theorem made_reportInfo (hinfo : .info ∈ E) (hbuf : .buf ∈ E) (ss sn wa : Word) (ident : List Byte) :
    Made u E (reportInfo ss sn wa ident) :=
  .bind (made_infoRegs hinfo _) fun _ => .bind (made_bufStore hbuf ident) fun _ => made_infoRegs hinfo _

/-! ### The bus lock -/

/-- A change of the unit's lock and of its device's ownership. -/
theorem confined_lock (hE : .lock u ∈ E) {l : State → Lock} {b : State → Bool}
    (hl : ∀ s o : State, l (s.withOther o u) = l s) (hb : ∀ s o : State, b (s.withOther o u) = b s) :
    Confined u E (fun s => (s.setLock u (l s)).setDev u { s.dev u with owned := b s }) where
  apart s o := by
    rw [hl, hb]
    cases u <;> rfl
  inputs s := by simp
  spares s := by
    refine ⟨by simp, by cases u <;> rfl, fun x hx => ?_⟩
    cases x with
    | lock v =>
      have hv : v ≠ u := fun h => hx (h ▸ hE)
      cases u <;> cases v
      case mirror.mirror => exact absurd rfl hv
      case fee.fee => exact absurd rfl hv
      all_goals rfl
    | _ => cases u <;> rfl

/-- A change of which ACQUIRE_BUS waits. -/
theorem confined_waiting (hE : .waiting ∈ E) (x : Option (UnitId × HostId)) :
    Confined u E (fun s => { s with waiting := x }) where
  apart s o := by cases u <;> rfl
  inputs s := rfl
  spares s := ⟨rfl, rfl, fun y hy => by
    cases y with
    | waiting => exact absurd hE hy
    | _ => rfl⟩

theorem Confined.comp {g k : State → State} (hg : Confined u E g) (hk : Confined u E k) :
    Confined u E (fun s => k (g s)) where
  apart s o := by rw [hg.apart, hk.apart]
  inputs s := (hk.inputs _).trans (hg.inputs s)
  spares s := (hg.spares s).trans (hk.spares _)

/-- The lock's count changes, and the ownership stays. -/
theorem confined_setLock (hE : .lock u ∈ E) {l : State → Lock} (hl : ∀ s o : State, l (s.withOther o u) = l s) :
    Confined u E (fun s => s.setLock u (l s)) := by
  have h := confined_lock hE (b := fun s => (s.dev u).owned) hl (by simp)
  have heq (s : State) :
      (s.setLock u (l s)).setDev u { s.dev u with owned := (s.dev u).owned } = s.setLock u (l s) := by cases u <;> rfl
  simpa only [heq] using h

/-- DevAcquire's grant (44_dispatch_and_lock.md R280). -/
theorem confined_grant (hlock : .lock u ∈ E) (hwait : .waiting ∈ E) (h : HostId) :
    Confined u E fun s => { (s.setDev u { s.dev u with owned := true }).setLock u ⟨1, h⟩ with waiting := none } := by
  have hg := (confined_lock hlock (l := fun _ => ⟨1, h⟩) (b := fun _ => true) (fun _ _ => rfl) fun _ _ => rfl).comp
    (confined_waiting hwait none)
  have heq (s : State) : (s.setLock u ⟨1, h⟩).setDev u { s.dev u with owned := true } =
      (s.setDev u { s.dev u with owned := true }).setLock u ⟨1, h⟩ := by cases u <;> rfl
  simpa only [heq] using hg

theorem made_acquireFresh (hlock : .lock u ∈ E) (hwait : .waiting ∈ E) (h : HostId) : Made u E (acquireFresh u h) :=
  .bind (.point none) fun _ => .bind .answer fun
    | .ok => made_change (confined_grant hlock hwait h)
    | .fail _ => .bind (.modify (confined_waiting hwait _)) fun _ => .throw _

theorem made_acquire (hlock : .lock u ∈ E) (hwait : .waiting ∈ E) (h : HostId) : Made u E (acquire u h) :=
  .read (by simp) fun _ => made_ite (made_acquireFresh hlock hwait h) (made_ite (made_raise _)
    (made_change (confined_setLock hlock (by simp))))

theorem made_release (hlock : .lock u ∈ E) : Made u E (release u) :=
  .read (by simp) fun _ => made_ite (made_raise _) (made_ite
    (made_change (confined_lock hlock (l := fun _ => ⟨0, 0⟩) (b := fun _ => false) (fun _ _ => rfl) fun _ _ => rfl))
    (made_change (confined_setLock hlock (by simp))))

end shared
/-! ### The FEE engine -/

section fee
variable {E : Set Item}

theorem made_headerState (a : Arena) : Made .fee E (headerState a) :=
  .read (fun _ _ => rfl) fun _ => .bind (made_devRead ..) fun _ => .bind (made_devRead ..) fun _ =>
    .bind (made_devRead ..) fun _ => .pure _

theorem made_headerInit (a : Arena) : Made .fee E (headerInit a) :=
  .read (fun _ _ => rfl) fun _ => .bind (made_devWrite ..) fun _ => made_devSync

theorem made_setArenaState (a : Arena) (x : ArenaState) : Made .fee E (setArenaState a x) :=
  made_feeRegs (by cases a <;> simp [FeeUnit.setArenaState])

theorem made_setActive (a : Arena) : Made .fee E (setActive a) := made_feeRegs (by simp)

theorem made_setSlotsUsed (n : Nat) : Made .fee E (setSlotsUsed n) := made_feeRegs (by simp)

theorem made_markArenaActive (a : Arena) : Made .fee E (markArenaActive a) :=
  .read (fun _ _ => rfl) fun _ => .bind (made_writeMarkWord ..) fun _ => made_setArenaState ..

theorem made_markArenaFrozen (a : Arena) : Made .fee E (markArenaFrozen a) :=
  .read (fun _ _ => rfl) fun _ => .bind (made_writeMarkWord ..) fun _ => made_setArenaState ..

theorem made_eraseBody (base eh ab : Nat) : Made .fee E (eraseBody base eh ab) :=
  made_ite (.bind (made_devErase ..) fun _ => made_devSync) (.pure ())

theorem made_arenaReinit (a : Arena) : Made .fee E (arenaReinit a) :=
  .read (fun _ _ => rfl) fun _ => .bind (made_devErase ..) fun _ => .bind made_devSync fun _ =>
    .bind (made_eraseBody ..) fun _ => .bind (made_headerInit a) fun _ => made_setArenaState ..

theorem made_format : Made .fee E format :=
  .bind (made_arenaReinit .a0) fun _ => .bind (made_arenaReinit .a1) fun _ => .bind (made_markArenaActive .a0) fun _ =>
    .bind (made_setActive .a0) fun _ => made_setSlotsUsed 0

theorem made_slotMark (a : Arena) (i : Nat) : Made .fee E (slotMark a i) :=
  .read (fun _ _ => rfl) fun _ => .bind (made_devRead ..) fun _ => .bind (made_devRead ..) fun _ => .pure _

theorem made_slotKey (a : Arena) (i : Nat) : Made .fee E (slotKey a i) :=
  .read (fun _ _ => rfl) fun _ => .bind (made_devRead ..) fun _ => .pure _

theorem made_slotPayload (a : Arena) (i : Nat) : Made .fee E (slotPayload a i) :=
  .read (fun _ _ => rfl) fun _ => made_devRead ..

theorem made_slotRecord (a : Arena) (i : Nat) : Made .fee E (slotRecord a i) :=
  .read (fun _ _ => rfl) fun _ => made_devRead ..

theorem made_countUsed (a : Arena) (c n i : Nat) : Made .fee E (countUsed a c n i) := by
  induction n generalizing c i with
  | zero => exact .pure c
  | succ n ih => exact .bind (made_slotMark a i) fun x => by cases x <;> exact ih ..

theorem made_arenaLoad (a : Arena) : Made .fee E (arenaLoad a) :=
  .read (fun _ _ => rfl) fun _ => .bind (made_countUsed ..) fun _ => made_setSlotsUsed _

theorem made_slotMatches (a : Arena) (key i : Nat) : Made .fee E (slotMatches a key i) :=
  .bind (made_slotMark a i) fun
    | .valid => .bind (made_slotKey a i) fun _ => .pure _
    | .unused => .pure _
    | .dirty => .pure _
    | .unknown => .pure _

theorem made_lookupFrom (a : Arena) (key : Nat) (r : Option Nat) (n i : Nat) :
    Made .fee E (lookupFrom a key r n i) := by
  induction n generalizing r i with
  | zero => exact .pure r
  | succ n ih => exact .bind (made_slotMatches a key i) fun _ => made_ite (ih ..) (ih ..)

theorem made_lookup (a : Arena) (key : Nat) : Made .fee E (lookup a key) :=
  .read (fun _ _ => rfl) fun _ => made_lookupFrom ..

theorem made_append (key : Nat) (bs : List Byte) : Made .fee E (append key bs) :=
  .read (fun _ _ => rfl) fun _ => .bind (made_writeMarkWord ..) fun _ => .bind (made_devWrite ..) fun _ =>
    .bind made_devSync fun _ => .bind (made_writeMarkWord ..) fun _ => made_setSlotsUsed _

theorem made_blankArena (a : Arena) : Made .fee E (blankArena a) :=
  .read (fun _ _ => rfl) fun _ => .bind (made_devRead ..) fun _ => .pure _

theorem made_prepareDst (a : Arena) : Made .fee E (prepareDst a) :=
  .bind (made_blankArena a) fun _ => made_ite
    (.read (fun _ _ => rfl) fun _ => .bind (made_devRead ..) fun _ => made_ite (made_headerInit a) (.pure ()))
    (made_arenaReinit a)

theorem made_copyLive (src dst : Arena) (omitted : Option Nat) (j : Nat) (ks : List Nat) :
    Made .fee E (copyLive src dst omitted j ks) := by
  induction ks generalizing j with
  | nil => exact .pure j
  | cons k ks ih =>
    refine made_ite (ih j) (.bind (made_lookup src k) fun r => ?_)
    cases r with
    | none => exact ih j
    | some r =>
      exact .bind (made_slotRecord src r) fun _ => .read (fun _ _ => rfl) fun _ => .bind (made_devWrite ..) fun _ =>
        ih (j + 1)

/-- A collection is what counts F_GC_COUNT up (43_fee_gc.md R241). -/
theorem made_gc (hcount : .gcCount ∈ E) (omitted : Option Nat) : Made .fee E (gc omitted) :=
  .read (fun _ _ => rfl) fun _ => .bind (made_markArenaFrozen _) fun _ => .bind (made_prepareDst _) fun _ =>
    .read (fun _ _ => rfl) fun _ => .bind (made_copyLive ..) fun _ => .bind made_devSync fun _ =>
      .bind (made_markArenaActive _) fun _ => .bind (made_arenaReinit _) fun _ => .bind (made_setActive _) fun _ =>
        .bind (made_setSlotsUsed _) fun _ => made_feeRegs (by simp [hcount])

theorem made_chunkPayload (key : Nat) : Made .fee E (chunkPayload key) :=
  .read (fun _ _ => rfl) fun _ => .bind (made_lookup ..) fun
    | some _ => made_slotPayload ..
    | none => .read (fun _ _ => rfl) fun _ => .pure _

theorem made_makeRoom (hcount : .gcCount ∈ E) (key : Nat) : Made .fee E (makeRoom key) :=
  .read (fun _ _ => rfl) fun _ => made_ite (made_gc hcount _) (.pure ())

theorem made_writeSpan (hcount : .gcCount ∈ E) (sa lo : Nat) (nb : List Byte) : Made .fee E (writeSpan sa lo nb) :=
  .bind (made_chunkPayload sa) fun _ => made_ite (.pure ()) (.bind (made_makeRoom hcount sa) fun _ => made_append sa _)

theorem made_writeChunks (hcount : .gcCount ∈ E) (n x : Nat) (nb : List Byte) : Made .fee E (writeChunks n x nb) := by
  induction n generalizing x nb with
  | zero => exact .pure ()
  | succ n ih =>
    exact made_ite (.pure ()) (.read (fun _ _ => rfl) fun _ => .bind (made_writeSpan hcount ..) fun _ => ih ..)

theorem made_writeRange (hcount : .gcCount ∈ E) (addr : Nat) (nb : List Byte) : Made .fee E (writeRange addr nb) :=
  made_writeChunks hcount ..

theorem made_readSlot (a : Arena) (addr i : Nat) (out : List Byte) : Made .fee E (readSlot a addr i out) :=
  .bind (made_slotMark a i) fun
    | .valid => .bind (made_slotKey a i) fun _ => .read (fun _ _ => rfl) fun _ =>
        made_ite (.bind (made_slotPayload a i) fun _ => .pure _) (.pure _)
    | .unused => .pure _
    | .dirty => .pure _
    | .unknown => .pure _

theorem made_readSlots (a : Arena) (addr n i : Nat) (out : List Byte) : Made .fee E (readSlots a addr n i out) := by
  induction n generalizing i out with
  | zero => exact .pure out
  | succ n ih => exact .bind (made_readSlot a addr i out) fun _ => ih ..

theorem made_readRange (addr n : Nat) : Made .fee E (readRange addr n) :=
  .read (fun _ _ => rfl) fun _ => made_readSlots ..

theorem made_feeGeometry : Made .fee E feeGeometry :=
  .bind made_devGetInfo fun _ => .read (fun _ _ => rfl) fun _ => .bind (made_require ..) fun _ =>
    made_feeRegs (by simp [FeeUnit.geometryRegs])

theorem made_adoptArena (a : Arena) : Made .fee E (adoptArena a) :=
  .bind (made_setActive a) fun _ => made_arenaLoad a

theorem made_startCases (hcount : .gcCount ∈ E) : Made .fee E startCases :=
  .bind (made_headerState .a0) fun s0 => .bind (made_headerState .a1) fun s1 =>
    .bind (made_setArenaState ..) fun _ => .bind (made_setArenaState ..) fun _ => by
      cases startCase s0 s1 with
      | adopt a => exact made_adoptArena a
      | resume a =>
        exact .bind (made_arenaReinit a.other) fun _ => .bind (made_adoptArena a) fun _ => made_gc hcount none
      | cold => exact made_format

end fee

/-! ### The Mirror engine -/

section mirror
variable {E : Set Item}

theorem made_setMirrorState (x : MirrorState) (off : Nat) : Made .mirror E (setMirrorState x off) :=
  made_mirrorRegs (by simp)

theorem made_eraseHeader : Made .mirror E eraseHeader :=
  .read (fun _ _ => rfl) fun _ => .bind (made_devErase ..) fun _ => made_devSync

theorem made_writeLogEntry (off : Nat) (x : LogMark) : Made .mirror E (writeLogEntry off x) :=
  .read (fun _ _ => rfl) fun _ => .bind (made_writeMarkWord ..) fun _ => made_setMirrorState ..

theorem made_markReset (x : LogMark) : Made .mirror E (markReset x) :=
  .bind made_eraseHeader fun _ => made_writeLogEntry 0 x

theorem made_markAppend (x : LogMark) : Made .mirror E (markAppend x) :=
  .read (fun _ _ => rfl) fun _ => made_ite (made_markReset x) (made_writeLogEntry ..)

theorem made_readLogEntry (k : Nat) : Made .mirror E (readLogEntry k) :=
  .read (fun _ _ => rfl) fun _ => made_devRead ..

theorem made_scanTail (r : MirrorState × Nat) (n k : Nat) : Made .mirror E (scanTail r n k) := by
  induction n generalizing k with
  | zero => exact .pure r
  | succ n ih =>
    exact .bind (made_readLogEntry k) fun _ => .read (fun _ _ => rfl) fun _ => made_ite (ih _) (.pure _)

theorem made_scanFrom (r : MirrorState × Nat) (n k : Nat) : Made .mirror E (scanFrom r n k) := by
  induction n generalizing r k with
  | zero => exact .pure r
  | succ n ih =>
    refine .bind (made_readLogEntry k) fun bs => .read (fun _ _ => rfl) fun s => ?_
    dsimp only
    cases LogMark.decode s.params.widthM bs with
    | none => exact .pure _
    | some x =>
      cases x with
      | unused => exact made_scanTail ..
      | dirtyA => exact ih ..
      | dirtyB => exact ih ..
      | synced => exact ih ..

theorem made_scan : Made .mirror E scan := .read (fun _ _ => rfl) fun _ => made_scanFrom ..

theorem made_copySectors (src dst n i : Nat) : Made .mirror E (copySectors src dst n i) := by
  induction n generalizing i with
  | zero => exact .pure ()
  | succ n ih =>
    exact .read (fun _ _ => rfl) fun _ => .bind (made_devErase ..) fun _ => .bind (made_devRead ..) fun _ =>
      .bind (made_devWrite ..) fun _ => ih _

theorem made_copyMirror (src dst : Nat) : Made .mirror E (copyMirror src dst) :=
  .read (fun _ _ => rfl) fun _ => .bind (made_copySectors ..) fun _ => made_devSync

theorem made_copyBtoA : Made .mirror E copyBtoA := .read (fun _ _ => rfl) fun _ => made_copyMirror ..

theorem made_copyAtoB : Made .mirror E copyAtoB := .read (fun _ _ => rfl) fun _ => made_copyMirror ..

theorem made_recoverMirror : Made .mirror E recoverMirror :=
  .bind made_scan fun (st, sa) => .bind (made_setMirrorState st sa) fun _ =>
    match st with
    | .synced => .pure ()
    | .dirtyA => .bind made_copyBtoA fun _ => made_markAppend _
    | .dirtyB => .bind made_copyAtoB fun _ => made_markAppend _
    | .invalid => .bind made_copyAtoB fun _ => made_markReset _

theorem made_mirrorGeometry : Made .mirror E mirrorGeometry :=
  .bind made_devGetInfo fun _ => .read (fun _ _ => rfl) fun _ => .bind (made_require ..) fun _ =>
    made_mirrorRegs (by simp [MirrorUnit.geometryRegs])

theorem made_threePhase {mutate : Nat → Proc Unit} (h : ∀ org, Made .mirror E (mutate org)) :
    Made .mirror E (threePhase mutate) :=
  .bind (made_markAppend _) fun _ => .read (fun _ _ => rfl) fun _ => .bind (h _) fun _ => .bind made_devSync fun _ =>
    .bind (made_markAppend _) fun _ => .read (fun _ _ => rfl) fun _ => .bind (h _) fun _ => .bind made_devSync fun _ =>
      made_markAppend _

theorem made_mirrorWriteAt (addr n org : Nat) : Made .mirror E (mirrorWriteAt addr n org) :=
  .bind (made_bufLoad n) fun _ => made_devWrite ..

end mirror

/-! ### The commands -/

/-- The items that a command may change. -/
def writtenBy : Instr → Set Item
  | .mirrorAcquireBus _ => {.lock .mirror, .waiting}
  | .feeAcquireBus _ => {.lock .fee, .waiting}
  | .mirrorReleaseBus _ => {.lock .mirror}
  | .feeReleaseBus _ => {.lock .fee}
  | .mirrorGetInfo _ | .feeGetInfo _ => {.info, .buf}
  | .mirrorRead _ | .feeRead _ => {.buf}
  | .feeStart _ | .feeWrite _ | .feeErase _ => {.gcCount}
  | .mirrorInit _ | .mirrorObjectInit _ | .mirrorStart _ | .mirrorStop _ | .mirrorWrite _ | .mirrorErase _
  | .mirrorMassErase _ | .mirrorSync _ | .feeInit _ | .feeObjectInit _ | .feeStop _ | .feeMassErase _ | .feeSync _ => ∅

/-- Every command's procedure reads and changes its own unit, and of the items those that the command may change. -/
theorem made_bodyOf {i : Instr} {E : Set Item} (hE : writtenBy i ⊆ E) : Made i.unit E (bodyOf i) := by
  have own {x : Item} (hx : x ∈ writtenBy i) : x ∈ E := hE hx
  cases i
  case mirrorInit h => exact .pure ()
  case feeInit h => exact .pure ()
  case mirrorObjectInit h =>
    exact made_checked (fun _ _ => rfl) (.read (fun _ _ => rfl) fun _ =>
      made_mirrorRegs (by simp [MirrorUnit.initRegs, MirrorUnit.geometryRegs]))
  case feeObjectInit h =>
    exact made_checked (fun _ _ => rfl) (.read (fun _ _ => rfl) fun _ => made_feeRegs (by simp [FeeUnit.initRegs]))
  case mirrorStart h =>
    exact made_checked (fun _ _ => rfl) (.bind (made_changeDrv _) fun _ => .bind made_mirrorGeometry fun _ =>
      .bind made_devSync fun _ => .bind made_recoverMirror fun _ => made_mirrorRegs (by simp))
  case feeStart h =>
    exact made_checked (fun _ _ => rfl) (.bind (made_changeDrv _) fun _ => .bind made_feeGeometry fun _ =>
      .bind made_devSync fun _ => .bind (made_startCases (own rfl)) fun _ => made_feeRegs (by simp))
  case mirrorStop h => exact made_checked (fun _ _ => rfl) (made_changeDrv _)
  case feeStop h => exact made_checked (fun _ _ => rfl) (made_changeDrv _)
  case mirrorRead h =>
    exact made_checked (fun _ _ => rfl) (.read (fun _ _ => rfl) fun _ => .bind (made_require ..) fun _ =>
      made_ite (.pure ()) (.guardRead _ (own rfl) (.bind (made_devRead ..) fun _ => made_bufStore (own rfl) _)))
  case feeRead h =>
    exact made_checked (fun _ _ => rfl) (.read (fun _ _ => rfl) fun _ => .bind (made_require ..) fun _ =>
      made_ite (.pure ()) (.guardRead _ (own rfl) (.bind (made_readRange ..) fun _ => made_bufStore (own rfl) _)))
  case mirrorWrite h =>
    exact made_checked (fun _ _ => rfl) (.read (fun _ _ => rfl) fun _ => .bind (made_require ..) fun _ =>
      .bind (made_require ..) fun _ => made_ite (.pure ()) (made_threePhase fun _ => made_mirrorWriteAt ..))
  case feeWrite h =>
    exact made_checked (fun _ _ => rfl) (.read (fun _ _ => rfl) fun _ => .bind (made_require ..) fun _ =>
      made_ite (.pure ()) (.bind (made_bufLoad _) fun _ => made_writeRange (own rfl) ..))
  case mirrorErase h =>
    exact made_checked (fun _ _ => rfl) (.read (fun _ _ => rfl) fun _ => .bind (made_require ..) fun _ =>
      .bind (made_require ..) fun _ => made_ite (.pure ()) (made_threePhase fun _ => made_devErase ..))
  case feeErase h =>
    exact made_checked (fun _ _ => rfl) (.read (fun _ _ => rfl) fun _ => .bind (made_require ..) fun _ =>
      made_ite (.pure ()) (made_writeRange (own rfl) ..))
  case mirrorMassErase h =>
    exact made_checked (fun _ _ => rfl) (.read (fun _ _ => rfl) fun _ => made_threePhase fun _ => made_devErase ..)
  case feeMassErase h => exact made_checked (fun _ _ => rfl) made_format
  case mirrorSync h => exact made_checked (fun _ _ => rfl) made_devSync
  case feeSync h => exact made_checked (fun _ _ => rfl) made_devSync
  case mirrorGetInfo h =>
    exact made_checked (fun _ _ => rfl) (.bind made_devGetInfo fun _ => .read (fun _ _ => rfl) fun _ =>
      made_reportInfo (own (.inl rfl)) (own (.inr rfl)) ..)
  case feeGetInfo h =>
    exact made_checked (fun _ _ => rfl) (.bind made_devGetInfo fun _ => .read (fun _ _ => rfl) fun _ =>
      made_reportInfo (own (.inl rfl)) (own (.inr rfl)) ..)
  case mirrorAcquireBus h => exact made_checked (fun _ _ => rfl) (made_acquire (own (.inl rfl)) (own (.inr rfl)) h)
  case feeAcquireBus h => exact made_checked (fun _ _ => rfl) (made_acquire (own (.inl rfl)) (own (.inr rfl)) h)
  case mirrorReleaseBus h => exact made_checked (fun _ _ => rfl) (made_release (own rfl))
  case feeReleaseBus h => exact made_checked (fun _ _ => rfl) (made_release (own rfl))

end Sys2Proof.Machine
end

