-- ==== Sys2Proof/Proofs/Independence.lean ====
section
/-! PROOF. The two units are independent: a procedure made of its own unit runs alike, whatever the other unit holds, as
long as nothing outside acts inside it (44_dispatch_and_lock.md R282). -/

open Sys2Proof Sys2Proof.Machine

namespace Sys2Proof.Machine

variable {α β : Type} {u : UnitId} {E : Set Item} {s : State}

/-! ### Quiet schedules -/

theorem point_quiet (hq : s.quiet = true) (op : Option (UnitId × PendOp)) : point op s = .ok () s := by
  refine point_of_no_event op fun e rest hi => ?_
  unfold State.quiet at hq
  rw [hi] at hq
  cases hq

/-- What comes later in a quiet schedule is quiet. -/
theorem quiet_of_suffix {t : State} (hq : s.quiet = true) (hi : t.inputs <:+ s.inputs) : t.quiet = true :=
  List.all_eq_true.2 fun x hx => List.all_eq_true.1 hq x (hi.subset hx)

theorem dropRegStep_suffix (s : State) : s.dropRegStep.inputs <:+ s.inputs := by
  unfold State.dropRegStep
  split
  · next hi => rw [hi]; exact List.suffix_cons ..
  · exact List.suffix_rfl

theorem answer_suffix (s : State) : (endState (answer s)).inputs <:+ s.inputs := by
  unfold answer
  split
  · next hi => rw [hi]; exact List.suffix_cons ..
  · split <;> exact List.suffix_rfl

/-! ### Procedures -/

/-- A procedure's end with its state put through a function. -/
def onState (g : State → State) : EStateM.Result Stop State α → EStateM.Result Stop State α
  | .ok a t => .ok a (g t)
  | .error e t => .error e (g t)

/-- From a quiet state the procedure runs alike with anything in the other unit, and leaves the state quiet. -/
def Unaware (u : UnitId) (p : Proc α) : Prop :=
  ∀ s o : State, s.quiet = true →
    p (s.withOther o u) = onState (·.withOther o u) (p s) ∧ (endState (p s)).quiet = true

theorem Unaware.bind {p : Proc α} {f : α → Proc β} (hp : Unaware u p) (hf : ∀ a, Unaware u (f a)) :
    Unaware u (p >>= f) := by
  intro s o hq
  obtain ⟨heq, hq'⟩ := hp s o hq
  rw [Proc.bind_apply, Proc.bind_apply, heq]
  cases hps : p s with
  | ok a t =>
    rw [hps] at hq'
    exact hf a t o hq'
  | error e t =>
    rw [hps] at hq'
    exact ⟨rfl, hq'⟩

theorem unaware_answer : Unaware u answer := by
  intro s o hq
  refine ⟨?_, quiet_of_suffix hq (answer_suffix s)⟩
  unfold answer
  rw [State.inputs_withOther, State.tail_withOther, State.draws_withOther]
  split
  · cases u <;> rfl
  · split
    · rfl
    · cases u <;> rfl

theorem unaware_mark : Unaware u (modify State.dropRegStep : Proc PUnit) := by
  intro s o hq
  refine ⟨?_, quiet_of_suffix hq (dropRegStep_suffix s)⟩
  rw [Proc.modify_apply, Proc.modify_apply]
  unfold State.dropRegStep
  rw [State.inputs_withOther]
  split
  · cases u <;> rfl
  · rfl

theorem unaware_guardRead {p : Proc Unit} (n : Nat) (hp : Unaware u p) : Unaware u (guardRead n p) := by
  intro s o hq
  obtain ⟨heq, hq'⟩ := hp s o hq
  unfold guardRead
  rw [heq]
  cases hps : p s with
  | ok a t =>
    rw [hps] at hq'
    exact ⟨rfl, hq'⟩
  | error e t =>
    rw [hps] at hq'
    cases e with
    | raised c =>
      cases c
      case dev => exact ⟨by cases u <;> rfl, hq'⟩
      all_goals exact ⟨rfl, hq'⟩
    | _ => exact ⟨rfl, hq'⟩

/-- A procedure made of its own unit is unaware of the other. -/
theorem Made.unaware {p : Proc α} (h : Made u E p) : Unaware u p := by
  induction h with
  | pure a => exact fun s o hq => ⟨rfl, hq⟩
  | throw e => exact fun s o hq => ⟨rfl, hq⟩
  | bind _ _ ihp ihf => exact ihp.bind ihf
  | read apart _ ih =>
    intro s o hq
    obtain ⟨heq, hq'⟩ := ih s s o hq
    refine ⟨?_, hq'⟩
    rw [Proc.bind_ok (Proc.get_apply _), Proc.bind_ok (Proc.get_apply _), apart]
    exact heq
  | point op =>
    intro s o hq
    rw [point_quiet hq, point_quiet (by simpa using hq)]
    exact ⟨rfl, hq⟩
  | answer => exact unaware_answer
  | mark => exact unaware_mark
  | modify hg =>
    intro s o hq
    refine ⟨congrArg (EStateM.Result.ok _) (hg.apart s o), quiet_of_suffix hq ?_⟩
    rw [Proc.modify_apply, endState_ok, hg.inputs]
  | guardRead n _ _ ih => exact unaware_guardRead n ih

/-! ### Commands -/

/-- A step's outcome with its next state put through a function. -/
def onNext (g : State → State) : StepOutcome → StepOutcome
  | .next t => .next (g t)
  | .fault r => .fault r
  | .refused r => .refused r

theorem finish_withOther (hq : s.quiet = true) (o : State) (e : ErrCode) :
    finish e (s.withOther o u) = onNext (·.withOther o u) (finish e s) := by
  unfold finish
  rw [point_quiet hq, point_quiet (by simpa using hq)]
  cases u <;> rfl

theorem afterRaise_withOther (s o : State) (mu : Bool) (e : ErrCode) :
    (s.withOther o u).afterRaise u mu e = (s.afterRaise u mu e).withOther o u := by
  unfold State.afterRaise
  split
  · cases u <;> rfl
  · rfl

theorem inputs_afterRaise (s : State) (mu : Bool) (e : ErrCode) : (s.afterRaise u mu e).inputs = s.inputs := by
  unfold State.afterRaise
  split <;> simp

theorem conclude_withOther {r : EStateM.Result Stop State Unit} (hq : (endState r).quiet = true) (mu : Bool)
    (o : State) : conclude u mu (onState (·.withOther o u) r) = onNext (·.withOther o u) (conclude u mu r) := by
  match r with
  | .ok _ t => exact finish_withOther hq o .ok
  | .error (.raised e) t =>
    show finish e ((t.withOther o u).afterRaise u mu e) = onNext _ (finish e (t.afterRaise u mu e))
    rw [afterRaise_withOther]
    refine finish_withOther ?_ o e
    exact quiet_of_suffix hq (by rw [inputs_afterRaise]; exact List.suffix_rfl)
  | .error .powerLost t => rfl
  | .error .waiting t => rfl
  | .error (.fault f) t => rfl

/-- A command of one unit does the same with anything in the other unit, and leaves that as it is. -/
theorem exec_withOther {i : Instr} (hq : s.quiet = true) (o : State) :
    exec i (s.withOther o i.unit) = onNext (·.withOther o i.unit) (exec i s) := by
  obtain ⟨heq, hq'⟩ := (made_bodyOf (i := i) subset_rfl).unaware s o hq
  rw [exec_eq_runCommand, exec_eq_runCommand]
  unfold runCommand
  rw [State.lockedOut_withOther, heq]
  split
  · exact finish_withOther hq o .locked
  · exact conclude_withOther hq' _ o

end Sys2Proof.Machine

namespace Sys2Proof.Proofs

/-- Settles O47: every command's procedure is made of its own unit, so it is unaware of the other. -/
theorem unitsAreIndependent : Obligations.UnitsAreIndependent := by
  unfold Obligations.UnitsAreIndependent
  intro i s hq
  refine ⟨fun hu f d => ?_, fun hu m d => ?_⟩
  · have h := exec_withOther (i := i) hq { s with f := f, devF := d }
    rw [hu] at h
    exact h
  · have h := exec_withOther (i := i) hq { s with m := m, devM := d }
    rw [hu] at h
    exact h

end Sys2Proof.Proofs
end

