-- ==== Sys2Proof/Proofs/Items.lean ====
section
/-! PROOF. Which items of the state a command changes, whatever the outside world does inside it, and the statement
about the registers that few commands write. -/

open Sys2Proof Sys2Proof.Machine

namespace Sys2Proof.Machine

variable {α : Type} {u : UnitId} {E : Set Item} {i : Instr} {s t : State}

/-! ### Changes of the state that name no item -/

theorem spares_complete (s : State) (e : ErrCode) : s.Spares E (s.complete e) :=
  ⟨rfl, rfl, fun x _ => by cases x <;> rfl⟩

theorem spares_setRecover (s : State) (u : UnitId) (b : Bool) : s.Spares E (s.setRecover u b) := by
  refine ⟨State.params_setRecover .., by cases u <;> rfl, fun x _ => ?_⟩
  cases x with
  | lock v => cases u <;> cases v <;> rfl
  | _ => cases u <;> rfl

theorem spares_inputs (s : State) (l : List Input) : s.Spares E { s with inputs := l } :=
  ⟨rfl, rfl, fun x _ => by cases x <;> rfl⟩

theorem spares_schedule (s : State) (l : List Input) (n : Nat) : s.Spares E { s with inputs := l, draws := n } :=
  ⟨rfl, rfl, fun x _ => by cases x <;> rfl⟩

theorem spares_dropRegStep (s : State) : s.Spares E s.dropRegStep := s.dropRegStep_frame ▸ spares_inputs s _

theorem spares_scrambleBuf (hE : .buf ∈ E) (s : State) (n : Nat) : s.Spares E (s.scrambleBuf n) :=
  ⟨rfl, rfl, fun x hx => by
    cases x with
    | buf => exact absurd hE hx
    | _ => rfl⟩

/-! ### What the outside world changes -/

/-- The items that a host access may change. -/
def hostItems : Set Item := {.host, .buf}

/-- A state that differs in what hosts write and read, in STATUS and in the schedule. -/
theorem spares_of_frame
    (h : t = { s with
      addr := t.addr, len := t.len, cfg := t.cfg, status := t.status, ie := t.ie, buf := t.buf, draws := t.draws
      replies := t.replies, inputs := t.inputs }) : s.Spares hostItems t := by
  rw [h]
  refine ⟨rfl, rfl, fun x hx => ?_⟩
  cases x with
  | host => exact absurd (.inl rfl) hx
  | buf => exact absurd (.inr rfl) hx
  | _ => rfl

theorem hostEvent_spares {running : Bool} {h : HostId} {a : Access} (ht : s.hostEvent running h a = .ok t) :
    s.Spares hostItems t := by
  obtain ⟨heq, -, -⟩ := hostEvent_frame ht
  have hinputs : t.inputs = s.inputs := by rw [heq]
  exact spares_of_frame (by rw [hinputs]; exact heq)

theorem point_spares {op : Option (UnitId × PendOp)} (ht : point op s = .ok () t) : s.Spares hostItems t :=
  spares_of_frame (point_frame ht).1

/-! ### Predicates that procedures keep -/

/-- A predicate that outlasts changes of the items in `E`, and whatever the outside world does. -/
structure Withstands (E : Set Item) (I : State → Prop) : Prop where
  change {s t : State} : t.inputs = s.inputs → s.Spares E t → I s → I t
  pass {s t : State} : t.inputs <:+ s.inputs → s.Spares ∅ t → I s → I t
  access {s t : State} {h : HostId} {a : Access} :
    s.inputs = .busy (.access h a) :: t.inputs → s.Spares hostItems t → I s → I t
  cut {s : State} {c : PowerCut} {rest : List Input} (op : Option (UnitId × PendOp)) :
    s.inputs = .busy (.powerLoss c) :: rest → I s → I (State.cutPower { s with inputs := rest } op c)

section withstands
variable {I : State → Prop} (hI : Withstands E I)
include hI

theorem Withstands.takeEvents (op : Option (UnitId × PendOp)) (l : List Input) (s : State)
    (hs : I { s with inputs := l }) : I (endState (takeEvents op l s)) := by
  induction l generalizing s with
  | nil => rw [takeEvents.eq_def]; exact hs
  | cons x rest ih =>
    have hpass : I { s with inputs := rest } :=
      hI.pass (s := { s with inputs := x :: rest }) (List.suffix_cons ..) 
        (spares_inputs { s with inputs := x :: rest } rest) hs
    rw [takeEvents.eq_def]
    cases x with
    | idle e => exact hs
    | dev d => exact hs
    | regStep => exact hs
    | busy e =>
      cases e with
      | access h a =>
        dsimp only
        cases he : s.hostEvent true h a with
        | error f => exact hpass
        | ok s' =>
          have hback : State.Spares hostItems { s with inputs := .busy (.access h a) :: rest } s :=
            spares_inputs _ s.inputs
          exact ih s' (hI.access rfl ((hback.trans (hostEvent_spares he)).trans (spares_inputs s' rest)) hs)
      | powerLoss c =>
        dsimp only
        split
        · exact hpass
        · exact hI.cut (s := { s with inputs := .busy (.powerLoss c) :: rest }) op rfl hs

theorem Withstands.point (op : Option (UnitId × PendOp)) : Keeps I (point op) :=
  fun s hs => hI.takeEvents op s.inputs s hs

theorem Withstands.answer : Keeps I answer := by
  intro s hs
  have hsuffix := answer_suffix s
  obtain ⟨d, l, n, h⟩ := answer_cases s
  rw [h] at hsuffix ⊢
  exact hI.pass hsuffix (spares_schedule s l n) hs

theorem Withstands.mark : Keeps I (modify State.dropRegStep : Proc PUnit) :=
  keeps_modify fun s hs => hI.pass (dropRegStep_suffix s) (spares_dropRegStep s) hs

/-- What withstands the changes of a procedure's items, the procedure keeps. -/
theorem Made.keeps {p : Proc α} (h : Made u E p) : Keeps I p := by
  induction h with
  | pure a => exact keeps_pure a
  | throw e => exact keeps_throw e
  | bind _ _ ihp ihf => exact keeps_bind ihp ihf
  | read _ _ ih => exact keeps_bind_get fun s hs => ih s s hs
  | point op => exact hI.point op
  | answer => exact hI.answer
  | mark => exact hI.mark
  | modify hg => exact keeps_modify fun s hs => hI.change (hg.inputs s) (hg.spares s) hs
  | guardRead n hbuf hp ih =>
    intro s hs
    have hend := ih s hs
    unfold Machine.guardRead
    split
    · next t ht =>
      rw [ht] at hend
      exact hI.change (s := t) (t := t.scrambleBuf n) rfl (spares_scrambleBuf hbuf t n) hend
    · exact hend

theorem Withstands.complete (hs : I s) (e : ErrCode) : I (s.complete e) :=
  hI.change (s := s) rfl (spares_complete s e) hs

theorem Withstands.finish {e : ErrCode} (hs : I s) (h : finish e s = .next t) : I t :=
  finish_keeps (hI.point none) (fun _ e hs => hI.complete hs e) hs h

/-- What withstands the changes of a command's items, the command keeps. -/
theorem Withstands.exec (hE : writtenBy i ⊆ E) (hs : I s) (h : exec i s = .next t) : I t := by
  rw [exec_eq_runCommand] at h
  exact runCommand_keeps (hI.point none) (fun _ e hs => hI.complete hs e)
    (fun _ s hs => hI.change (State.inputs_setRecover ..) (spares_setRecover s i.unit true) hs)
    ((made_bodyOf hE).keeps hI) hs h

end withstands

/-! ### The items that a command changes -/

/-- The schedule strikes at no more items inside a command than those in `E`. -/
structure State.Mild (E : Set Item) (s : State) : Prop where
  hosts : s.quiet = true ∨ hostItems ⊆ E
  power : s.noPowerLoss = true ∨ E = Set.univ

theorem noPowerLoss_of_suffix (h : s.noPowerLoss = true) (hi : t.inputs <:+ s.inputs) : t.noPowerLoss = true :=
  List.all_eq_true.2 fun x hx => List.all_eq_true.1 h x (hi.subset hx)

theorem noPowerLoss_of_quiet (hq : s.quiet = true) : s.noPowerLoss = true := by
  refine List.all_eq_true.2 fun x hx => ?_
  have hbusy := List.all_eq_true.1 hq x hx
  cases x with
  | busy e => cases hbusy
  | _ => rfl

theorem State.Mild.suffix (h : s.Mild E) (hi : t.inputs <:+ s.inputs) : t.Mild E :=
  ⟨h.hosts.imp_left fun hq => quiet_of_suffix hq hi, h.power.imp_left fun hn => noPowerLoss_of_suffix hn hi⟩

theorem cutPower_params (s : State) (op : Option (UnitId × PendOp)) (c : PowerCut) :
    (s.cutPower op c).params = s.params ∧ (s.cutPower op c).forgers = s.forgers := by
  unfold State.cutPower
  split <;> simp

theorem withstands_spares (s : State) : Withstands E (fun t => s.Spares E t ∧ t.Mild E) where
  change hi k := fun ⟨h, hm⟩ => ⟨h.trans k, hm.suffix (hi ▸ List.suffix_rfl)⟩
  pass hi k := fun ⟨h, hm⟩ => ⟨h.trans (k.mono (Set.empty_subset E)), hm.suffix hi⟩
  access {r t _ _} hi k := fun ⟨h, hm⟩ => by
    have hloud : ¬r.quiet = true := by
      unfold State.quiet
      rw [hi]
      nofun
    exact ⟨h.trans (k.mono (hm.hosts.resolve_left hloud)), hm.suffix (hi ▸ List.suffix_cons ..)⟩
  cut {r c rest} op hi := fun ⟨h, hm⟩ => by
    have hcut : ¬r.noPowerLoss = true := by
      unfold State.noPowerLoss
      rw [hi]
      nofun
    have hE := hm.power.resolve_left hcut
    obtain ⟨hp, hf⟩ := cutPower_params { r with inputs := rest } op c
    exact ⟨h.trans ⟨hp, hf, fun x hx => absurd (hE ▸ Set.mem_univ x) hx⟩, .inr (hE ▸ Set.subset_univ _), .inr hE⟩

/-- A command changes no items but its own and those that the schedule strikes at. -/
theorem exec_spares (hE : writtenBy i ⊆ E) (hm : s.Mild E) (h : exec i s = .next t) : s.Spares E t :=
  ((withstands_spares s).exec hE ⟨.refl E s, hm⟩ h).1

theorem finish_spares {e : ErrCode} (hm : s.Mild E) (h : finish e s = .next t) : s.Spares E t :=
  ((withstands_spares s).finish ⟨.refl E s, hm⟩ h).1

/-! ### The commands that name an item -/

theorem lock_of_written (h : .lock u ∈ writtenBy i) : ∃ hid, i = acquireOf u hid ∨ i = releaseOf u hid := by
  cases i <;> simp only [writtenBy, Set.mem_insert_iff, Set.mem_singleton_iff, Set.mem_empty_iff_false, Item.lock.injEq,
    reduceCtorEq, or_false] at h
  case mirrorAcquireBus hid => exact ⟨hid, .inl (h ▸ rfl)⟩
  case feeAcquireBus hid => exact ⟨hid, .inl (h ▸ rfl)⟩
  case mirrorReleaseBus hid => exact ⟨hid, .inr (h ▸ rfl)⟩
  case feeReleaseBus hid => exact ⟨hid, .inr (h ▸ rfl)⟩

theorem waiting_of_written (h : .waiting ∈ writtenBy i) : ∃ u hid, i = acquireOf u hid := by
  cases i <;> simp [writtenBy] at h
  case mirrorAcquireBus hid => exact ⟨.mirror, hid, rfl⟩
  case feeAcquireBus hid => exact ⟨.fee, hid, rfl⟩

theorem info_of_written (h : .info ∈ writtenBy i) : ∃ u hid, i = getInfoOf u hid := by
  cases i <;> simp [writtenBy] at h
  case mirrorGetInfo hid => exact ⟨.mirror, hid, rfl⟩
  case feeGetInfo hid => exact ⟨.fee, hid, rfl⟩

theorem gcCount_of_written (h : .gcCount ∈ writtenBy i) :
    ∃ hid, i = .feeWrite hid ∨ i = .feeErase hid ∨ i = .feeStart hid := by
  cases i <;> simp [writtenBy] at h
  case feeWrite hid => exact ⟨hid, .inl rfl⟩
  case feeErase hid => exact ⟨hid, .inr (.inl rfl)⟩
  case feeStart hid => exact ⟨hid, .inr (.inr rfl)⟩

theorem buf_of_written (h : .buf ∈ writtenBy i) : ∃ u hid, i = readOf u hid ∨ i = getInfoOf u hid := by
  cases i <;> simp [writtenBy] at h
  case mirrorRead hid => exact ⟨.mirror, hid, .inl rfl⟩
  case feeRead hid => exact ⟨.fee, hid, .inl rfl⟩
  case mirrorGetInfo hid => exact ⟨.mirror, hid, .inr rfl⟩
  case feeGetInfo hid => exact ⟨.fee, hid, .inr rfl⟩

theorem host_not_written (i : Instr) : .host ∉ writtenBy i := by cases i <;> simp [writtenBy]

/-! ### GET_INFO -/

theorem reportInfo_within (ss sn wa : Word) (ident : List Byte) : Within NoStop id (reportInfo ss sn wa ident) :=
  (infoRegs_within _).bind fun _ => Within.bind
    (within_bind_get fun _ => (within_contract _ _).bind fun _ => within_modify fun _ => .of_eq rfl rfl rfl)
    fun _ => infoRegs_within _

/-- After its state check GET_INFO raises no error. -/
theorem bodyOf_getInfoOf (u : UnitId) (hid : HostId) :
    ∃ p, Within NoStop id p ∧ bodyOf (getInfoOf u hid) = (do checkState (·.isReady u); p) := by
  cases u
  case mirror =>
    exact ⟨_, (within_bind_get fun _ => within_pure _).bind fun _ => within_bind_get fun _ => reportInfo_within .., rfl⟩
  case fee =>
    exact ⟨_, (within_bind_get fun _ => within_pure _).bind fun _ => within_bind_get fun _ => reportInfo_within .., rfl⟩

/-- A GET_INFO that does not complete with OK leaves the INFO registers (10_state.md R29). -/
theorem getInfo_info {hid : HostId} (hn : s.noPowerLoss = true) (h : exec (getInfoOf u hid) s = .next t) :
    t.info = s.info ∨ t.status.err = .ok := by
  have hm : s.Mild hostItems := ⟨.inr subset_rfl, .inl hn⟩
  have kept {e : ErrCode} (hf : finish e s = .next t) : t.info = s.info :=
    (finish_spares hm hf).item .info (by simp [hostItems])
  obtain ⟨p, hp, hbody⟩ := bodyOf_getInfoOf u hid
  have hends := hp.ends s
  rw [exec_eq_runCommand, hbody] at h
  unfold runCommand at h
  rw [checked_apply] at h
  split at h
  · exact .inl (kept h)
  · split at h
    · cases conclude_next h with
      | completed _ _ => exact .inr rfl
      | reported hr _ =>
        rw [hr] at hends
        exact False.elim (Early.of_raised hends).1
      | cutAfter hr hc _ =>
        rw [hr] at hends
        rw [noPowerLoss_before hends hc] at hn
        cases hn
      | cutAfterRaise hr _ _ =>
        rw [hr] at hends
        exact False.elim (Early.of_raised hends).1
      | powerLost hr =>
        rw [hr] at hends
        obtain (⟨f, hf⟩ | ⟨-, hc, -⟩) | ⟨hstop, -⟩ := hends
        · cases hf
        · rw [hc] at hn
          cases hn
        · exact False.elim hstop
      | waiting hr =>
        rw [hr] at hends
        exact False.elim (hends.resolve_left Interrupted.not_waiting).1
    · refine .inl (kept (e := .state) ?_)
      cases u <;> exact h

end Sys2Proof.Machine

namespace Sys2Proof.Proofs

/-- Settles O48: each command changes of the items those that it names, and the outside world only what hosts write. -/
theorem commandsWriteOnlyTheirRegisters : Obligations.CommandsWriteOnlyTheirRegisters := by
  unfold Obligations.CommandsWriteOnlyTheirRegisters
  intro i s t h
  refine ⟨(exec_spares (Set.subset_univ _) ⟨.inr (Set.subset_univ _), .inr rfl⟩ h).forgers, fun hn => ?_, fun hq => ?_⟩
  · have hspares : s.Spares (writtenBy i ∪ hostItems) t :=
      exec_spares Set.subset_union_left ⟨.inr Set.subset_union_right, .inl hn⟩ h
    have written {x : Item} (hx : x ∉ hostItems) (hne : t.item x ≠ s.item x) : x ∈ writtenBy i := by
      by_contra hw
      exact hne (hspares.item x (by simp [hw, hx]))
    refine ⟨fun u hne => ?_, fun hne => ?_, fun hne => ?_⟩
    · exact lock_of_written (written (by simp [hostItems]) fun he => hne (congrArg Prod.fst he))
    · obtain ⟨u, hid, rfl⟩ := info_of_written (written (x := .info) (by simp [hostItems]) hne)
      exact ⟨⟨u, hid, rfl⟩, (getInfo_info hn h).resolve_left hne⟩
    · exact gcCount_of_written (written (x := .gcCount) (by simp [hostItems]) hne)
  · have hspares : s.Spares (writtenBy i) t := exec_spares subset_rfl ⟨.inl hq, .inl (noPowerLoss_of_quiet hq)⟩ h
    have hhost : (t.cmd, t.addr, t.len, t.cfg, t.ie, t.latch, t.replies) =
        (s.cmd, s.addr, s.len, s.cfg, s.ie, s.latch, s.replies) := hspares.item .host (host_not_written i)
    simp only [Prod.mk.injEq] at hhost
    obtain ⟨hcmd, haddr, hlen, hcfg, hie, hlatch, hreplies⟩ := hhost
    refine ⟨hcmd, haddr, hlen, hcfg, hie, hlatch, hreplies, fun hne => buf_of_written ?_⟩
    by_contra hw
    exact hne (hspares.item .buf hw)

end Sys2Proof.Proofs
end

