-- ==== Sys2Proof/Proofs/Locks.lean ====
section
/-! PROOF. Both locks stay legal, and each device is owned exactly while its lock is held (44_dispatch_and_lock.md R277
to R280). -/

open Sys2Proof Sys2Proof.Machine

namespace Sys2Proof.Machine

variable {u : UnitId} {hid : HostId} {E : Set Item} {i : Instr} {s t : State}

/-! ### One lock -/

/-- A lock's value is legal, with its device's ownership (44_dispatch_and_lock.md R277, R280). -/
def Lock.Legal (p : Params) (l : Lock) (owned : Bool) : Prop :=
  l.count.toNat ≤ p.lockMax ∧ l.owner.toNat < p.nHosts ∧ (l.count = 0 → l.owner = 0) ∧ (owned = true ↔ l.count ≠ 0)

theorem Params.wf_lock {p : Params} (h : p.wf = true) : 1 ≤ p.nHosts ∧ 1 ≤ p.lockMax ∧ p.lockMax ≤ 255 := by
  simp only [Params.wf, decide_eq_true_eq] at h
  omega

theorem Lock.legal_free {p : Params} (h : p.wf = true) : Lock.Legal p ⟨0, 0⟩ false :=
  ⟨Nat.zero_le _, (Params.wf_lock h).1, fun _ => rfl, by simp⟩

theorem Lock.legal_taken {p : Params} (h : p.wf = true) (hh : hid.toNat < p.nHosts) : Lock.Legal p ⟨1, hid⟩ true :=
  ⟨(Params.wf_lock h).2.1, hh, by simp, by simp⟩

section legal
variable {p : Params} {l : Lock} {owned : Bool} (h : l.Legal p owned)
include h

/-- A held lock that is not at LOCK_MAX counts one more (44_dispatch_and_lock.md R278). -/
theorem Lock.Legal.nest (hp : p.wf = true) (h0 : l.count ≠ 0) (hmax : l.count.toNat ≠ p.lockMax) :
    Lock.Legal p { l with count := l.count + 1 } owned := by
  obtain ⟨hle, howner, -, howned⟩ := h
  obtain ⟨-, -, hbyte⟩ := Params.wf_lock hp
  have hcount : (l.count + 1).toNat = l.count.toNat + 1 := by
    rw [BitVec.toNat_add]
    exact Nat.mod_eq_of_lt (by show l.count.toNat + 1 < 256; omega)
  have hpos : l.count + 1 ≠ 0 := fun he => by
    rw [he] at hcount
    cases hcount
  refine ⟨?_, howner, fun he => absurd he hpos, ?_⟩
  · show (l.count + 1).toNat ≤ p.lockMax
    omega
  · rw [howned]
    exact iff_of_true h0 hpos

/-- A lock held more than once counts one less (44_dispatch_and_lock.md R279). -/
theorem Lock.Legal.count_down (h0 : l.count ≠ 0) (h1 : l.count ≠ 1) :
    Lock.Legal p { l with count := l.count - 1 } owned := by
  obtain ⟨hle, howner, -, howned⟩ := h
  have hpos : l.count - 1 ≠ 0 := fun he => h1 (by bv_omega)
  refine ⟨?_, howner, fun he => absurd he hpos, ?_⟩
  · show (l.count - 1).toNat ≤ p.lockMax
    have hless : (l.count - 1).toNat ≤ l.count.toNat := by bv_omega
    omega
  · rw [howned]
    exact iff_of_true h0 hpos

end legal

/-! ### Both locks -/

theorem locksLegal_iff (s : State) :
    s.locksLegal ↔ s.params.wf = true ∧ (∀ u, (s.lock u).Legal s.params (s.dev u).owned)
      ∧ ∀ u h, s.waiting = some (u, h) → (s.lock u).count = 0 ∧ h.toNat < s.params.nHosts :=
  ⟨fun ⟨hp, hm, hf, hw⟩ => ⟨hp, fun u => by cases u; exacts [hm, hf], hw⟩,
    fun ⟨hp, hl, hw⟩ => ⟨hp, hl .mirror, hl .fee, hw⟩⟩

/-- The items that the legality of the locks reads. -/
def lockItems : Set Item := {x | x = .waiting ∨ ∃ u, x = .lock u}

theorem State.Spares.lock_eq (h : s.Spares E t) (hu : .lock u ∉ E) :
    t.lock u = s.lock u ∧ (t.dev u).owned = (s.dev u).owned :=
  Prod.mk.inj (h.item (.lock u) hu)

theorem locksLegal_spares (hE : Disjoint lockItems E) (h : s.Spares E t) (hs : s.locksLegal) : t.locksLegal := by
  have out {x : Item} (hx : x ∈ lockItems) : x ∉ E := fun hx' => Set.disjoint_left.1 hE hx hx'
  have hlock (u : UnitId) := h.lock_eq (u := u) (out (.inr ⟨u, rfl⟩))
  have hwait : t.waiting = s.waiting := h.item .waiting (out (.inl rfl))
  rw [locksLegal_iff] at *
  simpa only [h.params, hlock, hwait] using hs

theorem disjoint_hostItems : Disjoint lockItems hostItems := by
  rw [Set.disjoint_left]
  rintro x (rfl | ⟨u, rfl⟩) <;> simp [hostItems]

/-- After a power loss both locks are free and no device is owned (70_reset_and_hazards.md R341). -/
theorem locksLegal_powerLoss (hp : s.params.wf = true) (c : PowerCut) : (s.powerLoss c).locksLegal :=
  (locksLegal_iff _).2 ⟨hp, fun u => by cases u <;> exact Lock.legal_free hp, nofun⟩

theorem locksLegal_cutPower (hp : s.params.wf = true) (op : Option (UnitId × PendOp)) (c : PowerCut) :
    (s.cutPower op c).locksLegal := by
  unfold State.cutPower
  split
  · exact locksLegal_powerLoss (by simpa using hp) c
  · exact locksLegal_powerLoss hp c

theorem withstands_locksLegal (hE : Disjoint lockItems E) : Withstands E State.locksLegal where
  change _ h hs := locksLegal_spares hE h hs
  pass _ h hs := locksLegal_spares (Set.disjoint_empty _) h hs
  access _ h hs := locksLegal_spares disjoint_hostItems h hs
  cut {s _ rest} op _ hs := locksLegal_cutPower (s := { s with inputs := rest }) hs.1 op _

/-! ### One lock changes -/

/-- A change of one unit's lock alone keeps both legal, if the new lock is. -/
theorem locksLegal_of_unit (hs : s.locksLegal) (h : s.Spares {.lock u, .waiting} t)
    (hu : (t.lock u).Legal s.params (t.dev u).owned)
    (hw : ∀ v h, t.waiting = some (v, h) → (t.lock v).count = 0 ∧ h.toNat < s.params.nHosts) : t.locksLegal := by
  rw [locksLegal_iff] at *
  rw [h.params]
  refine ⟨hs.1, fun v => ?_, hw⟩
  by_cases hv : v = u
  · exact hv ▸ hu
  · obtain ⟨hlock, howned⟩ := h.lock_eq (u := v) (by simp [hv])
    rw [hlock, howned]
    exact hs.2.1 v

/-- Where the lock of a unit is held, an ACQUIRE_BUS waits for another unit, whose lock stays. -/
theorem waits_elsewhere (hs : s.locksLegal) (h : s.Spares {.lock u} t) (h0 : (s.lock u).count ≠ 0) (v : UnitId)
    (hid : HostId) (hw : t.waiting = some (v, hid)) : (t.lock v).count = 0 ∧ hid.toNat < s.params.nHosts := by
  obtain ⟨-, -, hwaits⟩ := (locksLegal_iff s).1 hs
  have hsame : t.waiting = s.waiting := h.item .waiting (by simp)
  obtain ⟨hfree, hhost⟩ := hwaits v hid (hsame ▸ hw)
  have hv : v ≠ u := fun he => h0 (he ▸ hfree)
  rw [(h.lock_eq (u := v) (by simp [hv])).1]
  exact ⟨hfree, hhost⟩

theorem locksLegal_of_held (hs : s.locksLegal) (h : s.Spares {.lock u} t) (h0 : (s.lock u).count ≠ 0)
    (hu : (t.lock u).Legal s.params (t.dev u).owned) : t.locksLegal :=
  locksLegal_of_unit hs (h.mono (Set.singleton_subset_iff.2 (Set.mem_insert ..))) hu (waits_elsewhere hs h h0)

section changes
variable (hs : s.locksLegal)
include hs

theorem State.locksLegal.nest (h0 : (s.lock u).count ≠ 0) (hmax : (s.lock u).count.toNat ≠ s.params.lockMax) :
    (s.setLock u { s.lock u with count := (s.lock u).count + 1 }).locksLegal := by
  have hspares := (confined_setLock (Set.mem_singleton (Item.lock u))
    (l := fun s => { s.lock u with count := (s.lock u).count + 1 }) (by simp)).spares s
  obtain ⟨hp, hl, -⟩ := (locksLegal_iff s).1 hs
  refine locksLegal_of_held hs hspares h0 ?_
  simpa using (hl u).nest hp h0 hmax

theorem State.locksLegal.count_down (h0 : (s.lock u).count ≠ 0) (h1 : (s.lock u).count ≠ 1) :
    (s.setLock u { s.lock u with count := (s.lock u).count - 1 }).locksLegal := by
  have hspares := (confined_setLock (Set.mem_singleton (Item.lock u))
    (l := fun s => { s.lock u with count := (s.lock u).count - 1 }) (by simp)).spares s
  obtain ⟨-, hl, -⟩ := (locksLegal_iff s).1 hs
  refine locksLegal_of_held hs hspares h0 ?_
  simpa using (hl u).count_down h0 h1

theorem State.locksLegal.free (h0 : (s.lock u).count ≠ 0) :
    ((s.setLock u ⟨0, 0⟩).setDev u { s.dev u with owned := false }).locksLegal := by
  have hspares := (confined_lock (Set.mem_singleton (Item.lock u)) (l := fun _ => ⟨0, 0⟩) (b := fun _ => false)
    (fun _ _ => rfl) fun _ _ => rfl).spares s
  refine locksLegal_of_held hs hspares h0 ?_
  simpa using Lock.legal_free hs.1

theorem State.locksLegal.take (hh : hid.toNat < s.params.nHosts) :
    State.locksLegal
      { (s.setDev u { s.dev u with owned := true }).setLock u ⟨1, hid⟩ with waiting := none } := by
  have hspares := (confined_grant (E := {.lock u, .waiting}) (u := u) (.inl rfl) (.inr rfl) hid).spares s
  refine locksLegal_of_unit hs hspares ?_ nofun
  have hl := Lock.legal_taken hs.1 hh
  cases u <;> exact hl

theorem State.locksLegal.wait (h0 : (s.lock u).count = 0) (hh : hid.toNat < s.params.nHosts) :
    State.locksLegal { s with waiting := some (u, hid) } := by
  obtain ⟨hp, hl, -⟩ := (locksLegal_iff s).1 hs
  refine (locksLegal_iff _).2 ⟨hp, hl, fun v h hw => ?_⟩
  cases hw
  exact ⟨h0, hh⟩

end changes

/-! ### The bus lock's procedures -/

/-- A register change leaves the locks legal if it does so from every state that a point may leave. -/
theorem change_locksLegal {g : State → State} (hs : s.locksLegal)
    (hg : ∀ t, t.locksLegal → s.Spares hostItems t → (g t).locksLegal) : (endState (change g s)).locksLegal := by
  have hI := withstands_locksLegal (Set.disjoint_empty lockItems)
  have hpoint := hI.point none s hs
  rw [change_apply]
  cases hp : point none s with
  | ok _ t =>
    rw [hp] at hpoint
    exact hg _ (hI.mark t hpoint) ((point_spares hp).trans (spares_dropRegStep t))
  | error e t =>
    rw [hp] at hpoint
    exact hpoint

/-- A state in which a host may wait for a unit's lock, or take it. -/
def State.Free (u : UnitId) (hid : HostId) (s : State) : Prop :=
  s.locksLegal ∧ (s.lock u).count = 0 ∧ hid.toNat < s.params.nHosts

theorem withstands_free : Withstands ∅ (State.Free u hid) := by
  have spare {E : Set Item} {s t : State} (hE : Disjoint lockItems E) (h : s.Spares E t) (hs : s.Free u hid) :
      t.Free u hid := by
    obtain ⟨hlegal, hfree, hhost⟩ := hs
    have hlock := h.lock_eq (u := u) fun hu => Set.disjoint_left.1 hE (.inr ⟨u, rfl⟩) hu
    exact ⟨locksLegal_spares hE h hlegal, hlock.1 ▸ hfree, h.params ▸ hhost⟩
  refine ⟨fun _ h hs => spare (Set.disjoint_empty _) h hs, fun _ h hs => spare (Set.disjoint_empty _) h hs,
    fun _ h hs => spare disjoint_hostItems h hs, fun {s c rest} op _ hs => ?_⟩
  obtain ⟨hlegal, -, hhost⟩ := hs
  obtain ⟨hparams, -⟩ := cutPower_params { s with inputs := rest } op c
  have hreset := cutPower_restarted { s with inputs := rest } op c
  refine ⟨locksLegal_cutPower (s := { s with inputs := rest }) hlegal.1 op c, ?_, by rwa [hparams]⟩
  cases u
  case mirror => exact congrArg (·.lock.count) hreset.m
  case fee => exact congrArg (·.lock.count) hreset.f

theorem ends_iff_endState {α : Type} {I : State → Prop} {r : EStateM.Result Stop State α} :
    Ends (fun _ t => I t) (fun _ t => I t) r ↔ I (endState r) := by cases r <;> rfl

/-- From a free lock DevAcquire takes it with the device, or waits for it (44_dispatch_and_lock.md R278, R280). -/
theorem acquireFresh_locksLegal (hs : s.Free u hid) : (endState (acquireFresh u hid s)).locksLegal := by
  have hI := withstands_free (u := u) (hid := hid)
  refine ends_iff_endState.1 ?_
  refine Ends.bind' (ends_iff_endState.2 (hI.point none s hs)) (fun _ _ k => k.1) fun _ t ht => ?_
  refine Ends.bind' (ends_iff_endState.2 (hI.answer t ht)) (fun _ _ k => k.1) fun d r ⟨hlegal, hfree, hhost⟩ => ?_
  cases d with
  | ok => exact ends_iff_endState.2 (change_locksLegal hlegal fun t ht h => ht.take (h.params ▸ hhost))
  | fail torn => exact hlegal.wait hfree hhost

theorem acquire_locksLegal (hs : s.locksLegal) (hh : hid.toNat < s.params.nHosts) :
    (endState (acquire u hid s)).locksLegal := by
  rw [acquire_apply]
  split
  · next h0 => exact acquireFresh_locksLegal ⟨hs, h0, hh⟩
  · next h0 =>
    split
    · exact hs
    · next hmax =>
      refine change_locksLegal hs fun t ht hspares => ?_
      have hlock := (hspares.lock_eq (u := u) (by simp [hostItems])).1
      exact ht.nest (by rwa [hlock]) (by rwa [hlock, hspares.params])

theorem release_locksLegal (hs : s.locksLegal) : (endState (release u s)).locksLegal := by
  have held {t : State} (h : s.Spares hostItems t) := (h.lock_eq (u := u) (by simp [hostItems])).1
  rw [release_apply]
  split
  · exact hs
  · next h0 =>
    split
    · exact change_locksLegal hs fun t ht hspares => ht.free (by rwa [held hspares])
    · next h1 =>
      exact change_locksLegal hs fun t ht hspares =>
        ht.count_down (by rwa [held hspares]) (by rwa [held hspares])

/-! ### Every command and every step -/

/-- Only ACQUIRE_BUS and RELEASE_BUS change what the legality of the locks reads. -/
theorem bus_command_or_disjoint (i : Instr) :
    (∃ u hid, i = acquireOf u hid ∨ i = releaseOf u hid) ∨ Disjoint lockItems (writtenBy i) := by
  by_cases h : ∃ u hid, i = acquireOf u hid ∨ i = releaseOf u hid
  · exact .inl h
  · refine .inr (Set.disjoint_left.2 ?_)
    rintro x (rfl | ⟨u, rfl⟩) hx
    · obtain ⟨u, hid, hi⟩ := waiting_of_written hx
      exact h ⟨u, hid, .inl hi⟩
    · obtain ⟨hid, hi⟩ := lock_of_written hx
      exact h ⟨u, hid, hi⟩

theorem bodyOf_locksLegal (hs : s.locksLegal) (hh : i.hid.toNat < s.params.nHosts) :
    (endState (bodyOf i s)).locksLegal := by
  rcases bus_command_or_disjoint i with ⟨u, hid, rfl | rfl⟩ | hE
  · have hacquire : (endState ((do checkState (·.started u); acquire u hid : Proc Unit) s)).locksLegal := by
      rw [checked_apply]
      split
      · exact acquire_locksLegal hs (by cases u <;> exact hh)
      · exact hs
    cases u <;> exact hacquire
  · have hrelease : (endState ((do checkState (·.started u); release u : Proc Unit) s)).locksLegal := by
      rw [checked_apply]
      split
      · exact release_locksLegal hs
      · exact hs
    cases u <;> exact hrelease
  · exact (made_bodyOf subset_rfl).keeps (withstands_locksLegal hE) s hs

theorem finish_locksLegal {e : ErrCode} (hs : s.locksLegal) (h : finish e s = .next t) : t.locksLegal :=
  (withstands_locksLegal (Set.disjoint_empty _)).finish hs h

/-- A procedure that leaves the locks legal ends its command so. -/
theorem conclude_locksLegal {mu : Bool} {r : EStateM.Result Stop State Unit} (hr : (endState r).locksLegal)
    (h : conclude u mu r = .next t) : t.locksLegal := by
  rcases conclude_cases u mu r with ⟨a, s, rfl, hf⟩ | ⟨e, s, rfl, hf⟩ | ⟨s, rfl | rfl, hf⟩ | ⟨f, s, -, hf⟩
  all_goals rw [hf] at h
  · exact finish_locksLegal hr h
  · refine finish_locksLegal ?_ h
    unfold State.afterRaise
    split
    · exact locksLegal_spares (Set.disjoint_empty _) (spares_setRecover s u true) hr
    · exact hr
  · cases h; exact hr
  · cases h; exact hr
  · cases h

theorem exec_locksLegal (hs : s.locksLegal) (hh : i.hid.toNat < s.params.nHosts) (h : exec i s = .next t) :
    t.locksLegal := by
  rw [exec_eq_runCommand] at h
  unfold runCommand at h
  split at h
  · exact finish_locksLegal hs h
  · exact conclude_locksLegal (bodyOf_locksLegal hs hh) h

/-- A legal command names one of the platform's hosts (30_encoding.md R107). -/
theorem hid_of_legalCommand {n : Nat} {w : Word} (h : legalCommand n w = some i) : i.hid.toNat < n := by
  unfold legalCommand at h
  split at h
  · split at h
    · next hwf =>
      cases h
      simpa [Instr.wf] using hwf
    · cases h
  · cases h

theorem locksLegal_accept (s : State) (w : Word) (h hid : HostId) :
    ((s.accept w).recordHost h hid).locksLegal ↔ s.locksLegal := by
  rw [State.recordHost_eq]
  rfl

theorem acceptCommand_locksLegal {h : HostId} {w : Word} (hs : s.locksLegal)
    (ht : (acceptCommand h w s).outcome = .next t) : t.locksLegal := by
  unfold acceptCommand at ht
  split at ht
  · next i hi =>
    refine exec_locksLegal ((locksLegal_accept s w h i.hid).2 hs) ?_ ht
    rw [State.params_recordHost]
    exact hid_of_legalCommand hi
  · exact finish_locksLegal (s := s.accept w) hs ht

theorem fetchAccess_locksLegal {h : HostId} {a : Access} (hs : s.locksLegal)
    (ht : (fetchAccess h a s).outcome = .next t) : t.locksLegal := by
  unfold fetchAccess at ht
  split at ht
  · exact acceptCommand_locksLegal hs ht
  · split at ht
    · next he =>
      cases ht
      exact locksLegal_spares disjoint_hostItems (hostEvent_spares he) hs
    · cases ht

theorem fetchEvent_locksLegal {e : Event} (hs : s.locksLegal) (ht : (fetchEvent e s).outcome = .next t) :
    t.locksLegal := by
  cases e with
  | access h a => exact fetchAccess_locksLegal hs ht
  | powerLoss c =>
    cases ht
    exact locksLegal_powerLoss hs.1 c

theorem step_locksLegal (hs : s.locksLegal) (h : step s = .next t) : t.locksLegal := by
  rw [step_eq_outcome] at h
  unfold fetch at h
  split at h
  · next u hid hw =>
    obtain ⟨-, -, hwaits⟩ := (locksLegal_iff s).1 hs
    exact conclude_locksLegal (acquireFresh_locksLegal ⟨hs, hwaits u hid hw⟩) h
  · split at h
    · cases h; exact hs
    · cases h; exact hs
    · cases h; exact hs
    · next e rest _ => exact fetchEvent_locksLegal (s := { s with inputs := rest }) hs h
    · next e rest _ => exact fetchEvent_locksLegal (s := { s with inputs := rest }) hs h

end Sys2Proof.Machine

namespace Sys2Proof.Proofs

/-- Settles O39: only the bus lock's commands change a lock or an ownership, and they change both together. -/
theorem stepKeepsLocksLegal : Obligations.StepKeepsLocksLegal := by
  unfold Obligations.StepKeepsLocksLegal
  exact fun _ _ hs h => step_locksLegal hs h

end Sys2Proof.Proofs
end

