-- ==== Sys2Proof/Proofs/Accept.lean ====
section
/-! PROOF. A host's write to CMD: accepted by an idle block, and rejected inside a command
(44_dispatch_and_lock.md R270 to R272). -/

open Sys2Proof Sys2Proof.Machine

namespace Sys2Proof.Machine

variable {s : State} {h : HostId} {w : Word} {rest : List Input} {i : Instr}

/-! ### An idle block -/

theorem commandWrite_base (p : Params) (w : Word) : commandWrite p (.write .word p.blockBase w) = some w :=
  if_pos (windowOffset_base p (off := 0) (by decide))

theorem legalCommand_of_decode {n : Nat} (hd : decode w = .ok i) (hwf : i.wf n = true) : legalCommand n w = some i := by
  unfold legalCommand
  rw [hd]
  exact if_pos hwf

/-- A legal command word written to CMD of an idle block is run in the step that takes it. -/
theorem step_of_command (hh : h.toNat < s.params.nHosts) (hw : s.waiting = none) (hb : s.status.busy = false)
    (hi : s.inputs = .idle (.access h (.write .word s.params.blockBase w)) :: rest) (hd : decode w = .ok i)
    (hwf : i.wf s.params.nHosts = true) :
    step s = exec i ((State.accept { s with inputs := rest } w).recordHost h i.hid) := by
  have hfetch : fetch s = acceptCommand h w { s with inputs := rest } := by
    unfold fetch
    rw [hw, hi]
    unfold fetchEvent fetchAccess
    simp only [commandWrite_base, hasHost, hh, hb, decide_true, Bool.not_false, Bool.and_self]
  have haccept : acceptCommand h w { s with inputs := rest } =
      .run i ((State.accept { s with inputs := rest } w).recordHost h i.hid) := by
    unfold acceptCommand
    rw [legalCommand_of_decode hd hwf]
  unfold step
  rw [hfetch, haccept]

/-- A command's word is issued by the host it names. -/
theorem issuer_encode (hwf : i.wf s.params.nHosts = true) : s.issuer (encode i) = i.hid := by
  obtain ⟨-, -, hhid, -⟩ := fields_encode i
  unfold State.issuer
  rw [hhid]
  exact if_pos hwf

theorem withFetchWord_encode (hwf : i.wf s.params.nHosts = true) :
    s.withFetchWord 32 (encode i).toNat = { s with
      status := { s.status with busy := false }
      waiting := none
      inputs := .idle (.access i.hid (.write .word s.params.blockBase (encode i))) :: s.inputs } := by
  have hword : BitVec.ofNat 32 ((encode i).toNat % 2 ^ 32) = encode i := by
    rw [Nat.mod_eq_of_lt (encode i).isLt, BitVec.ofNat_toNat, BitVec.setWidth_eq]
  unfold State.withFetchWord State.placeCommand
  rw [hword, issuer_encode hwf]

/-! ### Inside a command -/

theorem regAccess_inputs (r : Reg) (a : Access) (s : State) (l : List Input) :
    regAccess r a { s with inputs := l } = { regAccess r a s with inputs := l } := by
  cases a with
  | read z x => cases r <;> rfl
  | write z x v => cases r <;> rfl

/-- A host access neither reads nor changes the schedule. -/
theorem hostEvent_inputs (s : State) (l : List Input) (running : Bool) (h : HostId) (a : Access) :
    State.hostEvent { s with inputs := l } running h a =
      (s.hostEvent running h a).map fun t => { t with inputs := l } := by
  unfold State.hostEvent hostAccess
  dsimp only
  split
  · split
    · rfl
    · split
      · split
        · exact congrArg Except.ok (regAccess_inputs ..)
        · rfl
      · split
        · split
          · cases a <;> cases running <;> rfl
          · rfl
        · cases a <;> rfl
  · rfl

/-- What a point does depends on the schedule that it is given alone. -/
theorem takeEvents_inputs (op : Option (UnitId × PendOp)) (l k : List Input) (s : State) :
    takeEvents op l { s with inputs := k } = takeEvents op l s := by
  induction l generalizing s with
  | nil => rw [takeEvents.eq_def, takeEvents.eq_def]
  | cons x rest ih =>
    rw [takeEvents.eq_def, takeEvents.eq_def op (x :: rest) s]
    cases x with
    | idle e => rfl
    | dev d => rfl
    | regStep => rfl
    | busy e =>
      cases e with
      | access h a =>
        dsimp only
        rw [hostEvent_inputs]
        cases s.hostEvent true h a with
        | ok t => exact ih t
        | error f => rfl
      | powerLoss c =>
        dsimp only
        have hfault : State.overwriteFault { s with inputs := k } op = s.overwriteFault op :=
          overwriteFault_congr rfl (fun u => by cases u <;> rfl) op
        rw [hfault]

end Sys2Proof.Machine

namespace Sys2Proof.Proofs

/-- Settles O4: an idle block takes the CMD write, and the word it latches decodes to the command. -/
theorem stepRunsTheAcceptedCommand : Obligations.StepRunsTheAcceptedCommand := by
  unfold Obligations.StepRunsTheAcceptedCommand
  refine ⟨fun s h w rest i hh hw hb hi hd hwf => ?_, fun s i hwf => ?_⟩
  · rw [step_of_command hh hw hb hi hd hwf, State.recordHost_eq]
    rfl
  · have hhost : i.hid.toNat < s.params.nHosts := by simpa [Instr.wf] using hwf
    have hplaced := withFetchWord_encode (s := s) hwf
    have hinputs := congrArg State.inputs hplaced
    rw [step_of_command (s := s.withFetchWord 32 (encode i).toNat) hhost rfl rfl hinputs (decode_encode i) hwf,
      State.recordHost_self, hplaced]
    rfl

/-- Settles O5: the access is the first event of the point, and all it does is to set OVERRUN. -/
theorem commandWriteWhileBusyOverruns : Obligations.CommandWriteWhileBusyOverruns := by
  unfold Obligations.CommandWriteWhileBusyOverruns
  intro s op h w rest hh hi
  have hevent : s.hostEvent true h (.write .word s.params.blockBase w) = .ok { s with status := s.status.overrunSet } :=
    (hostEvent_of_host hh true _).trans (hostAccess_write_reg true h (off := 0) rfl w)
  calc point op s = takeEvents op s.inputs s := rfl
    _ = takeEvents op (.busy (.access h (.write .word s.params.blockBase w)) :: rest) s :=
        congrArg (takeEvents op · s) hi
    _ = takeEvents op rest { s with status := s.status.overrunSet } := by
        rw [takeEvents.eq_def]
        simp only [hevent]
    _ = point op { s with inputs := rest, status := s.status.overrunSet } := (takeEvents_inputs op rest rest _).symm

end Sys2Proof.Proofs
end

