-- ==== Sys2Proof/Proofs/Bus.lean ====
section
/-! PROOF. ACQUIRE_BUS takes or nests the lock, and RELEASE_BUS counts it down (44_dispatch_and_lock.md R278 to
R280). -/

open Sys2Proof Sys2Proof.Machine

namespace Sys2Proof.Machine

variable {s : State} {u : UnitId} {h : HostId}

/-- A RELEASE_BUS that the lock and DRV let run counts the lock down. -/
theorem exec_releaseOf (hs : s.startable u h) : exec (releaseOf u h) s = conclude u false (release u s) := by
  have hexec : exec (releaseOf u h) s = runCommand u h false (do checkState (·.started u); release u) s := by
    cases u <;> rfl
  rw [hexec, runCommand, if_neg (by rw [hs.1]; decide), checked_apply, if_pos (started_of_startable hs)]

/-- A register change that nothing strikes at completes its command. -/
theorem conclude_change (hq : s.uneventful = true) (mu : Bool) {g : State → State} (hg : (g s).inputs = s.inputs) :
    conclude u mu (change g s) = .next ((g s).complete .ok) := by
  rw [change_uneventful hq]
  exact finish_uneventful (uneventful_of_eq hq hg) .ok

theorem waiting_none_eq {t : State} (ht : t.waiting = none) : { t with waiting := none } = t := by rw [← ht]

end Sys2Proof.Machine

namespace Sys2Proof.Proofs

/-- Settles O10: Acquire takes the free lock with the device's grant, or changes the held lock's count. -/
theorem acquireTakesOrNestsTheLock : Obligations.AcquireTakesOrNestsTheLock := by
  unfold Obligations.AcquireTakesOrNestsTheLock
  refine ⟨fun u h s hs hq hfree hw => ?_, fun u h s hs hq hheld hmax => ?_⟩
  · rw [exec_acquireOf hs, acquire_apply, if_pos hfree, acquireFresh_undisturbed hq,
      waiting_none_eq (by simpa using hw)]
    exact finish_undisturbed (undisturbed_of_eq hq (by simp) (by simp)) .ok
  · rw [exec_acquireOf hs, acquire_apply, if_neg hheld, if_neg hmax]
    exact conclude_change hq false (State.inputs_setLock ..)

/-- Settles O12: Release changes the count, or frees the lock and gives up the device. -/
theorem releaseCountsDown : Obligations.ReleaseCountsDown := by
  unfold Obligations.ReleaseCountsDown
  intro u h s hs hq hheld
  rw [exec_releaseOf hs, release_apply, if_neg hheld]
  split
  · exact conclude_change hq false (by simp)
  · exact conclude_change hq false (State.inputs_setLock ..)

end Sys2Proof.Proofs
end

