-- ==== Sys2Proof/Proofs/Refusals.lean ====
section
/-! PROOF. Commands that a check refuses: they complete with the check's error and change nothing
(60_exceptions.md R301 to R303, R305, R306). -/

open Sys2Proof Sys2Proof.Machine

namespace Sys2Proof.Machine

variable {s t : State} {i : Instr} {u : UnitId} {h : HostId} {w : Word} {rest : List Input} {e : ErrCode}

/-! ### A command that is refused -/

/-- RECOVER is for device failures alone. -/
theorem afterRaise_of_ne_dev (he : e ≠ .dev) (s : State) (u : UnitId) (mu : Bool) : s.afterRaise u mu e = s := by
  unfold State.afterRaise
  rw [if_neg (by simp [he])]

/-- A command whose procedure raises another error than the device's completes with it. -/
theorem exec_of_raised (hs : s.admits i.unit i.hid) (he : e ≠ .dev) (hbody : bodyOf i s = .error (.raised e) t)
    (hq : t.uneventful = true) : exec i s = .next (t.complete e) := by
  rw [exec_eq_runCommand, runCommand, if_neg (by rw [hs]; decide), hbody]
  show finish e (t.afterRaise i.unit (setsRecover i) e) = _
  rw [afterRaise_of_ne_dev he]
  exact finish_uneventful hq e

/-- A check that fails ends the procedure behind it. -/
theorem refused_apply (e : ErrCode) {c : Bool} (hc : c = false) (p : Proc Unit) (s : State) :
    (do require e c; p : Proc Unit) s = .error (.raised e) s := by
  rw [Proc.bind_apply, require_apply, hc]
  rfl

/-! ### Words -/

theorem opField_toNat (w : Word) : (opField w).toNat = (w &&& 0xF).toNat := by
  have hmask : (0xF : Word).toNat = 2 ^ 4 - 1 := rfl
  rw [opField, BitVec.extractLsb'_toNat, BitVec.toNat_and, hmask, Nat.and_two_pow_sub_one_eq_mod, Nat.shiftRight_zero]

theorem hidField_toNat (w : Word) : (hidField w).toNat = ((w >>> 8) &&& 0xF).toNat := by
  have hmask : (0xF : Word).toNat = 2 ^ 4 - 1 := rfl
  rw [hidField, BitVec.extractLsb'_toNat, BitVec.toNat_and, hmask, Nat.and_two_pow_sub_one_eq_mod,
    BitVec.toNat_ushiftRight]

theorem op_lt (i : Instr) : i.op.toNat < 0xC := by cases i <;> simp [Instr.op]

/-- No row of the table sets a reserved bit (30_encoding.md R100). -/
theorem tableWord_reserved (i : Instr) : i.tableWord &&& 0xFFFFF0E0 = 0 := by
  cases i <;> simp [Instr.tableWord, Instr.unit, Instr.op, UnitId.bit]

theorem encode_reserved (i : Instr) : encode i &&& 0xFFFFF0E0 = 0 := by
  have hmask : (0xFFFFF0E0 : Word) = tableMask &&& 0xFFFFF0E0 := by decide
  rw [hmask, ← BitVec.and_assoc, encode_masked, tableWord_reserved]

/-- A word that 60_exceptions.md R301 names is no command of the block. -/
theorem legalCommand_eq_none {n : Nat}
    (hw : 0xC ≤ (w &&& 0xF).toNat ∨ w &&& 0xFFFFF0E0 ≠ 0 ∨ n ≤ ((w >>> 8) &&& 0xF).toNat) :
    legalCommand n w = none := by
  unfold legalCommand
  cases hd : decode w with
  | error x => rfl
  | ok i =>
    obtain ⟨hop, -, hhid, -⟩ := decode_eq_ok_iff.1 hd
    rw [← opField_toNat, ← hidField_toNat, hop, hhid] at hw
    have hlate : n ≤ i.hid.toNat := by
      rcases hw with hw | hw | hw
      · exact absurd (op_lt i) (by omega)
      · exact absurd (encode_of_decode hd ▸ encode_reserved i) hw
      · exact hw
    exact if_neg (by simpa [Instr.wf] using hlate)

/-- An illegal word written to CMD of an idle block completes in the step that takes it. -/
theorem step_of_illegal (hh : h.toNat < s.params.nHosts) (hw : s.waiting = none) (hb : s.status.busy = false)
    (hi : s.inputs = .idle (.access h (.write .word s.params.blockBase w)) :: rest)
    (hl : legalCommand s.params.nHosts w = none) :
    step s = finish .illegal (State.accept { s with inputs := rest } w) := by
  have haccept : acceptCommand h w { s with inputs := rest } =
      .done (finish .illegal (State.accept { s with inputs := rest } w)) := by
    unfold acceptCommand
    rw [hl]
  have hfetch : fetch s = acceptCommand h w { s with inputs := rest } := by
    unfold fetch
    rw [hw, hi]
    unfold fetchEvent fetchAccess
    simp only [commandWrite_base, hasHost, hh, hb, decide_true, Bool.not_false, Bool.and_self]
  unfold step
  rw [hfetch, haccept]

/-! ### The state check -/

/-- The state check that a command's procedure begins with (44_dispatch_and_lock.md R274); INIT has none. -/
def checkOf : Instr → State → Bool
  | .mirrorInit _ | .feeInit _ => fun _ => true
  | .mirrorObjectInit _ => (·.initable .mirror)
  | .feeObjectInit _ => (·.initable .fee)
  | .mirrorStart _ | .mirrorStop _ | .mirrorAcquireBus _ | .mirrorReleaseBus _ => (·.started .mirror)
  | .feeStart _ | .feeStop _ | .feeAcquireBus _ | .feeReleaseBus _ => (·.started .fee)
  | .mirrorRead _ | .mirrorWrite _ | .mirrorErase _ | .mirrorMassErase _ => State.mirrorServes
  | .feeRead _ | .feeWrite _ | .feeErase _ | .feeMassErase _ => State.feeServes
  | .mirrorSync _ | .mirrorGetInfo _ => (·.isReady .mirror)
  | .feeSync _ | .feeGetInfo _ => (·.isReady .fee)

theorem started_iff : s.started u = true ↔ s.drv u = .stop ∨ s.drv u = .ready := by simp [State.started]

theorem isReady_iff : s.isReady u = true ↔ s.drv u = .ready := by simp [State.isReady]

theorem initable_iff : s.initable u = true ↔ (s.drv u = .uninit ∨ s.drv u = .stop) ∧ (s.lock u).count = 0 := by
  simp [State.initable]

theorem mirrorServes_iff :
    s.mirrorServes = true ↔ s.m.drv = .ready ∧ s.m.recover = false ∧ s.m.state = .synced := by
  simp [State.mirrorServes, and_assoc]

/-- The checks are those of the table. -/
theorem checkOf_iff : checkOf i s = true ↔ stateRequirement i s := by
  cases i
  case mirrorInit | feeInit => exact iff_of_true rfl trivial
  case mirrorObjectInit | feeObjectInit => exact initable_iff
  case mirrorRead | mirrorWrite | mirrorErase | mirrorMassErase => exact mirrorServes_iff
  case feeRead | feeWrite | feeErase | feeMassErase => exact feeServes_iff
  case mirrorSync | mirrorGetInfo | feeSync | feeGetInfo => exact isReady_iff
  all_goals exact started_iff

/-- A procedure whose state check fails raises ERR_STATE and does nothing. -/
theorem bodyOf_of_wrong_state (hc : checkOf i s = false) : bodyOf i s = .error (.raised .state) s := by
  have refused {c : State → Bool} {p : Proc Unit} (hc : c s = false) :
      (do checkState c; p : Proc Unit) s = .error (.raised .state) s := by
    rw [checked_apply, if_neg (by rw [hc]; decide)]
  cases i
  case mirrorInit | feeInit => cases hc
  all_goals exact refused hc

/-! ### Operands -/

/-- The size of a unit's logical space (60_exceptions.md R305). -/
def State.logicalSize (s : State) : UnitId → Nat
  | .mirror => s.m.size.toNat
  | .fee => s.f.logicalSize.toNat

/-- The range check of READ and WRITE, and with the first part alone of ERASE. -/
def State.inRange (s : State) (u : UnitId) : Bool := decide (s.opAddr + s.opLen ≤ s.logicalSize u)

section operands
variable (hs : s.serves u h)
include hs

theorem bodyOf_readOf_of_range (hr : (s.fitsBuf && s.inRange u) = false) :
    bodyOf (readOf u h) s = .error (.raised .range) s := by
  cases u
  · exact (checked_get_apply (mirrorServes_of_serves hs) _).trans (refused_apply _ hr _ s)
  · exact (checked_get_apply (feeServes_of_serves hs) _).trans (refused_apply _ hr _ s)

theorem bodyOf_writeOf_of_range (hr : (s.fitsBuf && s.inRange u) = false) :
    bodyOf (writeOf u h) s = .error (.raised .range) s := by
  cases u
  · exact (checked_get_apply (mirrorServes_of_serves hs) _).trans (refused_apply _ hr _ s)
  · exact (checked_get_apply (feeServes_of_serves hs) _).trans (refused_apply _ hr _ s)

theorem bodyOf_eraseOf_of_range (hr : s.inRange u = false) : bodyOf (eraseOf u h) s = .error (.raised .range) s := by
  cases u
  · exact (checked_get_apply (mirrorServes_of_serves hs) _).trans (refused_apply _ hr _ s)
  · exact (checked_get_apply (feeServes_of_serves hs) _).trans (refused_apply _ hr _ s)

end operands

theorem bodyOf_mirrorWrite_of_align (hs : s.serves .mirror h) (hr : (s.fitsBuf && s.mirrorInRange) = true)
    (ha : s.opAligned s.m.cache.writeAlign = false) : bodyOf (.mirrorWrite h) s = .error (.raised .align) s :=
  (checked_get_apply (mirrorServes_of_serves hs) _).trans
    ((required_apply _ hr _ s).trans (refused_apply _ ha _ s))

theorem bodyOf_mirrorErase_of_align (hs : s.serves .mirror h) (hr : s.mirrorInRange = true)
    (ha : s.opAligned s.m.cache.sectorSize = false) : bodyOf (.mirrorErase h) s = .error (.raised .align) s :=
  (checked_get_apply (mirrorServes_of_serves hs) _).trans
    ((required_apply _ hr _ s).trans (refused_apply _ ha _ s))

theorem opAligned_eq_false {k : Nat} (ha : s.opAddr % k ≠ 0 ∨ s.opLen % k ≠ 0) : s.opAligned k = false :=
  decide_eq_false (by tauto)

end Sys2Proof.Machine

namespace Sys2Proof.Proofs

/-- Settles O3: the word is no command of the block, so its acceptance is all that happens before completion. -/
theorem illegalWordChangesNothingElse : Obligations.IllegalWordChangesNothingElse := by
  unfold Obligations.IllegalWordChangesNothingElse
  intro s h w rest hh hw hb hi hq hword
  rw [step_of_illegal hh hw hb hi (legalCommand_eq_none hword)]
  exact finish_uneventful (s := State.accept { s with inputs := rest } w) hq .illegal

/-- Settles O13: the lock check comes before the command's procedure. -/
theorem lockedCommandIsRefused : Obligations.LockedCommandIsRefused := by
  unfold Obligations.LockedCommandIsRefused
  intro i s hcount howner hq
  have hlocked : s.lockedOut i.unit i.hid = true := by
    unfold State.lockedOut
    simp [howner, BitVec.lt_def, hcount]
  rw [exec_eq_runCommand, runCommand, if_pos hlocked]
  exact finish_uneventful hq .locked

/-- Settles O14: the state check, the nesting of Acquire and the count of Release each raise before any change. -/
theorem wrongStateIsRefused : Obligations.WrongStateIsRefused := by
  unfold Obligations.WrongStateIsRefused
  intro s hq
  refine ⟨fun i hs hr => ?_, fun u h hs hheld hmax => ?_, fun u h hs hfree => ?_⟩
  · have hc : checkOf i s = false := Bool.eq_false_iff.2 fun hc => hr (checkOf_iff.1 hc)
    exact exec_of_raised hs (by decide) (bodyOf_of_wrong_state hc) hq
  · rw [exec_acquireOf hs, acquire_apply, if_neg hheld, if_pos hmax]
    exact finish_uneventful hq .state
  · rw [exec_releaseOf hs, release_apply, if_pos hfree]
    exact finish_uneventful hq .state

/-- Settles O15: the range checks raise before any change. -/
theorem outOfRangeIsRefused : Obligations.OutOfRangeIsRefused := by
  unfold Obligations.OutOfRangeIsRefused
  intro u h s hs hq
  obtain ⟨hadmits, -⟩ := id hs
  have read (hr : (s.fitsBuf && s.inRange u) = false) : exec (readOf u h) s = .next (s.complete .range) := by
    have hbody := bodyOf_readOf_of_range hs hr
    cases u <;> exact exec_of_raised hadmits (by decide) hbody hq
  have write (hr : (s.fitsBuf && s.inRange u) = false) : exec (writeOf u h) s = .next (s.complete .range) := by
    have hbody := bodyOf_writeOf_of_range hs hr
    cases u <;> exact exec_of_raised hadmits (by decide) hbody hq
  have erase (hr : s.inRange u = false) : exec (eraseOf u h) s = .next (s.complete .range) := by
    have hbody := bodyOf_eraseOf_of_range hs hr
    cases u <;> exact exec_of_raised hadmits (by decide) hbody hq
  refine ⟨fun hlong => ?_, fun hlong => ?_⟩
  · have hr : s.inRange u = false := decide_eq_false (by cases u <;> exact Nat.not_le.2 hlong)
    have hboth : (s.fitsBuf && s.inRange u) = false := by rw [hr, Bool.and_false]
    exact ⟨read hboth, write hboth, erase hr⟩
  · have hboth : (s.fitsBuf && s.inRange u) = false := by
      have hfits : s.fitsBuf = false := decide_eq_false (Nat.not_le.2 hlong)
      rw [hfits, Bool.false_and]
    exact ⟨read hboth, write hboth⟩

end Sys2Proof.Proofs
end

