-- ==== Sys2Proof/Proofs/HostFaults.lean ====
section
/-! PROOF. Host accesses that the window does not take, BUF while a command runs, and the interrupt
(60_exceptions.md R311, R321). -/

open Sys2Proof Sys2Proof.Machine

namespace Sys2Proof.Machine

/-! ### Accesses that the window does not take -/

theorem AccSize.bytes_pos (z : AccSize) : 0 < z.bytes := by cases z <;> decide

section access
variable (running : Bool) (h : HostId) {s : State} {off : Nat} {a : Access} (ha : a.addr = s.params.blockBase + off)
include ha

/-- An access to a register that is no aligned word access is a bus error (10_state.md R21). -/
theorem hostAccess_misfit (hr : (regAt (off / 4 * 4)).isSome = true) (hmis : a.size ≠ .word ∨ off % 4 ≠ 0) :
    hostAccess running h a s = .error (.hostBusError h) := by
  obtain ⟨r, hreg⟩ := Option.isSome_iff_exists.1 hr
  obtain ⟨-, hlt⟩ := regAt_bounds hreg
  have touches : touchesReg off a.size.bytes = true :=
    List.any_eq_true.2 ⟨0, List.mem_range.2 a.size.bytes_pos, hr⟩
  unfold hostAccess
  rw [ha, windowOffset_base _ (by omega)]
  dsimp only
  rw [if_pos touches]
  split
  · next r' hz hr' => exact absurd (regAt_bounds hr').1 (hmis.resolve_left (not_not.2 hz))
  · rfl

/-- An access to BUF is taken where it is aligned and at most 32 bits wide, and else is a bus error. -/
theorem hostAccess_in_buf (hw : s.params.wf = true) (hlo : 0x1000 ≤ off) (hhi : off < 0x1000 + s.params.bufBytes) :
    hostAccess running h a s =
      if a.size.bytes ≤ 4 ∧ off % a.size.bytes = 0 then bufAccess running h (off - 0x1000) a s
      else .error (.hostBusError h) := by
  have hbytes : s.params.bufBytes ≤ 0xF000 := by
    simp only [Params.wf, decide_eq_true_eq] at hw
    omega
  have hpos := a.size.bytes_pos
  have inside : touchesBuf s.params off a.size.bytes = true := (touchesBuf_iff _ _ _).2 (by omega)
  unfold hostAccess
  rw [ha, windowOffset_base _ (by omega)]
  dsimp only
  rw [touchesReg_of_le hlo, if_neg (by decide), if_pos inside]
  rfl

end access

/-! ### The interrupt -/

/-- IRQ follows IE and DONE alone. -/
theorem irq_of_eq {s t : State} (hi : t.ie = s.ie) (hd : t.status.done = s.status.done) : t.irq = s.irq := by
  unfold State.irq
  rw [hi, hd]

end Sys2Proof.Machine

namespace Sys2Proof.Proofs

/-- Settles O56: where an access goes by its offset, and the frame of every access. -/
theorem hostViolationsAreFaults : Obligations.HostViolationsAreFaults := by
  unfold Obligations.HostViolationsAreFaults
  intro s h a off running hw ha
  refine ⟨hostAccess_misfit running h ha, fun hlo hhi => ⟨fun hmis => ?_, fun hz hal => ⟨fun v hv => ?_, fun hv => ?_⟩⟩,
    fun t ht => ?_⟩
  · rw [hostAccess_in_buf running h ha hw hlo hhi, if_neg (by omega)]
  · rw [hostAccess_in_buf true h ha hw hlo hhi, if_pos ⟨hz, hal⟩, hv]
    rfl
  · rw [hostAccess_in_buf true h ha hw hlo hhi, if_pos ⟨hz, hal⟩, hv]
    rfl
  · obtain ⟨heq, -, -⟩ := hostAccess_frame ht
    rw [heq]
    exact ⟨rfl, rfl⟩

/-- Settles O58: each of the six changes sets IE or DONE as it says, or neither. -/
theorem irqFollowsDone : Obligations.IrqFollowsDone := by
  unfold Obligations.IrqFollowsDone
  intro s e w v
  refine ⟨rfl, Bool.and_true _, Bool.and_false _, ?_, rfl, irq_of_eq rfl rfl⟩
  exact (Bool.and_assoc ..).symm

end Sys2Proof.Proofs
end

