-- ==== Sys2Proof/Proofs/Instants.lean ====
section
/-! PROOF. Host reads inside a command: each sees the registers of its instant, before, between or after the command's
register changes (20_memory.md R76, 60_exceptions.md R318). -/

open Sys2Proof Sys2Proof.Machine

namespace Sys2Proof.Machine

variable {s : State} {g : HostId} {rest : List Input}

/-- A host's word read of the register at an offset, inside a command. -/
def Input.look (p : Params) (g : HostId) (off : Nat) : Input := .busy (.access g (.read .word (p.blockBase + off)))

/-- A host has read a register: the schedule goes on and the reply holds the register's value. -/
def State.looked (s : State) (r : Reg) (rest : List Input) : State :=
  { s with inputs := rest, replies := s.readReg r :: s.replies }

/-- A read scheduled at a point happens there, and the point goes on. -/
theorem point_look {off : Nat} {r : Reg} (hg : g.toNat < s.params.nHosts) (hr : regAt off = some r)
    (hi : s.inputs = .look s.params g off :: rest) (op : Option (UnitId × PendOp)) :
    point op s = point op (s.looked r rest) := by
  have hevent : s.hostEvent true g (.read .word (s.params.blockBase + off)) =
      .ok { s with replies := s.readReg r :: s.replies } :=
    (hostEvent_of_host hg true _).trans (hostAccess_read_reg true g hr rfl)
  calc point op s = takeEvents op (.look s.params g off :: rest) s := congrArg (takeEvents op · s) hi
    _ = takeEvents op rest { s with replies := s.readReg r :: s.replies } := by
        unfold Input.look
        rw [takeEvents.eq_def]
        simp only [hevent]
    _ = point op (s.looked r rest) := (takeEvents_inputs op rest rest _).symm

theorem point_regStep (hi : s.inputs = .regStep :: rest) (op : Option (UnitId × PendOp)) : point op s = .ok () s :=
  point_of_no_event op fun e r he => by rw [hi] at he; cases he

/-- A marked register change uses up its mark. -/
theorem change_regStep (hi : s.inputs = .regStep :: rest) (f : State → State) :
    change f s = .ok () (f { s with inputs := rest }) := by
  rw [change_apply, point_regStep hi]
  simp only [State.dropRegStep, hi]

/-- A read right before a register change sees the registers before it. -/
theorem change_look {off : Nat} {r : Reg} (hg : g.toNat < s.params.nHosts) (hr : regAt off = some r)
    (hi : s.inputs = .look s.params g off :: rest) (f : State → State) :
    change f s = change f (s.looked r rest) := by
  rw [change_apply, change_apply, point_look hg hr hi]

/-- A read right before completion sees the register as the command leaves it. -/
theorem finish_look {off : Nat} {r : Reg} (hg : g.toNat < s.params.nHosts) (hr : regAt off = some r)
    (hi : s.inputs = .look s.params g off :: rest) (hq : State.uneventful { s with inputs := rest } = true)
    (e : ErrCode) : finish e s = .next ((s.looked r rest).complete e) := by
  have hpoint := point_look hg hr hi none
  unfold finish
  rw [hpoint]
  exact finish_uneventful (s := s.looked r rest) hq e

/-- The register that holds a unit's DRV. -/
def drvReg : UnitId → Reg
  | .mirror => .mDrv
  | .fee => .fDrv

/-- The register that holds a unit's lock. -/
def lockReg : UnitId → Reg
  | .mirror => .mLock
  | .fee => .fLock

/-- The offset of a unit's DRV (10_state.md R22). -/
def drvOffset : UnitId → Nat
  | .mirror => 0x040
  | .fee => 0x080

/-- The offset of a unit's lock (10_state.md R22). -/
def lockOffset : UnitId → Nat
  | .mirror => 0x060
  | .fee => 0x0A0

theorem regAt_drvOffset (u : UnitId) : regAt (drvOffset u) = some (drvReg u) := by cases u <;> rfl

theorem regAt_lockOffset (u : UnitId) : regAt (lockOffset u) = some (lockReg u) := by cases u <;> rfl

/-- A command whose one register change is watched from both sides. -/
theorem conclude_change_looked {u : UnitId} {off : Nat} {r : Reg} {f : State → State} (hg : g.toNat < s.params.nHosts)
    (hr : regAt off = some r)
    (hi : s.inputs = .look s.params g off :: .regStep :: .look s.params g off :: rest)
    (hinputs : ∀ t, (f t).inputs = t.inputs) (hparams : ∀ t, (f t).params = t.params)
    (hq : State.uneventful { s with inputs := rest } = true) :
    conclude u false (change f s) =
      .next (((f (s.looked r (.look s.params g off :: rest))).looked r rest).complete .ok) := by
  rw [change_look hg hr hi, change_regStep (s := s.looked r (.regStep :: .look s.params g off :: rest)) rfl]
  show finish .ok (f (s.looked r (.look s.params g off :: rest))) = _
  have hi' := hinputs (s.looked r (.look s.params g off :: rest))
  have hp := hparams (s.looked r (.look s.params g off :: rest))
  generalize f (s.looked r (.look s.params g off :: rest)) = t at hi' hp ⊢
  have hlook : t.inputs = .look t.params g off :: rest := by rw [hi', hp]; rfl
  exact finish_look (by rw [hp]; exact hg) hr hlook (uneventful_of_eq hq rfl) .ok

/-- A STOP that the lock and DRV let run sets DRV. -/
theorem exec_stopOf_of_startable {u : UnitId} {h : HostId} (hs : s.startable u h) :
    exec (stopOf u h) s = conclude u false (changeDrv u .stop s) := by
  have hexec : exec (stopOf u h) s = runCommand u h false (do checkState (·.started u); changeDrv u .stop) s := by
    cases u <;> rfl
  rw [hexec, runCommand, if_neg (by rw [hs.1]; decide), checked_apply, if_pos (started_of_startable hs)]

/-- M_STATE is read new and M_STATE_ADDR old between their changes. -/
theorem setMirrorState_looked (hg : g.toNat < s.params.nHosts) (hq : State.uneventful { s with inputs := rest } = true)
    (hi : s.inputs = .regStep :: .look s.params g 0x044 :: .look s.params g 0x048 :: rest) (x : MirrorState) (off : Nat) :
    setMirrorState x off s = .ok () { s with
      m := { s.m with state := x, stateAddr := BitVec.ofNat 32 off }
      inputs := rest, replies := s.m.stateAddr :: BitVec.ofNat 32 x.code :: s.replies } := by
  let marked : State := { s with
    m := { s.m with state := x }, inputs := .look s.params g 0x044 :: .look s.params g 0x048 :: rest }
  let once := marked.looked .mState (.look s.params g 0x048 :: rest)
  let twice := once.looked .mStateAddr rest
  have hlook (f : State → State) : change f marked = .ok () (f twice) :=
    calc change f marked = change f once := change_look (s := marked) (off := 0x044) hg rfl rfl f
      _ = change f twice := change_look (s := once) (off := 0x048) hg rfl rfl f
      _ = .ok () (f twice) := change_uneventful (s := twice) hq f
  exact (Proc.bind_ok (change_regStep hi _) _).trans (Proc.bind_ok (hlook _) _)

end Sys2Proof.Machine

namespace Sys2Proof.Proofs

/-- Settles O60: a read at a point replies with the register's value, and points stand between all register changes. -/
theorem busyReadsSeeTheInstant : Obligations.BusyReadsSeeTheInstant := by
  unfold Obligations.BusyReadsSeeTheInstant
  intro s g rest hg
  refine ⟨fun op off r hr hi => point_look hg hr hi op, fun f hi => change_regStep hi f,
    fun hq u h hs => ⟨fun hi => ?_, fun hi hheld hmax => ?_⟩, fun hq x off hi => ?_⟩
  · have hlooks : s.inputs = .look s.params g (drvOffset u) :: .regStep :: .look s.params g (drvOffset u) :: rest := by
      cases u <;> exact hi
    have hchange := conclude_change_looked (u := u) (f := (·.setDrv u .stop)) hg (regAt_drvOffset u) hlooks
      (fun _ => State.inputs_setDrv ..) (fun _ => State.params_setDrv ..) hq
    refine (exec_stopOf_of_startable hs).trans (hchange.trans ?_)
    cases u <;> rfl
  · have hlooks : s.inputs = .look s.params g (lockOffset u) :: .regStep :: .look s.params g (lockOffset u) :: rest := by
      cases u <;> exact hi
    have hchange := conclude_change_looked (u := u)
      (f := fun t => t.setLock u { t.lock u with count := (t.lock u).count + 1 }) hg (regAt_lockOffset u) hlooks
      (fun _ => State.inputs_setLock ..) (fun _ => State.params_setLock ..) hq
    rw [exec_acquireOf hs, acquire_apply, if_neg hheld, if_neg hmax, hchange]
    cases u <;> rfl
  · exact setMirrorState_looked hg hq hi x off

end Sys2Proof.Proofs
end

