-- ==== Sys2Proof/Proofs/Traces.lean ====
section
/-! PROOF. What a procedure has done when it ends early: which errors it raises, that a power loss takes it where it
strikes, and that nothing the loss would show comes before the procedure's first point (60_exceptions.md R300, R312). -/

open Sys2Proof Sys2Proof.Machine

namespace Sys2Proof.Machine

variable {α β : Type} {E : Set ErrCode} {r s t : State} {u : UnitId}

/-! ### What outlasts a command -/

/-- What neither a host nor a command changes: the parameters, the devices' reports, and the model's own count of resets,
rule of answers and list of forgers. -/
def State.lasting (s : State) : Params × DevInfo × DevInfo × Nat × Tail × List HostId :=
  (s.params, s.devM.info, s.devF.info, s.bufEpoch, s.tail, s.forgers)

/-- A power loss strikes at the next point. -/
def State.Struck (s : State) : Prop := ∃ c rest, s.inputs = .busy (.powerLoss c) :: rest

/-- `s` comes after `r` with no power loss between them; where one strikes next at `r`, it strikes next at `s`, and leaves
the same. -/
structure State.Lives (r s : State) : Prop where
  lasting : s.lasting = r.lasting
  struck : r.Struck → ∀ c, s.powerLoss c = r.powerLoss c

/-- `t` is what a power loss leaves at a point after `r`. -/
def State.Lost (r t : State) : Prop :=
  ∃ x op c rest, r.Lives x ∧ x.inputs = .busy (.powerLoss c) :: rest ∧ t = State.cutPower { x with inputs := rest } op c

theorem State.Lives.refl (s : State) : s.Lives s := ⟨rfl, fun _ _ => rfl⟩

/-- After a first point nothing has to stay but what outlasts a command. -/
theorem State.Lives.of_not_struck (hr : ¬r.Struck) (h : s.lasting = r.lasting) : r.Lives s := ⟨h, fun k => absurd k hr⟩

theorem State.Lives.inputs (h : r.Lives s) (hr : r.Struck) : s.inputs = r.inputs := by
  obtain ⟨c, -⟩ := id hr
  have hp := congrArg State.inputs (h.struck hr c)
  exact hp

/-- A change that a power loss would not show. -/
theorem State.Lives.hidden (h : r.Lives s) (hl : t.lasting = s.lasting) (hp : ∀ c, t.powerLoss c = s.powerLoss c) :
    r.Lives t := ⟨hl.trans h.lasting, fun hr c => (hp c).trans (h.struck hr c)⟩

theorem lasting_dropRegStep (s : State) : s.dropRegStep.lasting = s.lasting := by rw [s.dropRegStep_frame]; rfl

theorem lasting_setDev {d : Device} (h : d.info = (s.dev u).info) : (s.setDev u d).lasting = s.lasting := by
  cases u with
  | mirror => exact congrArg (fun i => (s.params, i, s.devF.info, s.bufEpoch, s.tail, s.forgers)) h
  | fee => exact congrArg (fun i => (s.params, s.devM.info, i, s.bufEpoch, s.tail, s.forgers)) h

theorem lasting_setDrv (s : State) (u : UnitId) (d : DrvState) : (s.setDrv u d).lasting = s.lasting := by cases u <;> rfl

theorem lasting_setLock (s : State) (u : UnitId) (l : Lock) : (s.setLock u l).lasting = s.lasting := by cases u <;> rfl

theorem lasting_hostEvent {running : Bool} {h : HostId} {a : Access} (ht : s.hostEvent running h a = .ok t) :
    t.lasting = s.lasting := by
  obtain ⟨heq, -, -⟩ := hostEvent_frame ht
  rw [heq]
  rfl

/-! ### The logic -/

/-- An early end of a procedure that began after `r`: it raises an error of `E` or the device's, a power loss takes it, a
command waits, or there is a fault. The device answers only after a first point. -/
def Stopped (E : Set ErrCode) (r : State) : Stop → State → Prop
  | .raised c, t => r.Lives t ∧ (c ∈ E ∨ (c = .dev ∧ ¬r.Struck))
  | .powerLost, t => r.Lost t
  | .waiting, _ => ¬r.Struck
  | .fault _, _ => True

/-- The procedure does nothing that a power loss would show before its first point, and ends early only so. -/
structure Traced (E : Set ErrCode) (p : Proc α) : Prop where
  ends {r s : State} (h : r.Lives s) : Ends (fun _ t => r.Lives t) (Stopped E r) (p s)

/-- As `Traced`, for a procedure that runs after a first point. -/
structure AfterPoint (E : Set ErrCode) (p : Proc α) : Prop where
  ends {r s : State} (hr : ¬r.Struck) (h : s.lasting = r.lasting) : Ends (fun _ t => r.Lives t) (Stopped E r) (p s)

section logic
variable {p q : Proc α} {f : α → Proc β}

theorem Traced.afterPoint (h : Traced E p) : AfterPoint E p := ⟨fun hr hl => h.ends (.of_not_struck hr hl)⟩

theorem Traced.bind (hp : Traced E p) (hf : ∀ a, Traced E (f a)) : Traced E (p >>= f) :=
  ⟨fun h => (hp.ends h).bind fun a _ k => (hf a).ends k⟩

theorem AfterPoint.bind (hp : AfterPoint E p) (hf : ∀ a, AfterPoint E (f a)) : AfterPoint E (p >>= f) :=
  ⟨fun hr h => (hp.ends hr h).bind fun a _ k => (hf a).ends hr k.lasting⟩

/-- A procedure that first reads the state. -/
theorem traced_read {f : State → Proc α} (h : ∀ s, Traced E (f s)) : Traced E (get >>= f) :=
  ⟨fun {_ s} k => (h s).ends k⟩

theorem afterPoint_read {f : State → Proc α} (h : ∀ s, AfterPoint E (f s)) : AfterPoint E (get >>= f) :=
  ⟨fun {_ s} hr k => (h s).ends hr k⟩

theorem traced_pure (a : α) : Traced E (pure a : Proc α) := ⟨fun h => h⟩

theorem traced_ite {c : Prop} [Decidable c] (hp : Traced E p) (hq : Traced E q) : Traced E (if c then p else q) := by
  split
  · exact hp
  · exact hq

theorem afterPoint_ite {c : Prop} [Decidable c] (hp : AfterPoint E p) (hq : AfterPoint E q) :
    AfterPoint E (if c then p else q) := by
  split
  · exact hp
  · exact hq

theorem traced_raise {c : ErrCode} (hc : c ∈ E) : Traced E (raise c : Proc α) := ⟨fun h => ⟨h, .inl hc⟩⟩

theorem traced_fault (f : Fault) : Traced E (throw (.fault f) : Proc α) := ⟨fun _ => trivial⟩

theorem traced_require {c : ErrCode} (hc : c ∈ E) (b : Bool) : Traced E (require c b) :=
  traced_ite (traced_pure ()) (traced_raise hc)

theorem traced_contract (f : Fault) (b : Bool) : Traced E (contract f b) :=
  traced_ite (traced_pure ()) (traced_fault f)

theorem traced_checked (hE : .state ∈ E) {c : State → Bool} (hp : Traced E p) : Traced E (do checkState c; p) :=
  Traced.bind (traced_read fun _ => traced_require hE _) fun _ => hp

/-- A change that a power loss would not show may come before the first point. -/
theorem traced_modify {g : State → State} (hl : ∀ s, (g s).lasting = s.lasting)
    (hp : ∀ s c, (g s).powerLoss c = s.powerLoss c) : Traced E (modify g : Proc PUnit) :=
  ⟨fun {_ s} h => h.hidden (hl s) (hp s)⟩

theorem afterPoint_modify {g : State → State} (hl : ∀ s, (g s).lasting = s.lasting) :
    AfterPoint E (modify g : Proc PUnit) := ⟨fun {_ s} hr h => .of_not_struck hr ((hl s).trans h)⟩

theorem afterPoint_deviceError : AfterPoint E (raise .dev : Proc α) :=
  ⟨fun hr h => ⟨.of_not_struck hr h, .inr ⟨rfl, hr⟩⟩⟩

theorem afterPoint_wait : AfterPoint E (throw .waiting : Proc α) := ⟨fun hr _ => hr⟩

end logic

/-! ### The points -/

/-- At a point the power loss that strikes takes the procedure; where it goes on, none struck. -/
theorem takeEvents_traced (op : Option (UnitId × PendOp)) (l : List Input) {s : State}
    (h : r.Lives { s with inputs := l }) :
    Ends (fun _ t => ¬r.Struck ∧ t.lasting = r.lasting) (Stopped E r) (takeEvents op l s) := by
  have unstruck {x : Input} {rest : List Input} {s : State} (h : r.Lives { s with inputs := x :: rest })
      (hx : ∀ c, x ≠ .busy (.powerLoss c)) : ¬r.Struck := fun hr => by
    have hi := h.inputs hr
    obtain ⟨c, l, hl⟩ := hr
    rw [hl] at hi
    exact hx c (List.cons.inj hi).1
  induction l generalizing s with
  | nil =>
    rw [takeEvents.eq_def]
    refine ⟨fun hr => ?_, h.lasting⟩
    have hi := h.inputs hr
    obtain ⟨c, l, hl⟩ := hr
    rw [hl] at hi
    cases hi
  | cons x rest ih =>
    rw [takeEvents.eq_def]
    cases x with
    | idle e => exact ⟨unstruck h nofun, h.lasting⟩
    | dev d => exact ⟨unstruck h nofun, h.lasting⟩
    | regStep => exact ⟨unstruck h nofun, h.lasting⟩
    | busy e =>
      cases e with
      | access g a =>
        dsimp only
        cases he : s.hostEvent true g a with
        | error f => exact trivial
        | ok s' => exact ih (.of_not_struck (unstruck h nofun) ((lasting_hostEvent he).trans h.lasting))
      | powerLoss c =>
        dsimp only
        split
        · exact trivial
        · exact ⟨_, op, c, rest, h, rfl, rfl⟩

theorem Traced.point (op : Option (UnitId × PendOp)) {f : Unit → Proc α} (hf : ∀ a, AfterPoint E (f a)) :
    Traced E (point op >>= f) :=
  ⟨fun {_ s} h => (takeEvents_traced op s.inputs h).bind fun a _ ⟨hr, hl⟩ => (hf a).ends hr hl⟩

theorem traced_point (op : Option (UnitId × PendOp)) : Traced E (point op) :=
  ⟨fun {_ s} h => (takeEvents_traced op s.inputs h).mono (fun _ _ ⟨hr, hl⟩ => .of_not_struck hr hl) fun _ _ k => k⟩

theorem afterPoint_answer : AfterPoint E answer := ⟨fun {_ s} hr h => by
  obtain ⟨d, l, n, ha⟩ := answer_cases s
  rw [ha]
  exact .of_not_struck hr h⟩

theorem traced_change {g : State → State} (hl : ∀ s, (g s).lasting = s.lasting) : Traced E (change g) :=
  .point none fun _ => afterPoint_modify fun s => (hl _).trans (lasting_dropRegStep s)

theorem traced_mirrorRegs (gs : List (MirrorUnit → MirrorUnit)) : Traced E (mirrorRegs gs) := by
  induction gs with
  | nil => exact traced_pure ()
  | cons g gs ih => exact Traced.bind (traced_change fun _ => rfl) fun _ => ih

theorem traced_feeRegs (gs : List (FeeUnit → FeeUnit)) : Traced E (feeRegs gs) := by
  induction gs with
  | nil => exact traced_pure ()
  | cons g gs ih => exact Traced.bind (traced_change fun _ => rfl) fun _ => ih

theorem traced_infoRegs (gs : List (InfoRegs → InfoRegs)) : Traced E (infoRegs gs) := by
  induction gs with
  | nil => exact traced_pure ()
  | cons g gs ih => exact Traced.bind (traced_change fun _ => rfl) fun _ => ih

theorem traced_changeDrv (u : UnitId) (d : DrvState) : Traced E (changeDrv u d) :=
  traced_change fun s => lasting_setDrv s u d

/-! ### The device primitives and BUF -/

theorem afterPoint_performOp (op : PendOp) (d : Draw) : AfterPoint E (performOp u op d) := by
  cases d with
  | ok => exact afterPoint_modify (g := fun s => s.setDev u ((s.dev u).perform op)) fun _ => lasting_setDev rfl
  | fail torn =>
    exact AfterPoint.bind (p := modify fun s => s.setDev u ((s.dev u).performFailed (s.tearRule u) torn op))
      (afterPoint_modify fun s => lasting_setDev (d := (s.dev u).performFailed (s.tearRule u) torn op) rfl)
      fun _ => afterPoint_deviceError

theorem afterPoint_overwriteOp (op : PendOp) (d : Draw) : AfterPoint E (overwriteOp u op d) := by
  rw [overwriteOp_eq]
  have hfree : AfterPoint E (failFree u op) :=
    afterPoint_read fun s =>
      AfterPoint.bind (p := modify fun s => { s with draws := s.draws + 1 }) (afterPoint_modify fun _ => rfl) fun _ =>
        afterPoint_performOp op (.fail (.free s.draws))
  exact afterPoint_read fun _ => afterPoint_ite (traced_fault _).afterPoint (afterPoint_ite (afterPoint_performOp ..)
    (afterPoint_ite hfree (afterPoint_performOp ..)))

theorem traced_devRead (a n : Nat) : Traced E (devRead u a n) :=
  traced_read fun _ => (traced_contract ..).bind fun _ => .point none fun _ => afterPoint_answer.bind fun
    | .ok => afterPoint_read fun _ => (traced_pure _).afterPoint
    | .fail _ => afterPoint_deviceError

theorem traced_devWrite (a : Nat) (data : List Byte) : Traced E (devWrite u a data) :=
  traced_read fun _ => (traced_contract ..).bind fun _ => .point _ fun _ => afterPoint_answer.bind fun _ =>
    afterPoint_read fun _ => afterPoint_ite (afterPoint_overwriteOp ..) (afterPoint_performOp ..)

theorem traced_devErase (a n : Nat) : Traced E (devErase u a n) :=
  traced_read fun _ => (traced_contract ..).bind fun _ => .point _ fun _ => afterPoint_answer.bind fun _ =>
    afterPoint_performOp ..

theorem traced_devSync : Traced E (devSync u) :=
  .point none fun _ => afterPoint_answer.bind fun
    | .ok => afterPoint_modify fun _ => lasting_setDev rfl
    | .fail _ => afterPoint_deviceError

theorem traced_devGetInfo : Traced E (devGetInfo u) := traced_read fun _ => traced_pure _

theorem traced_writeMarkWord (a v : Nat) : Traced E (writeMarkWord u a v) :=
  traced_read fun _ => (traced_devWrite ..).bind fun _ => traced_devSync

theorem traced_bufLoad (n : Nat) : Traced E (bufLoad n) :=
  traced_read fun _ => (traced_contract ..).bind fun _ => traced_pure _

/-- A power loss takes BUF away, whatever it holds (10_state.md R30). -/
theorem traced_bufStore (bs : List Byte) : Traced E (bufStore bs) :=
  traced_read fun _ => (traced_contract ..).bind fun _ => traced_modify (fun _ => rfl) fun _ _ => rfl

theorem traced_reportInfo (ss sn wa : Word) (ident : List Byte) : Traced E (reportInfo ss sn wa ident) :=
  (traced_infoRegs _).bind fun _ => (traced_bufStore ident).bind fun _ => traced_infoRegs _

/-- Only the device's error scrambles BUF, and it comes after a point. -/
theorem traced_guardRead {p : Proc Unit} (n : Nat) (hp : Traced ∅ p) : Traced E (guardRead n p) :=
  ⟨fun {r s} h => by
    have hends := hp.ends h
    unfold guardRead
    split
    · next t ht =>
      rw [ht] at hends
      obtain ⟨hlives, hc | hc⟩ := hends
      · cases hc
      · exact ⟨.of_not_struck hc.2 hlives.lasting, .inr hc⟩
    · refine hends.mono (fun _ _ k => k) fun e t k => ?_
      cases e with
      | raised c => exact ⟨k.1, .inr (k.2.resolve_left id)⟩
      | _ => exact k⟩

/-! ### The bus lock -/

theorem traced_acquireFresh (h : HostId) : Traced E (acquireFresh u h) :=
  .point none fun _ => afterPoint_answer.bind fun
    | .ok => (traced_change fun _ => by cases u <;> rfl).afterPoint
    | .fail _ => AfterPoint.bind (afterPoint_modify fun _ => rfl) fun _ => afterPoint_wait

theorem traced_acquire (hE : .state ∈ E) (h : HostId) : Traced E (acquire u h) :=
  traced_read fun _ => traced_ite (traced_acquireFresh h) (traced_ite (traced_raise hE)
    (traced_change fun s => lasting_setLock s u _))

theorem traced_release (hE : .state ∈ E) : Traced E (release u) :=
  traced_read fun _ => traced_ite (traced_raise hE) (traced_ite
    (traced_change fun s => (lasting_setDev (by simp)).trans (lasting_setLock s u _))
    (traced_change fun s => lasting_setLock s u _))

/-! ### The FEE engine -/

theorem traced_headerState (a : Arena) : Traced E (headerState a) :=
  traced_read fun _ => (traced_devRead ..).bind fun _ => (traced_devRead ..).bind fun _ =>
    (traced_devRead ..).bind fun _ => traced_pure _

theorem traced_headerInit (a : Arena) : Traced E (headerInit a) :=
  traced_read fun _ => (traced_devWrite ..).bind fun _ => traced_devSync

theorem traced_markArenaActive (a : Arena) : Traced E (markArenaActive a) :=
  traced_read fun _ => (traced_writeMarkWord ..).bind fun _ => traced_feeRegs _

theorem traced_markArenaFrozen (a : Arena) : Traced E (markArenaFrozen a) :=
  traced_read fun _ => (traced_writeMarkWord ..).bind fun _ => traced_feeRegs _

theorem traced_arenaReinit (a : Arena) : Traced E (arenaReinit a) := by
  have hbody (base eh ab : Nat) : Traced E (eraseBody base eh ab) :=
    traced_ite ((traced_devErase ..).bind fun _ => traced_devSync) (traced_pure ())
  exact traced_read fun _ => (traced_devErase ..).bind fun _ => traced_devSync.bind fun _ => (hbody ..).bind fun _ =>
    (traced_headerInit a).bind fun _ => traced_feeRegs _

theorem traced_format : Traced E format :=
  (traced_arenaReinit .a0).bind fun _ => (traced_arenaReinit .a1).bind fun _ =>
    (traced_markArenaActive .a0).bind fun _ => (traced_feeRegs _).bind fun _ => traced_feeRegs _

theorem traced_slotMark (a : Arena) (i : Nat) : Traced E (slotMark a i) :=
  traced_read fun _ => (traced_devRead ..).bind fun _ => (traced_devRead ..).bind fun _ => traced_pure _

theorem traced_slotKey (a : Arena) (i : Nat) : Traced E (slotKey a i) :=
  traced_read fun _ => (traced_devRead ..).bind fun _ => traced_pure _

theorem traced_slotPayload (a : Arena) (i : Nat) : Traced E (slotPayload a i) := traced_read fun _ => traced_devRead ..

theorem traced_arenaLoad (a : Arena) : Traced E (arenaLoad a) := by
  have hcount (c n i : Nat) : Traced E (countUsed a c n i) := by
    induction n generalizing c i with
    | zero => exact traced_pure c
    | succ n ih => exact (traced_slotMark a i).bind fun x => by cases x <;> exact ih ..
  exact traced_read fun _ => (hcount ..).bind fun _ => traced_feeRegs _

theorem traced_lookup (a : Arena) (key : Nat) : Traced E (lookup a key) := by
  have hmatch (i : Nat) : Traced E (slotMatches a key i) := (traced_slotMark a i).bind fun
    | .valid => (traced_slotKey a i).bind fun _ => traced_pure _
    | .unused => traced_pure _
    | .dirty => traced_pure _
    | .unknown => traced_pure _
  have hfrom (x : Option Nat) (n i : Nat) : Traced E (lookupFrom a key x n i) := by
    induction n generalizing x i with
    | zero => exact traced_pure x
    | succ n ih => exact (hmatch i).bind fun _ => traced_ite (ih ..) (ih ..)
  exact traced_read fun _ => hfrom ..

theorem traced_append (key : Nat) (bs : List Byte) : Traced E (append key bs) :=
  traced_read fun _ => (traced_writeMarkWord ..).bind fun _ => (traced_devWrite ..).bind fun _ =>
    traced_devSync.bind fun _ => (traced_writeMarkWord ..).bind fun _ => traced_feeRegs _

theorem traced_prepareDst (a : Arena) : Traced E (prepareDst a) := by
  have hblank : Traced E (blankArena a) := traced_read fun _ => (traced_devRead ..).bind fun _ => traced_pure _
  exact hblank.bind fun _ => traced_ite
    (traced_read fun _ => (traced_devRead ..).bind fun _ => traced_ite (traced_headerInit a) (traced_pure ()))
    (traced_arenaReinit a)

theorem traced_copyLive (src dst : Arena) (o : Option Nat) (j : Nat) (ks : List Nat) :
    Traced E (copyLive src dst o j ks) := by
  induction ks generalizing j with
  | nil => exact traced_pure j
  | cons k ks ih =>
    refine traced_ite (ih j) ((traced_lookup src k).bind fun x => ?_)
    cases x with
    | none => exact ih j
    | some x =>
      have hrecord : Traced E (slotRecord src x) := traced_read fun _ => traced_devRead ..
      exact hrecord.bind fun _ => traced_read fun _ => (traced_devWrite ..).bind fun _ => ih (j + 1)

theorem traced_gc (o : Option Nat) : Traced E (gc o) :=
  traced_read fun _ => (traced_markArenaFrozen _).bind fun _ => (traced_prepareDst _).bind fun _ =>
    traced_read fun _ => (traced_copyLive ..).bind fun _ => traced_devSync.bind fun _ =>
      (traced_markArenaActive _).bind fun _ => (traced_arenaReinit _).bind fun _ => (traced_feeRegs _).bind fun _ =>
        (traced_feeRegs _).bind fun _ => traced_feeRegs _

theorem traced_writeSpan (sa lo : Nat) (bs : List Byte) : Traced E (writeSpan sa lo bs) := by
  have hpayload : Traced E (chunkPayload sa) := traced_read fun _ => (traced_lookup ..).bind fun
    | some _ => traced_slotPayload ..
    | none => traced_read fun _ => traced_pure _
  have hroom : Traced E (makeRoom sa) := traced_read fun _ => traced_ite (traced_gc _) (traced_pure ())
  exact hpayload.bind fun _ => traced_ite (traced_pure ()) (hroom.bind fun _ => traced_append sa _)

theorem traced_writeRange (addr : Nat) (bs : List Byte) : Traced E (writeRange addr bs) := by
  have hchunks (n x : Nat) (bs : List Byte) : Traced E (writeChunks n x bs) := by
    induction n generalizing x bs with
    | zero => exact traced_pure ()
    | succ n ih =>
      exact traced_ite (traced_pure ()) (traced_read fun _ => (traced_writeSpan ..).bind fun _ => ih ..)
  exact hchunks ..

theorem traced_readRange (addr n : Nat) : Traced E (readRange addr n) := by
  have hslot (a : Arena) (i : Nat) (out : List Byte) : Traced E (readSlot a addr i out) :=
    (traced_slotMark a i).bind fun
      | .valid => (traced_slotKey a i).bind fun _ => traced_read fun _ =>
          traced_ite ((traced_slotPayload a i).bind fun _ => traced_pure _) (traced_pure _)
      | .unused => traced_pure _
      | .dirty => traced_pure _
      | .unknown => traced_pure _
  have hslots (a : Arena) (n i : Nat) (out : List Byte) : Traced E (readSlots a addr n i out) := by
    induction n generalizing i out with
    | zero => exact traced_pure out
    | succ n ih => exact (hslot a i out).bind fun _ => ih ..
  exact traced_read fun _ => hslots ..

theorem traced_startCases : Traced E startCases := by
  have hadopt (a : Arena) : Traced E (adoptArena a) := (traced_feeRegs _).bind fun _ => traced_arenaLoad a
  refine (traced_headerState .a0).bind fun s0 => (traced_headerState .a1).bind fun s1 =>
    (traced_feeRegs _).bind fun _ => (traced_feeRegs _).bind fun _ => ?_
  cases startCase s0 s1 with
  | adopt a => exact hadopt a
  | resume a => exact (traced_arenaReinit a.other).bind fun _ => (hadopt a).bind fun _ => traced_gc none
  | cold => exact traced_format

/-! ### The Mirror engine -/

theorem traced_eraseHeader : Traced E eraseHeader :=
  traced_read fun _ => (traced_devErase ..).bind fun _ => traced_devSync

theorem traced_writeLogEntry (off : Nat) (x : LogMark) : Traced E (writeLogEntry off x) :=
  traced_read fun _ => (traced_writeMarkWord ..).bind fun _ => traced_mirrorRegs _

theorem traced_markReset (x : LogMark) : Traced E (markReset x) :=
  traced_eraseHeader.bind fun _ => traced_writeLogEntry 0 x

theorem traced_markAppend (x : LogMark) : Traced E (markAppend x) :=
  traced_read fun _ => traced_ite (traced_markReset x) (traced_writeLogEntry ..)

theorem traced_scan : Traced E scan := by
  have hentry (k : Nat) : Traced E (readLogEntry k) := traced_read fun _ => traced_devRead ..
  have htail (x : MirrorState × Nat) (n k : Nat) : Traced E (scanTail x n k) := by
    induction n generalizing k with
    | zero => exact traced_pure x
    | succ n ih => exact (hentry k).bind fun _ => traced_read fun _ => traced_ite (ih _) (traced_pure _)
  have hfrom (x : MirrorState × Nat) (n k : Nat) : Traced E (scanFrom x n k) := by
    induction n generalizing x k with
    | zero => exact traced_pure x
    | succ n ih =>
      refine (hentry k).bind fun bs => traced_read fun s => ?_
      dsimp only
      cases LogMark.decode s.params.widthM bs with
      | none => exact traced_pure _
      | some y =>
        cases y with
        | unused => exact htail ..
        | dirtyA => exact ih ..
        | dirtyB => exact ih ..
        | synced => exact ih ..
  exact traced_read fun _ => hfrom ..

theorem traced_copyMirror (src dst : Nat) : Traced E (copyMirror src dst) := by
  have hsectors (n i : Nat) : Traced E (copySectors src dst n i) := by
    induction n generalizing i with
    | zero => exact traced_pure ()
    | succ n ih =>
      exact traced_read fun _ => (traced_devErase ..).bind fun _ => (traced_devRead ..).bind fun _ =>
        (traced_devWrite ..).bind fun _ => ih _
  exact traced_read fun _ => (hsectors ..).bind fun _ => traced_devSync

theorem traced_recoverMirror : Traced E recoverMirror := by
  have htoA : Traced E copyBtoA := traced_read fun _ => traced_copyMirror ..
  have htoB : Traced E copyAtoB := traced_read fun _ => traced_copyMirror ..
  exact traced_scan.bind fun (st, sa) => (traced_mirrorRegs _).bind fun _ =>
    match st with
    | .synced => traced_pure ()
    | .dirtyA => htoA.bind fun _ => traced_markAppend _
    | .dirtyB => htoB.bind fun _ => traced_markAppend _
    | .invalid => htoB.bind fun _ => traced_markReset _

theorem traced_threePhase {mutate : Nat → Proc Unit} (h : ∀ org, Traced E (mutate org)) :
    Traced E (threePhase mutate) :=
  (traced_markAppend _).bind fun _ => traced_read fun _ => (h _).bind fun _ => traced_devSync.bind fun _ =>
    (traced_markAppend _).bind fun _ => traced_read fun _ => (h _).bind fun _ => traced_devSync.bind fun _ =>
      traced_markAppend _

/-! ### START -/

/-- The geometry of a unit's START. -/
def geometryOf : UnitId → Proc Unit
  | .mirror => mirrorGeometry
  | .fee => feeGeometry

/-- A unit's START after its geometry. -/
def recoveryOf : UnitId → Proc Unit
  | .mirror => do
    devSync .mirror
    recoverMirror
    mirrorRegs [fun m => { m with recover := false }, fun m => { m with drv := .ready }]
  | .fee => do
    devSync .fee
    startCases
    feeRegs [fun f => { f with recover := false }, fun f => { f with drv := .ready }]

/-- START's procedure, for either unit. -/
theorem bodyOf_startOf (u : UnitId) (h : HostId) :
    bodyOf (startOf u h) = (do checkState (·.started u); changeDrv u .stop; geometryOf u; recoveryOf u) := by
  cases u <;> rfl

/-- Whether a unit's device and CFG pass START's checks (41_mirror.md R170, 42_fee.md R214). -/
def State.fits (s : State) : UnitId → Bool
  | .mirror => mirrorFits s.params s.devM.info s.opCfg
  | .fee => feeFits s.params s.devF.info

/-- The changes of the geometry registers that a START's checks let through. -/
def geometryRegsOf (u : UnitId) (s : State) : Proc Unit :=
  match u with
  | .mirror => mirrorRegs (s.m.withGeometry s.devM.info s.opCfg).geometryRegs
  | .fee => feeRegs (s.f.withGeometry s.params s.devF.info).geometryRegs

theorem geometryOf_apply (u : UnitId) (s : State) :
    geometryOf u s = (do require .config (s.fits u); geometryRegsOf u s : Proc Unit) s := by cases u <;> rfl

theorem traced_geometryRegsOf (u : UnitId) (s : State) : Traced E (geometryRegsOf u s) := by
  cases u
  · exact traced_mirrorRegs _
  · exact traced_feeRegs _

theorem traced_geometryOf (hE : .config ∈ E) (u : UnitId) : Traced E (geometryOf u) := ⟨fun {_ s} h => by
  rw [geometryOf_apply]
  exact ((traced_require hE _).bind fun _ => traced_geometryRegsOf u s).ends h⟩

/-- After its geometry a START raises no error but the device's. -/
theorem traced_recoveryOf (u : UnitId) : Traced E (recoveryOf u) := by
  cases u
  · exact traced_devSync.bind fun _ => traced_recoverMirror.bind fun _ => traced_mirrorRegs _
  · exact traced_devSync.bind fun _ => traced_startCases.bind fun _ => traced_feeRegs _

theorem traced_startOf (u : UnitId) (h : HostId) : Traced {.state, .config} (bodyOf (startOf u h)) := by
  rw [bodyOf_startOf]
  exact traced_checked (.inl rfl) ((traced_changeDrv ..).bind fun _ => (traced_geometryOf (.inr rfl) u).bind fun _ =>
    traced_recoveryOf u)

/-! ### The commands -/

/-- The errors that a command's procedure raises besides the device's (60_exceptions.md R303, R305 to R307). -/
def errorsOf : Instr → Set ErrCode
  | .mirrorInit _ | .feeInit _ => ∅
  | .mirrorStart _ | .feeStart _ => {.state, .config}
  | .mirrorRead _ | .feeRead _ | .feeWrite _ | .feeErase _ => {.state, .range}
  | .mirrorWrite _ | .mirrorErase _ => {.state, .range, .align}
  | .mirrorObjectInit _ | .mirrorStop _ | .mirrorMassErase _ | .mirrorSync _ | .mirrorGetInfo _ | .mirrorAcquireBus _
  | .mirrorReleaseBus _ | .feeObjectInit _ | .feeStop _ | .feeMassErase _ | .feeSync _ | .feeGetInfo _
  | .feeAcquireBus _ | .feeReleaseBus _ => {.state}

theorem traced_bodyOf (i : Instr) : Traced (errorsOf i) (bodyOf i) := by
  have only : ErrCode.state ∈ ({.state} : Set ErrCode) := rfl
  cases i
  case mirrorInit h => exact traced_pure ()
  case feeInit h => exact traced_pure ()
  case mirrorObjectInit h => exact traced_checked only (traced_read fun _ => traced_mirrorRegs _)
  case feeObjectInit h => exact traced_checked only (traced_read fun _ => traced_feeRegs _)
  case mirrorStart h => exact traced_startOf .mirror h
  case feeStart h => exact traced_startOf .fee h
  case mirrorStop h => exact traced_checked only (traced_changeDrv ..)
  case feeStop h => exact traced_checked only (traced_changeDrv ..)
  case mirrorRead h =>
    exact traced_checked (.inl rfl) (traced_read fun _ => (traced_require (.inr rfl) _).bind fun _ =>
      traced_ite (traced_pure ()) (traced_guardRead _ ((traced_devRead ..).bind fun _ => traced_bufStore _)))
  case feeRead h =>
    exact traced_checked (.inl rfl) (traced_read fun _ => (traced_require (.inr rfl) _).bind fun _ =>
      traced_ite (traced_pure ()) (traced_guardRead _ ((traced_readRange ..).bind fun _ => traced_bufStore _)))
  case mirrorWrite h =>
    exact traced_checked (.inl rfl) (traced_read fun _ => (traced_require (.inr (.inl rfl)) _).bind fun _ =>
      (traced_require (.inr (.inr rfl)) _).bind fun _ => traced_ite (traced_pure ())
        (traced_threePhase fun _ => (traced_bufLoad _).bind fun _ => traced_devWrite ..))
  case mirrorErase h =>
    exact traced_checked (.inl rfl) (traced_read fun _ => (traced_require (.inr (.inl rfl)) _).bind fun _ =>
      (traced_require (.inr (.inr rfl)) _).bind fun _ => traced_ite (traced_pure ())
        (traced_threePhase fun _ => traced_devErase ..))
  case feeWrite h =>
    exact traced_checked (.inl rfl) (traced_read fun _ => (traced_require (.inr rfl) _).bind fun _ =>
      traced_ite (traced_pure ()) ((traced_bufLoad _).bind fun _ => traced_writeRange ..))
  case feeErase h =>
    exact traced_checked (.inl rfl) (traced_read fun _ => (traced_require (.inr rfl) _).bind fun _ =>
      traced_ite (traced_pure ()) (traced_writeRange ..))
  case mirrorMassErase h =>
    exact traced_checked only (traced_read fun _ => traced_threePhase fun _ => traced_devErase ..)
  case feeMassErase h => exact traced_checked only traced_format
  case mirrorSync h => exact traced_checked only traced_devSync
  case feeSync h => exact traced_checked only traced_devSync
  case mirrorGetInfo h =>
    exact traced_checked only (traced_devGetInfo.bind fun _ => traced_read fun _ => traced_reportInfo ..)
  case feeGetInfo h =>
    exact traced_checked only (traced_devGetInfo.bind fun _ => traced_read fun _ => traced_reportInfo ..)
  case mirrorAcquireBus h => exact traced_checked only (traced_acquire only h)
  case feeAcquireBus h => exact traced_checked only (traced_acquire only h)
  case mirrorReleaseBus h => exact traced_checked only (traced_release only)
  case feeReleaseBus h => exact traced_checked only (traced_release only)

end Sys2Proof.Machine
end

