-- ==== Sys2Proof/Proofs/Errors.lean ====
section
/-! PROOF. ERR_ALIGN and ERR_CONFIG: where a command raises them, and that no other command ends with them
(60_exceptions.md R306, R307). -/

open Sys2Proof Sys2Proof.Machine

namespace Sys2Proof.Machine

variable {s t r : State} {i : Instr} {u : UnitId} {h : HostId} {e : ErrCode}

/-! ### From a command's code to its procedure's end -/

/-- A command's end: it completes from the state its last point leaves, or the power is lost there. -/
theorem finish_point (hf : finish e s = .next t) :
    (∃ r, point none s = .ok () r ∧ t = r.complete e) ∨ s.Restarted t := by
  have hends := point_ends id none s
  unfold finish at hf
  rcases point_cases none s with ⟨r, hp⟩ | ⟨f, r, hp⟩ | ⟨r, hp⟩ <;> rw [hp] at hf hends
  · cases hf
    exact .inl ⟨r, hp, rfl⟩
  · cases hf
  · cases hf
    rcases hends with ⟨f, hfault⟩ | ⟨-, -, hr⟩
    · cases hfault
    · exact .inr hr

theorem err_of_restarted (hr : s.Restarted t) : t.status.err = .ok := congrArg Status.err hr.status

/-- A command ends with a new code other than OK, ERR_LOCKED and the device's only where its procedure raises it. -/
theorem raised_of_err (hx : exec i s = .next t) (hs : s.status.err ≠ e) (ht : t.status.err = e) (hok : e ≠ .ok)
    (hlocked : e ≠ .locked) (hdev : e ≠ .dev) :
    ∃ r r', bodyOf i s = .error (.raised e) r ∧ point none r = .ok () r' ∧ t = r'.complete e := by
  have restarted {x : State} (hr : x.Restarted t) : False := hok (ht.symm.trans (err_of_restarted hr))
  rw [exec_eq_runCommand] at hx
  unfold runCommand at hx
  split at hx
  · rcases finish_point hx with ⟨r, -, rfl⟩ | hr
    · exact absurd ht.symm hlocked
    · exact (restarted hr).elim
  · rcases conclude_cases i.unit (setsRecover i) (bodyOf i s) with
      ⟨a, r, hb, hc⟩ | ⟨c, r, hb, hc⟩ | ⟨r, hb | hb, hc⟩ | ⟨f, r, hb, hc⟩ <;> rw [hc] at hx
    · rcases finish_point hx with ⟨r', -, rfl⟩ | hr
      · exact absurd ht.symm hok
      · exact (restarted hr).elim
    · rcases finish_point hx with ⟨r', hp, rfl⟩ | hr
      · have hce : c = e := ht
        subst hce
        rw [afterRaise_of_ne_dev hdev] at hp
        exact ⟨r, r', hb, hp, rfl⟩
      · exact (restarted hr).elim
    · cases hx
      exact (restarted (body_powerLost hb).2).elim
    · cases hx
      obtain ⟨-, hf⟩ := body_waiting hb
      exact absurd ((body_err hf).symm.trans ht) hs
    · cases hx

/-- A procedure raises the errors of its command, and the device's. -/
theorem mem_errorsOf_of_raised (hb : bodyOf i s = .error (.raised e) r) (hdev : e ≠ .dev) : e ∈ errorsOf i := by
  have hends := (traced_bodyOf i).ends (State.Lives.refl s)
  rw [hb] at hends
  obtain ⟨-, he | ⟨he, -⟩⟩ := hends
  · exact he
  · exact absurd he hdev

theorem align_not_mem_errorsOf (hu : i.unit = .fee) : .align ∉ errorsOf i := by
  cases i <;> cases hu <;> simp [errorsOf]

theorem startOf_of_config (he : .config ∈ errorsOf i) : ∃ u h, i = startOf u h := by
  cases i <;> simp [errorsOf] at he
  case mirrorStart h => exact ⟨.mirror, h, rfl⟩
  case feeStart h => exact ⟨.fee, h, rfl⟩

/-! ### START on a device that does not fit -/

theorem fits_setDrv (s : State) (u v : UnitId) (d : DrvState) : (s.setDrv u d).fits v = s.fits v := by
  cases u <;> rfl

theorem geometryOf_of_unfit (hfit : s.fits u = false) : geometryOf u s = .error (.raised .config) s := by
  rw [geometryOf_apply]
  exact refused_apply .config hfit _ s

/-- A START whose device does not fit raises ERR_CONFIG with DRV at STOP and no other change. -/
theorem bodyOf_startOf_of_unfit (hs : s.startable u h) (hq : s.uneventful = true) (hfit : s.fits u = false) :
    bodyOf (startOf u h) s = .error (.raised .config) (s.setDrv u .stop) := by
  have hfit' : (s.setDrv u .stop).fits u = false := (fits_setDrv ..).trans hfit
  rw [bodyOf_startOf, checked_apply, if_pos (started_of_startable hs)]
  exact (Proc.bind_ok (change_uneventful hq _) _).trans (Proc.bind_error (geometryOf_of_unfit hfit') _)

/-- From its geometry on a START raises ERR_CONFIG only where a check fails, and has done nothing then. -/
theorem config_of_geometry (hb : (do geometryOf u; recoveryOf u : Proc Unit) s = .error (.raised .config) t) :
    s.fits u = false ∧ t = s := by
  cases hfit : s.fits u with
  | false =>
    rw [Proc.bind_error (geometryOf_of_unfit hfit)] at hb
    cases hb
    exact ⟨rfl, rfl⟩
  | true =>
    have hregs : (do geometryOf u; recoveryOf u : Proc Unit) s = (do geometryRegsOf u s; recoveryOf u : Proc Unit) s := by
      rw [Proc.bind_apply, Proc.bind_apply, geometryOf_apply, required_apply .config hfit]
    have htraced : Traced ∅ (do geometryRegsOf u s; recoveryOf u : Proc Unit) :=
      (traced_geometryRegsOf u s).bind fun _ => traced_recoveryOf u
    have hends := htraced.ends (State.Lives.refl s)
    rw [← hregs, hb] at hends
    obtain ⟨-, he | ⟨he, -⟩⟩ := hends <;> cases he

/-- A procedure that first sets DRV raises an error only after it did. -/
theorem raised_of_changeDrv {d : DrvState} {f : Unit → Proc Unit}
    (hb : (changeDrv u d >>= f) s = .error (.raised e) t) :
    ∃ r, point none s = .ok () r ∧ f () (r.dropRegStep.setDrv u d) = .error (.raised e) t := by
  rw [Proc.bind_apply] at hb
  unfold changeDrv at hb
  rw [change_apply] at hb
  rcases point_cases none s with ⟨r, hp⟩ | ⟨x, r, hp⟩ | ⟨r, hp⟩ <;> rw [hp] at hb
  · exact ⟨r, hp, hb⟩
  · cases hb
  · cases hb

/-- No point changes a bank or a device. -/
theorem point_units {op : Option (UnitId × PendOp)} (hp : point op s = .ok () t) :
    t.m = s.m ∧ t.f = s.f ∧ t.devM = s.devM ∧ t.devF = s.devF ∧ t.fits u = s.fits u := by
  obtain ⟨heq, -, -⟩ := point_frame hp
  rw [heq]
  exact ⟨rfl, rfl, rfl, rfl, rfl⟩

theorem fits_dropRegStep (s : State) (u : UnitId) : s.dropRegStep.fits u = s.fits u := by rw [s.dropRegStep_frame]; rfl

/-- A START that raises ERR_CONFIG has a device that does not fit, and has changed DRV of its unit alone. -/
theorem unfit_of_config (hb : bodyOf (startOf u h) s = .error (.raised .config) t) :
    s.fits u = false ∧ t.m = (s.setDrv u .stop).m ∧ t.f = (s.setDrv u .stop).f ∧ t.devM = s.devM ∧ t.devF = s.devF := by
  rw [bodyOf_startOf, checked_apply] at hb
  split at hb
  · obtain ⟨r, hp, hr⟩ := raised_of_changeDrv hb
    obtain ⟨hm, hf, hdevM, hdevF, hfits⟩ := point_units (u := u) hp
    obtain ⟨hfit, rfl⟩ := config_of_geometry hr
    rw [fits_setDrv, fits_dropRegStep, hfits] at hfit
    cases u <;> simp [hfit, hm, hf, hdevM, hdevF]
  · cases hb

end Sys2Proof.Machine

namespace Sys2Proof.Proofs

/-- Settles O16: the alignment checks of the two Mirror commands, and the errors that FEE commands raise. -/
theorem misalignedMirrorIsRefused : Obligations.MisalignedMirrorIsRefused := by
  unfold Obligations.MisalignedMirrorIsRefused
  refine ⟨fun h s hs hq hin => ⟨fun hbuf hmis => ?_, fun hmis => ?_⟩, fun i s t hu hx hs ht => ?_⟩
  · obtain ⟨hadmits, -⟩ := id hs
    have hrange : (s.fitsBuf && s.mirrorInRange) = true :=
      Bool.and_eq_true_iff.2 ⟨decide_eq_true hbuf, decide_eq_true hin⟩
    exact exec_of_raised hadmits (by decide) (bodyOf_mirrorWrite_of_align hs hrange (opAligned_eq_false hmis)) hq
  · obtain ⟨hadmits, -⟩ := id hs
    exact exec_of_raised hadmits (by decide)
      (bodyOf_mirrorErase_of_align hs (decide_eq_true hin) (opAligned_eq_false hmis)) hq
  · obtain ⟨r, r', hb, -⟩ := raised_of_err hx hs ht (by decide) (by decide) (by decide)
    exact align_not_mem_errorsOf hu (mem_errorsOf_of_raised hb (by decide))

/-- Settles O17: START checks the geometry before it writes it, and no other command raises ERR_CONFIG. -/
theorem unfitDeviceIsRefused : Obligations.UnfitDeviceIsRefused := by
  unfold Obligations.UnfitDeviceIsRefused
  refine ⟨fun h s hs hq hfit => ?_, fun h s hs hq hfit => ?_, fun i s t hx hs ht => ?_⟩
  · obtain ⟨hadmits, -⟩ := id hs
    exact exec_of_raised hadmits (by decide) (bodyOf_startOf_of_unfit hs hq hfit) (uneventful_of_eq hq rfl)
  · obtain ⟨hadmits, -⟩ := id hs
    exact exec_of_raised hadmits (by decide) (bodyOf_startOf_of_unfit hs hq hfit) (uneventful_of_eq hq rfl)
  · obtain ⟨r, r', hb, hp, rfl⟩ := raised_of_err hx hs ht (by decide) (by decide) (by decide)
    obtain ⟨u, h, rfl⟩ := startOf_of_config (mem_errorsOf_of_raised hb (by decide))
    obtain ⟨hfit, hm, hf, hdevM, hdevF⟩ := unfit_of_config hb
    obtain ⟨hm', hf', hdevM', hdevF', -⟩ := point_units (u := u) hp
    cases u with
    | mirror => exact .inl ⟨h, rfl, hfit, hm'.trans hm, hdevM'.trans hdevM⟩
    | fee => exact .inr ⟨h, rfl, hfit, hf'.trans hf, hdevF'.trans hdevF⟩

end Sys2Proof.Proofs
end

