-- ==== Sys2Proof/Proofs/PowerLoss.lean ====
section
/-! PROOF. A power loss, idle, while an ACQUIRE_BUS waits, at a point of a command and in flight, and the ends of a
command (60_exceptions.md R312; 70_reset_and_hazards.md R340, R341). -/

open Sys2Proof Sys2Proof.Machine

namespace Sys2Proof.Machine

variable {s t r : State} {i : Instr} {u : UnitId} {h : HostId} {e : ErrCode} {c : PowerCut} {rest : List Input}

/-! ### Where a power loss strikes -/

/-- A power loss with nothing in flight is one between the operations. -/
theorem cutPower_of_not_inFlight (hc : c.inFlight = false) (s : State) (op : Option (UnitId × PendOp)) :
    s.cutPower op c = s.powerLoss c := by
  unfold State.cutPower
  rw [hc]
  split
  · next hf => cases hf
  · rfl

/-- A power loss that strikes at a point, with no fault of the operation in flight. -/
theorem point_powerLoss {op : Option (UnitId × PendOp)} (hi : s.inputs = .busy (.powerLoss c) :: rest)
    (hf : (c.inFlight && s.overwriteFault op) = false) :
    point op s = .error .powerLost (State.cutPower { s with inputs := rest } op c) := by
  show takeEvents op s.inputs s = _
  rw [hi, takeEvents.eq_def]
  exact if_neg (by rw [hf]; decide)

/-- As `point_powerLoss`, with nothing in flight. -/
theorem point_powerLoss_quietly (hi : s.inputs = .busy (.powerLoss c) :: rest) (hc : c.inFlight = false)
    (op : Option (UnitId × PendOp)) :
    point op s = .error .powerLost (State.powerLoss { s with inputs := rest } c) := by
  rw [point_powerLoss hi (by rw [hc]; rfl), cutPower_of_not_inFlight hc]

/-- A power loss while no command runs is the whole step (60_exceptions.md R312). -/
theorem step_powerLoss (hw : s.waiting = none) (hi : s.inputs = .idle (.powerLoss c) :: rest) :
    step s = .next (State.powerLoss { s with inputs := rest } c) := by
  unfold step fetch
  rw [hw, hi]
  rfl

/-- A power loss while an ACQUIRE_BUS waits has no operation in flight. -/
theorem step_powerLoss_of_waiting (hw : s.waiting = some (u, h)) (hi : s.inputs = .busy (.powerLoss c) :: rest) :
    step s = .next (State.powerLoss { s with inputs := rest } c) := by
  have hpoint : point none s = .error .powerLost (State.powerLoss { s with inputs := rest } c) :=
    point_powerLoss hi (Bool.and_false _)
  rw [step_of_waiting hw, acquireFresh, Proc.bind_error hpoint]
  rfl

/-! ### A power loss at a command's first point -/

/-- RECOVER is a register that a power loss resets. -/
theorem State.Lives.afterRaise (hl : s.Lives r) (u : UnitId) (mu : Bool) (e : ErrCode) : s.Lives (r.afterRaise u mu e) := by
  unfold State.afterRaise
  split
  · exact hl.hidden (by cases u <;> rfl) fun _ => by cases u <;> rfl
  · exact hl

/-- Until a first point the power loss leaves what it leaves of the command's start, whatever comes after it. -/
theorem State.Lives.powerLoss_eq (hl : s.Lives r) (hs : s.Struck) (c : PowerCut) (l : List Input) :
    State.powerLoss { r with inputs := l } c = State.powerLoss { s with inputs := l } c :=
  congrArg (fun x : State => { x with inputs := l }) (hl.struck hs c)

section struck
variable (hi : s.inputs = .busy (.powerLoss c) :: rest) (hc : c.inFlight = false)
include hi hc

/-- A completion that the power loss comes before. -/
theorem finish_struck (hl : s.Lives r) (hf : finish e r = .next t) :
    t = State.powerLoss { s with inputs := rest } c := by
  have hstruck : s.Struck := ⟨c, rest, hi⟩
  unfold finish at hf
  rw [point_powerLoss_quietly ((hl.inputs hstruck).trans hi) hc] at hf
  cases hf
  exact hl.powerLoss_eq hstruck c rest

theorem lost_struck (hl : s.Lost t) : t = State.powerLoss { s with inputs := rest } c := by
  have hstruck : s.Struck := ⟨c, rest, hi⟩
  obtain ⟨x, op, c', rest', hx, hxi, rfl⟩ := hl
  rw [hx.inputs hstruck, hi] at hxi
  cases hxi
  rw [cutPower_of_not_inFlight hc]
  exact hx.powerLoss_eq hstruck c rest

/-- A command whose first point the power loss strikes at has done nothing. -/
theorem exec_struck (hx : exec i s = .next t) : t = State.powerLoss { s with inputs := rest } c := by
  have hends := (traced_bodyOf i).ends (State.Lives.refl s)
  rw [exec_eq_runCommand] at hx
  unfold runCommand at hx
  split at hx
  · exact finish_struck hi hc (.refl s) hx
  · rcases conclude_cases i.unit (setsRecover i) (bodyOf i s) with
      ⟨a, r, hb, hn⟩ | ⟨e, r, hb, hn⟩ | ⟨r, hb | hb, hn⟩ | ⟨f, r, hb, hn⟩ <;> rw [hn] at hx <;> rw [hb] at hends
    · exact finish_struck hi hc hends hx
    · obtain ⟨hl, -⟩ := hends
      exact finish_struck hi hc (hl.afterRaise ..) hx
    · cases hx
      exact lost_struck hi hc hends
    · exact absurd ⟨c, rest, hi⟩ hends
    · cases hx

end struck

/-! ### The ends of a command -/

/-- A command's end completes it, or the power is lost just before. -/
theorem finish_lost (hl : s.Lives r) (hf : finish e r = .next t) : (∃ r' : State, t = r'.complete e) ∨ s.Lost t := by
  have hends := (traced_point (E := ∅) none).ends hl
  unfold finish at hf
  rcases point_cases none r with ⟨r', hp⟩ | ⟨f, r', hp⟩ | ⟨r', hp⟩ <;> rw [hp] at hf hends <;> cases hf
  · exact .inl ⟨r', rfl⟩
  · exact .inr hends

/-- An ACQUIRE_BUS that ends waiting is the one that waits. -/
theorem waiting_of_acquireOf (hb : bodyOf (acquireOf u h) s = .error .waiting t) : t.waiting = some (u, h) := by
  have hbody : (do checkState (·.started u); acquire u h : Proc Unit) s = .error .waiting t := by cases u <;> exact hb
  rw [checked_apply, acquire_apply] at hbody
  split at hbody
  · split at hbody
    · have hends := acquireFresh_ends u h s
      rw [hbody] at hends
      obtain ⟨-, -, hw⟩ := hends.resolve_left Interrupted.not_waiting
      exact hw
    · split at hbody
      · cases hbody
      · have hends := change_ends (fun s => s.setLock u { s.lock u with count := (s.lock u).count + 1 }) s
        rw [hbody] at hends
        exact absurd hends Interrupted.not_waiting
  · cases hbody

theorem unit_acquireOf (u : UnitId) (h : HostId) : (acquireOf u h).unit = u ∧ (acquireOf u h).hid = h := by
  cases u <;> exact ⟨rfl, rfl⟩

/-- Every command completes, waits for its device, or ends by a power loss. -/
theorem completes_or_waits_or_lost (hx : exec i s = .next t) :
    (t.status.busy = false ∧ t.status.done = true)
      ∨ (t.waiting = some (i.unit, i.hid) ∧ i = acquireOf i.unit i.hid) ∨ s.Lost t := by
  have finished {r : State} {e : ErrCode} (hl : s.Lives r) (hf : finish e r = .next t) :
      (t.status.busy = false ∧ t.status.done = true)
        ∨ (t.waiting = some (i.unit, i.hid) ∧ i = acquireOf i.unit i.hid) ∨ s.Lost t := by
    rcases finish_lost hl hf with ⟨r', rfl⟩ | hlost
    · exact .inl ⟨rfl, rfl⟩
    · exact .inr (.inr hlost)
  have hends := (traced_bodyOf i).ends (State.Lives.refl s)
  rw [exec_eq_runCommand] at hx
  unfold runCommand at hx
  split at hx
  · exact finished (.refl s) hx
  · rcases conclude_cases i.unit (setsRecover i) (bodyOf i s) with
      ⟨a, r, hb, hn⟩ | ⟨e, r, hb, hn⟩ | ⟨r, hb | hb, hn⟩ | ⟨f, r, hb, hn⟩ <;> rw [hn] at hx
    · rw [hb] at hends
      exact finished hends hx
    · rw [hb] at hends
      obtain ⟨hl, -⟩ := hends
      exact finished (hl.afterRaise ..) hx
    · rw [hb] at hends
      cases hx
      exact .inr (.inr hends)
    · cases hx
      obtain ⟨⟨u, h, rfl⟩, -⟩ := body_waiting hb
      obtain ⟨hu, hh⟩ := unit_acquireOf u h
      rw [hu, hh]
      exact .inr (.inl ⟨waiting_of_acquireOf hb, rfl⟩)
    · cases hx

/-! ### What a power loss leaves -/

/-- The state after a power loss, by its registers: all at their reset values, each device settled. -/
theorem powerLoss_form (hl : r.lasting = s.lasting) (c : PowerCut) :
    r.powerLoss c = { State.reset with
      params := s.params
      devM := { (r.powerLoss c).devM with
        info := s.devM.info, dur := (r.powerLoss c).devM.cur, pending := [], owned := false }
      devF := { (r.powerLoss c).devF with
        info := s.devF.info, dur := (r.powerLoss c).devF.cur, pending := [], owned := false }
      bufEpoch := s.bufEpoch + 1
      inputs := (r.powerLoss c).inputs
      tail := s.tail
      draws := (r.powerLoss c).draws
      replies := (r.powerLoss c).replies
      forgers := s.forgers } := by
  simp only [State.lasting, Prod.mk.injEq] at hl
  obtain ⟨hparams, hm, hf, hepoch, htail, hforgers⟩ := hl
  rw [← hparams, ← hm, ← hf, ← hepoch, ← htail, ← hforgers]
  rfl

/-- An operation in flight only joins PENDING before the power is lost. -/
theorem exists_powerLoss_of_lost (hl : s.Lost t) :
    ∃ (r : State) (c : PowerCut), r.lasting = s.lasting ∧ t = r.powerLoss c := by
  obtain ⟨x, op, c, rest, hx, -, rfl⟩ := hl
  unfold State.cutPower
  split
  · next u o _ =>
    refine ⟨_, c, ?_, rfl⟩
    cases u <;> exact hx.lasting
  · exact ⟨{ x with inputs := rest }, c, hx.lasting, rfl⟩

end Sys2Proof.Machine

namespace Sys2Proof.Proofs

/-- Settles O53: what `State.powerLoss` does, that it is all that happens where it strikes first, and how commands end. -/
theorem powerLossResetsTheBlock : Obligations.PowerLossResetsTheBlock := by
  unfold Obligations.PowerLossResetsTheBlock
  refine ⟨fun s c rest => ⟨fun hw hi => step_powerLoss hw hi, fun u h hw hi => step_powerLoss_of_waiting hw hi,
    fun op hi hf => (point_powerLoss hi hf).trans (congrArg _ ?_), fun i t hi hc hx => exec_struck hi hc hx⟩,
    fun i s t hx => ?_⟩
  · obtain ⟨inFlight, -, -⟩ := c
    match inFlight, op with
    | true, some (.mirror, o) => rfl
    | true, some (.fee, o) => rfl
    | true, none => rfl
    | false, some (u, o) => rfl
    | false, none => rfl
  · rcases completes_or_waits_or_lost hx with hdone | hwaits | hlost
    · exact .inl hdone
    · exact .inr (.inl hwaits)
    · obtain ⟨r, c, hr, rfl⟩ := exists_powerLoss_of_lost hlost
      exact .inr (.inr (powerLoss_form hr c))

end Sys2Proof.Proofs
end

