-- ==== Sys2Proof/Proofs/Reset.lean ====
section
/-! PROOF. The machine right after reset meets what every step keeps: nothing is stored, both locks are free, no command
waits and no unit is READY (70_reset_and_hazards.md R341). -/

open Sys2Proof Sys2Proof.Machine

namespace Sys2Proof.Machine

variable {s : State}

theorem reset_params_wf : State.reset.params.wf = true := by decide

theorem reset_memoryCanonical : State.reset.memoryCanonical = true := by
  obtain ⟨hcurM, hdurM, hcurF, hdurF, hbuf⟩ := reset_memory_wf
  exact (memoryCanonical_iff _).2 ⟨⟨hcurM, hdurM⟩, ⟨hcurF, hdurF⟩, hbuf⟩

/-- Two free locks are legal where nobody waits and the block owns no device (44_dispatch_and_lock.md R277, R280). -/
theorem locksLegal_of_free (hp : s.params.wf = true) (hl : ∀ u, s.lock u = .reset) (ho : ∀ u, (s.dev u).owned = false)
    (hw : s.waiting = none) : s.locksLegal := by
  refine (locksLegal_iff s).2 ⟨hp, fun u => ?_, fun u h hwaits => ?_⟩
  · rw [hl u, ho u]
    exact Lock.legal_free hp
  · rw [hw] at hwaits
    cases hwaits

theorem busyLegal_of_idle (hb : s.status.busy = false) (hw : s.waiting = none) : s.busyLegal := by
  unfold State.busyLegal
  rw [hb, hw]
  rfl

theorem synced_of_not_ready (h : s.m.drv ≠ .ready) : s.mirrorReadyMeansSynced := fun hr => absurd hr h

theorem readyLaidOut_of_not_ready (hp : s.params.wf = true) (hm : s.m.drv ≠ .ready) (hf : s.f.drv ≠ .ready) :
    s.readyLaidOut :=
  ⟨hp, fun hr => absurd hr hm, fun hr => absurd hr hf⟩

end Sys2Proof.Machine

namespace Sys2Proof.Proofs

/-- Settles O44: each invariant from what the reset values say of the registers it reads. -/
theorem resetMeetsTheInvariants : Obligations.ResetMeetsTheInvariants := by
  unfold Obligations.ResetMeetsTheInvariants
  have hmirror : State.reset.m.drv ≠ .ready := nofun
  have hfee : State.reset.f.drv ≠ .ready := nofun
  have hlock (u : UnitId) : State.reset.lock u = .reset := by cases u <;> rfl
  have howned (u : UnitId) : (State.reset.dev u).owned = false := by cases u <;> rfl
  exact ⟨reset_memoryCanonical, locksLegal_of_free reset_params_wf hlock howned rfl, busyLegal_of_idle rfl rfl,
    synced_of_not_ready hmirror, readyLaidOut_of_not_ready reset_params_wf hmirror hfee,
    slotsLegal_of_reset reset_params_wf rfl rfl⟩

end Sys2Proof.Proofs
end
